-- ==== Sys2Proof/Word.lean ====
section
/-! DEFINITION. The word types of the block: 00_scope R5 (`DATA_BITS` 8, `ADDR_BITS` 16), R9. -/

namespace Sys2Proof

/-- An 8-bit datum, latch byte or single register (R10, Widths). -/
abbrev Byte := BitVec 8

/-- A 16-bit memory address, port address or register pair (R10, Widths). -/
abbrev Word := BitVec 16

end Sys2Proof
end

