-- ==== Sys2Proof/Machine/Bits.lean ====
section
/-! DEFINITION. Bit fields, byte order and address fields: 00_scope R9, R10; 20_memory R61, R66, R68. -/

namespace Sys2Proof.Machine

/-- `v[7:0]` of a 16-bit value (R9). -/
def loByte (v : Word) : Byte := v.extractLsb' 0 8

/-- `v[15:8]` of a 16-bit value (R9). -/
def hiByte (v : Word) : Byte := v.extractLsb' 8 8

/-- `(hi << 8) | lo`: the little-endian composition of R66. -/
def wordOf (hi lo : Byte) : Word := hi ++ lo

/-- `Win(addr) = addr[15:14]` (R10, R61). -/
def win (addr : Word) : Fin 4 := Fin.ofNat 4 (addr >>> 14).toNat

/-- `Off(addr) = addr[13:0]` (R10, R61). -/
def off (addr : Word) : BitVec 14 := addr.extractLsb' 0 14

/-- One bit as a byte, 0 or 1. -/
def bitByte (b : Bool) : Byte := if b then 1 else 0

/-- Bit `k` of a byte as a Boolean (`x[i]` of R9). -/
def bit (v : Byte) (k : Nat) : Bool := v.getLsbD k

end Sys2Proof.Machine
end

