-- ==== Sys2Proof/Machine/Types.lean ====
section
/-! DEFINITION. The named things of the block: architectures, agents, pages, decode rows, registers, cheat records,
events and answers. -/

namespace Sys2Proof.Machine

/-- The five architecture classes (R2, R39). -/
inductive Arch where
  | spec48 | spec128 | plus2A | pentagon | tk
  deriving DecidableEq, Repr, Inhabited

/-- The agents of R8. -/
inductive Agent where
  | cpu | snap | cheat | host
  deriving DecidableEq, Repr

/-- The interrupt mode `IM`, values 0, 1, 2 (R13). -/
inductive IntMode where
  | im0 | im1 | im2
  deriving DecidableEq, Repr, Inhabited

/-- The CPU register file (R13); `a2 f2 bc2 de2 hl2` are the primed bank (R15). -/
structure Regs where
  a : Byte
  f : Byte
  bc : Word
  de : Word
  hl : Word
  a2 : Byte
  f2 : Byte
  bc2 : Word
  de2 : Word
  hl2 : Word
  ix : Word
  iy : Word
  sp : Word
  pc : Word
  i : Byte
  r : Byte
  iff1 : Bool
  iff2 : Bool
  im : IntMode
  deriving DecidableEq, Repr, Inhabited

/-- A page identity: `ram[b]`, `b` in 0..7, or `rom[r]`, `r` in 0..4 (R32). -/
inductive Page where
  | ram (b : BitVec 3)
  | rom (r : Fin 5)
  deriving DecidableEq, Repr

/-- The paging latches (R40 to R47). -/
structure Latches where
  bankLatch : BitVec 3
  videoLatch : Bool
  romLatch : BitVec 2
  pagingLock : Bool
  pagingmode2A3 : Bool
  specialCfg2A3 : BitVec 2
  trdosPaged : Bool
  deriving DecidableEq, Repr

/-- The derived mapping state `Remap()` computes (R32, R34, R36, R43). -/
structure WindowMap where
  romInUse : Fin 5
  ramCurrent : Vector Page 4
  ramContended : Vector Bool 4
  grmem : Page
  deriving DecidableEq, Repr

/-- The opaque AY image (R51). -/
structure Ay where
  sel : Byte
  reg : Vector Byte 16
  deriving DecidableEq, Repr

/-- A `Cheat` record (R335). -/
structure Cheat where
  nameOffset : Nat
  pokeStartIdx : Nat
  pokeCount : Nat
  enabled : Bool
  inputCount : Nat
  deriving DecidableEq, Repr, Inhabited

/-- A `Poke` record (R336). -/
structure Poke where
  bank : BitVec 4
  address : Word
  value : Byte
  original : Byte
  isInput : Bool
  origMem : Bool
  origFile : Bool
  deriving DecidableEq, Repr, Inhabited

/-- The variables of `FillPass` that live from one line to the next (R340): the open cheat and the byte offset of the
next line. -/
structure Fill where
  cur : Option Cheat
  off : Nat
  deriving DecidableEq, Repr

/-- The Beta-disk registers of R166. -/
inductive TrdosReg where
  | status | track | sector | data | system
  deriving DecidableEq, Repr

/-- The mouse axes of R167. -/
inductive MouseAxis where
  | x | y | buttons
  deriving DecidableEq, Repr

/-- The two AY ports (R196, R197). -/
inductive AyPart where
  | select | data
  deriving DecidableEq, Repr

/-- The input decode rows of R99. -/
inductive InRow where
  | ula
  | trdos (r : TrdosReg)
  | mouse (a : MouseAxis)
  | kempston
  | fuller
  | ay
  | page7
  | floatBus
  deriving DecidableEq, Repr

/-- The output decode rows of R100. -/
inductive OutRow where
  | ula
  | ayZx81
  | fullerSel
  | fullerDat
  | aySel
  | ayDat
  | covox
  | trdos (r : TrdosReg)
  | page7
  | page7Plus2A
  | page1Plus2A
  deriving DecidableEq, Repr

/-- The five SNA variants of R251. -/
inductive SnaVariant where
  | s48 | s128a | s128b | s2A3a | s2A3b
  deriving DecidableEq, Repr

/-- The Z80-file versions of R281. -/
inductive Z80Ver where
  | v1 | v2 | v3
  deriving DecidableEq, Repr

/-- The kinds of encoded input of 30_encoding: which decode table an item is read by. `record` is format T (R90); the
others are the PA rows, the data-byte formats and the file formats of opcode_table.json, which the spec gives no common
serialisation: the channel names the row (DESIGN CHOICE, log 3). -/
inductive Channel where
  | record
  | portIn (r : InRow)
  | portOut (r : OutRow)
  | dataPd7
  | dataPd1
  | dataPdu
  | snaFile
  | z80File
  | z80Block
  | z80Tail
  | rle
  | spFile
  | pokLine
  deriving DecidableEq, Repr

/-- Events the engine emits (R55). -/
inductive Event where
  | borderChange (tick : Nat) (colour : BitVec 3)
  | beeper (tick : Nat) (speaker tapeOut : Bool)
  | ayWrite (part : AyPart) (v : Byte)
  | covoxWrite (channel : Nat) (v : Byte)
  | trdosWrite (reg : TrdosReg) (v : Byte)
  deriving DecidableEq, Repr

/-- The reasons of `SnapshotLoadFailure`, codes 2 to 7 of R361. -/
inductive LoadFailure where
  | badSize | badSignature | unknownVersion | unknownMachine | badField | truncated
  deriving DecidableEq, Repr

/-- What a transaction or a command returns (R121; R362 "a boolean success/failure"; R262, R300 a byte string). -/
inductive Answer where
  | none
  | byte (v : Byte)
  | word (v : Word)
  | loaded
  | failure (r : LoadFailure)
  | bytes (f : List Byte)
  deriving DecidableEq, Repr

/-- A transaction of the dispatch contract as the CPU issues it (R121). -/
inductive BusOp where
  | rdb (addr : Word)
  | wrb (addr : Word) (v : Byte)
  | rdw (addr : Word)
  | wrw (addr : Word) (v : Word)
  | inp (port : Word)
  | outp (port : Word) (v : Byte)
  | tick (n : Nat)
  deriving DecidableEq, Repr

/-- What `CpuStep` answers (R123): the next transaction, or the step ends with a new register file. -/
inductive CpuMove where
  | transact (op : BusOp)
  | ends (r : Regs)
  deriving DecidableEq, Repr, Inhabited

/-- A CPU step as a whole (R123): it ends with a new register file, or asks for a transaction and goes on with what that
answers. An element of this type is a well-founded tree, so every step ends after finitely many transactions (R122). -/
inductive CpuProgram where
  | ends (r : Regs)
  | transact (op : BusOp) (next : Answer → CpuProgram)
  deriving Inhabited

/-- The `HOST` agent's writes between CPU steps (R49, R341, R397, R47) and the operands and answers it supplies. Of the two
cheat arrays it writes the enabled flags and the values of input pokes, and nothing else (R341). -/
inductive HostAct where
  /-- `port[i] <- v` (R49, R397). -/
  | setPort (i : Fin 128) (v : Byte)
  /-- `trdosPaged <- b` (R47). -/
  | setTrdos (b : Bool)
  /-- `cheats[i].enabled <- b` (R341). -/
  | enableCheat (i : Nat) (b : Bool)
  /-- `pokes[j].value <- v` for an input poke (R341). -/
  | pokeValue (j : Nat) (v : Byte)
  /-- The operand file of the next command, or absent (R91, R337). -/
  | present (f : Option (List Byte))
  /-- Answers for the next oracle queries (R56, R397). -/
  | answerOracle (bs : List Byte)
  deriving DecidableEq, Repr

/-- One step of the environment's list (R130). -/
inductive AgendaItem where
  /-- An encoded item of the given channel: a transaction or a command. -/
  | issue (ch : Channel) (bytes : List Byte)
  /-- A CPU step of the external interpreter begins (R122). -/
  | cpuStep
  /-- A `HOST` write. -/
  | host (a : HostAct)
  /-- The `CHEAT` agent meets the end of a `.pok` file whose lines were issued one by one: `Flush()` (R340; log 23). -/
  | pokEnd
  deriving DecidableEq, Repr

end Sys2Proof.Machine
end

