-- ==== Sys2Proof/Machine/Files.lean ====
section
/-! DEFINITION. Reading byte strings (`File[i]`, `LE16(i)` of R10) and telling the variants of the file formats apart
(R101, R112, R251, R281, R320). -/

namespace Sys2Proof.Machine

/-- `File[i]`, 0-based (R10). Every use is within the length its rule has checked. -/
def fileByte (f : List Byte) (i : Nat) : Byte := f.getD i 0

/-- `LE16(i)` (R10). -/
def le16 (f : List Byte) (i : Nat) : Word := wordOf (fileByte f (i + 1)) (fileByte f i)

/-- `File[i .. i + n - 1]` (R10). -/
def slice (f : List Byte) (i n : Nat) : List Byte := (f.drop i).take n

/-- A 16-bit value low byte first (R68). -/
def le16Bytes (v : Word) : List Byte := [loByte v, hiByte v]

/-- The size of each SNA variant (R251). -/
def SnaVariant.size : SnaVariant → Nat
  | .s48 => 49179
  | .s128a => 131103
  | .s128b => 147487
  | .s2A3a => 131121
  | .s2A3b => 147505

/-- `SnaVariant(N)`, `none` where it raises `badSize` (R251). -/
def snaVariant (n : Nat) : Option SnaVariant :=
  if n = 49179 then some .s48
  else if n = 131103 then some .s128a
  else if n = 147487 then some .s128b
  else if n = 131121 then some .s2A3a
  else if n = 147505 then some .s2A3b
  else none

/-- `L`, the additional-header length of a Z80 file (R281, R285). -/
def z80ExtLen (f : List Byte) : Nat := (le16 f 30).toNat

/-- `Z80Version()` (R281). -/
def z80Version (f : List Byte) : Except LoadFailure Z80Ver :=
  if le16 f 6 ≠ 0 then .ok .v1
  else if f.length < 32 then .error .badSize
  else if z80ExtLen f = 23 then .ok .v2
  else if z80ExtLen f = 54 ∨ z80ExtLen f = 55 then .ok .v3
  else .error .unknownVersion

/-- The number of data bytes a Z80 memory block's length field announces: 0xFFFF means 16384 raw bytes (R115, R289). -/
def blockDataLen (len : Word) : Nat := if len = 0xFFFF then 16384 else len.toNat

/-- The terminator of a compressed v1 body (R284). -/
def z80Terminator : List Byte := [0x00, 0xED, 0xED, 0x00]

/-- The byte string ends in the terminator (R284). -/
def endsInTerminator (f : List Byte) : Bool := f.drop (f.length - 4) == z80Terminator

/-- The byte string without its last four bytes (R284). -/
def withoutTail (f : List Byte) : List Byte := f.take (f.length - 4)

/-- The checks of `LOAD_SP` in their order; the value is `hasRom` (R320). -/
def spKind (f : List Byte) : Except LoadFailure Bool :=
  if f.length < 38 then .error .badSize
  else if fileByte f 0 ≠ 0x53 ∨ fileByte f 1 ≠ 0x50 then .error .badSignature
  else if le16 f 2 = 49152 ∧ le16 f 4 = 16384 then
    (if f.length = 49190 then .ok false else .error .badSize)
  else if le16 f 2 = 0 ∧ le16 f 4 = 0 then
    (if f.length = 65574 then .ok true else .error .badSize)
  else .error .badField

/-- The line end of a `.pok` text (R350). -/
def newline : Byte := 0x0A

end Sys2Proof.Machine
end

