-- ==== Sys2Proof/Machine/Tables.lean ====
section
/-! DEFINITION. Tables by architecture, and the machine codes of the Z80 file format with the one requirement that binds
them (R288, R301). -/

namespace Sys2Proof

open Machine

/-- A value for each architecture. -/
structure PerArch (α : Type) where
  spec48 : α
  spec128 : α
  plus2A : α
  pentagon : α
  tk : α
  deriving DecidableEq, Repr

/-- One entry of `Z80MachineMap` (R288). -/
structure MachineRow where
  ver : Nat
  code : Byte
  arch : Arch
  deriving DecidableEq, Repr

end Sys2Proof

namespace Sys2Proof.Machine

/-- The entry of an architecture. -/
def pick {α : Type} (p : PerArch α) : Arch → α
  | .spec48 => p.spec48
  | .spec128 => p.spec128
  | .plus2A => p.plus2A
  | .pentagon => p.pentagon
  | .tk => p.tk

/-- The memory class of an architecture: Spec48 and TK page nothing (R202), the others are 128K-class (R54). -/
def Arch.is48 : Arch → Bool
  | .spec48 | .tk => true
  | .spec128 | .plus2A | .pentagon => false

/-- The architecture of a version and a code, `none` for unknown (R288). -/
def machineOf (rows : List MachineRow) (ver : Nat) (code : Byte) : Option Arch :=
  (rows.find? (fun e => e.ver == ver && e.code == code)).map (·.arch)

/-- The requirement of R301 for one architecture: the code saved for it names, in version 3, a machine of its memory
class. -/
def saveCodeFits (rows : List MachineRow) (a : Arch) (code : Byte) : Bool :=
  match machineOf rows 3 code with
  | some m => m.is48 == a.is48
  | none => false

/-- `Z80SaveMachineCode` meets the requirement of R301 on every architecture. -/
def saveCodesFit (rows : List MachineRow) (codes : PerArch Byte) : Bool :=
  saveCodeFits rows .spec48 codes.spec48 && saveCodeFits rows .spec128 codes.spec128 &&
    saveCodeFits rows .plus2A codes.plus2A && saveCodeFits rows .pentagon codes.pentagon && saveCodeFits rows .tk codes.tk

end Sys2Proof.Machine
end

