-- ==== Sys2Proof/Config.lean ====
section
/-! DEFINITION. The configuration record `cfg` (R5, R6) as plain data, and the opaque constants: parameters the spec
leaves open without a default, and the free values. Nothing in Lean can evaluate an opaque constant: a statement that
mentions one holds for every value of it. -/

namespace Sys2Proof

open Machine

/-- `cfg.joystick` (R6, R169). -/
inductive Joystick where
  | none | kempston | fuller
  deriving DecidableEq, Repr

/-- `covoxMode` (R6, R199). -/
inductive CovoxMode where
  | none | mono | stereo | sounddrive1 | sounddrive2
  deriving DecidableEq, Repr

/-- `SnaPrefers` (R6, R252): Spec128 or Pentagon. -/
inductive SnaPref where
  | spec128 | pentagon
  deriving DecidableEq, Repr

/-- A modulus, held as one less than itself: never zero (R128). -/
structure Modulus where
  pred : Nat
  deriving DecidableEq, Repr

/-- `FIRST`, `none` where no line is displayed, and `LINE` of R239. -/
structure Display where
  first : Option Nat
  line : Modulus
  deriving DecidableEq, Repr

/-- `ContentionDelay(arch, ·)` over the frame position (R231): the pattern form of R239, a table of the whole frame
(every periodic function is one), or left open. -/
inductive DelayRule where
  | pattern (p : List Nat)
  | table (l : List Nat)
  | unfixed
  deriving DecidableEq, Repr

/-- `FloatBusAddr(arch, ·)` over the frame position (R237): a table of the positions that fetch, the shape of R238 with
the phase log 42 names (a table holds any other phase), or left open. -/
inductive FloatRule where
  | table (l : List (Nat × Nat))
  | ulaFetch
  | unfixed
  deriving DecidableEq, Repr

/-- `TkLateCost` over `t mod TK_LINE_LENGTH` (R235): a table, or left open. -/
inductive TkLate where
  | table (l : List Nat)
  | unfixed
  deriving DecidableEq, Repr

/-- One address-mask pattern of `CovoxDecode` (R199). -/
structure CovoxRow where
  mode : CovoxMode
  mask : Word
  value : Word
  channel : Nat
  deriving DecidableEq, Repr

/-- The configuration record (R5, R6). It is fixed for a run: no operation writes it. Its last field holds the record to the
requirement R301 binds `Z80SaveMachineCode` with. -/
structure Cfg where
  issue2 : Bool
  turbo : Bool
  mouse : Bool
  ayPresent : Bool
  ayZx81 : Bool
  ayFuller : Bool
  allocOk : Bool
  joystick : Joystick
  covoxMode : CovoxMode
  snaPrefers : SnaPref
  ayZx81Sel : Byte
  ayZx81Dat : Byte
  covox : Option (List CovoxRow)
  memTicks : Nat
  contendedBanks : PerArch Byte
  frame : PerArch Modulus
  display : PerArch Display
  delay : PerArch DelayRule
  tkLineLength : Modulus
  tkLate : TkLate
  floatBus : PerArch FloatRule
  z80Machines : List MachineRow
  z80Pages48 : List (Byte × BitVec 3)
  z80Pages128 : List (Byte × BitVec 3)
  z80SaveCode : PerArch Byte
  saveCodes : saveCodesFit z80Machines z80SaveCode = true
  deriving DecidableEq, Repr

/-- `RomImage(i)` byte `off` on an architecture (R30, R392, R393): a parameter without default. -/
opaque Config.romImage : Arch → Nat → Nat → Byte

/-- The byte a RAM cell holds that nothing has written since power-on (R31, R392): free, per power-on `epoch` and
physical address. -/
opaque Config.anyRam : Nat → Nat → Byte

/-- `rom[0]` after a late load failure (R362): free, per draw and offset. -/
opaque Config.anyRom0 : Nat → Nat → Byte

/-- Free bytes: draw number, then which byte of the draw. -/
opaque Config.anyByte : Nat → Nat → Byte

/-- Free 16-bit values: draw number, then which one of the draw. -/
opaque Config.anyWord : Nat → Nat → Word

/-- Free bits: draw number, then which one of the draw. -/
opaque Config.anyBit : Nat → Nat → Bool

/-- A free interrupt mode (R362). -/
opaque Config.anyIm : Nat → IntMode

/-- A free architecture (R362). -/
opaque Config.anyArch : Nat → Arch

/-- Free cheat records (R362). -/
opaque Config.anyCheats : Nat → List Cheat

/-- Free poke records (R362). -/
opaque Config.anyPokes : Nat → List Poke

/-- The answer of an oracle the host has queued nothing for (R56, U8): free, per query. -/
opaque Config.oracleByte : Nat → Byte

/-- `CpuStep` (R123): the CPU step that begins with a register file. Its type admits finite steps only. -/
opaque Config.cpuProgram : Regs → CpuProgram

/-- `ContentionDelay` where left open (R231), over the frame position. -/
opaque Config.openDelay : Arch → Nat → Nat

/-- `FloatBusAddr` where left open (R237), over the frame position, with property 3 in its type: 0x0000..0x1AFF. -/
opaque Config.openFloatBus : Arch → Nat → Option (Fin 6912)

/-- `TkLateCost` where left open (R235), over the line position. -/
opaque Config.openTkLate : Nat → Nat

/-- One less than `TK_LINE_LENGTH`, which is never zero (R128); no default (R6). -/
opaque Config.tkLinePred : Nat

/-- One less than `FRAME_TSTATES(TK)`, which is never zero (R128); open (R239). -/
opaque Config.tkFramePred : Nat

/-- `FIRST` of the TK class; open (R239). -/
opaque Config.tkFirst : Nat

/-- `AY_ZX81_SEL` (R196); no default. -/
opaque Config.ayZx81Sel : Byte

/-- `AY_ZX81_DAT` (R196); no default. -/
opaque Config.ayZx81Dat : Byte

/-- `CovoxDecode(mode, port)` where left open (R199): the channels selected, in any order. -/
opaque Config.openCovox : CovoxMode → Word → List Nat

end Sys2Proof
end

