-- ==== Sys2Proof/Machine/Params.lean ====
section
/-! DEFINITION. The parameter functions of R6 read off the configuration record, and the default record of R140, R239,
R288, R291, R301. -/

namespace Sys2Proof.Machine

/-- The value of a modulus (R128). -/
def modulus (m : Modulus) : Nat := m.pred + 1

/-- The modulus with a given value other than zero. -/
def modulusOf (n : Nat) : Modulus := ⟨n - 1⟩

/-- What a CPU step does once its transactions so far were answered (R123). -/
def moveAfter : CpuProgram → List Answer → CpuMove
  | .ends r, _ => .ends r
  | .transact op _, [] => .transact op
  | .transact _ next, a :: answers => moveAfter (next a) answers

/-- `CpuStep` as R123 words it: from the register file and the answers so far, the next transaction or the end of the
step. -/
def cpuStep (r : Regs) (answers : List Answer) : CpuMove := moveAfter (Config.cpuProgram r) answers

/-- `tick mod FRAME_TSTATES(arch)` (R38). -/
def framePos (cfg : Cfg) (arch : Arch) (t : Nat) : Nat := t % modulus (pick cfg.frame arch)

/-- The frame position lies in the active display lines, `FIRST` to `FIRST + 192 * LINE` (R237 property 2, R239). -/
def inDisplay (d : Display) (f : Nat) : Bool :=
  match d.first with
  | none => false
  | some first => decide (first ≤ f) && decide (f < first + 192 * modulus d.line)

/-- The distance of a frame position from `FIRST` (R238, R239). -/
def sinceFirst (d : Display) (f : Nat) : Nat := f - d.first.getD 0

/-- The pattern form of R239 at frame position `f`. -/
def patternDelay (d : Display) (p : List Nat) (f : Nat) : Nat :=
  if inDisplay d f then
    let x := sinceFirst d f % modulus d.line
    if x < 128 then p.getD (x % 8) 0 else 0
  else 0

/-- `ContentionDelay(arch, t)` (R231, R239): depends on `t` through the frame position only. -/
def contentionDelay (cfg : Cfg) (arch : Arch) (t : Nat) : Nat :=
  let f := framePos cfg arch t
  match pick cfg.delay arch with
  | .pattern p => patternDelay (pick cfg.display arch) p f
  | .table l => l.getD f 0
  | .unfixed => Config.openDelay arch f

/-- `TkLateCost(t)` (R235): depends on `t` through `t mod TK_LINE_LENGTH` only; the whole late cost. -/
def tkLateCost (cfg : Cfg) (t : Nat) : Nat :=
  let x := t % modulus cfg.tkLineLength
  match cfg.tkLate with
  | .table l => l.getD x 0
  | .unfixed => Config.openTkLate x

/-- The fetch shape of R238 (informative there): within the first 128 ticks of a display line, groups of 8 ticks: bitmap,
attribute, next bitmap, next attribute, four idle. R238 says the phase of the group differs per machine and is unaudited;
here every group starts at `x mod 8 = 0`, counted from `FIRST`, on every machine (DESIGN CHOICE, log 42). -/
def ulaFetch (d : Display) (f : Nat) : Option Nat :=
  let y := sinceFirst d f / modulus d.line
  let x := sinceFirst d f % modulus d.line
  let bitmap (col : Nat) := ((y / 64) * 2048) + (y % 8) * 256 + ((y / 8) % 8) * 32 + col
  let attr (col : Nat) := 6144 + (y / 8) * 32 + col
  if 128 ≤ x then none
  else
    let col := (x / 8) * 2
    match x % 8 with
    | 0 => some (bitmap col)
    | 1 => some (attr col)
    | 2 => some (bitmap (col + 1))
    | 3 => some (attr (col + 1))
    | _ => none

/-- What the architecture's rule fetches at frame position `f` of a displayed line (R237, R238). -/
def floatBusFetch (cfg : Cfg) (arch : Arch) (d : Display) (f : Nat) : Option Nat :=
  match pick cfg.floatBus arch with
  | .table l => (l.find? (fun e : Nat × Nat => e.1 == f)).map Prod.snd
  | .ulaFetch => ulaFetch d f
  | .unfixed => (Config.openFloatBus arch f).map (fun o : Fin 6912 => o.val)

/-- `FloatBusAddr(arch, t)` (R237) with its three properties: it depends on the frame position only, it is `none` outside
the active display lines, and an offset it gives is below 0x1B00. -/
def floatBusAddr (cfg : Cfg) (arch : Arch) (t : Nat) : Option Nat :=
  let f := framePos cfg arch t
  let d := pick cfg.display arch
  if inDisplay d f then (floatBusFetch cfg arch d f).filter (fun o => decide (o < 6912)) else none

/-- `b` is in `ContendedBanks(arch)` (R6, R36); the set is held as a byte, bit `b` for bank `b`. -/
def bankContended (cfg : Cfg) (arch : Arch) (b : BitVec 3) : Bool := (pick cfg.contendedBanks arch).getLsbD b.toNat

/-- `Z80MachineMap(ver, code)`, `none` for unknown (R288). -/
def z80MachineMap (cfg : Cfg) (ver : Nat) (code : Byte) : Option Arch :=
  machineOf cfg.z80Machines ver code

/-- `Z80PageMap48` or `Z80PageMap128`, `none` for skip (R290, R291). -/
def z80PageMap (cfg : Cfg) (arch : Arch) (id : Byte) : Option (BitVec 3) :=
  ((if arch.is48 then cfg.z80Pages48 else cfg.z80Pages128).find? (fun e => e.1 == id)).map (·.2)

/-- The channels of the configuration's patterns that match a port address, perhaps with repeats (R199). -/
def covoxMatches (cfg : Cfg) (port : Word) : List Nat :=
  match cfg.covox with
  | some rows => (rows.filter (fun r => r.mode == cfg.covoxMode && (port &&& r.mask) == r.value)).map (·.channel)
  | none => Config.openCovox cfg.covoxMode port

/-- `CovoxDecode(covoxMode, port)`: the set of channels a port address selects (R199), as a list without repeats. R199
states no order for the events of a port that selects several channels; they go out in the order of this list, which is
the configuration's (DESIGN CHOICE, log 38). -/
def covoxChannels (cfg : Cfg) (port : Word) : List Nat := (covoxMatches cfg port).dedup

/-- The default pattern of Spec48 and Spec128 (R239). -/
def ulaPattern : List Nat := [6, 5, 4, 3, 2, 1, 0, 0]

/-- The default pattern of Plus2A (R239). -/
def plus2APattern : List Nat := [1, 0, 7, 6, 5, 4, 3, 2]

/-- The default machine-code map (R288). -/
def defaultMachines : List MachineRow :=
  [⟨2, 0, .spec48⟩, ⟨2, 1, .spec48⟩, ⟨2, 3, .spec128⟩, ⟨2, 4, .spec128⟩, ⟨2, 7, .plus2A⟩, ⟨2, 8, .plus2A⟩,
   ⟨2, 9, .pentagon⟩, ⟨2, 12, .spec128⟩, ⟨2, 13, .plus2A⟩] ++
  [⟨3, 0, .spec48⟩, ⟨3, 1, .spec48⟩, ⟨3, 3, .spec48⟩, ⟨3, 4, .spec128⟩, ⟨3, 5, .spec128⟩, ⟨3, 6, .spec128⟩,
   ⟨3, 7, .plus2A⟩, ⟨3, 8, .plus2A⟩, ⟨3, 9, .pentagon⟩, ⟨3, 12, .spec128⟩, ⟨3, 13, .plus2A⟩]

/-- The configuration at reset: every option off, the defaults of R140, R239, R288, R291, R301, and the parameters without a
default left open (DESIGN CHOICE, log 11, 12, 13). -/
def defaultCfg : Cfg where
  issue2 := false
  turbo := false
  mouse := false
  ayPresent := false
  ayZx81 := false
  ayFuller := false
  allocOk := true
  joystick := .none
  covoxMode := .none
  snaPrefers := .spec128
  ayZx81Sel := Config.ayZx81Sel
  ayZx81Dat := Config.ayZx81Dat
  covox := none
  memTicks := 3
  contendedBanks := ⟨0x20, 0xAA, 0xF0, 0x00, 0x20⟩
  frame := ⟨modulusOf 69888, modulusOf 70908, modulusOf 70908, modulusOf 71680, ⟨Config.tkFramePred⟩⟩
  display := ⟨⟨some 14335, modulusOf 224⟩, ⟨some 14361, modulusOf 228⟩, ⟨some 14361, modulusOf 228⟩,
    ⟨none, modulusOf 224⟩, ⟨some Config.tkFirst, ⟨Config.tkLinePred⟩⟩⟩
  delay := ⟨.pattern ulaPattern, .pattern ulaPattern, .pattern plus2APattern, .table [], .unfixed⟩
  tkLineLength := ⟨Config.tkLinePred⟩
  tkLate := .unfixed
  floatBus := ⟨.unfixed, .unfixed, .unfixed, .table [], .unfixed⟩
  z80Machines := defaultMachines
  z80Pages48 := [(4, 2), (5, 0), (8, 5)]
  z80Pages128 := [(3, 0), (4, 1), (5, 2), (6, 3), (7, 4), (8, 5), (9, 6), (10, 7)]
  z80SaveCode := ⟨0, 4, 7, 9, 0⟩
  saveCodes := rfl

end Sys2Proof.Machine
end

