-- ==== Sys2Proof/Machine/State.lean ====
section
/-! DEFINITION. The state of the machine, all of it plain data, the reasons a step can stop, and the state after
power-on. -/

namespace Sys2Proof.Machine

/-- Why the machine stops. -/
inductive Fault where
  /-- Raised by `step` when a CPU step or a CPU transaction is due while `failed` is set: the model is stuck until
  `RESET` or a successful load (R362). Safe: no claim is made of a run that goes on. -/
  | machineFailed
  /-- Raised by `step`, and by a load that switches the architecture, when page allocation did not succeed (R361, R363).
  Safe: the machine does not start. -/
  | initAllocFailure
  /-- Raised by `step` where no CPU step is in progress and the environment's list is empty: the run has ended (R130), and
  no step is taken. Safe: no claim is made of what comes after a run. -/
  | runEnded
  deriving DecidableEq, Repr

/-- Why a byte string spells no instruction (R110, R90). -/
inductive Reject where
  /-- A record, address or data item with the wrong number of bytes. -/
  | wrongLength
  /-- A port address the channel's row does not match (R99, R100). -/
  | rowMismatch
  /-- A file that is none of the variants of its format (R112). -/
  | noVariant
  /-- Bytes that are not the form the channel names. -/
  | wrongForm
  deriving DecidableEq, Repr

/-- Why an item has no meaning. -/
inductive Refusal where
  /-- Raised by `exec` for an instruction not modelled; no arm raises it. Safe. -/
  | notModelled (mnemonic : String)
  /-- Raised by the `(reserved)` row: a record with a reserved slot spells no transaction and is refused (R110). Safe. -/
  | reservedSlot
  /-- Raised by `step` for a record, a port address or a data byte with another number of bytes than its format fixes (R90,
  R92 to R95, R115): it is no transaction. Every other byte string has an effect (log 41). Safe. -/
  | spellsNothing (r : Reject)
  deriving DecidableEq, Repr

/-- Everything the spec gives the machine (10_state R58), the configuration record, and the model's own fields for what
the environment supplies and receives (log 1, 2, 9, 18 to 21). -/
structure State where
  /-- The register file (R13). -/
  regs : Regs
  /-- The written bytes of `ram[0..7]` and `rom[0..4]`, by physical address (R30, R31; log 5). -/
  mem : List Host.Cell
  /-- Names the free content of unwritten RAM (log 6). -/
  ramEpoch : Nat
  /-- `rom[0]` holds any value of this draw (R362), or its image (log 7). -/
  rom0Any : Option Nat
  /-- The architecture whose `RomImage` the ROM pages hold (R393; log 7). -/
  romOf : Arch
  /-- The paging latches (R40 to R47). -/
  latches : Latches
  /-- The derived map (R32, R34, R36, R43). -/
  map : WindowMap
  /-- The last ULA write (R48). -/
  port254 : Byte
  /-- The host-written port snapshot (R49). -/
  port : Vector Byte 128
  /-- The global T-state counter (R38). -/
  tick : Nat
  /-- `lastContendedMemReadWrite` (R37). -/
  lastContended : Byte
  /-- The AY image (R51). -/
  ay : Ay
  /-- `cheats[]` (R53, R335). -/
  cheats : List Cheat
  /-- `pokes[]` (R53, R336). -/
  pokes : List Poke
  /-- The open cheat and line offset of `FillPass` (R340; log 23). -/
  fill : Fill
  /-- The running architecture (R39). -/
  arch : Arch
  /-- Set by a late snapshot load failure (R362). -/
  failed : Bool
  /-- The configuration record (R5, R6). -/
  cfg : Cfg
  /-- Events emitted so far, oldest first (R10, R55). -/
  events : List Event
  /-- What the last transaction or command returned (log 19). -/
  answer : Answer
  /-- The environment's list of agent steps (R130; log 1). -/
  agenda : List AgendaItem
  /-- The CPU step in progress, with the answers so far (R122, R123; log 2). -/
  cpu : Option (List Answer)
  /-- The operand file the host presents, or absent (R91, R337; log 21). -/
  file : Option (List Byte)
  /-- Queued oracle answers (R56; log 18). -/
  oracle : List Byte
  /-- How many free draws were taken (log 9). -/
  draws : Nat
  deriving DecidableEq, Repr

/-- The register file at power-on: R23's values; a pair R23 gives any value is 0 here (DESIGN CHOICE, log 8). -/
def Regs.reset : Regs where
  a := 0
  f := 0
  bc := 0
  de := 0
  hl := 0
  a2 := 0
  f2 := 0
  bc2 := 0
  de2 := 0
  hl2 := 0
  ix := 0
  iy := 0
  sp := 0
  pc := 0x0000
  i := 0x00
  r := 0x00
  iff1 := false
  iff2 := false
  im := .im0

/-- The latches at reset (R40 to R47, R390). -/
def Latches.reset : Latches where
  bankLatch := 0
  videoLatch := false
  romLatch := 0
  pagingLock := false
  pagingmode2A3 := false
  specialCfg2A3 := 0
  trdosPaged := false

/-- The map after reset (R390): window 0 `rom[0]`, then banks 5, 2, 0; display bank 5; window 1 contended with the
default bank set of Spec48 (R239). -/
def WindowMap.reset : WindowMap where
  romInUse := 0
  ramCurrent := #v[.rom 0, .ram 5, .ram 2, .ram 0]
  ramContended := #v[false, true, false, false]
  grmem := .ram 5

/-- The state after the power-on reset (R392, R390, R58). An element the spec gives "any value" holds the value log 8
names; RAM is left free (log 6). -/
def State.reset : State where
  regs := Regs.reset
  mem := []
  ramEpoch := 0
  rom0Any := none
  romOf := .spec48
  latches := Latches.reset
  map := WindowMap.reset
  port254 := 0
  port := Vector.ofFn (fun i : Fin 128 => if i.val < 8 then 0xFF else 0)
  tick := 0
  lastContended := 0
  ay := ⟨0, Vector.replicate 16 0⟩
  cheats := []
  pokes := []
  fill := ⟨none, 0⟩
  arch := .spec48
  failed := false
  cfg := defaultCfg
  events := []
  answer := .none
  agenda := []
  cpu := none
  file := none
  oracle := []
  draws := 0

end Sys2Proof.Machine
end

