-- ==== Sys2Proof/Machine/Ops.lean ====
section
/-! DEFINITION. The named operations over memory, the window map, the counter, events, oracles and answers; the reset
procedures; and the late load failure. -/

namespace Sys2Proof.Machine

/-- The outcome of an instruction. -/
abbrev Result := Host.Outcome State Fault Refusal

/-! ### The list of written bytes -/

/-- The byte listed at an address; an unlisted address has no value of its own here (log 5, 6). -/
def Memory.read? : List Host.Cell → Nat → Option Byte
  | [], _ => none
  | (k, b) :: m, a => if k = a then some b else Memory.read? m a

/-- Write one byte, keeping the addresses strictly rising. -/
def Memory.write : List Host.Cell → Nat → Byte → List Host.Cell
  | [], a, v => [(a, v)]
  | (k, b) :: m, a, v =>
    if a < k then (a, v) :: (k, b) :: m
    else if a = k then (a, v) :: m
    else (k, b) :: Memory.write m a v

/-- Consecutive cells from an address on. -/
def Memory.run : Nat → List Byte → List Host.Cell
  | _, [] => []
  | a, b :: bs => (a, b) :: Memory.run (a + 1) bs

/-- Write consecutive bytes from an address on. -/
def Memory.writeRun (m : List Host.Cell) (a : Nat) (bs : List Byte) : List Host.Cell :=
  m.filter (fun c => decide (c.1 < a)) ++ Memory.run a bs ++ m.filter (fun c => decide (a + bs.length ≤ c.1))

/-- Drop the cells in `[a, a + n)`: they hold no known byte any more. -/
def Memory.forget (m : List Host.Cell) (a n : Nat) : List Host.Cell :=
  m.filter (fun c => decide (c.1 < a ∨ a + n ≤ c.1))

/-- The canonical form: addresses strictly rising and inside the thirteen pages. An unlisted address reads as no value, so
no entry repeats what it reads as (log 5, 6). -/
abbrev Memory.wf (m : List Host.Cell) : Prop :=
  m.Pairwise (fun c d => c.1 < d.1) ∧ ∀ c ∈ m, c.1 < 0x34000

/-! ### Pages -/

/-- `PAGE_SIZE` (R5). -/
def pageSize : Nat := 0x4000

/-- Where a page starts in the physical numbering: `ram[b]` at `b * 0x4000`, `rom[r]` at `0x20000 + r * 0x4000`
(DESIGN CHOICE, log 5). -/
def Page.base : Page → Nat
  | .ram b => b.toNat * 0x4000
  | .rom r => 0x20000 + r.val * 0x4000

/-- The physical address of a byte of a page. -/
def phys (p : Page) (o : Nat) : Nat := p.base + o

/-- What a byte holds that nothing has written: RAM any value (R31, R392), ROM the image (R30), and `rom[0]` any value
after a late load failure (R362). -/
def State.unwritten (s : State) (p : Page) (o : Nat) : Byte :=
  match p with
  | .ram _ => Config.anyRam s.ramEpoch (phys p o)
  | .rom r =>
    match s.rom0Any with
    | some n => if r = 0 then Config.anyRom0 n o else Config.romImage s.romOf r.val o
    | none => Config.romImage s.romOf r.val o

/-- `page[o]` (R76). -/
def State.readPage (s : State) (p : Page) (o : Nat) : Byte :=
  match Memory.read? s.mem (phys p o) with
  | some b => b
  | none => s.unwritten p o

/-- `page[o] <- v` (R76). -/
def State.writePage (s : State) (p : Page) (o : Nat) (v : Byte) : State :=
  { s with mem := Memory.write s.mem (phys p o) v }

/-- `page <- bytes`, a whole page (R256, R290). -/
def State.loadPage (s : State) (p : Page) (bs : List Byte) : State :=
  { s with mem := Memory.writeRun s.mem p.base (bs.take pageSize) }

/-- The 16384 bytes of a page (R265, R302). -/
def State.pageBytes (s : State) (p : Page) : List Byte := (List.range pageSize).map (s.readPage p)

/-! ### The window map -/

/-- The page in the window an address falls in: `ramCurrent[addr >> 14]` (R61). -/
def State.pageAt (s : State) (addr : Word) : Page := s.map.ramCurrent.get (win addr)

/-- The special-mode tables (R72). -/
def specialTable (cfgNo : BitVec 2) : Vector Page 4 :=
  match cfgNo.toNat with
  | 0 => #v[.ram 0, .ram 1, .ram 2, .ram 3]
  | 1 => #v[.ram 4, .ram 5, .ram 6, .ram 7]
  | 2 => #v[.ram 4, .ram 5, .ram 6, .ram 3]
  | _ => #v[.ram 4, .ram 7, .ram 6, .ram 3]

/-- `romInUse` (R43): 4 when `trdosPaged`, else `romLatch`; kept equal to this in special mode too (log 15). -/
def romInUseOf (l : Latches) : Fin 5 := if l.trdosPaged then 4 else Fin.ofNat 5 l.romLatch.toNat

/-- `ramCurrent[]` of the latches (R70). -/
def ramCurrentOf (arch : Arch) (l : Latches) : Vector Page 4 :=
  if arch = .plus2A ∧ l.pagingmode2A3 = true then specialTable l.specialCfg2A3
  else #v[.rom (romInUseOf l), .ram 5, .ram 2, .ram l.bankLatch]

/-- A page is a contended bank (R36): false for a ROM page. -/
def pageContended (cfg : Cfg) (arch : Arch) : Page → Bool
  | .ram b => bankContended cfg arch b
  | .rom _ => false

/-- `ramContended[]` of the windows (R36): each window's flag is its page's. -/
def ramContendedOf (cfg : Cfg) (arch : Arch) (w : Vector Page 4) : Vector Bool 4 :=
  #v[pageContended cfg arch (w.get 0), pageContended cfg arch (w.get 1), pageContended cfg arch (w.get 2),
    pageContended cfg arch (w.get 3)]

/-- `Remap()` as a function of the configuration, the architecture and the latches (R70). -/
def mapOf (cfg : Cfg) (arch : Arch) (l : Latches) : WindowMap where
  romInUse := romInUseOf l
  ramCurrent := ramCurrentOf arch l
  ramContended := ramContendedOf cfg arch (ramCurrentOf arch l)
  grmem := if l.videoLatch then .ram 7 else .ram 5

/-- `Remap()` (R70). -/
def State.remap (s : State) : State := { s with map := mapOf s.cfg s.arch s.latches }

/-- Write the latches and `Remap()` (R70). -/
def State.setLatches (s : State) (l : Latches) : State := { s with latches := l, map := mapOf s.cfg s.arch l }

/-- `MemRead(addr, 1)` (R62): untimed, changes nothing, cannot fail. -/
def State.memRead (s : State) (addr : Word) : Byte := s.readPage (s.pageAt addr) (off addr).toNat

/-- `MemWrite(addr, 1, v)` (R63, R64): dropped exactly when the resolved page is a ROM page. -/
def State.memWrite (s : State) (addr : Word) (v : Byte) : State :=
  match s.pageAt addr with
  | .rom _ => s
  | .ram b => s.writePage (.ram b) (off addr).toNat v

/-- `MemRead(addr, 2)` (R66). -/
def State.memRead2 (s : State) (addr : Word) : Word := wordOf (s.memRead (addr + 1)) (s.memRead addr)

/-- `MemWrite(addr, 2, v)` (R67): low byte first, each byte on its own. -/
def State.memWrite2 (s : State) (addr : Word) (v : Word) : State :=
  (s.memWrite addr (loByte v)).memWrite (addr + 1) (hiByte v)

/-! ### The tick counter -/

/-- `Advance(n, c)` on the counter (R231, R232): the delay is looked up once, at the value on entry. -/
def advanceTick (cfg : Cfg) (arch : Arch) (n : Nat) (c : Bool) (t : Nat) : Nat :=
  (if c then t + contentionDelay cfg arch t else t) + n

/-- `Advance(n, c)` (R232). -/
def State.advance (s : State) (n : Nat) (c : Bool) : State := { s with tick := advanceTick s.cfg s.arch n c s.tick }

/-- `IoLateUla()` on the counter (R234, R235). -/
def lateUlaTick (cfg : Cfg) (arch : Arch) (t : Nat) : Nat :=
  if arch = .tk then t + tkLateCost cfg t else advanceTick cfg arch 3 true t

/-- `IoLateOdd(c)` on the counter (R234). -/
def lateOddTick (cfg : Cfg) (arch : Arch) (c : Bool) (t : Nat) : Nat :=
  if c then advanceTick cfg arch 1 true (advanceTick cfg arch 1 true (advanceTick cfg arch 1 true t))
  else advanceTick cfg arch 3 false t

/-! ### Events, oracles, answers -/

/-- `emit E` (R10). -/
def State.emit (s : State) (e : Event) : State := { s with events := s.events ++ [e] }

/-- What the operation returns. -/
def State.give (s : State) (a : Answer) : State := { s with answer := a }

/-- One oracle query (R10, R56): the host's next queued answer, or a free value (log 18). -/
def State.ask (s : State) : Byte × State :=
  match s.oracle with
  | b :: bs => (b, { s with oracle := bs })
  | [] => (Config.oracleByte s.draws, { s with draws := s.draws + 1 })

/-! ### Latch writes shared by the ports and the loaders -/

/-- `romLatch[0] <- b`: the latch is 1 bit except on Plus2A, where bit 1 is kept (R42, R203, R206; log 17). -/
def setRomLow (arch : Arch) (r : BitVec 2) (b : Bool) : BitVec 2 :=
  if arch = .plus2A then (r &&& 2#2) ||| (if b then 1#2 else 0#2) else (if b then 1#2 else 0#2)

/-- `romLatch[1] <- b` (R207). -/
def setRomHigh (r : BitVec 2) (b : Bool) : BitVec 2 := (r &&& 1#2) ||| (if b then 2#2 else 0#2)

/-- The latches after a byte of format PD7 (R93, R203 `Page7Write`). -/
def pd7Latches (arch : Arch) (l : Latches) (v : Byte) : Latches :=
  { l with
    bankLatch := v.extractLsb' 0 3
    videoLatch := bit v 3
    romLatch := setRomLow arch l.romLatch (bit v 4)
    pagingLock := bit v 5 }

/-- The latches after a byte of format PD1 (R94, R207 `Page1Write`). -/
def pd1Latches (l : Latches) (v : Byte) : Latches :=
  { l with
    pagingmode2A3 := bit v 0
    specialCfg2A3 := v.extractLsb' 1 2
    romLatch := setRomHigh l.romLatch (bit v 2) }

/-- The byte of format PD7 that holds the latches (R265, R301). -/
def pd7Byte (l : Latches) : Byte :=
  (l.bankLatch.setWidth 8) ||| (bitByte l.videoLatch <<< 3) ||| (bitByte (l.romLatch.getLsbD 0) <<< 4) |||
    (bitByte l.pagingLock <<< 5)

/-- The byte of format PD1 that holds the latches (R266, R301). -/
def pd1Byte (l : Latches) : Byte := bitByte l.pagingmode2A3 ||| (l.specialCfg2A3.setWidth 8 <<< 1)

/-- `port254[2:0] <- colour` and the border event, as the loaders do (R255, R283, R322). -/
def State.setBorder (s : State) (c : BitVec 3) : State :=
  ({ s with port254 := (s.port254 &&& 0xF8) ||| c.setWidth 8 }).emit (.borderChange s.tick c)

/-! ### Reset -/

/-- A register file of draw `n`: every element any value (R362). -/
def anyRegs (n : Nat) : Regs where
  a := Config.anyByte n 0
  f := Config.anyByte n 1
  bc := Config.anyWord n 0
  de := Config.anyWord n 1
  hl := Config.anyWord n 2
  a2 := Config.anyByte n 2
  f2 := Config.anyByte n 3
  bc2 := Config.anyWord n 3
  de2 := Config.anyWord n 4
  hl2 := Config.anyWord n 5
  ix := Config.anyWord n 6
  iy := Config.anyWord n 7
  sp := Config.anyWord n 8
  pc := Config.anyWord n 9
  i := Config.anyByte n 4
  r := Config.anyByte n 5
  iff1 := Config.anyBit n 0
  iff2 := Config.anyBit n 1
  im := Config.anyIm n

/-- The register file after `RESET` (R23, R390): `PC`, `IFF1`, `IFF2`, `IM`, `I`, `R` zero, the rest any value of draw
`n`. -/
def resetRegs (n : Nat) : Regs :=
  { anyRegs n with pc := 0x0000, iff1 := false, iff2 := false, im := .im0, i := 0x00, r := 0x00 }

/-- `port[]` after `RESET` (R49, R390): rows 0 to 7 are 0xFF, the rest any value of draw `n`. -/
def resetPort (n : Nat) : Vector Byte 128 :=
  Vector.ofFn (fun i : Fin 128 => if i.val < 8 then 0xFF else Config.anyByte n (100 + i.val))

/-- The AY image after `RESET`: any value of draw `n` (R51, R390). -/
def resetAy (n : Nat) : Ay where
  sel := Config.anyByte n 8
  reg := Vector.ofFn (fun i : Fin 16 => Config.anyByte n (20 + i.val))

/-- The machine reset (R390); what it does not name it keeps (R391). -/
def State.machineReset (s : State) : State :=
  { s with
    regs := resetRegs s.draws
    latches := Latches.reset
    map := mapOf s.cfg s.arch Latches.reset
    port254 := Config.anyByte s.draws 6
    port := resetPort s.draws
    lastContended := Config.anyByte s.draws 7
    ay := resetAy s.draws
    tick := 0
    failed := false
    draws := s.draws + 1 }

/-- The power-on reset on an architecture (R392, R393): pages allocated anew, ROM images loaded, RAM any value, cheat
arrays empty, then the machine reset. -/
def State.powerOn (s : State) (target : Arch) : State :=
  ({ s with
      arch := target
      mem := []
      ramEpoch := s.ramEpoch + 1
      rom0Any := none
      romOf := target
      cheats := []
      pokes := []
      fill := ⟨none, 0⟩ }).machineReset

/-- The latches of draw `n`: any value (R362). -/
def anyLatches (n : Nat) : Latches where
  bankLatch := (Config.anyByte n 10).extractLsb' 0 3
  videoLatch := Config.anyBit n 2
  romLatch := (Config.anyByte n 10).extractLsb' 3 2
  pagingLock := Config.anyBit n 3
  pagingmode2A3 := Config.anyBit n 4
  specialCfg2A3 := (Config.anyByte n 10).extractLsb' 5 2
  trdosPaged := Config.anyBit n 5

/-- A `SnapshotLoadFailure` raised after state was changed (R362): the register file, all latches, `arch`, all RAM,
`rom[0]` and the cheat arrays hold any value, the map is recomputed, `failed` is set, and the caller gets the reason. -/
def State.lateFailure (s : State) (r : LoadFailure) : State :=
  { s with
    regs := anyRegs s.draws
    mem := (s.mem.filter (fun c => decide (0x24000 ≤ c.1)))
    ramEpoch := s.ramEpoch + 1
    rom0Any := some s.draws
    latches := anyLatches s.draws
    map := mapOf s.cfg (Config.anyArch s.draws) (anyLatches s.draws)
    port254 := Config.anyByte s.draws 6
    cheats := Config.anyCheats s.draws
    pokes := Config.anyPokes s.draws
    fill := ⟨none, 0⟩
    arch := Config.anyArch s.draws
    failed := true
    answer := .failure r
    draws := s.draws + 1 }

/-- A `SnapshotLoadFailure` raised before any state was changed (R362): only the caller learns of it. -/
def State.earlyFailure (s : State) (r : LoadFailure) : State := s.give (.failure r)

/-- How a loader ends: the loaded state, or a failure raised at a state already changed. -/
abbrev Loading := Except (LoadFailure × State) State

/-- The end of a load (R250, R280, R320, R362): `Remap()`, `failed` cleared, success to the caller; or the late failure. -/
def finishLoad : Loading → Result
  | .ok s => .next ({ s.remap with failed := false }.give .loaded)
  | .error (r, s) => .next (s.lateFailure r)

/-- `if target != arch then ArchSwitch(target)` (R253, R393); the allocation may fail (R361, R363). -/
def State.enterArch (s : State) (target : Arch) : Except Fault State :=
  if target = s.arch then .ok s
  else if s.cfg.allocOk then .ok (s.powerOn target)
  else .error .initAllocFailure

/-- `CheatClose()` (R349). -/
def State.cheatClose (s : State) : State := { s with cheats := [], pokes := [], fill := ⟨none, 0⟩ }

/-- The common frame of the three loads once the file is identified: the architecture switch, `CheatClose()`, the format's
own part (R250, R280, R320). -/
def loadOn (target : Arch) (part : State → Loading) (s : State) : Result :=
  match s.enterArch target with
  | .ok s1 => finishLoad (part s1.cheatClose)
  | .error f => .fault f

end Sys2Proof.Machine
end

