-- ==== Sys2Proof/Machine/Cheat.lean ====
section
/-! DEFINITION. The Cheat Engine: `.pok` text, `CHEAT_LOAD`, `CHEAT_APPLY`, `CHEAT_FETCH`, `CHEAT_CLOSE`, the three line
rows, and the host's writes to the two arrays (R335 to R350). -/

namespace Sys2Proof.Machine

/-- The lines of a text, without their line ends (R338). -/
def pokLines : List Byte → List (List Byte)
  | [] => [[]]
  | b :: bs =>
    match pokLines bs with
    | [] => [[b]]
    | l :: ls => if b = newline then [] :: l :: ls else (b :: l) :: ls

/-- A blank between operands: space, tab, or the carriage return of a two-byte line end (R338; log 22). -/
def isBlank (b : Byte) : Bool := b == 0x20 || b == 0x09 || b == 0x0D

/-- The blank-separated words of a text; `cur` is the word being read. -/
def wordsFrom (cur : List Byte) : List Byte → List (List Byte)
  | [] => if cur.isEmpty then [] else [cur]
  | b :: bs =>
    if isBlank b then (if cur.isEmpty then wordsFrom [] bs else cur :: wordsFrom [] bs) else wordsFrom (cur ++ [b]) bs

/-- The value of decimal digits after `acc`, `none` where a byte is no digit. -/
def digitsFrom (acc : Nat) : List Byte → Option Nat
  | [] => some acc
  | b :: bs => if 0x30 ≤ b.toNat ∧ b.toNat ≤ 0x39 then digitsFrom (acc * 10 + (b.toNat - 0x30)) bs else none

/-- At least one decimal digit and nothing else. -/
def natOf : List Byte → Option Nat
  | [] => none
  | b :: bs => digitsFrom 0 (b :: bs)

/-- A decimal integer (R338), with an optional sign (log 22). -/
def intOf : List Byte → Option Int
  | [] => none
  | b :: bs =>
    if b = 0x2D then (natOf bs).map (fun n : Nat => -(n : Int))
    else if b = 0x2B then (natOf bs).map (fun n : Nat => (n : Int))
    else (natOf (b :: bs)).map (fun n : Nat => (n : Int))

/-- The four integers of a poke line after its tag: bank, address, value, original; `none` where the line is malformed
(R338). -/
def pokeFields (rest : List Byte) : Option (Int × Int × Int × Int) :=
  match wordsFrom [] rest with
  | b :: a :: v :: o :: _ =>
    match intOf b, intOf a, intOf v, intOf o with
    | some b, some a, some v, some o => some (b, a, v, o)
    | _, _, _, _ => none
  | _ => none

/-- The poke record of four integers, each masked when stored (R338, R340). -/
def pokeOf (b a v o : Int) : Poke where
  bank := BitVec.ofInt 4 b
  address := BitVec.ofInt 16 a
  value := if v = 256 then BitVec.ofInt 8 o else BitVec.ofInt 8 v
  original := BitVec.ofInt 8 o
  isInput := v == 256
  origMem := false
  origFile := o != 0

/-- `CountPass(file)`: the capacities (R339). -/
def countPass (lines : List (List Byte)) : Nat × Nat :=
  ((lines.filter (fun l => l.head? == some 0x4E)).length,
   (lines.filter (fun l => l.head? == some 0x4D || l.head? == some 0x5A)).length)

/-- `Flush()` (R340): the open cheat is stored if it has at least one poke. -/
def State.flush (s : State) : State :=
  match s.fill.cur with
  | none => s
  | some c =>
    { s with
      cheats := if 1 ≤ c.pokeCount then s.cheats ++ [c] else s.cheats
      fill := { s.fill with cur := none } }

/-- An `N` line (R340). -/
def State.pokName (s : State) : State :=
  let s1 := s.flush
  { s1 with fill := { s1.fill with cur := some ⟨s1.fill.off + 1, s1.pokes.length, 0, false, 0⟩ } }

/-- An `M` or `Z` line after its tag (R340): skipped where malformed or outside a cheat. -/
def State.pokPoke (s : State) (rest : List Byte) : State :=
  match pokeFields rest, s.fill.cur with
  | some (b, a, v, o), some c =>
    let p := pokeOf b a v o
    { s with
      pokes := s.pokes ++ [p]
      fill := { s.fill with
        cur := some { c with pokeCount := c.pokeCount + 1
                             inputCount := if p.isInput then c.inputCount + 1 else c.inputCount } } }
  | _, _ => s

/-- One line of `FillPass` (R340); the offset moves past the line and its end. -/
def State.fillLine (s : State) (line : List Byte) : State :=
  let s1 :=
    match line with
    | [] => s
    | tag :: rest =>
      if tag = 0x4E then s.pokName else if tag = 0x4D ∨ tag = 0x5A then s.pokPoke rest else s
  { s1 with fill := { s1.fill with off := s1.fill.off + line.length + 1 } }

/-- The end of the file: `Flush()`, and no pass is open any more (R340). -/
def State.fillEnd (s : State) : State := { s.flush with fill := ⟨none, 0⟩ }

/-- `FillPass(file)` (R340). -/
def State.fillPass (s : State) (text : List Byte) : State := ((pokLines text).foldl State.fillLine s).fillEnd

/-- The absolute-address mode of a poke: `bank & 0x08` (R343). -/
def Poke.absolute (p : Poke) : Bool := p.bank.getLsbD 3

/-- The RAM page of a fixed-bank poke: `ram[bank & 0x07]` (R343). -/
def Poke.page (p : Poke) : Page := .ram (p.bank.setWidth 3)

/-- `PokeWrite(p, v)` (R343): untimed. -/
def State.pokeWrite (s : State) (p : Poke) (v : Byte) : State :=
  if p.absolute then s.memWrite p.address v else s.writePage p.page (off p.address).toNat v

/-- `PokeRead(p)` (R343). -/
def State.pokeRead (s : State) (p : Poke) : Byte :=
  if p.absolute then s.memRead p.address else s.readPage p.page (off p.address).toNat

/-- One poke of `applyCheats()` (R342). -/
def State.applyPoke (enabled : Bool) (s : State) (p : Poke) : State :=
  if enabled then s.pokeWrite p p.value
  else if p.origMem ∨ p.origFile then s.pokeWrite p p.original
  else s

/-- The pokes a cheat owns (R335). Where its slice runs past `pokes[]`, as it may in the free arrays a late load failure
leaves (R362), R342 does not say what a missing `pokes[j]` does; it is skipped (DESIGN CHOICE, log 40). -/
def State.pokesOf (s : State) (c : Cheat) : List Poke := (s.pokes.drop c.pokeStartIdx).take c.pokeCount

/-- One cheat of `applyCheats()` (R342). -/
def State.applyCheat (s : State) (c : Cheat) : State := (s.pokesOf c).foldl (State.applyPoke c.enabled) s

/-- `applyCheats()` (R342). -/
def State.applyCheats (s : State) : State := s.cheats.foldl State.applyCheat s

/-- One poke of `fetchCheatOriginalValuesFromMem()` (R345). -/
def State.fetchPoke (s : State) (p : Poke) : Poke :=
  if p.origMem = false ∧ p.origFile = false then { p with original := s.pokeRead p, origMem := true } else p

/-- `CHEAT_LOAD` (R337): an absent file leaves the arrays empty. -/
def execCheatLoad (s : State) : Result :=
  match s.file with
  | none => .next (s.cheatClose.give .none)
  | some text => .next ((s.cheatClose.fillPass text).give .none)

/-- `CHEAT_APPLY` (R342). -/
def execCheatApply (s : State) : Result := .next (s.applyCheats.give .none)

/-- `CHEAT_FETCH` (R345). -/
def execCheatFetch (s : State) : Result := .next ({ s with pokes := s.pokes.map s.fetchPoke }.give .none)

/-- `CHEAT_CLOSE` (R349): no memory is written. -/
def execCheatClose (s : State) : Result := .next (s.cheatClose.give .none)

/-- `POK.N` (R338, R340): one line of the file being filled. -/
def execPokN (rest : List Byte) (s : State) : Result := .next ((s.fillLine (0x4E :: rest)).give .none)

/-- `POK.M` (R338, R340). -/
def execPokM (rest : List Byte) (s : State) : Result := .next ((s.fillLine (0x4D :: rest)).give .none)

/-- `POK.Z` (R338, R340): treated exactly as `M`. -/
def execPokZ (rest : List Byte) (s : State) : Result := .next ((s.fillLine (0x5A :: rest)).give .none)

/-- `cheats[i].enabled <- b` for a valid `i` (R341). -/
def State.enableCheat (s : State) (i : Nat) (b : Bool) : State :=
  { s with cheats := s.cheats.modify i (fun c : Cheat => { c with enabled := b }) }

/-- `pokes[j].value <- v` for an input poke (R341); no other poke is host-writable. -/
def State.setPokeValue (s : State) (j : Nat) (v : Byte) : State :=
  { s with pokes := s.pokes.modify j (fun p : Poke => if p.isInput then { p with value := v } else p) }

end Sys2Proof.Machine
end

