-- ==== Sys2Proof/Machine/HostCmd.lean ====
section
/-! DEFINITION. `RESET` (R390, R391) and the reserved slots (R110). -/

namespace Sys2Proof.Machine

/-- `RESET`, the machine reset (R390). -/
def execReset (s : State) : Result := .next (s.machineReset.give .none)

/-- `(reserved)`: a record with a reserved slot spells no transaction and is refused (R110). -/
def execReserved (_slot : Byte) (_s : State) : Result := .refused .reservedSlot

end Sys2Proof.Machine
end

