-- ==== Sys2Proof/Machine/Flags.lean ====
section
/-! DEFINITION. The flags of the block. It reads and writes no CPU flag (R17, R141); what it computes are the contention
flag of an access (R36, R141, R160) and the EAR feedback bit of a ULA read (R164). -/

namespace Sys2Proof.Machine

/-- `ramContended[Win(addr)]`: the access's contention flag (R141, R160, R161). -/
def State.contendedAt (s : State) (addr : Word) : Bool := s.map.ramContended.get (win addr)

/-- `if c then lastContendedMemReadWrite <- v` (R37, R141, R142). -/
def State.noteContended (s : State) (c : Bool) (v : Byte) : State :=
  { s with lastContended := if c then v else s.lastContended }

/-- The feedback term of R164, without a playing tape: none on Plus2A, mask 0x18 on a 48K with Issue 2, else 0x10. -/
def feedbackBit (cfg : Cfg) (arch : Arch) (port254 : Byte) : Bool :=
  if arch = .plus2A then false
  else if arch = .spec48 ∧ cfg.issue2 = true then (port254 &&& 0x18) != 0
  else (port254 &&& 0x10) != 0

/-- `EarTerm()` (R164): a playing tape overrides the feedback term. -/
def State.earTerm (s : State) : Bool × State :=
  let loading := s.ask
  if bit loading.1 0 then
    let ear := loading.2.ask
    (bit ear.1 0, ear.2)
  else (feedbackBit loading.2.cfg loading.2.arch loading.2.port254, loading.2)

end Sys2Proof.Machine
end

