-- ==== Sys2Proof/Machine/MemTxn.lean ====
section
/-! DEFINITION. The memory transactions `RDB`, `WRB`, `RDW`, `WRW` and `TICK` (R140 to R146). -/

namespace Sys2Proof.Machine

/-- A timed byte read (R141): `MEM_TICKS` (R6, R140) first, then the data. -/
def State.readTimed (s : State) (addr : Word) : Byte × State :=
  let c := s.contendedAt addr
  let s1 := s.advance s.cfg.memTicks c
  (s1.memRead addr, s1.noteContended c (s1.memRead addr))

/-- A timed byte write (R142): dropped on ROM, and still charged. -/
def State.writeTimed (s : State) (addr : Word) (v : Byte) : State :=
  let c := s.contendedAt addr
  ((s.advance s.cfg.memTicks c).memWrite addr v).noteContended c v

/-- `RDB addr` (R141). -/
def execRdb (addr : Word) (s : State) : Result :=
  let r := s.readTimed addr
  .next (r.2.give (.byte r.1))

/-- `WRB addr, v` (R142). -/
def execWrb (addr : Word) (v : Byte) (s : State) : Result := .next ((s.writeTimed addr v).give .none)

/-- `RDW addr` (R143): two `RDB`, the second address wrapping. -/
def execRdw (addr : Word) (s : State) : Result :=
  let lo := s.readTimed addr
  let hi := lo.2.readTimed (addr + 1)
  .next (hi.2.give (.word (wordOf hi.1 lo.1)))

/-- `WRW addr, v` (R144): two `WRB`, low byte first. -/
def execWrw (addr : Word) (v : Word) (s : State) : Result :=
  .next (((s.writeTimed addr (loByte v)).writeTimed (addr + 1) (hiByte v)).give .none)

/-- `TICK n` (R145): no contention, no other state. -/
def execTick (n : Nat) (s : State) : Result := .next ({ s with tick := s.tick + n }.give .none)

end Sys2Proof.Machine
end

