-- ==== Sys2Proof/Machine/Ports.lean ====
section
/-! DEFINITION. The static part of the port-address decode tables (format PA): which addresses each row of R99 and R100
matches, whatever the state. -/

namespace Sys2Proof.Machine

/-- A port address has the pattern of a row: `addr & mask == value` (R99, R100). -/
def maskHit (port mask value : Word) : Bool := (port &&& mask) == value

/-- The ULA class: `A0` = 0 (R92, R162). -/
def evenPort (port : Word) : Bool := maskHit port 0x0001 0x0000

/-- The value of `port & 0xE3` that names a Beta-disk register (R166). -/
def TrdosReg.code : TrdosReg → Word
  | .status => 0x0003
  | .track => 0x0023
  | .sector => 0x0043
  | .data => 0x0063
  | .system => 0x00E3

/-- The address mask of an input row (R99; the odd class adds `A0` = 1 to rows 4, 5, 6, as the opcode table writes them). -/
def InRow.mask : InRow → Word
  | .ula => 0x0001
  | .trdos _ => 0x00E3
  | .mouse _ => 0x05FF
  | .kempston => 0x00FF
  | .fuller => 0x00FF
  | .ay => 0xC003
  | .page7 => 0x8003
  | .floatBus => 0x0001

/-- The address value of an input row under its mask (R99). -/
def InRow.value : InRow → Word
  | .ula => 0x0000
  | .trdos r => r.code
  | .mouse .x => 0x01DF
  | .mouse .y => 0x05DF
  | .mouse .buttons => 0x00DF
  | .kempston => 0x001F
  | .fuller => 0x007F
  | .ay => 0xC001
  | .page7 => 0x0001
  | .floatBus => 0x0001

/-- The address mask of an output row (R100). The ZX81-specific row has open values and tests no fixed bit; the Covox row
tests `A0` = 1 (C5; log 16). -/
def OutRow.mask : OutRow → Word
  | .ula => 0x0001
  | .ayZx81 => 0x0000
  | .fullerSel => 0x00FF
  | .fullerDat => 0x00FF
  | .aySel => 0xC002
  | .ayDat => 0xC002
  | .covox => 0x0001
  | .trdos _ => 0x00E3
  | .page7 => 0x8003
  | .page7Plus2A => 0xC003
  | .page1Plus2A => 0xF003

/-- The address value of an output row under its mask (R100). -/
def OutRow.value : OutRow → Word
  | .ula => 0x0000
  | .ayZx81 => 0x0000
  | .fullerSel => 0x003F
  | .fullerDat => 0x005F
  | .aySel => 0xC000
  | .ayDat => 0x8000
  | .covox => 0x0001
  | .trdos r => r.code
  | .page7 => 0x0001
  | .page7Plus2A => 0x4001
  | .page1Plus2A => 0x1001

/-- The address matches the input row's pattern. -/
def InRow.hits (r : InRow) (port : Word) : Bool := maskHit port r.mask r.value

/-- The address matches the output row's pattern. -/
def OutRow.hits (r : OutRow) (port : Word) : Bool := maskHit port r.mask r.value

/-- The odd-class input rows in priority order (R99, R165); the last one matches every odd address. -/
def oddRows : List InRow :=
  [.trdos .status, .trdos .track, .trdos .sector, .trdos .data, .trdos .system, .mouse .x, .mouse .y, .mouse .buttons,
   .kempston, .fuller, .ay, .page7, .floatBus]

/-- The output rows in the order of R190. -/
def outRows : List OutRow :=
  [.ula, .ayZx81, .fullerSel, .fullerDat, .aySel, .ayDat, .covox, .trdos .status, .trdos .track, .trdos .sector,
   .trdos .data, .trdos .system, .page7, .page7Plus2A, .page1Plus2A]

end Sys2Proof.Machine
end

