-- ==== Sys2Proof/Machine/Operands.lean ====
section
/-! DEFINITION. The operand forms of a port access: the ticks charged before it resolves (R160, R190, R233), the keyboard
row select (R96, R98), the floating bus (R236), and when a decode row takes an address (R99, R100). -/

namespace Sys2Proof.Machine

/-- The value of `tick` once the early and late charges of a port access are made (R160, R190, R234, R235). -/
def portTick (s : State) (port : Word) : Nat :=
  let c := s.contendedAt port
  let t := advanceTick s.cfg s.arch 1 c s.tick
  if evenPort port then lateUlaTick s.cfg s.arch t else lateOddTick s.cfg s.arch c t

/-- All the ticks of a port access, before any effect (R233). -/
def State.chargePort (s : State) (port : Word) : State := { s with tick := portTick s port }

/-- `KeyAnd(port)` over rows `r` and up (R163): row `r` is selected when `A(8+r)` = 0 (R96). -/
def keyAndFrom (ports : Vector Byte 128) (port : Word) : Nat → Byte
  | 0 => 0xFF
  | n + 1 =>
    let k := keyAndFrom ports port n
    if port.getLsbD (8 + n) then k else k &&& ports.getD n 0xFF

/-- `KeyAnd(port)` (R163). -/
def keyAnd (ports : Vector Byte 128) (port : Word) : Byte := keyAndFrom ports port 8

/-- `FloatBus()` (R236): changes no state and charges no ticks. -/
def State.floatBus (s : State) : Byte :=
  match floatBusAddr s.cfg s.arch s.tick with
  | none => if s.arch = .plus2A then s.lastContended ||| 0x01 else 0xFF
  | some o => s.readPage s.map.grmem o

/-- The condition of an input row (R99). -/
def InRow.enabled (r : InRow) (s : State) : Bool :=
  match r with
  | .ula => true
  | .trdos _ => s.latches.trdosPaged
  | .mouse _ => s.cfg.mouse
  | .kempston => s.cfg.joystick == .kempston
  | .fuller => s.cfg.joystick == .fuller
  | .ay => s.cfg.ayPresent
  | .page7 => s.arch == .spec128
  | .floatBus => true

/-- The row's condition and mask match (R99). -/
def InRow.takes (r : InRow) (port : Word) (s : State) : Bool := r.enabled s && r.hits port

/-- The condition of an output row (R100, R201). -/
def OutRow.enabled (r : OutRow) (s : State) : Bool :=
  match r with
  | .ula => true
  | .ayZx81 => s.cfg.ayZx81
  | .fullerSel => s.cfg.ayFuller
  | .fullerDat => s.cfg.ayFuller
  | .aySel => s.cfg.ayPresent
  | .ayDat => s.cfg.ayPresent
  | .covox => s.cfg.covoxMode != .none
  | .trdos _ => s.latches.trdosPaged
  | .page7 => s.arch == .spec128 || s.arch == .pentagon
  | .page7Plus2A => s.arch == .plus2A
  | .page1Plus2A => s.arch == .plus2A

/-- The row's condition and mask match (R100). -/
def OutRow.takes (r : OutRow) (port : Word) (s : State) : Bool := r.enabled s && r.hits port

end Sys2Proof.Machine
end

