-- ==== Sys2Proof/Machine/PortIn.lean ====
section
/-! DEFINITION. `INP` and its decode rows (R160 to R174). A row taken by itself charges the access's ticks and is offered
the address; where its condition does not hold the rows after it are consulted, as R99 orders them (log 4). -/

namespace Sys2Proof.Machine

/-- `UlaRead(port)` (R162). -/
def State.ulaRead (s : State) (port : Word) : Byte × State :=
  let e := s.earTerm
  ((keyAnd s.port port &&& 0xBF) ||| (bitByte e.1 <<< 6), e.2)

/-- `Page7Port(v)` (R203, R204): nothing once the lock is set. -/
def State.page7Port (s : State) (v : Byte) : State :=
  if s.latches.pagingLock then s else s.setLatches (pd7Latches s.arch s.latches v)

/-- What a row that takes the address answers (R162 to R172). -/
def InRow.read (r : InRow) (port : Word) (s : State) : Byte × State :=
  match r with
  | .ula => s.ulaRead port
  | .trdos _ => s.ask
  | .mouse _ => s.ask
  | .kempston => (s.port.getD 0x1F 0, s)
  | .fuller => (s.port.getD 0x7F 0, s)
  | .ay => s.ask
  | .page7 => (s.floatBus, s.page7Port s.floatBus)
  | .floatBus => (s.floatBus, s)

/-- The first row that takes the address answers; else the floating bus (R99, R165). -/
def readRows : List InRow → Word → State → Byte × State
  | [], _, s => (s.floatBus, s)
  | r :: rs, port, s => if r.takes port s then r.read port s else readRows rs port s

/-- A port read offered to a list of rows, all ticks first (R160, R233). -/
def inpRows (rows : List InRow) (port : Word) (s : State) : Result :=
  let r := readRows rows port (s.chargePort port)
  .next (r.2.give (.byte r.1))

/-- A row and the rows after it in the odd class (R99). -/
def rowsFrom (r : InRow) : List InRow := oddRows.dropWhile (fun q => q != r)

/-- `INP port` (R160): the ULA answers every even address, the first matching row every odd one. -/
def execInp (port : Word) (s : State) : Result := inpRows (if evenPort port then [.ula] else oddRows) port s

/-- `INP.ULA` (R162). -/
def execInpUla (port : Word) (s : State) : Result := inpRows [.ula] port s

/-- `INP.TRDOS.status` (R166). -/
def execInpTrdosStatus (port : Word) (s : State) : Result := inpRows (rowsFrom (.trdos .status)) port s

/-- `INP.TRDOS.track` (R166). -/
def execInpTrdosTrack (port : Word) (s : State) : Result := inpRows (rowsFrom (.trdos .track)) port s

/-- `INP.TRDOS.sector` (R166). -/
def execInpTrdosSector (port : Word) (s : State) : Result := inpRows (rowsFrom (.trdos .sector)) port s

/-- `INP.TRDOS.data` (R166). -/
def execInpTrdosData (port : Word) (s : State) : Result := inpRows (rowsFrom (.trdos .data)) port s

/-- `INP.TRDOS.system` (R166). -/
def execInpTrdosSystem (port : Word) (s : State) : Result := inpRows (rowsFrom (.trdos .system)) port s

/-- `INP.MOUSE.X` (R167). -/
def execInpMouseX (port : Word) (s : State) : Result := inpRows (rowsFrom (.mouse .x)) port s

/-- `INP.MOUSE.Y` (R167). -/
def execInpMouseY (port : Word) (s : State) : Result := inpRows (rowsFrom (.mouse .y)) port s

/-- `INP.MOUSE.BUTTONS` (R167). -/
def execInpMouseButtons (port : Word) (s : State) : Result := inpRows (rowsFrom (.mouse .buttons)) port s

/-- `INP.KEMPSTON` (R169). -/
def execInpKempston (port : Word) (s : State) : Result := inpRows (rowsFrom .kempston) port s

/-- `INP.FULLER` (R169). -/
def execInpFuller (port : Word) (s : State) : Result := inpRows (rowsFrom .fuller) port s

/-- `INP.AY` (R170). -/
def execInpAy (port : Word) (s : State) : Result := inpRows (rowsFrom .ay) port s

/-- `INP.PAGE7READ` (R171): the floating-bus byte is returned and written back to the paging latches. -/
def execInpPage7Read (port : Word) (s : State) : Result := inpRows (rowsFrom .page7) port s

/-- `INP.FLOATBUS` (R172). -/
def execInpFloatBus (port : Word) (s : State) : Result := inpRows (rowsFrom .floatBus) port s

end Sys2Proof.Machine
end

