-- ==== Sys2Proof/Machine/PortOut.lean ====
section
/-! DEFINITION. `OUTP`, its decode rows and the three data-byte formats (R190 to R211). A row taken by itself charges the
access's ticks and acts where its condition holds (log 4). -/

namespace Sys2Proof.Machine

/-- `UlaWrite(v)` (R192 to R194). -/
def State.ulaWrite (s : State) (v : Byte) : State :=
  let s1 := { s with port254 := v }
  let s2 :=
    if v.extractLsb' 0 3 ≠ s.port254.extractLsb' 0 3 then s1.emit (.borderChange s.tick (v.extractLsb' 0 3)) else s1
  if s.cfg.turbo then s2 else s2.emit (.beeper s.tick (bit v 4) (bit v 3))

/-- `AyWrite(select, v)`: the event, and `ay.sel <- v` (R196). -/
def State.aySelect (s : State) (v : Byte) : State := ({ s with ay := { s.ay with sel := v } }).emit (.ayWrite .select v)

/-- `AyWrite(data, v)`: the event, and `ay.reg[ay.sel & 0x0F] <- v` (R196). -/
def State.ayData (s : State) (v : Byte) : State :=
  ({ s with ay := { s.ay with reg := s.ay.reg.setIfInBounds (s.ay.sel.toNat % 16) v } }).emit (.ayWrite .data v)

/-- The ZX81-specific AY ports (R196): each of the two values of the low byte that matches acts. -/
def State.zx81Write (s : State) (port : Word) (v : Byte) : State :=
  let s1 := if loByte port = s.cfg.ayZx81Sel then s.aySelect v else s
  if loByte port = s.cfg.ayZx81Dat then s1.ayData v else s1

/-- `CovoxWrite(port, v)` (R199): one event per selected channel. -/
def State.covoxWrite (s : State) (port : Word) (v : Byte) : State :=
  (covoxChannels s.cfg port).foldl (fun t c => t.emit (.covoxWrite c v)) s

/-- `Page1Port(v)` (R207): nothing once the lock is set. -/
def State.page1Port (s : State) (v : Byte) : State :=
  if s.latches.pagingLock then s else s.setLatches (pd1Latches s.latches v)

/-- What a row that takes the address does (R192 to R207). -/
def OutRow.act (r : OutRow) (port : Word) (v : Byte) (s : State) : State :=
  match r with
  | .ula => s.ulaWrite v
  | .ayZx81 => s.zx81Write port v
  | .fullerSel => s.aySelect v
  | .fullerDat => s.ayData v
  | .aySel => s.aySelect v
  | .ayDat => s.ayData v
  | .covox => s.covoxWrite port v
  | .trdos q => s.emit (.trdosWrite q v)
  | .page7 => s.page7Port v
  | .page7Plus2A => s.page7Port v
  | .page1Plus2A => s.page1Port v

/-- A row acts where its condition and mask match (R191). -/
def OutRow.write (r : OutRow) (port : Word) (v : Byte) (s : State) : State :=
  if r.takes port s then r.act port v s else s

/-- Every row of a list that matches acts, in order (R190, R191). -/
def writeRows (rows : List OutRow) (port : Word) (v : Byte) (s : State) : State :=
  rows.foldl (fun t r => r.write port v t) s

/-- A port write offered to a list of rows, all ticks first (R190, R233). -/
def outpRows (rows : List OutRow) (port : Word) (v : Byte) (s : State) : Result :=
  .next ((writeRows rows port v (s.chargePort port)).give .none)

/-- `OUTP port, v` (R190). -/
def execOutp (port : Word) (v : Byte) (s : State) : Result := outpRows outRows port v s

/-- `OUTP.ULA` (R192). -/
def execOutpUla (port : Word) (v : Byte) (s : State) : Result := outpRows [.ula] port v s

/-- `OUTP.AYZX81.SEL_DAT` (R196). -/
def execOutpAyZx81 (port : Word) (v : Byte) (s : State) : Result := outpRows [.ayZx81] port v s

/-- `OUTP.AYFULLER.SEL` (R196). -/
def execOutpAyFullerSel (port : Word) (v : Byte) (s : State) : Result := outpRows [.fullerSel] port v s

/-- `OUTP.AYFULLER.DAT` (R196). -/
def execOutpAyFullerDat (port : Word) (v : Byte) (s : State) : Result := outpRows [.fullerDat] port v s

/-- `OUTP.AY.SEL` (R197). -/
def execOutpAySel (port : Word) (v : Byte) (s : State) : Result := outpRows [.aySel] port v s

/-- `OUTP.AY.DAT` (R197). -/
def execOutpAyDat (port : Word) (v : Byte) (s : State) : Result := outpRows [.ayDat] port v s

/-- `OUTP.COVOX` (R199). -/
def execOutpCovox (port : Word) (v : Byte) (s : State) : Result := outpRows [.covox] port v s

/-- `OUTP.TRDOS.command` (R200). -/
def execOutpTrdosCommand (port : Word) (v : Byte) (s : State) : Result := outpRows [.trdos .status] port v s

/-- `OUTP.TRDOS.track` (R200). -/
def execOutpTrdosTrack (port : Word) (v : Byte) (s : State) : Result := outpRows [.trdos .track] port v s

/-- `OUTP.TRDOS.sector` (R200). -/
def execOutpTrdosSector (port : Word) (v : Byte) (s : State) : Result := outpRows [.trdos .sector] port v s

/-- `OUTP.TRDOS.data` (R200). -/
def execOutpTrdosData (port : Word) (v : Byte) (s : State) : Result := outpRows [.trdos .data] port v s

/-- `OUTP.TRDOS.system` (R200). -/
def execOutpTrdosSystem (port : Word) (v : Byte) (s : State) : Result := outpRows [.trdos .system] port v s

/-- `OUTP.PAGE7` (R203). -/
def execOutpPage7 (port : Word) (v : Byte) (s : State) : Result := outpRows [.page7] port v s

/-- `OUTP.PAGE7.2A3` (R206). -/
def execOutpPage7Plus2A (port : Word) (v : Byte) (s : State) : Result := outpRows [.page7Plus2A] port v s

/-- `OUTP.PAGE1.2A3` (R207). -/
def execOutpPage1Plus2A (port : Word) (v : Byte) (s : State) : Result := outpRows [.page1Plus2A] port v s

/-- `PD7` (R93): the byte as the first paging port takes it, on the architectures that have one (R201, R202; log 34). -/
def execPd7 (v : Byte) (s : State) : Result := .next ((if s.arch.is48 then s else s.page7Port v).give .none)

/-- `PD1` (R94): the byte as the second paging port takes it, on Plus2A (R207; log 34). -/
def execPd1 (v : Byte) (s : State) : Result := .next ((if s.arch = .plus2A then s.page1Port v else s).give .none)

/-- `PDU` (R95): the byte as a ULA-class port takes it (R192; log 34). -/
def execPdu (v : Byte) (s : State) : Result := .next ((s.ulaWrite v).give .none)

end Sys2Proof.Machine
end

