-- ==== Sys2Proof/Machine/Sna.lean ====
section
/-! DEFINITION. The SNA format: `LOAD_SNA`, `SAVE_SNA` and the five variant rows (R250 to R268). -/

namespace Sys2Proof.Machine

/-- `SnaArch(variant)` (R252). -/
def snaArch (v : SnaVariant) (s : State) : Arch :=
  match v with
  | .s48 => if s.arch = .spec48 ∨ s.arch = .tk then s.arch else .spec48
  | .s128a | .s128b =>
    if s.arch = .spec128 ∨ s.arch = .pentagon then s.arch
    else match s.cfg.snaPrefers with
      | .spec128 => .spec128
      | .pentagon => .pentagon
  | .s2A3a | .s2A3b => .plus2A

/-- An `IM` field of two bits, `none` where it is 3 (R255, R283). -/
def imOf (v : Byte) : Option IntMode :=
  match (v &&& 0x03).toNat with
  | 0 => some .im0
  | 1 => some .im1
  | 2 => some .im2
  | _ => none

/-- The `IM` byte a saver writes (R263, R301). -/
def imByte : IntMode → Byte
  | .im0 => 0
  | .im1 => 1
  | .im2 => 2

/-- The registers of the SNA header but `IM` (R254, R255). -/
def snaRegs (f : List Byte) (r : Regs) : Regs :=
  { r with
    i := fileByte f 0
    hl2 := le16 f 1
    de2 := le16 f 3
    bc2 := le16 f 5
    f2 := fileByte f 7
    a2 := fileByte f 8
    hl := le16 f 9
    de := le16 f 11
    bc := le16 f 13
    iy := le16 f 15
    ix := le16 f 17
    iff2 := bit (fileByte f 19) 2
    iff1 := bit (fileByte f 19) 2
    r := fileByte f 20
    f := fileByte f 21
    a := fileByte f 22
    sp := le16 f 23 }

/-- `LoadSnaHeader()` (R255): `IM` = 3 is refused once the registers are written. -/
def loadSnaHeader (f : List Byte) (s : State) : Loading :=
  let s1 := { s with regs := snaRegs f s.regs }
  match imOf (fileByte f 25) with
  | none => .error (.badField, s1)
  | some m => .ok (({ s1 with regs := { s1.regs with im := m } }).setBorder ((fileByte f 26).extractLsb' 0 3))

/-- Three blocks of 16384 bytes at offset `o`, into banks 5, 2, 0 (R256, R257, R324). -/
def State.loadThree (s : State) (f : List Byte) (o : Nat) : State :=
  ((s.loadPage (.ram 5) (slice f o pageSize)).loadPage (.ram 2) (slice f (o + 16384) pageSize)).loadPage (.ram 0)
    (slice f (o + 32768) pageSize)

/-- `LoadSna48()` (R256): the latches cleared, the map recomputed, `PC` popped untimed. -/
def loadSna48 (f : List Byte) (s : State) : State :=
  let s1 := (s.loadThree f 27).setLatches Latches.reset
  { s1 with regs := { s1.regs with pc := s1.memRead2 s1.regs.sp, sp := s1.regs.sp + 2 } }

/-- The latches of the 128K-class tail, written directly (R258). -/
def sna128Latches (arch : Arch) (l : Latches) (pb trdosFlag : Byte) : Latches :=
  { pd7Latches arch l pb with trdosPaged := trdosFlag != 0 }

/-- The banks that follow the tail: ascending, without 2, 5 and the current bank (R259, R265). -/
def remainingBanks (cur : BitVec 3) : List (BitVec 3) :=
  [0, 1, 2, 3, 4, 5, 6, 7].filter (fun b => b != 2 && b != 5 && b != cur)

/-- The remaining banks from offset `p` on, in order (R259). -/
def loadBanks (f : List Byte) : List (BitVec 3) → Nat → State → State
  | [], _, s => s
  | b :: bs, p, s => loadBanks f bs (p + 16384) (s.loadPage (.ram b) (slice f p pageSize))

/-- Whether a variant ends in the 18-byte +2A trailer (R251). -/
def SnaVariant.hasTrailer : SnaVariant → Bool
  | .s2A3a | .s2A3b => true
  | .s48 | .s128a | .s128b => false

/-- `LoadSna128()` (R257 to R259). -/
def loadSna128 (v : SnaVariant) (f : List Byte) (s : State) : Loading :=
  let s1 := s.loadThree f 27
  let s2 := { s1 with
    regs := { s1.regs with pc := le16 f 49179 }
    latches := sna128Latches s1.arch s1.latches (fileByte f 49181) (fileByte f 49182) }
  let cur := s2.latches.bankLatch
  let s3 := if cur = 0 then s2 else s2.loadPage (.ram cur) (s2.pageBytes (.ram 0))
  let tailEnd := if v.hasTrailer then f.length - 18 else f.length
  if tailEnd = 49183 + 16384 * (remainingBanks cur).length then .ok (loadBanks f (remainingBanks cur) 49183 s3)
  else .error (.badSize, s3)

/-- `LoadSna2A3Trailer()` (R260). -/
def loadSnaTrailer (f : List Byte) (s : State) : State :=
  let n := f.length
  { s with
    latches := pd1Latches s.latches (fileByte f (n - 18))
    ay := ⟨fileByte f (n - 17), Vector.ofFn (fun i : Fin 16 => fileByte f (n - 16 + i.val))⟩ }

/-- The part of `LOAD_SNA` after `CheatClose()` (R250). -/
def snaPart (v : SnaVariant) (f : List Byte) (s : State) : Loading :=
  match loadSnaHeader f s with
  | .error e => .error e
  | .ok s1 =>
    match v with
    | .s48 => .ok (loadSna48 f s1)
    | .s128a | .s128b => loadSna128 v f s1
    | .s2A3a | .s2A3b =>
      match loadSna128 v f s1 with
      | .error e => .error e
      | .ok s2 => .ok (loadSnaTrailer f s2)

/-- The load of a file as a given variant: its size must be the variant's (R251). -/
def loadSnaAs (v : SnaVariant) (f : List Byte) (s : State) : Result :=
  if f.length = v.size then loadOn (snaArch v s) (snaPart v f) s else .next (s.earlyFailure .badSize)

/-- `LOAD_SNA` of a file (R250). -/
def loadSnaFile (f : List Byte) (s : State) : Result :=
  match snaVariant f.length with
  | some v => loadSnaAs v f s
  | none => .next (s.earlyFailure .badSize)

/-- The 27-byte header a saver writes, with the `SP` field given (R263). -/
def snaHeader (s : State) (sp : Word) : List Byte :=
  let r := s.regs
  [r.i] ++ le16Bytes r.hl2 ++ le16Bytes r.de2 ++ le16Bytes r.bc2 ++ [r.f2, r.a2] ++ le16Bytes r.hl ++ le16Bytes r.de ++
    le16Bytes r.bc ++ le16Bytes r.iy ++ le16Bytes r.ix ++ [bitByte r.iff2 <<< 2, r.r, r.f, r.a] ++ le16Bytes sp ++
    [imByte r.im, s.port254 &&& 0x07]

/-- A byte written at an address of the saved 48K image; one addressed into ROM is dropped (R264). -/
def imageWrite (img : List Byte) (addr : Word) (v : Byte) : List Byte :=
  if addr < 0x4000 then img else img.set (addr - 0x4000).toNat v

/-- The 48K save (R264): `PC` at `SP - 2` of the saved image only. -/
def saveSna48 (s : State) : List Byte :=
  let sp := s.regs.sp - 2
  let img := s.pageBytes (.ram 5) ++ s.pageBytes (.ram 2) ++ s.pageBytes (.ram 0)
  snaHeader s sp ++ imageWrite (imageWrite img sp (loByte s.regs.pc)) (sp + 1) (hiByte s.regs.pc)

/-- The 128K-class save (R265). -/
def saveSna128 (s : State) : List Byte :=
  let cur := s.latches.bankLatch
  snaHeader s s.regs.sp ++ s.pageBytes (.ram 5) ++ s.pageBytes (.ram 2) ++ s.pageBytes (.ram cur) ++
    le16Bytes s.regs.pc ++ [pd7Byte s.latches, bitByte s.latches.trdosPaged] ++
    (remainingBanks cur).flatMap (fun b => s.pageBytes (.ram b))

/-- The +2A trailer (R266). -/
def snaTrailer (s : State) : List Byte := [pd1Byte s.latches, s.ay.sel] ++ s.ay.reg.toList

/-- The file `SAVE_SNA` writes (R262). -/
def saveSnaFile (s : State) : List Byte :=
  match s.arch with
  | .spec48 | .tk => saveSna48 s
  | .spec128 | .pentagon => saveSna128 s
  | .plus2A => saveSna128 s ++ snaTrailer s

/-- `LOAD_SNA` (R250) of the host's operand file. -/
def execLoadSna (s : State) : Result :=
  match s.file with
  | some f => loadSnaFile f s
  | none => loadSnaFile [] s

/-- `SAVE_SNA` (R262): the file is returned, nothing else changes. -/
def execSaveSna (s : State) : Result := .next (s.give (.bytes (saveSnaFile s)))

/-- `SNA.S48` (R251, R256). -/
def execSnaS48 (f : List Byte) (s : State) : Result := loadSnaAs .s48 f s

/-- `SNA.S128a` (R251, R257 to R259). -/
def execSnaS128a (f : List Byte) (s : State) : Result := loadSnaAs .s128a f s

/-- `SNA.S128b` (R251, R257 to R259). -/
def execSnaS128b (f : List Byte) (s : State) : Result := loadSnaAs .s128b f s

/-- `SNA.S2A3a` (R251, R257 to R260). -/
def execSnaS2A3a (f : List Byte) (s : State) : Result := loadSnaAs .s2A3a f s

/-- `SNA.S2A3b` (R251, R257 to R260). -/
def execSnaS2A3b (f : List Byte) (s : State) : Result := loadSnaAs .s2A3b f s

end Sys2Proof.Machine
end

