-- ==== Sys2Proof/Machine/Sp.lean ====
section
/-! DEFINITION. The SP format: `LOAD_SP` and its two variant rows (R320 to R327). There is no SP saver. -/

namespace Sys2Proof.Machine

/-- The registers of the SP header (R321 to R323). -/
def spRegs (f : List Byte) (r : Regs) : Regs :=
  { r with
    bc := le16 f 6
    de := le16 f 8
    hl := le16 f 10
    f := fileByte f 12
    a := fileByte f 13
    ix := le16 f 14
    iy := le16 f 16
    bc2 := le16 f 18
    de2 := le16 f 20
    hl2 := le16 f 22
    f2 := fileByte f 24
    a2 := fileByte f 25
    r := fileByte f 26
    i := fileByte f 27
    sp := le16 f 28
    pc := le16 f 30
    iff1 := bit (loByte (le16 f 36)) 0
    iff2 := bit (loByte (le16 f 36)) 2
    im := if bit (loByte (le16 f 36)) 1 then .im2 else .im1 }

/-- `LoadSpHeader()` and `PC` (R322, R323). -/
def loadSpHeader (f : List Byte) (s : State) : State :=
  { ({ s with regs := spRegs f s.regs }).setBorder ((fileByte f 34).extractLsb' 0 3) with latches := Latches.reset }

/-- `LoadSpMemory(hasRom)` (R324, R325): the embedded ROM page goes to `rom[0]`. -/
def loadSpMemory (rom : Bool) (f : List Byte) (s : State) : State :=
  if rom then (s.loadPage (.rom 0) (slice f 38 pageSize)).loadThree f 16422 else s.loadThree f 38

/-- The part of `LOAD_SP` after `CheatClose()` (R320): it cannot fail. -/
def spPart (rom : Bool) (f : List Byte) (s : State) : Loading := .ok (loadSpMemory rom f (loadSpHeader f s))

/-- The architecture an SP file loads on (R320). -/
def spArch (s : State) : Arch := if s.arch = .spec48 ∨ s.arch = .tk then s.arch else .spec48

/-- `LOAD_SP` of a file (R320): every refusal comes before any state is changed. -/
def loadSpFile (f : List Byte) (s : State) : Result :=
  match spKind f with
  | .error r => .next (s.earlyFailure r)
  | .ok rom => loadOn (spArch s) (spPart rom f) s

/-- The load of a file as one of the two variants; a file of the other one is refused. -/
def loadSpAs (rom : Bool) (f : List Byte) (s : State) : Result :=
  match spKind f with
  | .error r => .next (s.earlyFailure r)
  | .ok b => if b = rom then loadOn (spArch s) (spPart rom f) s else .next (s.earlyFailure .badField)

/-- `LOAD_SP` (R320) of the host's operand file. -/
def execLoadSp (s : State) : Result :=
  match s.file with
  | some f => loadSpFile f s
  | none => loadSpFile [] s

/-- `SP.noROM` (R320, R324). -/
def execSpNoRom (f : List Byte) (s : State) : Result := loadSpAs false f s

/-- `SP.withROM` (R320, R324, R325). -/
def execSpWithRom (f : List Byte) (s : State) : Result := loadSpAs true f s

end Sys2Proof.Machine
end

