-- ==== Sys2Proof/Machine/Rle.lean ====
section
/-! DEFINITION. The run-length coding of Z80 files (R292 to R299) and the meanings of its rows `RLE.escape` and
`RLE.escape.count0`. -/

namespace Sys2Proof.Machine

/-- The escape byte (R293). -/
def escByte : Byte := 0xED

/-- `Decompress(src, memlen)` (R294 to R296): two adjacent escape bytes at the read position start an escape, an escape cut
short by the end stops, and `memlen` is a hard stop. -/
def decompress : List Byte → Nat → List Byte
  | _, 0 => []
  | [], _ => []
  | [a], _ + 1 => [a]
  | a :: b :: rest, m + 1 =>
    if a = escByte ∧ b = escByte then
      match rest with
      | c :: v :: rest => List.replicate (min c.toNat (m + 1)) v ++ decompress rest (m + 1 - min c.toNat (m + 1))
      | _ => []
    else a :: decompress (b :: rest) m

/-- How many bytes equal to `b` the string starts with (R297). -/
def runLength (b : Byte) : List Byte → Nat
  | [] => 0
  | c :: cs => if c = b then runLength b cs + 1 else 0

/-- `Compress` with fuel: one literal, run or escape a turn (R297, R298). -/
def compressFuel : Nat → List Byte → List Byte
  | 0, _ => []
  | _, [] => []
  | fuel + 1, b :: rest =>
    let run := min (runLength b (b :: rest)) 255
    if b = escByte then
      if 2 ≤ run then
        [escByte, escByte, BitVec.ofNat 8 run, escByte] ++ compressFuel fuel ((b :: rest).drop run)
      else
        match rest with
        | [] => [escByte]
        | c :: rest => escByte :: c :: compressFuel fuel rest
    else if 5 ≤ run then
      [escByte, escByte, BitVec.ofNat 8 run, b] ++ compressFuel fuel ((b :: rest).drop run)
    else
      List.replicate run b ++ compressFuel fuel ((b :: rest).drop run)

/-- `Compress(src)` (R297). -/
def compress (src : List Byte) : List Byte := compressFuel src.length src

/-- `RLE.escape` (R293): `ED ED <count> <value>` stands for `count` copies of `value`, which the codec returns; nothing
else changes (R292). -/
def execRleEscape (count value : Byte) (s : State) : Result :=
  .next (s.give (.bytes (decompress [escByte, escByte, count, value] 255)))

/-- `RLE.escape.count0` (R296): all four bytes are consumed and no byte results. -/
def execRleEscapeCount0 (value : Byte) (s : State) : Result :=
  .next (s.give (.bytes (decompress [escByte, escByte, 0x00, value] 255)))

end Sys2Proof.Machine
end

