-- ==== Sys2Proof/Machine/Z80File.lean ====
section
/-! DEFINITION. The Z80 file format: `LOAD_Z80`, `SAVE_Z80`, the three version rows, the memory block and the v1
terminator (R280 to R304). -/

namespace Sys2Proof.Machine

/-- `ver` as `Z80MachineMap` takes it (R288). -/
def Z80Ver.num : Z80Ver → Nat
  | .v1 => 1
  | .v2 => 2
  | .v3 => 3

/-- `Z80Arch(ver)` (R287). -/
def z80Arch (v : Z80Ver) (f : List Byte) (s : State) : Except LoadFailure Arch :=
  match v with
  | .v1 => .ok (if s.arch = .spec48 ∨ s.arch = .tk then s.arch else .spec48)
  | .v2 | .v3 =>
    if f.length < 35 then .error .badSize
    else
      match z80MachineMap s.cfg v.num (fileByte f 34) with
      | none => .error .unknownMachine
      | some m => .ok (if m = .spec48 ∧ s.arch = .tk then .tk else m)

/-- The flags byte, 255 read as 1 (R282, R283). -/
def z80Flags (f : List Byte) : Byte := if fileByte f 12 = 255 then 1 else fileByte f 12

/-- The registers of the fixed header but `PC` and `IM` (R282, R283). -/
def z80Regs (f : List Byte) (r : Regs) : Regs :=
  { r with
    a := fileByte f 0
    f := fileByte f 1
    bc := le16 f 2
    hl := le16 f 4
    sp := le16 f 8
    i := fileByte f 10
    r := (fileByte f 11 &&& 0x7F) ||| (bitByte (bit (z80Flags f) 0) <<< 7)
    de := le16 f 13
    bc2 := le16 f 15
    de2 := le16 f 17
    hl2 := le16 f 19
    a2 := fileByte f 21
    f2 := fileByte f 22
    iy := le16 f 23
    ix := le16 f 25
    iff1 := fileByte f 27 != 0
    iff2 := fileByte f 28 != 0 }

/-- `LoadZ80Header()` (R283): the border event comes before the `IM` field is refused. -/
def loadZ80Header (f : List Byte) (s : State) : Loading :=
  let s1 := ({ s with regs := z80Regs f s.regs }).setBorder ((z80Flags f).extractLsb' 1 3)
  match imOf (fileByte f 29) with
  | none => .error (.badField, s1)
  | some m => .ok { s1 with regs := { s1.regs with im := m } }

/-- A compressed v1 body without its terminator, where it ends in one (R284). -/
def stripTerminator (body : List Byte) : List Byte := if endsInTerminator body then withoutTail body else body

/-- The 48K memory image of a v1 file (R284). -/
def z80V1Image (f : List Byte) : Except LoadFailure (List Byte) :=
  let body := f.drop 30
  if bit (z80Flags f) 5 then
    let img := decompress (stripTerminator body) 49152
    if img.length = 49152 then .ok img else .error .truncated
  else if body.length = 49152 then .ok body
  else .error .badSize

/-- `LoadZ80V1()` (R284). -/
def loadZ80V1 (f : List Byte) (s : State) : Loading :=
  let s1 := { s with regs := { s.regs with pc := le16 f 6 } }
  match z80V1Image f with
  | .error r => .error (r, s1)
  | .ok img => .ok { s1.loadThree img 0 with latches := Latches.reset }

/-- The latches `LoadZ80Ext()` writes (R286). -/
def z80ExtLatches (f : List Byte) (arch : Arch) (l : Latches) : Latches :=
  if arch.is48 then Latches.reset
  else
    let l1 := { pd7Latches arch l (fileByte f 35) with trdosPaged := false }
    if arch = .plus2A then pd1Latches l1 (if z80ExtLen f = 55 then fileByte f 86 else 0) else l1

/-- `LoadZ80Ext()` (R286). -/
def loadZ80Ext (f : List Byte) (s : State) : Loading :=
  if f.length < 32 + z80ExtLen f then .error (.badSize, s)
  else .ok { s with regs := { s.regs with pc := le16 f 32 }, latches := z80ExtLatches f s.arch s.latches }

/-- `LoadZ80Page(id, page)` (R290): an id the map skips loads nothing. -/
def loadZ80Page (id : Byte) (page : List Byte) (s : State) : State :=
  match z80PageMap s.cfg s.arch id with
  | some b => s.loadPage (.ram b) page
  | none => s

/-- One block of `LoadZ80Blocks()` once its data is cut out of the file (R289). -/
def loadZ80Block (len : Word) (id : Byte) (data : List Byte) (s : State) : Loading :=
  let page := if len = 0xFFFF then data else decompress data 16384
  if page.length = 16384 then .ok (loadZ80Page id page s) else .error (.truncated, s)

/-- `LoadZ80Blocks()` over the rest of the file (R289); each turn takes at least the three header bytes, so the length is
fuel enough. -/
def loadZ80Blocks : Nat → List Byte → State → Loading
  | 0, _, s => .ok s
  | fuel + 1, rest, s =>
    if rest.isEmpty then .ok s
    else if rest.length < 3 then .error (.truncated, s)
    else
      let n := blockDataLen (le16 rest 0)
      if rest.length - 3 < n then .error (.truncated, s)
      else
        match loadZ80Block (le16 rest 0) (fileByte rest 2) (slice rest 3 n) s with
        | .error e => .error e
        | .ok s1 => loadZ80Blocks fuel (rest.drop (3 + n)) s1

/-- The part of `LOAD_Z80` after `CheatClose()` (R280). -/
def z80Part (v : Z80Ver) (f : List Byte) (s : State) : Loading :=
  match loadZ80Header f s with
  | .error e => .error e
  | .ok s1 =>
    match v with
    | .v1 => loadZ80V1 f s1
    | .v2 | .v3 =>
      match loadZ80Ext f s1 with
      | .error e => .error e
      | .ok s2 => loadZ80Blocks f.length (f.drop (32 + z80ExtLen f)) s2

/-- The load of a file whose version is known (R280, R287). -/
def loadZ80At (v : Z80Ver) (f : List Byte) (s : State) : Result :=
  match z80Arch v f s with
  | .error r => .next (s.earlyFailure r)
  | .ok target => loadOn target (z80Part v f) s

/-- `LOAD_Z80` of a file (R280): both checks run before any state is changed. -/
def loadZ80File (f : List Byte) (s : State) : Result :=
  if f.length < 30 then .next (s.earlyFailure .badSize)
  else
    match z80Version f with
    | .error r => .next (s.earlyFailure r)
    | .ok v => loadZ80At v f s

/-- The load of a file as a given version: a file of another version is refused (R281). -/
def loadZ80As (v : Z80Ver) (f : List Byte) (s : State) : Result :=
  if f.length < 30 then .next (s.earlyFailure .badSize)
  else
    match z80Version f with
    | .error r => .next (s.earlyFailure r)
    | .ok w => if w = v then loadZ80At v f s else .next (s.earlyFailure .unknownVersion)

/-- `L` of a saved file: 55 on Plus2A, 54 otherwise (R300). -/
def saveZ80ExtLen (arch : Arch) : Nat := if arch = .plus2A then 55 else 54

/-- The fixed header of a saved file, with `PC` zero (R282, R301). -/
def z80FixedHeader (s : State) : List Byte :=
  let r := s.regs
  [r.a, r.f] ++ le16Bytes r.bc ++ le16Bytes r.hl ++ ([0, 0] : List Byte) ++ le16Bytes r.sp ++
    [r.i, r.r, bitByte (bit r.r 7) ||| ((s.port254 &&& 0x07) <<< 1)] ++ le16Bytes r.de ++ le16Bytes r.bc2 ++
    le16Bytes r.de2 ++ le16Bytes r.hl2 ++ [r.a2, r.f2] ++ le16Bytes r.iy ++ le16Bytes r.ix ++
    [bitByte r.iff1, bitByte r.iff2, imByte r.im]

/-- The extended header of a saved file (R285, R301). -/
def z80ExtHeader (s : State) : List Byte :=
  le16Bytes (BitVec.ofNat 16 (saveZ80ExtLen s.arch)) ++ le16Bytes s.regs.pc ++
    ([pick s.cfg.z80SaveCode s.arch, if s.arch.is48 then 0 else pd7Byte s.latches] : List Byte) ++
    (List.replicate 50 0 : List Byte) ++ (if s.arch = .plus2A then [pd1Byte s.latches] else [])

/-- The blocks of a saved file: page id and bank, in order (R302). R302 lists the ids and calls them the inverse of R291's
maps, which are open; where a configuration's maps are not R291's defaults the ids written stay R302's list (DESIGN CHOICE,
log 39). -/
def z80SaveBanks (arch : Arch) : List (Byte × BitVec 3) :=
  if arch.is48 then [(4, 2), (5, 0), (8, 5)]
  else [(3, 0), (4, 1), (5, 2), (6, 3), (7, 4), (8, 5), (9, 6), (10, 7)]

/-- One saved block (R302). -/
def z80SaveBlock (s : State) (e : Byte × BitVec 3) : List Byte :=
  let c := compress (s.pageBytes (.ram e.2))
  le16Bytes (BitVec.ofNat 16 c.length) ++ [e.1] ++ c

/-- The file `SAVE_Z80` writes, always version 3 (R300 to R302). -/
def saveZ80File (s : State) : List Byte :=
  z80FixedHeader s ++ z80ExtHeader s ++ (z80SaveBanks s.arch).flatMap (z80SaveBlock s)

/-- `LOAD_Z80` (R280) of the host's operand file. -/
def execLoadZ80 (s : State) : Result :=
  match s.file with
  | some f => loadZ80File f s
  | none => loadZ80File [] s

/-- `SAVE_Z80` (R300): the file is returned, nothing else changes. -/
def execSaveZ80 (s : State) : Result := .next (s.give (.bytes (saveZ80File s)))

/-- `Z80.v1` (R281, R284). -/
def execZ80V1 (f : List Byte) (s : State) : Result := loadZ80As .v1 f s

/-- `Z80.v2` (R281, R286, R289). -/
def execZ80V2 (f : List Byte) (s : State) : Result := loadZ80As .v2 f s

/-- `Z80.v3` (R281, R286, R289). -/
def execZ80V3 (f : List Byte) (s : State) : Result := loadZ80As .v3 f s

/-- `Z80.block` (R289, R290): one block loaded into the bank its page id names; data that is not as long as the length
field says, or that decompresses short, is `truncated`, a late failure (R303). -/
def execZ80Block (len : Word) (id : Byte) (data : List Byte) (s : State) : Result :=
  if data.length = blockDataLen len then
    match loadZ80Block len id data s with
    | .ok s1 => .next (s1.give .loaded)
    | .error (r, s1) => .next (s1.lateFailure r)
  else .next (s.lateFailure .truncated)

/-- `Z80.v1.terminator` (R284): the four bytes end the body and are not data; what is left of the body is returned. -/
def execZ80V1Terminator (body : List Byte) (s : State) : Result :=
  .next (s.give (.bytes (stripTerminator (body ++ z80Terminator))))

end Sys2Proof.Machine
end

