-- ==== Sys2Proof/Syntax.lean ====
section
/-! DEFINITION. The instructions: one constructor per row of spec/opcode_table.json. The T rows are the seven bus
transactions and the ten host commands; the PA rows are the same port transactions taken by one decode row; the data-byte
rows and file rows are the encoded inputs those act on. -/

namespace Sys2Proof

open Machine

/-- One constructor per row of the opcode table; operands as R90, R98 and the file rules give them. -/
inductive Instr where
  /-- `RDB addr` (R141). -/
  | rdb (addr : Word)
  /-- `WRB addr, v` (R142). -/
  | wrb (addr : Word) (v : Byte)
  /-- `RDW addr` (R143). -/
  | rdw (addr : Word)
  /-- `WRW addr, v` (R144). -/
  | wrw (addr : Word) (v : Word)
  /-- `INP port` (R160). -/
  | inp (port : Word)
  /-- `OUTP port, v` (R190). -/
  | outp (port : Word) (v : Byte)
  /-- `TICK n` (R145). -/
  | tick (n : Nat)
  /-- `RESET` (R390). -/
  | reset
  /-- `LOAD_SNA` (R250): the file is the host's operand. -/
  | loadSna
  /-- `SAVE_SNA` (R262). -/
  | saveSna
  /-- `LOAD_Z80` (R280). -/
  | loadZ80
  /-- `SAVE_Z80` (R300). -/
  | saveZ80
  /-- `LOAD_SP` (R320). -/
  | loadSp
  /-- `CHEAT_LOAD` (R337). -/
  | cheatLoad
  /-- `CHEAT_APPLY` (R342). -/
  | cheatApply
  /-- `CHEAT_FETCH` (R345). -/
  | cheatFetch
  /-- `CHEAT_CLOSE` (R349). -/
  | cheatClose
  /-- A record with a reserved slot (R110). -/
  | reserved (slot : Byte)
  /-- `INP.ULA` (R162). -/
  | inpUla (port : Word)
  /-- `INP.TRDOS.status` (R166). -/
  | inpTrdosStatus (port : Word)
  /-- `INP.TRDOS.track` (R166). -/
  | inpTrdosTrack (port : Word)
  /-- `INP.TRDOS.sector` (R166). -/
  | inpTrdosSector (port : Word)
  /-- `INP.TRDOS.data` (R166). -/
  | inpTrdosData (port : Word)
  /-- `INP.TRDOS.system` (R166). -/
  | inpTrdosSystem (port : Word)
  /-- `INP.MOUSE.X` (R167). -/
  | inpMouseX (port : Word)
  /-- `INP.MOUSE.Y` (R167). -/
  | inpMouseY (port : Word)
  /-- `INP.MOUSE.BUTTONS` (R167). -/
  | inpMouseButtons (port : Word)
  /-- `INP.KEMPSTON` (R169). -/
  | inpKempston (port : Word)
  /-- `INP.FULLER` (R169). -/
  | inpFuller (port : Word)
  /-- `INP.AY` (R170). -/
  | inpAy (port : Word)
  /-- `INP.PAGE7READ` (R171). -/
  | inpPage7Read (port : Word)
  /-- `INP.FLOATBUS` (R172). -/
  | inpFloatBus (port : Word)
  /-- `OUTP.ULA` (R192). -/
  | outpUla (port : Word) (v : Byte)
  /-- `OUTP.AYZX81.SEL_DAT` (R196). -/
  | outpAyZx81 (port : Word) (v : Byte)
  /-- `OUTP.AYFULLER.SEL` (R196). -/
  | outpAyFullerSel (port : Word) (v : Byte)
  /-- `OUTP.AYFULLER.DAT` (R196). -/
  | outpAyFullerDat (port : Word) (v : Byte)
  /-- `OUTP.AY.SEL` (R197). -/
  | outpAySel (port : Word) (v : Byte)
  /-- `OUTP.AY.DAT` (R197). -/
  | outpAyDat (port : Word) (v : Byte)
  /-- `OUTP.COVOX` (R199). -/
  | outpCovox (port : Word) (v : Byte)
  /-- `OUTP.TRDOS.command` (R200). -/
  | outpTrdosCommand (port : Word) (v : Byte)
  /-- `OUTP.TRDOS.track` (R200). -/
  | outpTrdosTrack (port : Word) (v : Byte)
  /-- `OUTP.TRDOS.sector` (R200). -/
  | outpTrdosSector (port : Word) (v : Byte)
  /-- `OUTP.TRDOS.data` (R200). -/
  | outpTrdosData (port : Word) (v : Byte)
  /-- `OUTP.TRDOS.system` (R200). -/
  | outpTrdosSystem (port : Word) (v : Byte)
  /-- `OUTP.PAGE7` (R203). -/
  | outpPage7 (port : Word) (v : Byte)
  /-- `OUTP.PAGE7.2A3` (R206). -/
  | outpPage7Plus2A (port : Word) (v : Byte)
  /-- `OUTP.PAGE1.2A3` (R207). -/
  | outpPage1Plus2A (port : Word) (v : Byte)
  /-- `PD7`: the data byte of the first paging port (R93). -/
  | pd7 (v : Byte)
  /-- `PD1`: the data byte of the second paging port (R94). -/
  | pd1 (v : Byte)
  /-- `PDU`: the data byte of a ULA-class port (R95). -/
  | pdu (v : Byte)
  /-- `SNA.S48` (R251, R256). -/
  | snaS48 (file : List Byte)
  /-- `SNA.S128a` (R251, R257 to R259). -/
  | snaS128a (file : List Byte)
  /-- `SNA.S128b`. -/
  | snaS128b (file : List Byte)
  /-- `SNA.S2A3a` (R251, R257 to R260). -/
  | snaS2A3a (file : List Byte)
  /-- `SNA.S2A3b`. -/
  | snaS2A3b (file : List Byte)
  /-- `Z80.v1` (R281, R284). -/
  | z80V1 (file : List Byte)
  /-- `Z80.v2` (R281, R286, R289). -/
  | z80V2 (file : List Byte)
  /-- `Z80.v3`. -/
  | z80V3 (file : List Byte)
  /-- `Z80.block` (R289): length field, page id, data. -/
  | z80Block (len : Word) (id : Byte) (data : List Byte)
  /-- `Z80.v1.terminator` (R284): the body the terminator ends. -/
  | z80V1Terminator (body : List Byte)
  /-- `RLE.escape` (R293): count 1 to 255, value. -/
  | rleEscape (count value : Byte)
  /-- `RLE.escape.count0` (R296). -/
  | rleEscapeCount0 (value : Byte)
  /-- `SP.noROM` (R320). -/
  | spNoRom (file : List Byte)
  /-- `SP.withROM` (R320, R325). -/
  | spWithRom (file : List Byte)
  /-- `POK.N`: the line after its tag (R338). -/
  | pokN (rest : List Byte)
  /-- `POK.M` (R338). -/
  | pokM (rest : List Byte)
  /-- `POK.Z` (R338). -/
  | pokZ (rest : List Byte)
  deriving DecidableEq, Repr

end Sys2Proof
end

