-- ==== Sys2Proof/Machine/Dispatch.lean ====
section
/-! DEFINITION. The meaning of every instruction, one arm per row of the opcode table. -/

namespace Sys2Proof.Machine

def exec (i : Instr) (s : State) : Host.Outcome State Fault Refusal :=
  match i with
  | .rdb addr => Sys2Proof.Machine.execRdb addr s
  | .wrb addr v => Sys2Proof.Machine.execWrb addr v s
  | .rdw addr => Sys2Proof.Machine.execRdw addr s
  | .wrw addr v => Sys2Proof.Machine.execWrw addr v s
  | .inp port => Sys2Proof.Machine.execInp port s
  | .outp port v => Sys2Proof.Machine.execOutp port v s
  | .tick n => Sys2Proof.Machine.execTick n s
  | .reset => Sys2Proof.Machine.execReset s
  | .loadSna => Sys2Proof.Machine.execLoadSna s
  | .saveSna => Sys2Proof.Machine.execSaveSna s
  | .loadZ80 => Sys2Proof.Machine.execLoadZ80 s
  | .saveZ80 => Sys2Proof.Machine.execSaveZ80 s
  | .loadSp => Sys2Proof.Machine.execLoadSp s
  | .cheatLoad => Sys2Proof.Machine.execCheatLoad s
  | .cheatApply => Sys2Proof.Machine.execCheatApply s
  | .cheatFetch => Sys2Proof.Machine.execCheatFetch s
  | .cheatClose => Sys2Proof.Machine.execCheatClose s
  | .reserved slot => Sys2Proof.Machine.execReserved slot s
  | .inpUla port => Sys2Proof.Machine.execInpUla port s
  | .inpTrdosStatus port => Sys2Proof.Machine.execInpTrdosStatus port s
  | .inpTrdosTrack port => Sys2Proof.Machine.execInpTrdosTrack port s
  | .inpTrdosSector port => Sys2Proof.Machine.execInpTrdosSector port s
  | .inpTrdosData port => Sys2Proof.Machine.execInpTrdosData port s
  | .inpTrdosSystem port => Sys2Proof.Machine.execInpTrdosSystem port s
  | .inpMouseX port => Sys2Proof.Machine.execInpMouseX port s
  | .inpMouseY port => Sys2Proof.Machine.execInpMouseY port s
  | .inpMouseButtons port => Sys2Proof.Machine.execInpMouseButtons port s
  | .inpKempston port => Sys2Proof.Machine.execInpKempston port s
  | .inpFuller port => Sys2Proof.Machine.execInpFuller port s
  | .inpAy port => Sys2Proof.Machine.execInpAy port s
  | .inpPage7Read port => Sys2Proof.Machine.execInpPage7Read port s
  | .inpFloatBus port => Sys2Proof.Machine.execInpFloatBus port s
  | .outpUla port v => Sys2Proof.Machine.execOutpUla port v s
  | .outpAyZx81 port v => Sys2Proof.Machine.execOutpAyZx81 port v s
  | .outpAyFullerSel port v => Sys2Proof.Machine.execOutpAyFullerSel port v s
  | .outpAyFullerDat port v => Sys2Proof.Machine.execOutpAyFullerDat port v s
  | .outpAySel port v => Sys2Proof.Machine.execOutpAySel port v s
  | .outpAyDat port v => Sys2Proof.Machine.execOutpAyDat port v s
  | .outpCovox port v => Sys2Proof.Machine.execOutpCovox port v s
  | .outpTrdosCommand port v => Sys2Proof.Machine.execOutpTrdosCommand port v s
  | .outpTrdosTrack port v => Sys2Proof.Machine.execOutpTrdosTrack port v s
  | .outpTrdosSector port v => Sys2Proof.Machine.execOutpTrdosSector port v s
  | .outpTrdosData port v => Sys2Proof.Machine.execOutpTrdosData port v s
  | .outpTrdosSystem port v => Sys2Proof.Machine.execOutpTrdosSystem port v s
  | .outpPage7 port v => Sys2Proof.Machine.execOutpPage7 port v s
  | .outpPage7Plus2A port v => Sys2Proof.Machine.execOutpPage7Plus2A port v s
  | .outpPage1Plus2A port v => Sys2Proof.Machine.execOutpPage1Plus2A port v s
  | .pd7 v => Sys2Proof.Machine.execPd7 v s
  | .pd1 v => Sys2Proof.Machine.execPd1 v s
  | .pdu v => Sys2Proof.Machine.execPdu v s
  | .snaS48 file => Sys2Proof.Machine.execSnaS48 file s
  | .snaS128a file => Sys2Proof.Machine.execSnaS128a file s
  | .snaS128b file => Sys2Proof.Machine.execSnaS128b file s
  | .snaS2A3a file => Sys2Proof.Machine.execSnaS2A3a file s
  | .snaS2A3b file => Sys2Proof.Machine.execSnaS2A3b file s
  | .z80V1 file => Sys2Proof.Machine.execZ80V1 file s
  | .z80V2 file => Sys2Proof.Machine.execZ80V2 file s
  | .z80V3 file => Sys2Proof.Machine.execZ80V3 file s
  | .z80Block len id data => Sys2Proof.Machine.execZ80Block len id data s
  | .z80V1Terminator body => Sys2Proof.Machine.execZ80V1Terminator body s
  | .rleEscape count value => Sys2Proof.Machine.execRleEscape count value s
  | .rleEscapeCount0 value => Sys2Proof.Machine.execRleEscapeCount0 value s
  | .spNoRom file => Sys2Proof.Machine.execSpNoRom file s
  | .spWithRom file => Sys2Proof.Machine.execSpWithRom file s
  | .pokN rest => Sys2Proof.Machine.execPokN rest s
  | .pokM rest => Sys2Proof.Machine.execPokM rest s
  | .pokZ rest => Sys2Proof.Machine.execPokZ rest s

end Sys2Proof.Machine
end

