-- ==== Sys2Proof/WellFormed.lean ====
section
/-! DEFINITION. Which instructions are well formed: the operands the encodings of 30_encoding allow. -/

namespace Sys2Proof

open Machine

/-- A slot no transaction or command has (R91, R110). -/
def reservedSlot (slot : Byte) : Bool := (7 ≤ slot.toNat && slot.toNat ≤ 15) || 26 ≤ slot.toNat

/-- A `.pok` line holds no line end (R338). -/
def oneLine (rest : List Byte) : Bool := !rest.contains newline

/-- A file of this Z80 version (R280, R281). -/
def isZ80 (v : Z80Ver) (f : List Byte) : Bool :=
  decide (30 ≤ f.length) &&
    match z80Version f with
    | .ok w => w == v
    | .error _ => false

/-- An SP file with or without the ROM page (R320). -/
def isSp (rom : Bool) (f : List Byte) : Bool :=
  match spKind f with
  | .ok b => b == rom
  | .error _ => false

/-- The operands are ones the instruction's encoding admits. -/
def Instr.wf : Instr → Bool
  | .rdb _ | .wrb _ _ | .rdw _ | .wrw _ _ | .inp _ | .outp _ _ => true
  | .tick n => decide (n < 65536)
  | .reset | .loadSna | .saveSna | .loadZ80 | .saveZ80 | .loadSp => true
  | .cheatLoad | .cheatApply | .cheatFetch | .cheatClose => true
  | .reserved slot => Sys2Proof.reservedSlot slot
  | .inpUla p => InRow.ula.hits p
  | .inpTrdosStatus p => (InRow.trdos .status).hits p
  | .inpTrdosTrack p => (InRow.trdos .track).hits p
  | .inpTrdosSector p => (InRow.trdos .sector).hits p
  | .inpTrdosData p => (InRow.trdos .data).hits p
  | .inpTrdosSystem p => (InRow.trdos .system).hits p
  | .inpMouseX p => (InRow.mouse .x).hits p
  | .inpMouseY p => (InRow.mouse .y).hits p
  | .inpMouseButtons p => (InRow.mouse .buttons).hits p
  | .inpKempston p => InRow.kempston.hits p
  | .inpFuller p => InRow.fuller.hits p
  | .inpAy p => InRow.ay.hits p
  | .inpPage7Read p => InRow.page7.hits p
  | .inpFloatBus p => InRow.floatBus.hits p
  | .outpUla p _ => OutRow.ula.hits p
  | .outpAyZx81 p _ => OutRow.ayZx81.hits p
  | .outpAyFullerSel p _ => OutRow.fullerSel.hits p
  | .outpAyFullerDat p _ => OutRow.fullerDat.hits p
  | .outpAySel p _ => OutRow.aySel.hits p
  | .outpAyDat p _ => OutRow.ayDat.hits p
  | .outpCovox p _ => OutRow.covox.hits p
  | .outpTrdosCommand p _ => (OutRow.trdos .status).hits p
  | .outpTrdosTrack p _ => (OutRow.trdos .track).hits p
  | .outpTrdosSector p _ => (OutRow.trdos .sector).hits p
  | .outpTrdosData p _ => (OutRow.trdos .data).hits p
  | .outpTrdosSystem p _ => (OutRow.trdos .system).hits p
  | .outpPage7 p _ => OutRow.page7.hits p
  | .outpPage7Plus2A p _ => OutRow.page7Plus2A.hits p
  | .outpPage1Plus2A p _ => OutRow.page1Plus2A.hits p
  | .pd7 _ | .pd1 _ | .pdu _ => true
  | .snaS48 f => f.length == SnaVariant.s48.size
  | .snaS128a f => f.length == SnaVariant.s128a.size
  | .snaS128b f => f.length == SnaVariant.s128b.size
  | .snaS2A3a f => f.length == SnaVariant.s2A3a.size
  | .snaS2A3b f => f.length == SnaVariant.s2A3b.size
  | .z80V1 f => isZ80 .v1 f
  | .z80V2 f => isZ80 .v2 f
  | .z80V3 f => isZ80 .v3 f
  | .z80Block len _ data => data.length == blockDataLen len
  | .z80V1Terminator _ => true
  | .rleEscape c _ => c != 0
  | .rleEscapeCount0 _ => true
  | .spNoRom f => isSp false f
  | .spWithRom f => isSp true f
  | .pokN rest | .pokM rest | .pokZ rest => oneLine rest

end Sys2Proof
end

