-- ==== Sys2Proof/Decode.lean ====
section
/-! DEFINITION. The decoder, total on any bytes, and the encoder, from the encoding tables of 30_encoding (R90 to R101,
R110, R112, R113, R251, R281, R289, R293, R320, R338). -/

namespace Sys2Proof

open Machine

/-- The transaction or command of a slot (R91); `addr` and `data` as R90 gives them, ignored where the row ignores them.
Byte 4 of an 8-bit datum is masked off (log 26). -/
def slotInstr (slot : Byte) (addr data : Word) : Instr :=
  match slot.toNat with
  | 0x00 => .rdb addr
  | 0x01 => .wrb addr (loByte data)
  | 0x02 => .rdw addr
  | 0x03 => .wrw addr data
  | 0x04 => .inp addr
  | 0x05 => .outp addr (loByte data)
  | 0x06 => .tick data.toNat
  | 0x10 => .reset
  | 0x11 => .loadSna
  | 0x12 => .saveSna
  | 0x13 => .loadZ80
  | 0x14 => .saveZ80
  | 0x15 => .loadSp
  | 0x16 => .cheatLoad
  | 0x17 => .cheatApply
  | 0x18 => .cheatFetch
  | 0x19 => .cheatClose
  | _ => .reserved slot

/-- A format T record (R90). -/
def decodeRecord : List Byte → Except Reject Instr
  | [slot, a0, a1, d0, d1] => .ok (slotInstr slot (wordOf a1 a0) (wordOf d1 d0))
  | _ => .error .wrongLength

/-- The instruction of an input row (R99). -/
def inRowInstr (r : InRow) (port : Word) : Instr :=
  match r with
  | .ula => .inpUla port
  | .trdos .status => .inpTrdosStatus port
  | .trdos .track => .inpTrdosTrack port
  | .trdos .sector => .inpTrdosSector port
  | .trdos .data => .inpTrdosData port
  | .trdos .system => .inpTrdosSystem port
  | .mouse .x => .inpMouseX port
  | .mouse .y => .inpMouseY port
  | .mouse .buttons => .inpMouseButtons port
  | .kempston => .inpKempston port
  | .fuller => .inpFuller port
  | .ay => .inpAy port
  | .page7 => .inpPage7Read port
  | .floatBus => .inpFloatBus port

/-- The instruction of an output row (R100). -/
def outRowInstr (r : OutRow) (port : Word) (v : Byte) : Instr :=
  match r with
  | .ula => .outpUla port v
  | .ayZx81 => .outpAyZx81 port v
  | .fullerSel => .outpAyFullerSel port v
  | .fullerDat => .outpAyFullerDat port v
  | .aySel => .outpAySel port v
  | .ayDat => .outpAyDat port v
  | .covox => .outpCovox port v
  | .trdos .status => .outpTrdosCommand port v
  | .trdos .track => .outpTrdosTrack port v
  | .trdos .sector => .outpTrdosSector port v
  | .trdos .data => .outpTrdosData port v
  | .trdos .system => .outpTrdosSystem port v
  | .page7 => .outpPage7 port v
  | .page7Plus2A => .outpPage7Plus2A port v
  | .page1Plus2A => .outpPage1Plus2A port v

/-- A port address, low byte first, offered to an input row. -/
def decodePortIn (r : InRow) : List Byte → Except Reject Instr
  | [lo, hi] => if r.hits (wordOf hi lo) then .ok (inRowInstr r (wordOf hi lo)) else .error .rowMismatch
  | _ => .error .wrongLength

/-- A port address, low byte first, and a data byte offered to an output row. -/
def decodePortOut (r : OutRow) : List Byte → Except Reject Instr
  | [lo, hi, v] => if r.hits (wordOf hi lo) then .ok (outRowInstr r (wordOf hi lo) v) else .error .rowMismatch
  | _ => .error .wrongLength

/-- A data byte. -/
def decodeData (i : Byte → Instr) : List Byte → Except Reject Instr
  | [v] => .ok (i v)
  | _ => .error .wrongLength

/-- The instruction of an SNA variant (R251). -/
def snaInstr (v : SnaVariant) (f : List Byte) : Instr :=
  match v with
  | .s48 => .snaS48 f
  | .s128a => .snaS128a f
  | .s128b => .snaS128b f
  | .s2A3a => .snaS2A3a f
  | .s2A3b => .snaS2A3b f

/-- An SNA file: its size is its format (R251). -/
def decodeSna (f : List Byte) : Except Reject Instr :=
  match snaVariant f.length with
  | some v => .ok (snaInstr v f)
  | none => .error .noVariant

/-- The instruction of a Z80-file version (R281). -/
def z80Instr (v : Z80Ver) (f : List Byte) : Instr :=
  match v with
  | .v1 => .z80V1 f
  | .v2 => .z80V2 f
  | .v3 => .z80V3 f

/-- A Z80 file: the words at offsets 6 and 30 are its version (R281). -/
def decodeZ80 (f : List Byte) : Except Reject Instr :=
  if f.length < 30 then .error .wrongLength
  else
    match z80Version f with
    | .ok v => .ok (z80Instr v f)
    | .error _ => .error .noVariant

/-- One Z80 memory block: length, page id, data (R289). -/
def decodeZ80Block : List Byte → Except Reject Instr
  | lo :: hi :: id :: data =>
    if data.length = blockDataLen (wordOf hi lo) then .ok (.z80Block (wordOf hi lo) id data) else .error .wrongLength
  | _ => .error .wrongLength

/-- A compressed v1 body that ends in its terminator (R284). -/
def decodeZ80Tail (f : List Byte) : Except Reject Instr :=
  if endsInTerminator f then .ok (.z80V1Terminator (withoutTail f)) else .error .wrongForm

/-- An escape form of the run-length coding (R293, R296). -/
def decodeRle : List Byte → Except Reject Instr
  | [e0, e1, c, v] =>
    if e0 = 0xED ∧ e1 = 0xED then .ok (if c = 0 then .rleEscapeCount0 v else .rleEscape c v) else .error .wrongForm
  | _ => .error .wrongLength

/-- An SP file (R320). -/
def decodeSp (f : List Byte) : Except Reject Instr :=
  match spKind f with
  | .ok true => .ok (.spWithRom f)
  | .ok false => .ok (.spNoRom f)
  | .error _ => .error .noVariant

/-- A `.pok` line with a tag the engine knows: `N`, `M`, `Z` (R338). -/
def decodePok : List Byte → Except Reject Instr
  | tag :: rest =>
    if oneLine rest then
      if tag = 0x4E then .ok (.pokN rest)
      else if tag = 0x4D then .ok (.pokM rest)
      else if tag = 0x5A then .ok (.pokZ rest)
      else .error .noVariant
    else .error .wrongForm
  | [] => .error .wrongLength

/-- The decoder: total on any bytes of any channel, rejecting by name. -/
def decode (ch : Channel) (bs : List Byte) : Except Reject Instr :=
  match ch with
  | .record => decodeRecord bs
  | .portIn r => decodePortIn r bs
  | .portOut r => decodePortOut r bs
  | .dataPd7 => decodeData .pd7 bs
  | .dataPd1 => decodeData .pd1 bs
  | .dataPdu => decodeData .pdu bs
  | .snaFile => decodeSna bs
  | .z80File => decodeZ80 bs
  | .z80Block => decodeZ80Block bs
  | .z80Tail => decodeZ80Tail bs
  | .rle => decodeRle bs
  | .spFile => decodeSp bs
  | .pokLine => decodePok bs

/-- A format T record (R90): slot, address low, address high, data low, data high. -/
def record (slot : Byte) (addr data : Word) : Channel × List Byte :=
  (.record, [slot, loByte addr, hiByte addr, loByte data, hiByte data])

/-- An address on an input row's channel. -/
def inItem (r : InRow) (port : Word) : Channel × List Byte := (.portIn r, [loByte port, hiByte port])

/-- An address and a data byte on an output row's channel. -/
def outItem (r : OutRow) (port : Word) (v : Byte) : Channel × List Byte := (.portOut r, [loByte port, hiByte port, v])

/-- The encoder: the channel and the bytes of an instruction (R90, R91, and the tables named at `decode`). -/
def encode : Instr → Channel × List Byte
  | .rdb a => record 0x00 a 0
  | .wrb a v => record 0x01 a (wordOf 0 v)
  | .rdw a => record 0x02 a 0
  | .wrw a v => record 0x03 a v
  | .inp p => record 0x04 p 0
  | .outp p v => record 0x05 p (wordOf 0 v)
  | .tick n => record 0x06 0 (BitVec.ofNat 16 n)
  | .reset => record 0x10 0 0
  | .loadSna => record 0x11 0 0
  | .saveSna => record 0x12 0 0
  | .loadZ80 => record 0x13 0 0
  | .saveZ80 => record 0x14 0 0
  | .loadSp => record 0x15 0 0
  | .cheatLoad => record 0x16 0 0
  | .cheatApply => record 0x17 0 0
  | .cheatFetch => record 0x18 0 0
  | .cheatClose => record 0x19 0 0
  | .reserved slot => record slot 0 0
  | .inpUla p => inItem .ula p
  | .inpTrdosStatus p => inItem (.trdos .status) p
  | .inpTrdosTrack p => inItem (.trdos .track) p
  | .inpTrdosSector p => inItem (.trdos .sector) p
  | .inpTrdosData p => inItem (.trdos .data) p
  | .inpTrdosSystem p => inItem (.trdos .system) p
  | .inpMouseX p => inItem (.mouse .x) p
  | .inpMouseY p => inItem (.mouse .y) p
  | .inpMouseButtons p => inItem (.mouse .buttons) p
  | .inpKempston p => inItem .kempston p
  | .inpFuller p => inItem .fuller p
  | .inpAy p => inItem .ay p
  | .inpPage7Read p => inItem .page7 p
  | .inpFloatBus p => inItem .floatBus p
  | .outpUla p v => outItem .ula p v
  | .outpAyZx81 p v => outItem .ayZx81 p v
  | .outpAyFullerSel p v => outItem .fullerSel p v
  | .outpAyFullerDat p v => outItem .fullerDat p v
  | .outpAySel p v => outItem .aySel p v
  | .outpAyDat p v => outItem .ayDat p v
  | .outpCovox p v => outItem .covox p v
  | .outpTrdosCommand p v => outItem (.trdos .status) p v
  | .outpTrdosTrack p v => outItem (.trdos .track) p v
  | .outpTrdosSector p v => outItem (.trdos .sector) p v
  | .outpTrdosData p v => outItem (.trdos .data) p v
  | .outpTrdosSystem p v => outItem (.trdos .system) p v
  | .outpPage7 p v => outItem .page7 p v
  | .outpPage7Plus2A p v => outItem .page7Plus2A p v
  | .outpPage1Plus2A p v => outItem .page1Plus2A p v
  | .pd7 v => (.dataPd7, [v])
  | .pd1 v => (.dataPd1, [v])
  | .pdu v => (.dataPdu, [v])
  | .snaS48 f => (.snaFile, f)
  | .snaS128a f => (.snaFile, f)
  | .snaS128b f => (.snaFile, f)
  | .snaS2A3a f => (.snaFile, f)
  | .snaS2A3b f => (.snaFile, f)
  | .z80V1 f => (.z80File, f)
  | .z80V2 f => (.z80File, f)
  | .z80V3 f => (.z80File, f)
  | .z80Block len id data => (.z80Block, loByte len :: hiByte len :: id :: data)
  | .z80V1Terminator body => (.z80Tail, body ++ z80Terminator)
  | .rleEscape c v => (.rle, [0xED, 0xED, c, v])
  | .rleEscapeCount0 v => (.rle, [0xED, 0xED, 0x00, v])
  | .spNoRom f => (.spFile, f)
  | .spWithRom f => (.spFile, f)
  | .pokN rest => (.pokLine, 0x4E :: rest)
  | .pokM rest => (.pokLine, 0x4D :: rest)
  | .pokZ rest => (.pokLine, 0x5A :: rest)

/-- The bus transaction as an instruction (R121). -/
def busInstr : BusOp → Instr
  | .rdb a => .rdb a
  | .wrb a v => .wrb a v
  | .rdw a => .rdw a
  | .wrw a v => .wrw a v
  | .inp p => .inp p
  | .outp p v => .outp p v
  | .tick n => .tick n

/-- The rows a 16-bit word of the opcode table is looked up in, the ones that test most address bits first; where an
input and an output row test the same bits of the same value the input row stands for both (log 3). -/
def tableRows : List (InRow ⊕ OutRow) :=
  [.inl (.mouse .x), .inl (.mouse .y), .inl (.mouse .buttons), .inl .kempston, .inl .fuller, .inr .fullerSel,
   .inr .fullerDat, .inr .page1Plus2A, .inl (.trdos .status), .inl (.trdos .track), .inl (.trdos .sector),
   .inl (.trdos .data), .inl (.trdos .system), .inl .ay, .inr .page7Plus2A, .inl .page7, .inr .aySel, .inr .ayDat,
   .inl .ula, .inl .floatBus]

/-- The row matches the address. -/
def rowHits (port : Word) : InRow ⊕ OutRow → Bool
  | .inl r => r.hits port
  | .inr r => r.hits port

/-- A row of the opcode table, numbered as the table numbers its bits, as an item: a row of at most 8 bits is a slot of
format T, a row of at most 16 bits a port address, the row of 32 bits the fixed bytes of the v1 terminator, a longer one a
whole record; the bits above are zero (log 3). -/
def tableItem (nbits w : Nat) : Channel × List Byte :=
  if nbits ≤ 8 then record (BitVec.ofNat 8 w) 0 0
  else if nbits ≤ 16 then
    let port := BitVec.ofNat 16 w
    match tableRows.find? (rowHits port) with
    | some (.inr r) => outItem r port 0
    | some (.inl r) => inItem r port
    | none => inItem .floatBus port
  else if nbits = 32 then (.z80Tail, z80Terminator)
  else record (BitVec.ofNat 8 w) (BitVec.ofNat 16 (w / 2 ^ 8)) (BitVec.ofNat 16 (w / 2 ^ 24))

/-- The instruction the decoder reads from a row of the opcode table whose bits are `w`. -/
def decodeTableWord (nbits w : Nat) : Option Instr :=
  match decode (tableItem nbits w).1 (tableItem nbits w).2 with
  | .ok i => some i
  | .error _ => none

end Sys2Proof
end

