-- ==== Sys2Proof/Machine/Fetch.lean ====
section
/-! DEFINITION. How the machine comes by its next instruction (R8, R122, R123, R130; log 1, 2): the CPU step in progress,
else the environment's next agent step; where its list is empty the run has ended. -/

namespace Sys2Proof

open Machine

/-- Which agent issues an instruction (R8, R91, R372). -/
def Instr.agent : Instr → Agent
  | .rdb _ | .wrb _ _ | .rdw _ | .wrw _ _ | .inp _ | .outp _ _ | .tick _ => .cpu
  | .reset => .host
  | .loadSna | .saveSna | .loadZ80 | .saveZ80 | .loadSp => .snap
  | .cheatLoad | .cheatApply | .cheatFetch | .cheatClose => .cheat
  | .reserved _ => .host
  | .inpUla _ | .inpTrdosStatus _ | .inpTrdosTrack _ | .inpTrdosSector _ | .inpTrdosData _ | .inpTrdosSystem _ => .cpu
  | .inpMouseX _ | .inpMouseY _ | .inpMouseButtons _ | .inpKempston _ | .inpFuller _ => .cpu
  | .inpAy _ | .inpPage7Read _ | .inpFloatBus _ => .cpu
  | .outpUla _ _ | .outpAyZx81 _ _ | .outpAyFullerSel _ _ | .outpAyFullerDat _ _ | .outpAySel _ _ => .cpu
  | .outpAyDat _ _ | .outpCovox _ _ | .outpTrdosCommand _ _ | .outpTrdosTrack _ _ | .outpTrdosSector _ _ => .cpu
  | .outpTrdosData _ _ | .outpTrdosSystem _ _ | .outpPage7 _ _ | .outpPage7Plus2A _ _ | .outpPage1Plus2A _ _ => .cpu
  | .pd7 _ | .pd1 _ | .pdu _ => .cpu
  | .snaS48 _ | .snaS128a _ | .snaS128b _ | .snaS2A3a _ | .snaS2A3b _ => .snap
  | .z80V1 _ | .z80V2 _ | .z80V3 _ | .z80Block _ _ _ | .z80V1Terminator _ => .snap
  | .rleEscape _ _ | .rleEscapeCount0 _ => .snap
  | .spNoRom _ | .spWithRom _ => .snap
  | .pokN _ | .pokM _ | .pokZ _ => .cheat

end Sys2Proof

namespace Sys2Proof.Machine

/-- What a `HOST` write does (R47, R49, R341, R397). -/
def HostAct.apply (a : HostAct) (s : State) : State :=
  match a with
  | .setPort i v => { s with port := s.port.set i.val v i.isLt }
  | .setTrdos b => s.setLatches { s.latches with trdosPaged := b }
  | .enableCheat i b => s.enableCheat i b
  | .pokeValue j v => s.setPokeValue j v
  | .present f => { s with file := f }
  | .answerOracle bs => { s with oracle := s.oracle ++ bs }

/-- The next thing to do. -/
inductive Fetched where
  /-- No step is taken. -/
  | stop (f : Fault)
  /-- A step that issues no instruction. -/
  | done (s : State)
  /-- An encoded item, and the state it is issued in. -/
  | item (ch : Channel) (bytes : List Byte) (s : State)
  /-- A transaction of the CPU step in progress: the dispatch contract takes calls, not bytes (R90, R121). -/
  | call (op : BusOp) (s : State)

/-- A CPU step begins, unless a late load failure holds the machine (R362). -/
def State.beginCpu (s : State) : Fetched := if s.failed then .stop .machineFailed else .done { s with cpu := some [] }

/-- The CPU step in progress goes on (R122, R123): its next transaction, or its end with a new register file. -/
def State.goOnCpu (s : State) (answers : List Answer) : Fetched :=
  if s.failed then .stop .machineFailed
  else
    match cpuStep s.regs answers with
    | .transact op => .call op s
    | .ends r => .done { s with regs := r, cpu := none }

/-- The next agent step (R130): the other agents run only between CPU steps (R8, R78, R122). -/
def fetch (s : State) : Fetched :=
  if s.cfg.allocOk = false then .stop .initAllocFailure
  else
    match s.cpu with
    | some answers => s.goOnCpu answers
    | none =>
      match s.agenda with
      | [] => .stop .runEnded
      | .issue ch bytes :: rest => .item ch bytes { s with agenda := rest }
      | .cpuStep :: rest => ({ s with agenda := rest }).beginCpu
      | .host a :: rest => .done (a.apply { s with agenda := rest })
      | .pokEnd :: rest => .done ({ s with agenda := rest }).fillEnd

/-- Why an instruction may not be issued: the CPU takes no step while `failed` is set (R362). -/
def haltedBy (i : Instr) (s : State) : Option Fault :=
  if i.agent = .cpu ∧ s.failed = true then some .machineFailed else none

/-- The CPU step in progress is told what its transaction returned (R123; log 2). -/
def noteAnswer : Result → Result
  | .next s => .next { s with cpu := s.cpu.map (fun l : List Answer => l ++ [s.answer]) }
  | .fault f => .fault f
  | .refused r => .refused r

/-- An item at the head of the environment's list, and no CPU step in progress: the next step runs it. -/
def State.enqueue (s : State) (item : Channel × List Byte) : State :=
  { s with agenda := .issue item.1 item.2 :: s.agenda, cpu := none }

end Sys2Proof.Machine
end

