-- ==== Sys2Proof/Machine/Issue.lean ====
section
/-! DEFINITION. Issuing: an instruction runs unless a failed machine stops it, and bytes that are no row of their channel
have the effect the spec gives them (R111, R112, R284, R289, R294, R338; log 41). -/

namespace Sys2Proof.Machine

/-- An instruction issued: it runs unless a failed machine stops it, and a CPU step in progress is told its answer. -/
def issue (i : Instr) (s : State) : Result :=
  match haltedBy i s with
  | some f => .fault f
  | none => noteAnswer (exec i s)

/-- A byte string where memory blocks stand: every block it holds is loaded, and a block cut off by its end is `truncated`,
a late failure (R289, R303). -/
def loadBlocksOf (bytes : List Byte) (s : State) : Result :=
  match loadZ80Blocks bytes.length bytes s with
  | .ok t => .next (t.give .loaded)
  | .error (r, t) => .next (t.lateFailure r)

/-- What a coded byte string stands for, whole: no code of `n` bytes stands for more than `255 * n` (R293, R294). -/
def expand (bytes : List Byte) : List Byte := decompress bytes (255 * bytes.length)

/-- What bytes do that are no row of their channel (log 41). There is no illegal port address: a row that does not match
declines it, an input answers what the later rows do or the floating bus, an output only takes its ticks (R111, R364). A
file of no variant is a load refused before any state is changed (R112, R362). Other bytes of a block string, a v1 body, a
coded string or a `.pok` text are what their loader makes of them (R289, R284, R294, R338). Only a record, an address or a
data byte of another length than its format fixes (R90, R92 to R95, R115) is no transaction, and is refused. -/
def issueOther (ch : Channel) (bytes : List Byte) (r : Reject) (s : State) : Result :=
  match ch, bytes with
  | .portIn row, [lo, hi] => issue (inRowInstr row (wordOf hi lo)) s
  | .portOut row, [lo, hi, v] => issue (outRowInstr row (wordOf hi lo) v) s
  | .snaFile, _ => loadSnaFile bytes s
  | .z80File, _ => loadZ80File bytes s
  | .spFile, _ => loadSpFile bytes s
  | .z80Block, _ => loadBlocksOf bytes s
  | .z80Tail, _ => .next (s.give (.bytes (stripTerminator bytes)))
  | .rle, _ => .next (s.give (.bytes (expand bytes)))
  | .pokLine, _ => .next (((pokLines bytes).foldl State.fillLine s).give .none)
  | .record, _ | .portIn _, _ | .portOut _, _ | .dataPd7, _ | .dataPd1, _ | .dataPdu, _ => .refused (.spellsNothing r)

end Sys2Proof.Machine
end

