-- ==== Sys2Proof/Machine/Step.lean ====
section
/-! DEFINITION. One step of the machine: fetch, decode, issue; and where a row of the opcode table is placed so that the
next step runs it. -/

namespace Sys2Proof.Machine

/-- One step: the next agent step of R130, one transaction or command or host write a step. -/
def step (s : State) : Host.Outcome State Fault Refusal :=
  match fetch s with
  | .stop f => .fault f
  | .done t => .next t
  | .call op t => issue (busInstr op) t
  | .item ch bytes t =>
    match decode ch bytes with
    | .error r => issueOther ch bytes r t
    | .ok i => issue i t

/-- The state with a row of the opcode table placed where `step` fetches its next instruction (log 1). -/
def State.withFetchWord (s : State) (nbits w : Nat) : State := s.enqueue (tableItem nbits w)

end Sys2Proof.Machine
end

