-- ==== Sys2Proof/Safety.lean ====
section
/-! DEFINITION. What the spec promises of every state between operations, and which parts of the state an operation may be
said to leave alone. -/

namespace Sys2Proof

open Machine

/-- The port address of an input transaction: `INP` and the fourteen input rows (R99, R160). -/
def Instr.inPort? : Instr → Option Word
  | .inp p | .inpUla p | .inpTrdosStatus p | .inpTrdosTrack p | .inpTrdosSector p | .inpTrdosData p => some p
  | .inpTrdosSystem p | .inpMouseX p | .inpMouseY p | .inpMouseButtons p | .inpKempston p | .inpFuller p => some p
  | .inpAy p | .inpPage7Read p | .inpFloatBus p => some p
  | _ => none

/-- The port address of an output transaction: `OUTP` and the fifteen output rows (R100, R190). -/
def Instr.outPort? : Instr → Option Word
  | .outp p _ | .outpUla p _ | .outpAyZx81 p _ | .outpAyFullerSel p _ | .outpAyFullerDat p _ | .outpAySel p _ => some p
  | .outpAyDat p _ | .outpCovox p _ | .outpTrdosCommand p _ | .outpTrdosTrack p _ | .outpTrdosSector p _ => some p
  | .outpTrdosData p _ | .outpTrdosSystem p _ | .outpPage7 p _ | .outpPage7Plus2A p _ | .outpPage1Plus2A p _ => some p
  | _ => none

end Sys2Proof

namespace Sys2Proof.Machine

/-- Between operations the derived state equals what `Remap()` computes (R32, R34, R36, R43, R70). -/
def State.Mapped (s : State) : Prop := s.map = mapOf s.cfg s.arch s.latches

/-- The written bytes are in canonical form (log 5). -/
def State.MemOk (s : State) : Prop := Memory.wf s.mem

/-- The invariant of the machine: the map follows the latches and memory is canonical. -/
structure State.Inv (s : State) : Prop where
  mapped : s.Mapped
  memOk : s.MemOk

/-- The latches hold values their architecture admits: off Plus2A no special mode and a 1-bit ROM latch (R42, R45, R46);
on Plus2A one latch bit read two ways (R207); on Spec48 and TK every paging latch 0 (R40, R41, R42, R44, R202). -/
structure State.LatchesLegal (s : State) : Prop where
  special : s.arch ≠ .plus2A →
    s.latches.pagingmode2A3 = false ∧ s.latches.specialCfg2A3 = 0 ∧ s.latches.romLatch.getLsbD 1 = false
  shared : s.arch = .plus2A → s.latches.specialCfg2A3.getLsbD 1 = s.latches.romLatch.getLsbD 1
  none48 : s.arch.is48 = true →
    s.latches.bankLatch = 0 ∧ s.latches.videoLatch = false ∧ s.latches.romLatch = 0 ∧ s.latches.pagingLock = false

/-- Every byte of every page reads the same in both states (R61, R76). -/
def SameMemory (s t : State) : Prop := ∀ (p : Page) (o : Nat), o < 0x4000 → t.readPage p o = s.readPage p o

end Sys2Proof.Machine
end

