-- ==== Sys2Proof/Certificates/Slice0/Obligations.lean ====
section
/-! DEFINITION. The statements for the provers, one `def Obligations.<Name> : Prop` each, from the numbered rules of
spec/. A statement over a free value (log 6, 7, 9, 18) holds for every value of it. -/

open Sys2Proof Sys2Proof.Machine

/-! ### Reset, steps, encodings -/

/-- R392, R390, R58, R393: the values the spec gives the state after power-on, and `MEM_TICKS` (R6, R140); and the values it
gives the power-on reset inside an architecture switch, with the new architecture's ROM images. The elements it gives any
value are not named. -/
def Obligations.PowerOnState : Prop :=
  (let s := State.reset
   s.regs.pc = 0x0000 ∧ s.regs.iff1 = false ∧ s.regs.iff2 = false ∧ s.regs.im = .im0 ∧ s.regs.i = 0x00 ∧ s.regs.r = 0x00 ∧
   s.latches.bankLatch = 0 ∧ s.latches.videoLatch = false ∧ s.latches.romLatch = 0 ∧ s.latches.pagingLock = false ∧
   s.latches.pagingmode2A3 = false ∧ s.latches.specialCfg2A3 = 0 ∧ s.latches.trdosPaged = false ∧
   (∀ i : Fin 128, i.val < 8 → s.port.get i = 0xFF) ∧ s.tick = 0 ∧ s.failed = false ∧ s.cheats = [] ∧ s.pokes = [] ∧
   s.map.ramCurrent = #v[.rom 0, .ram 5, .ram 2, .ram 0] ∧ s.map.grmem = .ram 5 ∧ s.map.romInUse = 0 ∧
   s.cfg.memTicks = 3 ∧
   (∀ (r : Fin 5) (o : Nat), s.readPage (.rom r) o = Config.romImage s.arch r.val o)) ∧
  (∀ (s : State) (target : Arch),
    let t := s.powerOn target
    t.arch = target ∧ t.cfg = s.cfg ∧
    t.regs.pc = 0x0000 ∧ t.regs.iff1 = false ∧ t.regs.iff2 = false ∧ t.regs.im = .im0 ∧ t.regs.i = 0x00 ∧ t.regs.r = 0x00 ∧
    t.latches = ⟨0, false, 0, false, false, 0, false⟩ ∧ (∀ i : Fin 128, i.val < 8 → t.port.get i = 0xFF) ∧
    t.tick = 0 ∧ t.failed = false ∧ t.cheats = [] ∧ t.pokes = [] ∧
    t.map.ramCurrent = #v[.rom 0, .ram 5, .ram 2, .ram 0] ∧ t.map.grmem = .ram 5 ∧ t.map.romInUse = 0 ∧ t.Mapped ∧
    (∀ (r : Fin 5) (o : Nat), t.readPage (.rom r) o = Config.romImage target r.val o))

/-- R32, R70: the derived map of the state after power-on is what `Remap()` computes, and its memory is canonical. -/
def Obligations.ResetMeetsInvariant : Prop := State.reset.Inv

/-- R32, R34, R36, R43: from every state whose derived map is what `Remap()` computes and whose memory is canonical, every
step leads to one. -/
def Obligations.StepKeepsInvariant : Prop := ∀ s t : State, s.Inv → step s = .next t → t.Inv

/-- R5, R396: no step changes the configuration record. -/
def Obligations.StepKeepsConfiguration : Prop := ∀ s t : State, step s = .next t → t.cfg = s.cfg

/-- R10, R55: events are emitted in order and never taken back: every step appends to the stream, perhaps nothing. -/
def Obligations.EventsOnlyGrow : Prop := ∀ s t : State, step s = .next t → ∃ emitted, t.events = s.events ++ emitted

/-- R122, R123, R130: a step runs the instruction the fetched bytes decode to: the environment's next item between CPU
steps, the transaction `CpuStep` asks for during one (log 1, 2). `noteAnswer` hands the answer to a CPU step in progress,
and whatever the answers are the CPU step ends after finitely many transactions. An item whose bytes are no row of its
channel has the effect the spec gives such bytes (R111, R112, R362, R284, R289, R294, R338; log 41): a port access its row
declines, a refused load, the blocks, body, expansion or lines the bytes are; only a record, an address or a data byte of
another length than its format fixes is refused (R90, R115). -/
def Obligations.StepRunsDecodedInstruction : Prop :=
  (∀ (s : State) (ch : Channel) (bytes : List Byte) (rest : List AgendaItem) (i : Instr),
    s.cfg.allocOk = true → s.cpu = none → s.agenda = .issue ch bytes :: rest → decode ch bytes = .ok i →
    (i.agent = .cpu → s.failed = false) → step s = noteAnswer (exec i { s with agenda := rest })) ∧
  (∀ (s : State) (answers : List Answer),
    s.cfg.allocOk = true → s.failed = false → s.cpu = some answers →
    step s =
      match cpuStep s.regs answers with
      | .transact op => noteAnswer (exec (busInstr op) s)
      | .ends r => .next { s with regs := r, cpu := none }) ∧
  (∀ (s : State) (nbits w : Nat) (i : Instr),
    s.cfg.allocOk = true → s.failed = false → decodeTableWord nbits w = some i →
    step (s.withFetchWord nbits w) = noteAnswer (exec i { s with cpu := none })) ∧
  (∀ t : State, noteAnswer (.next t) = .next { t with cpu := t.cpu.map (fun l : List Answer => l ++ [t.answer]) }) ∧
  (∀ (r : Regs) (answers : Nat → Answer), ∃ n r', cpuStep r ((List.range n).map answers) = .ends r') ∧
  (∀ (s : State) (ch : Channel) (bytes : List Byte) (rest : List AgendaItem) (r : Reject),
    s.cfg.allocOk = true → s.cpu = none → s.agenda = .issue ch bytes :: rest → decode ch bytes = .error r →
    let u := { s with agenda := rest }
    step s =
      match ch, bytes with
      | .portIn row, [lo, hi] =>
        if s.failed = true then .fault .machineFailed else noteAnswer (exec (inRowInstr row (hi ++ lo)) u)
      | .portOut row, [lo, hi, v] =>
        if s.failed = true then .fault .machineFailed else noteAnswer (exec (outRowInstr row (hi ++ lo) v) u)
      | .snaFile, _ => .next { u with answer := .failure .badSize }
      | .z80File, f => .next { u with answer := .failure (if f.length < 32 then .badSize else .unknownVersion) }
      | .spFile, f =>
        let reason : LoadFailure :=
          if f.length < 38 then .badSize
          else if fileByte f 0 ≠ 0x53 ∨ fileByte f 1 ≠ 0x50 then .badSignature
          else if le16 f 2 = 49152 ∧ le16 f 4 = 16384 ∨ le16 f 2 = 0 ∧ le16 f 4 = 0 then .badSize
          else .badField
        .next { u with answer := .failure reason }
      | .z80Block, f =>
        match loadZ80Blocks f.length f u with
        | .ok t => .next { t with answer := .loaded }
        | .error (_, t) => .next (t.lateFailure .truncated)
      | .z80Tail, f => .next { u with answer := .bytes f }
      | .rle, f => .next { u with answer := .bytes (decompress f (255 * f.length)) }
      | .pokLine, f => .next (((pokLines f).foldl State.fillLine u).give .none)
      | .record, _ | .portIn _, _ | .portOut _, _ | .dataPd7, _ | .dataPd1, _ | .dataPdu, _ =>
        .refused (.spellsNothing r))

/-- R90, R91, R97 to R101: decoding what the encoder writes gives the instruction back, for every well-formed instruction
and every operand its encoding admits. -/
def Obligations.DecodeEncodeRoundTrip : Prop :=
  ∀ i : Instr, i.wf = true → decode (encode i).1 (encode i).2 = .ok i

/-- Words written out from the spec's encodings decode to the instructions they stand for: the records of R90 and R91, the
masks of R99 and R100, the data byte of R93, the escape form of R293, the line of R338. That a port address is given as two
bytes, low byte first, and that an item other than a record comes on a channel that names its row or table, is the model's
(DESIGN CHOICE, log 3). -/
def Obligations.DecodeWrittenOutWords : Prop :=
  decode .record [0x01, 0x00, 0xC0, 0x11, 0x00] = .ok (.wrb 0xC000 0x11) ∧
  decode .record [0x05, 0xFD, 0x7F, 0x03, 0x00] = .ok (.outp 0x7FFD 0x03) ∧
  decode .record [0x02, 0xFF, 0xFF, 0x00, 0x00] = .ok (.rdw 0xFFFF) ∧
  decode .record [0x03, 0xFF, 0x3F, 0xEF, 0xBE] = .ok (.wrw 0x3FFF 0xBEEF) ∧
  decode .record [0x06, 0x00, 0x00, 0x04, 0x00] = .ok (.tick 4) ∧
  decode .record [0x10, 0x00, 0x00, 0x00, 0x00] = .ok .reset ∧
  decode .record [0x18, 0x00, 0x00, 0x00, 0x00] = .ok .cheatFetch ∧
  decode (.portIn (.mouse .x)) [0xDF, 0xFB] = .ok (.inpMouseX 0xFBDF) ∧
  decode (.portOut .page1Plus2A) [0xFD, 0x1F, 0x01] = .ok (.outpPage1Plus2A 0x1FFD 0x01) ∧
  decode (.portOut .page7) [0xFF, 0x7F, 0x04] = .error .rowMismatch ∧
  decode .dataPd7 [0x23] = .ok (.pd7 0x23) ∧
  decode .rle [0xED, 0xED, 0x05, 0x00] = .ok (.rleEscape 0x05 0x00) ∧
  decode .pokLine [0x4E, 0x58] = .ok (.pokN [0x58])

/-- R110: a record with a reserved slot, whatever its other bytes, is the reserved row, and it is refused. -/
def Obligations.ReservedSlotRefused : Prop :=
  ∀ (slot b1 b2 b3 b4 : Byte) (s : State), (0x07 ≤ slot ∧ slot ≤ 0x0F) ∨ 0x1A ≤ slot →
    decode .record [slot, b1, b2, b3, b4] = .ok (.reserved slot) ∧ exec (.reserved slot) s = .refused .reservedSlot

/-! ### Memory transactions -/

/-- R141: `RDB`. The whole next state: the ticks (`MEM_TICKS` of R6 and R140 where R141 writes 3, log 14), the byte the window shows, `lastContendedMemReadWrite` where the window is
contended; nothing else. -/
def Obligations.ReadByteResult : Prop :=
  ∀ (addr : Word) (s : State),
    let c := s.map.ramContended.get (win addr)
    let v := s.readPage (s.map.ramCurrent.get (win addr)) (off addr).toNat
    exec (.rdb addr) s = .next
      { s with
        tick := s.tick + (if c = true then contentionDelay s.cfg s.arch s.tick else 0) + s.cfg.memTicks
        lastContended := if c = true then v else s.lastContended
        answer := .byte v }

/-- R142: `WRB`. The ticks (`MEM_TICKS` of R6 and R140 where R142 writes 3, log 14), `lastContendedMemReadWrite`, and the byte addressed where the window shows RAM; every other byte
of memory and the rest of the state as before. -/
def Obligations.WriteByteResult : Prop :=
  ∀ (addr : Word) (v : Byte) (s : State),
    let c := s.map.ramContended.get (win addr)
    let p := s.map.ramCurrent.get (win addr)
    let o := (off addr).toNat
    ∃ t, exec (.wrb addr v) s = .next t ∧
      t = { s with
        tick := s.tick + (if c = true then contentionDelay s.cfg s.arch s.tick else 0) + s.cfg.memTicks
        lastContended := if c = true then v else s.lastContended
        mem := t.mem
        answer := .none } ∧
      (∀ b, p = .ram b → t.readPage p o = v) ∧
      (∀ q o', o' < 0x4000 → ¬(q = p ∧ o' = o ∧ ∃ b, p = .ram b) → t.readPage q o' = s.readPage q o')

/-- R64: a write is dropped exactly when the page it resolves to is a ROM page, which is when the address is in window 0 and
special mode is off; otherwise it is performed. -/
def Obligations.RomWriteDropped : Prop :=
  ∀ (addr : Word) (v : Byte) (s : State), s.Mapped → s.LatchesLegal →
    ((∃ r, s.map.ramCurrent.get (win addr) = .rom r) ↔ win addr = 0 ∧ s.latches.pagingmode2A3 = false) ∧
    ∃ t, exec (.wrb addr v) s = .next t ∧
      (win addr = 0 ∧ s.latches.pagingmode2A3 = false → SameMemory s t) ∧
      (¬(win addr = 0 ∧ s.latches.pagingmode2A3 = false) → t.memRead addr = v)

/-- R143: `RDW` is two `RDB` in that order, the second address wrapping, and returns the second byte above the first. Each
charges `MEM_TICKS` of R6 and R140, where R143 writes 6 ticks for the two (log 14). -/
def Obligations.ReadWordResult : Prop :=
  ∀ (addr : Word) (s : State), ∃ lo hi t1 t2,
    exec (.rdb addr) s = .next t1 ∧ t1.answer = .byte lo ∧
    exec (.rdb (addr + 1)) t1 = .next t2 ∧ t2.answer = .byte hi ∧
    exec (.rdw addr) s = .next { t2 with answer := .word (hi ++ lo) }

/-- R144: `WRW` is two `WRB`, low byte first, the second address wrapping. -/
def Obligations.WriteWordResult : Prop :=
  ∀ (addr v : Word) (s : State), ∃ t1 t2,
    exec (.wrb addr (v.extractLsb' 0 8)) s = .next t1 ∧
    exec (.wrb (addr + 1) (v.extractLsb' 8 8)) t1 = .next t2 ∧
    exec (.wrw addr v) s = .next t2

/-- R145: `TICK n` adds `n` to the counter and changes nothing else. -/
def Obligations.TickAdvancesCounter : Prop :=
  ∀ (n : Nat) (s : State), exec (.tick n) s = .next { s with tick := s.tick + n, answer := .none }

/-- R38, R360: every CPU transaction completes, and the counter does not go back. -/
def Obligations.CpuTickNeverDecreases : Prop :=
  ∀ (i : Instr) (s : State), i.agent = .cpu → ∃ t, exec i s = .next t ∧ s.tick ≤ t.tick

/-! ### Port input -/

/-- R231 to R235, R240: the ticks of every port access, input or output, by address class and by whether the address's
window is contended, each delay looked up at its own moment. -/
def Obligations.PortAccessTicks : Prop :=
  ∀ (i : Instr) (port : Word) (s : State), i.inPort? = some port ∨ i.outPort? = some port →
    let d := fun u => u + contentionDelay s.cfg s.arch u
    let c := s.map.ramContended.get (win port)
    let early := if c = true then d s.tick + 1 else s.tick + 1
    ∃ t, exec i s = .next t ∧
      t.tick =
        if port.getLsbD 0 = false then
          (if s.arch = .tk then early + tkLateCost s.cfg early else d early + 3)
        else if c = true then d (d (d early + 1) + 1) + 1
        else s.tick + 4

/-- R163: bit `k` of the keyboard byte is set exactly when it is set in every row the address selects. -/
def Obligations.KeyRowsAnded : Prop :=
  ∀ (ports : Vector Byte 128) (port : Word) (k : Nat), k < 8 →
    ((keyAnd ports port).getLsbD k = true ↔
      ∀ r : Fin 128, r.val < 8 → port.getLsbD (8 + r.val) = false → (ports.get r).getLsbD k = true)

/-- R162, R164, R173 (1): an even address reads the keyboard with the EAR bit `e` in bit 6: the tape's bit while a tape
plays, else the feedback term of `port254`. The oracle answers are the host's queued ones in order, else free (log 18). -/
def Obligations.UlaReadResult : Prop :=
  ∀ (port : Word) (s : State) (i : Instr), port.getLsbD 0 = false → i = .inp port ∨ i = .inpUla port →
    let feedback :=
      if s.arch = .plus2A then false
      else if s.arch = .spec48 ∧ s.cfg.issue2 = true then (s.port254 &&& 0x18) != 0
      else (s.port254 &&& 0x10) != 0
    ∃ (e : Bool) (queue : List Byte) (n : Nat),
      exec i s = .next
        { s with
          tick := portTick s port
          oracle := queue
          draws := n
          answer := .byte ((keyAnd s.port port &&& 0xBF) ||| (if e = true then (0x40 : Byte) else 0)) } ∧
      (∀ loading rest, s.oracle = loading :: rest → loading.getLsbD 0 = false →
        e = feedback ∧ queue = rest ∧ n = s.draws) ∧
      (∀ loading ear rest, s.oracle = loading :: ear :: rest → loading.getLsbD 0 = true →
        e = ear.getLsbD 0 ∧ queue = rest ∧ n = s.draws)

/-- R165: an odd address is answered by the first device in priority order; `u` is the state once the ticks are charged. -/
def Obligations.OddPortReadPriority : Prop :=
  ∀ (port : Word) (s : State), port.getLsbD 0 = true →
    let u := { s with tick := portTick s port }
    let m := port &&& 0x00E3
    let ax := port &&& 0x05FF
    exec (.inp port) s = .next (
      if s.latches.trdosPaged = true ∧ (m = 0x03 ∨ m = 0x23 ∨ m = 0x43 ∨ m = 0x63 ∨ m = 0xE3) then
        u.ask.2.give (.byte u.ask.1)
      else if s.cfg.mouse = true ∧ (ax = 0x01DF ∨ ax = 0x05DF ∨ ax = 0x00DF) then u.ask.2.give (.byte u.ask.1)
      else if s.cfg.joystick = .kempston ∧ port &&& 0x00FF = 0x001F then u.give (.byte (s.port.get 0x1F))
      else if s.cfg.joystick = .fuller ∧ port &&& 0x00FF = 0x007F then u.give (.byte (s.port.get 0x7F))
      else if s.cfg.ayPresent = true ∧ port &&& 0xC002 = 0xC000 then u.ask.2.give (.byte u.ask.1)
      else if s.arch = .spec128 ∧ port &&& 0x8002 = 0x0000 then
        (if s.latches.pagingLock = true then u
          else u.setLatches (pd7Latches s.arch s.latches u.floatBus)).give (.byte u.floatBus)
      else u.give (.byte u.floatBus))

/-- R166, R167, R170: a TR-DOS, mouse or AY read row whose condition holds returns the collaborator's answer and moves
nothing but the counter and the oracle (log 4, 18). -/
def Obligations.CollaboratorReads : Prop :=
  ∀ (port : Word) (s : State),
    let u := { s with tick := portTick s port }
    let asks := fun i => ∃ (v : Byte) (n : Nat),
      exec i s = .next { u with oracle := s.oracle.tail, draws := n, answer := .byte v } ∧
      ∀ a rest, s.oracle = a :: rest → v = a ∧ n = s.draws
    (s.latches.trdosPaged = true →
      (port &&& 0x00E3 = 0x03 → asks (.inpTrdosStatus port)) ∧
      (port &&& 0x00E3 = 0x23 → asks (.inpTrdosTrack port)) ∧
      (port &&& 0x00E3 = 0x43 → asks (.inpTrdosSector port)) ∧
      (port &&& 0x00E3 = 0x63 → asks (.inpTrdosData port)) ∧
      (port &&& 0x00E3 = 0xE3 → asks (.inpTrdosSystem port))) ∧
    (s.cfg.mouse = true →
      (port &&& 0x05FF = 0x01DF → asks (.inpMouseX port)) ∧
      (port &&& 0x05FF = 0x05DF → asks (.inpMouseY port)) ∧
      (port &&& 0x05FF = 0x00DF → asks (.inpMouseButtons port))) ∧
    (s.cfg.ayPresent = true → port.getLsbD 0 = true → port &&& 0xC002 = 0xC000 → asks (.inpAy port))

/-- R169: the joystick rows return the host-written bytes `port[0x1F]` and `port[0x7F]`. -/
def Obligations.JoystickReads : Prop :=
  ∀ (port : Word) (s : State),
    (s.cfg.joystick = .kempston → port &&& 0x00FF = 0x001F →
      exec (.inpKempston port) s =
        .next { s with tick := portTick s port, answer := .byte (s.port.get 0x1F) }) ∧
    (s.cfg.joystick = .fuller → port &&& 0x00FF = 0x007F →
      exec (.inpFuller port) s =
        .next { s with tick := portTick s port, answer := .byte (s.port.get 0x7F) })

/-- R171: on Spec128 an odd address with `A15` = `A1` = 0 returns the floating-bus byte and, while the lock is clear, writes
it back as a paging byte; the derived map follows. -/
def Obligations.PagingPortRead : Prop :=
  ∀ (port : Word) (s : State), s.arch = .spec128 → port.getLsbD 0 = true → port &&& 0x8002 = 0x0000 →
    let u := { s with tick := portTick s port }
    let v := u.floatBus
    let l := { s.latches with
      bankLatch := v.extractLsb' 0 3
      videoLatch := v.getLsbD 3
      romLatch := if v.getLsbD 4 = true then 1 else 0
      pagingLock := v.getLsbD 5 }
    exec (.inpPage7Read port) s = .next
      (if s.latches.pagingLock = true then { u with answer := .byte v }
       else { u with latches := l, map := mapOf s.cfg s.arch l, answer := .byte v })

/-- R172, R236: the floating-bus row returns the display byte the beam fetches at the counter's value after the charges, or
outside the display range 0xFF, on Plus2A `lastContendedMemReadWrite | 1`; only the counter moves. -/
def Obligations.FloatBusRead : Prop :=
  ∀ (port : Word) (s : State), port.getLsbD 0 = true →
    let t := portTick s port
    exec (.inpFloatBus port) s = .next
      { s with
        tick := t
        answer := .byte (
          match floatBusAddr s.cfg s.arch t with
          | some o => s.readPage s.map.grmem o
          | none => if s.arch = .plus2A then s.lastContended ||| 0x01 else 0xFF) }

/-- R160, R99: every port read completes, returns a byte, and moves only the counter, the oracle and, on Spec128 with the
lock clear, the paging latches; `trdosPaged` and the derived map's rule survive (log 4). -/
def Obligations.InputFrame : Prop :=
  ∀ (i : Instr) (port : Word) (s : State), i.inPort? = some port →
    ∃ t v, exec i s = .next t ∧ t.answer = .byte v ∧
      t = { s with
        tick := t.tick, oracle := t.oracle, draws := t.draws, latches := t.latches, map := t.map, answer := .byte v } ∧
      t.latches.trdosPaged = s.latches.trdosPaged ∧
      (s.arch ≠ .spec128 ∨ s.latches.pagingLock = true ∨ port.getLsbD 0 = false →
        t.latches = s.latches ∧ t.map = s.map) ∧
      (s.Mapped → t.Mapped)

/-! ### Port output and paging -/

/-- R190, R191, R192: every port write completes; it moves the counter, `port254` (even addresses only), the paging latches
and the map (odd addresses only), the AY image, and appends events; everything else, memory too, is as before. `OUTP` itself
has the effect of every row that matches, in the order of R190: its AY writes (R196, R197), their image, and the whole list
of events it emits (R193, R194, R199, R200); `OutpPaging` states its latches. -/
def Obligations.OutputFrame : Prop :=
  (∀ (i : Instr) (port : Word) (s : State), i.outPort? = some port →
    ∃ t emitted, exec i s = .next t ∧
      t = { s with
        tick := t.tick
        port254 := t.port254
        latches := t.latches
        map := t.map
        ay := t.ay
        events := s.events ++ emitted
        answer := .none } ∧
      t.latches.trdosPaged = s.latches.trdosPaged ∧
      (port.getLsbD 0 = true → t.port254 = s.port254) ∧
      (port.getLsbD 0 = false → t.latches = s.latches ∧ t.map = s.map) ∧
      (s.Mapped → t.Mapped)) ∧
  (∀ (port : Word) (v : Byte) (s : State),
    let tick := portTick s port
    let given := fun (α : Type) (p : Bool) (x : α) => if p = true then [x] else ([] : List α)
    let ula :=
      if port.getLsbD 0 = true then []
      else
        given Event (v.extractLsb' 0 3 != s.port254.extractLsb' 0 3) (.borderChange tick (v.extractLsb' 0 3)) ++
        given Event (!s.cfg.turbo) (.beeper tick (v.getLsbD 4) (v.getLsbD 3))
    let ayWrites :=
      given AyPart (s.cfg.ayZx81 && port.extractLsb' 0 8 == s.cfg.ayZx81Sel) .select ++
      given AyPart (s.cfg.ayZx81 && port.extractLsb' 0 8 == s.cfg.ayZx81Dat) .data ++
      given AyPart (s.cfg.ayFuller && port &&& 0x00FF == 0x003F) .select ++
      given AyPart (s.cfg.ayFuller && port &&& 0x00FF == 0x005F) .data ++
      given AyPart (s.cfg.ayPresent && port &&& 0x8002 == 0x8000 && port.getLsbD 14) .select ++
      given AyPart (s.cfg.ayPresent && port &&& 0x8002 == 0x8000 && !port.getLsbD 14) .data
    let covox :=
      if s.cfg.covoxMode ≠ .none ∧ port.getLsbD 0 = true then (covoxChannels s.cfg port).map fun c => Event.covoxWrite c v
      else []
    let disk := fun (code : Word) (r : TrdosReg) =>
      given Event (s.latches.trdosPaged && port &&& 0x00E3 == code) (.trdosWrite r v)
    ∃ t, exec (.outp port v) s = .next t ∧
      t.tick = tick ∧
      t.port254 = (if port.getLsbD 0 = true then s.port254 else v) ∧
      t.ay = ayWrites.foldl (fun (a : Ay) (w : AyPart) =>
        match w with
        | .select => { a with sel := v }
        | .data => { a with reg := a.reg.setIfInBounds (a.sel &&& 0x0F).toNat v }) s.ay ∧
      t.events = s.events ++ (ula ++ ayWrites.map (fun w => Event.ayWrite w v) ++ covox ++
        (disk 0x03 .status ++ disk 0x23 .track ++ disk 0x43 .sector ++ disk 0x63 .data ++ disk 0xE3 .system)))

/-- R192, R193, R194, R95: a ULA write stores the whole byte, emits `BorderChange` exactly when the colour changes, stamped
with the counter after the charges, then `Beeper` unless in turbo mode; `OUTP` on any even address does this first. -/
def Obligations.UlaWriteResult : Prop :=
  ∀ (port : Word) (v : Byte) (s : State), port.getLsbD 0 = false →
    let emitted := fun tick : Nat =>
      (if v.extractLsb' 0 3 = s.port254.extractLsb' 0 3 then [] else [Event.borderChange tick (v.extractLsb' 0 3)]) ++
      (if s.cfg.turbo = true then [] else [Event.beeper tick (v.getLsbD 4) (v.getLsbD 3)])
    exec (.outpUla port v) s = .next
      { s with
        tick := portTick s port
        port254 := v
        events := s.events ++ emitted (portTick s port)
        answer := .none } ∧
    exec (.pdu v) s = .next { s with port254 := v, events := s.events ++ emitted s.tick, answer := .none } ∧
    (∃ t later, exec (.outp port v) s = .next t ∧ t.port254 = v ∧
      t.events = s.events ++ emitted (portTick s port) ++ later)

/-- R196, R197: the AY select and data rows: the event, and the image `ay.sel` or `ay.reg[ay.sel & 0x0F]`; a row whose device
is not configured, or whose address it is not, does nothing but charge the ticks. -/
def Obligations.AyWriteRows : Prop :=
  ∀ (port : Word) (v : Byte) (s : State),
    let u := { s with tick := portTick s port, answer := .none }
    let select := fun x : State => { x with ay := { x.ay with sel := v }, events := x.events ++ [.ayWrite .select v] }
    let data := fun x : State =>
      { x with
        ay := { x.ay with reg := x.ay.reg.setIfInBounds (x.ay.sel &&& 0x0F).toNat v }
        events := x.events ++ [.ayWrite .data v] }
    exec (.outpAyZx81 port v) s = .next (
      if s.cfg.ayZx81 = true then
        let x := if port.extractLsb' 0 8 = s.cfg.ayZx81Sel then select u else u
        if port.extractLsb' 0 8 = s.cfg.ayZx81Dat then data x else x
      else u) ∧
    exec (.outpAyFullerSel port v) s =
      .next (if s.cfg.ayFuller = true ∧ port &&& 0x00FF = 0x003F then select u else u) ∧
    exec (.outpAyFullerDat port v) s =
      .next (if s.cfg.ayFuller = true ∧ port &&& 0x00FF = 0x005F then data u else u) ∧
    exec (.outpAySel port v) s =
      .next (if s.cfg.ayPresent = true ∧ port &&& 0x8002 = 0x8000 ∧ port.getLsbD 14 = true then select u else u) ∧
    exec (.outpAyDat port v) s =
      .next (if s.cfg.ayPresent = true ∧ port &&& 0x8002 = 0x8000 ∧ port.getLsbD 14 = false then data u else u)

/-- R199, R200: the Covox row emits one event per channel of the set `CovoxDecode` selects (their order is log 38's), a
TR-DOS row its register's event, while configured or paged; no other state changes but the counter. -/
def Obligations.CovoxAndDiskWrites : Prop :=
  ∀ (port : Word) (v : Byte) (s : State),
    let emits := fun (i : Instr) (l : List Event) =>
      exec i s = .next { s with tick := portTick s port, events := s.events ++ l, answer := .none }
    (port.getLsbD 0 = true → s.cfg.covoxMode ≠ .none →
      emits (.outpCovox port v) ((covoxChannels s.cfg port).map fun c => .covoxWrite c v)) ∧
    (s.cfg.covoxMode = .none → emits (.outpCovox port v) []) ∧
    (covoxChannels s.cfg port).Nodup ∧
    (∀ rows, s.cfg.covox = some rows → ∀ c, c ∈ covoxChannels s.cfg port ↔
      ∃ r ∈ rows, r.mode = s.cfg.covoxMode ∧ port &&& r.mask = r.value ∧ r.channel = c) ∧
    (s.latches.trdosPaged = true →
      (port &&& 0x00E3 = 0x03 → emits (.outpTrdosCommand port v) [.trdosWrite .status v]) ∧
      (port &&& 0x00E3 = 0x23 → emits (.outpTrdosTrack port v) [.trdosWrite .track v]) ∧
      (port &&& 0x00E3 = 0x43 → emits (.outpTrdosSector port v) [.trdosWrite .sector v]) ∧
      (port &&& 0x00E3 = 0x63 → emits (.outpTrdosData port v) [.trdosWrite .data v]) ∧
      (port &&& 0x00E3 = 0xE3 → emits (.outpTrdosSystem port v) [.trdosWrite .system v])) ∧
    (s.latches.trdosPaged = false →
      ∀ i ∈ [Instr.outpTrdosCommand port v, .outpTrdosTrack port v, .outpTrdosSector port v, .outpTrdosData port v,
        .outpTrdosSystem port v], emits i [])

/-- R201, R202, R203, R204, R206, R207: which latches `OUTP` leaves: none on Spec48 and TK, none once the lock is set, none on
an even address; else what the architecture's paging port writes (`pd7Latches` clears the high bit of the ROM latch off
Plus2A, log 17). -/
def Obligations.OutpPaging : Prop :=
  ∀ (port : Word) (v : Byte) (s : State), ∃ t, exec (.outp port v) s = .next t ∧
    t.latches =
      (if port.getLsbD 0 = false ∨ s.latches.pagingLock = true then s.latches
       else match s.arch with
        | .spec48 | .tk => s.latches
        | .spec128 | .pentagon => if port &&& 0x8002 = 0x0000 then pd7Latches s.arch s.latches v else s.latches
        | .plus2A =>
          if port &&& 0xC002 = 0x4000 then pd7Latches s.arch s.latches v
          else if port &&& 0xF002 = 0x1000 then pd1Latches s.latches v
          else s.latches)

/-- R93, R203, R206, R205: a write to the first paging port with the lock clear: each latch from its bit of the byte, the
locking write itself performed in full, and the map recomputed at once. On Plus2A only bit 0 of the ROM latch.
The data byte alone charges no ticks (log 34). -/
def Obligations.FirstPagingPort : Prop :=
  ∀ (port : Word) (v : Byte) (s : State) (i : Instr), s.latches.pagingLock = false →
    (i = .outpPage7 port v ∧ (s.arch = .spec128 ∨ s.arch = .pentagon) ∧ port.getLsbD 0 = true ∧ port &&& 0x8002 = 0x0000 ∨
     i = .outpPage7Plus2A port v ∧ s.arch = .plus2A ∧ port.getLsbD 0 = true ∧ port &&& 0xC002 = 0x4000 ∨
     i = .pd7 v ∧ s.arch.is48 = false) →
    ∃ t, exec i s = .next t ∧
      t = { s with tick := t.tick, latches := t.latches, map := mapOf s.cfg s.arch t.latches, answer := .none } ∧
      t.tick = (if i = .pd7 v then s.tick else portTick s port) ∧
      t.latches.bankLatch = v.extractLsb' 0 3 ∧ t.latches.videoLatch = v.getLsbD 3 ∧ t.latches.pagingLock = v.getLsbD 5 ∧
      t.latches.romLatch.getLsbD 0 = v.getLsbD 4 ∧
      t.latches.romLatch.getLsbD 1 = (if s.arch = .plus2A then s.latches.romLatch.getLsbD 1 else false) ∧
      t.latches.pagingmode2A3 = s.latches.pagingmode2A3 ∧ t.latches.specialCfg2A3 = s.latches.specialCfg2A3 ∧
      t.latches.trdosPaged = s.latches.trdosPaged

/-- R94, R207: a write to the second paging port of Plus2A with the lock clear: bit 0 the special mode, bits 2:1 the table,
bit 2 the high bit of the ROM latch; the map recomputed at once. The data byte alone charges no ticks (log 34). -/
def Obligations.SecondPagingPort : Prop :=
  ∀ (port : Word) (v : Byte) (s : State) (i : Instr), s.latches.pagingLock = false → s.arch = .plus2A →
    (i = .outpPage1Plus2A port v ∧ port.getLsbD 0 = true ∧ port &&& 0xF002 = 0x1000 ∨ i = .pd1 v) →
    ∃ t, exec i s = .next t ∧
      t = { s with tick := t.tick, latches := t.latches, map := mapOf s.cfg s.arch t.latches, answer := .none } ∧
      t.tick = (if i = .pd1 v then s.tick else portTick s port) ∧
      t.latches.pagingmode2A3 = v.getLsbD 0 ∧ t.latches.specialCfg2A3 = v.extractLsb' 1 2 ∧
      t.latches.romLatch.getLsbD 1 = v.getLsbD 2 ∧
      t.latches.romLatch.getLsbD 0 = s.latches.romLatch.getLsbD 0 ∧ t.latches.bankLatch = s.latches.bankLatch ∧
      t.latches.videoLatch = s.latches.videoLatch ∧ t.latches.pagingLock = false ∧
      t.latches.trdosPaged = s.latches.trdosPaged

/-- R204, R208, R210: while the lock is set no transaction, data byte or cheat command changes a latch or the map. It is a
statement about instructions: a `HOST` write of `trdosPaged` (R47, `HostWrites`) is none, and the lock does not stop it. -/
def Obligations.LockFreezesPaging : Prop :=
  ∀ (i : Instr) (s t : State), s.latches.pagingLock = true → i.agent ≠ .snap → i ≠ .reset →
    exec i s = .next t → t.latches = s.latches ∧ t.map = s.map

/-- R395, R44: the step that clears a set lock is `RESET` or an item of the Snapshot Codec, between CPU steps; a memory
block cut off by the end of its bytes is such an item (R289, R362; log 41). -/
def Obligations.LockClearedOnlyByResetOrLoad : Prop :=
  ∀ s t : State, step s = .next t → s.latches.pagingLock = true → t.latches.pagingLock = false →
    ∃ ch bytes rest, s.cpu = none ∧ s.agenda = .issue ch bytes :: rest ∧
      ((∃ i, decode ch bytes = .ok i ∧ (i = .reset ∨ i.agent = .snap)) ∨
        (ch = .z80Block ∧ (∃ r, decode ch bytes = .error r) ∧ t.answer = .failure .truncated))

/-- R70, R72, R43, R36, R34: what `Remap()` computes: the special tables on Plus2A in special mode, else the ROM in use and
banks 5, 2 and `bankLatch`; each window's contention flag; the display bank. -/
def Obligations.RemapWindows : Prop :=
  ∀ s : State,
    let m := s.remap.map
    let special := s.arch = .plus2A ∧ s.latches.pagingmode2A3 = true
    s.remap = { s with map := m } ∧
    (special → s.latches.specialCfg2A3 = 0 → m.ramCurrent = #v[.ram 0, .ram 1, .ram 2, .ram 3]) ∧
    (special → s.latches.specialCfg2A3 = 1 → m.ramCurrent = #v[.ram 4, .ram 5, .ram 6, .ram 7]) ∧
    (special → s.latches.specialCfg2A3 = 2 → m.ramCurrent = #v[.ram 4, .ram 5, .ram 6, .ram 3]) ∧
    (special → s.latches.specialCfg2A3 = 3 → m.ramCurrent = #v[.ram 4, .ram 7, .ram 6, .ram 3]) ∧
    (¬special → m.ramCurrent = #v[.rom m.romInUse, .ram 5, .ram 2, .ram s.latches.bankLatch]) ∧
    m.romInUse.val = (if s.latches.trdosPaged = true then 4 else s.latches.romLatch.toNat) ∧
    (∀ (w : Fin 4) (b : BitVec 3), m.ramCurrent.get w = .ram b →
      m.ramContended.get w = (pick s.cfg.contendedBanks s.arch).getLsbD b.toNat) ∧
    (∀ (w : Fin 4) (r : Fin 5), m.ramCurrent.get w = .rom r → m.ramContended.get w = false) ∧
    m.grmem = (if s.latches.videoLatch = true then .ram 7 else .ram 5)

/-! ### Rules over all instructions -/

/-- R40, R41, R42, R45, R207: from a state whose latches are legal for its architecture and that no load has spoilt, every
step that does not end in a late load failure leads to such a state. -/
def Obligations.LatchesStayLegal : Prop :=
  ∀ s t : State, s.LatchesLegal → s.failed = false → step s = .next t → t.failed = false → t.LatchesLegal

/-- R19, R39, R77, R360, R372: every CPU transaction completes and touches only memory, the counter, the port and paging
state, the AY image, the events and the oracle: never a register, `arch`, the key matrix or the cheat arrays. -/
def Obligations.CpuTransactionKeeps : Prop :=
  ∀ (i : Instr) (s : State), i.agent = .cpu → ∃ t, exec i s = .next t ∧
    t = { s with
      mem := t.mem
      latches := t.latches
      map := t.map
      port254 := t.port254
      tick := t.tick
      lastContended := t.lastContended
      ay := t.ay
      events := t.events
      answer := t.answer
      oracle := t.oracle
      draws := t.draws } ∧
    t.latches.trdosPaged = s.latches.trdosPaged

/-- R30, R325: no instruction but an SP load changes what a ROM page reads, unless it switches the architecture or fails
late. -/
def Obligations.RomPagesKept : Prop :=
  ∀ (i : Instr) (s t : State), exec i s = .next t → i ≠ .loadSp → (∀ f, i ≠ .spWithRom f) →
    t.arch = s.arch → t.failed = false → ∀ (r : Fin 5) (o : Nat), o < 0x4000 → t.readPage (.rom r) o = s.readPage (.rom r) o

/-- R390, R391: `RESET`: what it sets and what it keeps; the elements it leaves any value are not named. -/
def Obligations.ResetCommand : Prop :=
  ∀ s : State, ∃ t, exec .reset s = .next t ∧
    t.regs.pc = 0x0000 ∧ t.regs.iff1 = false ∧ t.regs.iff2 = false ∧ t.regs.im = .im0 ∧ t.regs.i = 0x00 ∧ t.regs.r = 0x00 ∧
    t.latches = ⟨0, false, 0, false, false, 0, false⟩ ∧ (∀ i : Fin 128, i.val < 8 → t.port.get i = 0xFF) ∧
    t.tick = 0 ∧ t.failed = false ∧ t.map.ramCurrent = #v[.rom 0, .ram 5, .ram 2, .ram 0] ∧ t.map.grmem = .ram 5 ∧
    t.map.romInUse = 0 ∧ t.Mapped ∧ t.arch = s.arch ∧ t.cfg = s.cfg ∧ t.cheats = s.cheats ∧ t.pokes = s.pokes ∧
    (∀ (p : Page) (o : Nat), t.readPage p o = s.readPage p o)

/-- R362, R363, R130: with `failed` set no CPU step begins or goes on and no CPU transaction is issued; without a successful
allocation no step is taken at all; between CPU steps the run ends where the environment's list does. -/
def Obligations.StuckMachine : Prop :=
  ∀ s : State,
    (s.cfg.allocOk = false → step s = .fault .initAllocFailure) ∧
    (s.cfg.allocOk = true → s.cpu = none → s.agenda = [] → step s = .fault .runEnded) ∧
    (s.cfg.allocOk = true → s.failed = true →
      (s.cpu ≠ none → step s = .fault .machineFailed) ∧
      (∀ rest, s.cpu = none → s.agenda = .cpuStep :: rest → step s = .fault .machineFailed) ∧
      (∀ ch bytes rest i, s.cpu = none → s.agenda = .issue ch bytes :: rest → decode ch bytes = .ok i → i.agent = .cpu →
        step s = .fault .machineFailed))

/-- R47, R49, R341, R397: what a `HOST` write does, between CPU steps: a byte of `port[]`, `trdosPaged` with the map
recomputed, the enabled flag of a cheat, the value of an input poke and of no other. Nothing else of the two cheat arrays is
host-writable. -/
def Obligations.HostWrites : Prop :=
  ∀ (s : State) (rest : List AgendaItem) (a : HostAct), s.cfg.allocOk = true → s.cpu = none → s.agenda = .host a :: rest →
    let u := { s with agenda := rest }
    (∀ i v, a = .setPort i v → step s = .next { u with port := s.port.set i.val v i.isLt }) ∧
    (∀ b, a = .setTrdos b →
      step s = .next
        { u with
          latches := { s.latches with trdosPaged := b }
          map := mapOf s.cfg s.arch { s.latches with trdosPaged := b } }) ∧
    (∀ i b, a = .enableCheat i b → ∃ t, step s = .next t ∧ t = { u with cheats := t.cheats } ∧
      t.cheats.length = s.cheats.length ∧
      ∀ j c, s.cheats[j]? = some c → t.cheats[j]? = some (if j = i then { c with enabled := b } else c)) ∧
    (∀ i v, a = .pokeValue i v → ∃ t, step s = .next t ∧ t = { u with pokes := t.pokes } ∧
      t.pokes.length = s.pokes.length ∧
      ∀ j p, s.pokes[j]? = some p →
        t.pokes[j]? = some (if j = i ∧ p.isInput = true then { p with value := v } else p)) ∧
    (∃ t, step s = .next t ∧ t.cheats.length = s.cheats.length ∧ t.pokes.length = s.pokes.length ∧ t.fill = s.fill ∧
      (∀ (j : Nat) (c : Cheat), s.cheats[j]? = some c → ∃ b, t.cheats[j]? = some { c with enabled := b }) ∧
      ∀ (j : Nat) (p : Poke), s.pokes[j]? = some p →
        ∃ v, t.pokes[j]? = some { p with value := v } ∧ (p.isInput = false → v = p.value))

/-! ### Snapshots -/

/-- R251, R280, R281, R287, R320, R326, R362, R261, R303: every refusal made before state is changed leaves the machine as it
was; only the caller learns the reason. `f` is the operand file; with none presented it is the empty string (log 21). -/
def Obligations.LoadRefusedEarly : Prop :=
  ∀ (s : State) (f : List Byte), s.file = some f ∨ (s.file = none ∧ f = []) →
    let refuses := fun (i : Instr) (r : LoadFailure) => exec i s = .next { s with answer := .failure r }
    (f.length ∉ [49179, 131103, 147487, 131121, 147505] → refuses .loadSna .badSize) ∧
    (f.length < 30 → refuses .loadZ80 .badSize) ∧
    (30 ≤ f.length → le16 f 6 = 0 →
      (f.length < 32 → refuses .loadZ80 .badSize) ∧
      (32 ≤ f.length → le16 f 30 ∉ ([23, 54, 55] : List Word) → refuses .loadZ80 .unknownVersion) ∧
      (32 ≤ f.length → le16 f 30 ∈ ([23, 54, 55] : List Word) → f.length < 35 → refuses .loadZ80 .badSize) ∧
      (35 ≤ f.length → le16 f 30 = 23 → z80MachineMap s.cfg 2 (fileByte f 34) = none → refuses .loadZ80 .unknownMachine) ∧
      (35 ≤ f.length → le16 f 30 = 54 ∨ le16 f 30 = 55 → z80MachineMap s.cfg 3 (fileByte f 34) = none →
        refuses .loadZ80 .unknownMachine)) ∧
    (f.length < 38 → refuses .loadSp .badSize) ∧
    (38 ≤ f.length →
      (¬(fileByte f 0 = 0x53 ∧ fileByte f 1 = 0x50) → refuses .loadSp .badSignature) ∧
      (fileByte f 0 = 0x53 ∧ fileByte f 1 = 0x50 →
        (¬(le16 f 2 = 49152 ∧ le16 f 4 = 16384) → ¬(le16 f 2 = 0 ∧ le16 f 4 = 0) → refuses .loadSp .badField) ∧
        (le16 f 2 = 49152 ∧ le16 f 4 = 16384 → f.length ≠ 49190 → refuses .loadSp .badSize) ∧
        (le16 f 2 = 0 ∧ le16 f 4 = 0 → f.length ≠ 65574 → refuses .loadSp .badSize)))

/-- R250, R252, R253, R255, R256, R349, R393: a 48K SNA file loads: every register from its field, banks 5, 2, 0 from the three blocks,
the latches cleared, `PC` popped untimed through the new map. `s1` is the state the load starts from, after the power-on
reset where the architecture switches. `LOAD_SNA` of the file does the same. -/
def Obligations.Sna48Load : Prop :=
  ∀ (f : List Byte) (s : State), f.length = 49179 → fileByte f 25 &&& 0x03 ≠ 3 →
    let target := if s.arch = .spec48 ∨ s.arch = .tk then s.arch else .spec48
    (target = s.arch ∨ s.cfg.allocOk = true) →
    let s1 := if target = s.arch then s else s.powerOn target
    let sp := le16 f 23
    ∃ t im, exec (.snaS48 f) s = .next t ∧ (s.file = some f → exec .loadSna s = .next t) ∧
      imByte im = fileByte f 25 &&& 0x03 ∧
      t = { s1 with
        regs := {
          i := fileByte f 0, hl2 := le16 f 1, de2 := le16 f 3, bc2 := le16 f 5, f2 := fileByte f 7, a2 := fileByte f 8,
          hl := le16 f 9, de := le16 f 11, bc := le16 f 13, iy := le16 f 15, ix := le16 f 17,
          iff2 := (fileByte f 19).getLsbD 2, iff1 := (fileByte f 19).getLsbD 2, r := fileByte f 20, f := fileByte f 21,
          a := fileByte f 22, im := im, sp := sp + 2, pc := t.memRead (sp + 1) ++ t.memRead sp }
        mem := t.mem
        latches := ⟨0, false, 0, false, false, 0, false⟩
        map := t.map
        port254 := (s1.port254 &&& 0xF8) ||| (fileByte f 26 &&& 0x07)
        events := s1.events ++ [.borderChange s1.tick ((fileByte f 26).extractLsb' 0 3)]
        cheats := []
        pokes := []
        fill := ⟨none, 0⟩
        failed := false
        answer := .loaded } ∧
      t.arch = target ∧ t.map.ramCurrent = #v[.rom 0, .ram 5, .ram 2, .ram 0] ∧ t.Mapped ∧
      ∀ (p : Page) (o : Nat), o < 0x4000 → t.readPage p o =
        if p = .ram 5 then fileByte f (27 + o)
        else if p = .ram 2 then fileByte f (16411 + o)
        else if p = .ram 0 then fileByte f (32795 + o)
        else s1.readPage p o

/-- R251, R252, R253, R255, R257, R258, R259, R260: a 128K-class SNA file whose size matches its paging byte loads: every
register from its field, `PC` and the latches from the tail, the third block into the current bank, the other banks in ascending order, and on +2A the second
paging byte and the AY image. A set lock does not block it. -/
def Obligations.Sna128Load : Prop :=
  ∀ (v : SnaVariant) (f : List Byte) (s : State), v ≠ .s48 → f.length = v.size → fileByte f 25 &&& 0x03 ≠ 3 →
    let pb := fileByte f 49181
    let cur := pb.extractLsb' 0 3
    let two := v = .s2A3a ∨ v = .s2A3b
    let target :=
      if v = .s2A3a ∨ v = .s2A3b then .plus2A
      else if s.arch = .spec128 ∨ s.arch = .pentagon then s.arch
      else if s.cfg.snaPrefers = .spec128 then .spec128 else .pentagon
    let n := f.length
    let q := fileByte f (n - 18)
    let s1 := if target = s.arch then s else s.powerOn target
    let i := snaInstr v f
    (v = .s128a ∨ v = .s2A3a ↔ cur ≠ 2 ∧ cur ≠ 5) → (target = s.arch ∨ s.cfg.allocOk = true) →
    ∃ t im, exec i s = .next t ∧ (s.file = some f → exec .loadSna s = .next t) ∧
      imByte im = fileByte f 25 &&& 0x03 ∧
      t = { s1 with
        regs := {
          i := fileByte f 0, hl2 := le16 f 1, de2 := le16 f 3, bc2 := le16 f 5, f2 := fileByte f 7, a2 := fileByte f 8,
          hl := le16 f 9, de := le16 f 11, bc := le16 f 13, iy := le16 f 15, ix := le16 f 17,
          iff2 := (fileByte f 19).getLsbD 2, iff1 := (fileByte f 19).getLsbD 2, r := fileByte f 20, f := fileByte f 21,
          a := fileByte f 22, im := im, sp := le16 f 23, pc := le16 f 49179 }
        mem := t.mem, latches := t.latches, map := t.map, ay := t.ay, cheats := [], pokes := []
        fill := ⟨none, 0⟩, failed := false, answer := .loaded
        port254 := (s1.port254 &&& 0xF8) ||| (fileByte f 26 &&& 0x07)
        events := s1.events ++ [.borderChange s1.tick ((fileByte f 26).extractLsb' 0 3)] } ∧
      t.arch = target ∧ t.latches.bankLatch = cur ∧ t.latches.videoLatch = pb.getLsbD 3 ∧ t.latches.romLatch.getLsbD 0 = pb.getLsbD 4 ∧
      t.latches.pagingLock = pb.getLsbD 5 ∧ (t.latches.trdosPaged = true ↔ fileByte f 49182 ≠ 0) ∧
      (two →
        t.latches.pagingmode2A3 = q.getLsbD 0 ∧ t.latches.specialCfg2A3 = q.extractLsb' 1 2 ∧
        t.latches.romLatch.getLsbD 1 = q.getLsbD 2 ∧ t.ay.sel = fileByte f (n - 17) ∧
        ∀ k : Fin 16, t.ay.reg.get k = fileByte f (n - 16 + k.val)) ∧
      (¬two → t.ay = s1.ay ∧ t.latches.pagingmode2A3 = s1.latches.pagingmode2A3 ∧
        t.latches.specialCfg2A3 = s1.latches.specialCfg2A3) ∧
      t.Mapped ∧
      ∀ o, o < 0x4000 →
        t.readPage (.ram cur) o = fileByte f (32795 + o) ∧
        (cur ≠ 5 → t.readPage (.ram 5) o = fileByte f (27 + o)) ∧
        (cur ≠ 2 → t.readPage (.ram 2) o = fileByte f (16411 + o)) ∧
        (∀ b k, (remainingBanks cur)[k]? = some b → t.readPage (.ram b) o = fileByte f (49183 + 16384 * k + o)) ∧
        (∀ r, t.readPage (.rom r) o = s1.readPage (.rom r) o)

/-- R255, R259, R261, R283, R284, R286, R289, R303, R361, R362: every failure raised once state is changed, of an SNA file, a
Z80 file or a single Z80 block, sets `failed` and reaches the caller with its reason, the map still follows the latches, and
the counter is not moved; the elements R362 leaves any value are not named. Nothing else sets `failed`. -/
def Obligations.LateLoadFailure : Prop :=
  (∀ (v : SnaVariant) (f : List Byte) (s : State), f.length = v.size → snaArch v s = s.arch ∨ s.cfg.allocOk = true →
    let fails := fun r : LoadFailure => ∃ t, exec (snaInstr v f) s = .next t ∧
      (s.file = some f → exec .loadSna s = .next t) ∧
      t.failed = true ∧ t.answer = .failure r ∧ t.Mapped ∧ (snaArch v s = s.arch → t.tick = s.tick)
    (fileByte f 25 &&& 0x03 = 3 → fails .badField) ∧
    (fileByte f 25 &&& 0x03 ≠ 3 → v ≠ .s48 →
      ¬(v = .s128a ∨ v = .s2A3a ↔
        (fileByte f 49181).extractLsb' 0 3 ≠ 2 ∧ (fileByte f 49181).extractLsb' 0 3 ≠ 5) → fails .badSize)) ∧
  (∀ (v : Z80Ver) (f : List Byte) (s : State) (target : Arch),
    30 ≤ f.length → z80Version f = .ok v → z80Arch v f s = .ok target → target = s.arch ∨ s.cfg.allocOk = true →
    let fb := if fileByte f 12 = 255 then 1 else fileByte f 12
    let body := f.drop 30
    let ext := (le16 f 30).toNat
    let pageOf := fun b : Word × Byte × List Byte => if b.1 = 0xFFFF then b.2.2 else decompress b.2.2 16384
    let fails := fun r : LoadFailure => ∃ t, exec (z80Instr v f) s = .next t ∧
      (s.file = some f → exec .loadZ80 s = .next t) ∧
      t.failed = true ∧ t.answer = .failure r ∧ t.Mapped ∧ (target = s.arch → t.tick = s.tick)
    (fileByte f 29 &&& 0x03 = 3 → fails .badField) ∧
    (fileByte f 29 &&& 0x03 ≠ 3 →
      (v = .v1 → fb.getLsbD 5 = false → body.length ≠ 49152 → fails .badSize) ∧
      (v = .v1 → fb.getLsbD 5 = true →
        (decompress (if body.drop (body.length - 4) = [0x00, 0xED, 0xED, 0x00] then body.take (body.length - 4) else body)
          49152).length ≠ 49152 → fails .truncated) ∧
      (v ≠ .v1 → f.length < 32 + ext → fails .badSize) ∧
      (v ≠ .v1 → 32 + ext ≤ f.length →
        ¬(∃ blocks : List (Word × Byte × List Byte),
          f.drop (32 + ext) = blocks.flatMap (fun b => b.1.extractLsb' 0 8 :: b.1.extractLsb' 8 8 :: b.2.1 :: b.2.2) ∧
          ∀ b ∈ blocks, b.2.2.length = (if b.1 = 0xFFFF then 16384 else b.1.toNat) ∧ (pageOf b).length = 16384) →
        fails .truncated))) ∧
  (∀ (len : Word) (id : Byte) (data : List Byte) (s : State),
    ¬(data.length = (if len = 0xFFFF then 16384 else len.toNat) ∧
      (if len = 0xFFFF then data else decompress data 16384).length = 16384) →
    ∃ t, exec (.z80Block len id data) s = .next t ∧ t.failed = true ∧ t.answer = .failure .truncated ∧ t.Mapped ∧
      t.tick = s.tick) ∧
  (∀ (i : Instr) (s t : State), exec i s = .next t → s.failed = false → t.failed = true →
    i.agent = .snap ∧ t.Mapped ∧ ∃ r, t.answer = .failure r)

/-- R262 to R266: `SAVE_SNA` returns a file and changes nothing else: the variant and size of the architecture and the
current bank, the header, the 48K image with `PC` stored at `SP - 2`, the 128K-class tail, the +2A trailer. -/
def Obligations.SaveSnaFile : Prop :=
  ∀ s : State, ∃ f, exec .saveSna s = .next { s with answer := .bytes f } ∧
    let r := s.regs
    let l := s.latches
    let b := l.bankLatch
    let sp := r.sp - 2
    let six := b = 2 ∨ b = 5
    fileByte f 0 = r.i ∧ le16 f 1 = r.hl2 ∧ le16 f 3 = r.de2 ∧ le16 f 5 = r.bc2 ∧ fileByte f 7 = r.f2 ∧
    fileByte f 8 = r.a2 ∧ le16 f 9 = r.hl ∧ le16 f 11 = r.de ∧ le16 f 13 = r.bc ∧ le16 f 15 = r.iy ∧ le16 f 17 = r.ix ∧
    fileByte f 19 = (if r.iff2 = true then 4 else 0) ∧ fileByte f 20 = r.r ∧ fileByte f 21 = r.f ∧ fileByte f 22 = r.a ∧
    fileByte f 25 = imByte r.im ∧ fileByte f 26 = s.port254 &&& 0x07 ∧
    (s.arch.is48 = true →
      f.length = 49179 ∧ le16 f 23 = sp ∧
      ∀ addr : Word, 0x4000 ≤ addr →
        fileByte f (27 + (addr - 0x4000).toNat) =
          if addr = sp + 1 then r.pc.extractLsb' 8 8
          else if addr = sp then r.pc.extractLsb' 0 8
          else s.readPage (if addr < 0x8000 then .ram 5 else if addr < 0xC000 then .ram 2 else .ram 0) (off addr).toNat) ∧
    (s.arch.is48 = false →
      f.length = 131103 + (if b = 2 ∨ b = 5 then 16384 else 0) + (if s.arch = .plus2A then 18 else 0) ∧
      le16 f 23 = r.sp ∧ le16 f 49179 = r.pc ∧
      fileByte f 49181 = (b.setWidth 8 ||| (if l.videoLatch = true then (0x08 : Byte) else 0) |||
        (if l.romLatch.getLsbD 0 = true then (0x10 : Byte) else 0) ||| (if l.pagingLock = true then (0x20 : Byte) else 0)) ∧
      fileByte f 49182 = (if l.trdosPaged = true then 1 else 0) ∧
      (∀ o, o < 0x4000 →
        fileByte f (27 + o) = s.readPage (.ram 5) o ∧ fileByte f (16411 + o) = s.readPage (.ram 2) o ∧
        fileByte f (32795 + o) = s.readPage (.ram b) o ∧
        ∀ c k, (remainingBanks b)[k]? = some c → fileByte f (49183 + 16384 * k + o) = s.readPage (.ram c) o) ∧
      (s.arch = .plus2A →
        fileByte f (f.length - 18) = ((if l.pagingmode2A3 = true then (0x01 : Byte) else 0) ||| (l.specialCfg2A3.setWidth 8 <<< 1)) ∧
        fileByte f (f.length - 17) = s.ay.sel ∧ ∀ k : Fin 16, fileByte f (f.length - 16 + k.val) = s.ay.reg.get k)) ∧
    (s.arch.is48 = false → (six ↔ (remainingBanks b).length = 6))

/-- R267: a 48K file loaded and saved again is reproduced byte for byte, provided its IFF2 byte has no bit but bit 2, its
border byte is below 8, its IM byte is 0 to 2, and `SP` and `SP + 1` address RAM. -/
def Obligations.Sna48RoundTrip : Prop :=
  ∀ (f : List Byte) (s : State), f.length = 49179 → s.arch.is48 = true ∨ s.cfg.allocOk = true →
    fileByte f 19 &&& 0xFB = 0 → fileByte f 25 ≤ 2 → fileByte f 26 < 8 → 0x4000 ≤ le16 f 23 → le16 f 23 ≤ 0xFFFE →
    ∃ t u, exec (.snaS48 f) s = .next t ∧ exec .saveSna t = .next u ∧ u.answer = .bytes f

/-- R280, R281, R283, R284, R287: a version 1 file loads: registers, border, a raw body of 49152 bytes or a compressed one
(its terminator stripped) that gives 49152, into banks 5, 2, 0, the latches cleared. `LOAD_Z80` of the file does the same. -/
def Obligations.Z80V1Load : Prop :=
  ∀ (f img : List Byte) (s : State), 30 ≤ f.length → le16 f 6 ≠ 0 → fileByte f 29 &&& 0x03 ≠ 3 →
    let fb := if fileByte f 12 = 255 then 1 else fileByte f 12
    let body := f.drop 30
    (if fb.getLsbD 5 = true then
      img = decompress (if body.drop (body.length - 4) = [0x00, 0xED, 0xED, 0x00] then body.take (body.length - 4) else body)
        49152
     else img = body) →
    img.length = 49152 →
    let target := if s.arch = .spec48 ∨ s.arch = .tk then s.arch else .spec48
    (target = s.arch ∨ s.cfg.allocOk = true) →
    let s1 := if target = s.arch then s else s.powerOn target
    ∃ t im, exec (.z80V1 f) s = .next t ∧ (s.file = some f → exec .loadZ80 s = .next t) ∧
      imByte im = fileByte f 29 &&& 0x03 ∧
      t = { s1 with
        regs := {
          a := fileByte f 0, f := fileByte f 1, bc := le16 f 2, hl := le16 f 4, pc := le16 f 6, sp := le16 f 8,
          i := fileByte f 10, r := (fileByte f 11 &&& 0x7F) ||| (if fb.getLsbD 0 = true then (0x80 : Byte) else 0),
          de := le16 f 13, bc2 := le16 f 15, de2 := le16 f 17, hl2 := le16 f 19, a2 := fileByte f 21, f2 := fileByte f 22,
          iy := le16 f 23, ix := le16 f 25, iff1 := fileByte f 27 != 0, iff2 := fileByte f 28 != 0, im := im }
        mem := t.mem
        latches := ⟨0, false, 0, false, false, 0, false⟩
        map := t.map
        port254 := (s1.port254 &&& 0xF8) ||| (fb.extractLsb' 1 3).setWidth 8
        events := s1.events ++ [.borderChange s1.tick (fb.extractLsb' 1 3)]
        cheats := []
        pokes := []
        fill := ⟨none, 0⟩
        failed := false
        answer := .loaded } ∧
      t.arch = target ∧ t.Mapped ∧
      ∀ (p : Page) (o : Nat), o < 0x4000 → t.readPage p o =
        if p = .ram 5 then fileByte img o
        else if p = .ram 2 then fileByte img (16384 + o)
        else if p = .ram 0 then fileByte img (32768 + o)
        else s1.readPage p o

/-- R280, R283, R286, R287, R289, R290, R291: a version 2 or 3 file whose rest is a sequence of whole blocks loads: every
register from its field, the border with its event, `PC` and the latches from the extended header, each block's
16384 bytes into the bank its page id names, a later block over an earlier one, an id the map skips nowhere. -/
def Obligations.Z80BlocksLoad : Prop :=
  ∀ (v : Z80Ver) (f : List Byte) (s : State) (target : Arch) (blocks : List (Word × Byte × List Byte)),
    v ≠ .v1 → 30 ≤ f.length → z80Version f = .ok v → z80Arch v f s = .ok target → fileByte f 29 &&& 0x03 ≠ 3 →
    let ext := (le16 f 30).toNat
    let pageOf := fun b : Word × Byte × List Byte => if b.1 = 0xFFFF then b.2.2 else decompress b.2.2 16384
    32 + ext ≤ f.length →
    f.drop (32 + ext) = blocks.flatMap (fun b => b.1.extractLsb' 0 8 :: b.1.extractLsb' 8 8 :: b.2.1 :: b.2.2) →
    (∀ b ∈ blocks, b.2.2.length = (if b.1 = 0xFFFF then 16384 else b.1.toNat) ∧ (pageOf b).length = 16384) →
    (target = s.arch ∨ s.cfg.allocOk = true) →
    let s1 := if target = s.arch then s else s.powerOn target
    let fb := if fileByte f 12 = 255 then 1 else fileByte f 12
    ∃ t im, exec (z80Instr v f) s = .next t ∧ (s.file = some f → exec .loadZ80 s = .next t) ∧
      imByte im = fileByte f 29 &&& 0x03 ∧
      t = { s1 with
        regs := {
          a := fileByte f 0, f := fileByte f 1, bc := le16 f 2, hl := le16 f 4, pc := le16 f 32, sp := le16 f 8,
          i := fileByte f 10, r := (fileByte f 11 &&& 0x7F) ||| (if fb.getLsbD 0 = true then (0x80 : Byte) else 0),
          de := le16 f 13, bc2 := le16 f 15, de2 := le16 f 17, hl2 := le16 f 19, a2 := fileByte f 21, f2 := fileByte f 22,
          iy := le16 f 23, ix := le16 f 25, iff1 := fileByte f 27 != 0, iff2 := fileByte f 28 != 0, im := im }
        mem := t.mem
        latches := t.latches
        map := t.map
        port254 := (s1.port254 &&& 0xF8) ||| (fb.extractLsb' 1 3).setWidth 8
        events := s1.events ++ [.borderChange s1.tick (fb.extractLsb' 1 3)]
        cheats := []
        pokes := []
        fill := ⟨none, 0⟩
        failed := false
        answer := .loaded } ∧
      t.arch = target ∧ t.Mapped ∧ t.latches.trdosPaged = false ∧
      (target.is48 = true → t.latches = ⟨0, false, 0, false, false, 0, false⟩) ∧
      (target.is48 = false →
        t.latches.bankLatch = (fileByte f 35).extractLsb' 0 3 ∧ t.latches.videoLatch = (fileByte f 35).getLsbD 3 ∧
        t.latches.romLatch.getLsbD 0 = (fileByte f 35).getLsbD 4 ∧ t.latches.pagingLock = (fileByte f 35).getLsbD 5) ∧
      (target = .plus2A →
        let q := if ext = 55 then fileByte f 86 else 0
        t.latches.pagingmode2A3 = q.getLsbD 0 ∧ t.latches.specialCfg2A3 = q.extractLsb' 1 2 ∧
        t.latches.romLatch.getLsbD 1 = q.getLsbD 2) ∧
      (∀ (b : BitVec 3) (o : Nat), o < 0x4000 →
        t.readPage (.ram b) o =
          match blocks.reverse.find? (fun e => z80PageMap s.cfg target e.2.1 == some b) with
          | some e => fileByte (pageOf e) o
          | none => s1.readPage (.ram b) o) ∧
      ∀ (r : Fin 5) (o : Nat), o < 0x4000 → t.readPage (.rom r) o = s1.readPage (.rom r) o

/-- R284, R289, R290: one memory block loads the bank its page id names and nothing else; a v1 body's terminator is not
data: what comes back is the body it ends (log 35). -/
def Obligations.Z80BlockAndTerminator : Prop :=
  (∀ (len : Word) (id : Byte) (data : List Byte) (s : State),
    let page := if len = 0xFFFF then data else decompress data 16384
    data.length = (if len = 0xFFFF then 16384 else len.toNat) → page.length = 16384 →
    ∃ t, exec (.z80Block len id data) s = .next t ∧ t = { s with mem := t.mem, answer := .loaded } ∧
      ∀ (p : Page) (o : Nat), o < 0x4000 →
        t.readPage p o = if (z80PageMap s.cfg s.arch id).map Page.ram = some p then fileByte page o else s.readPage p o) ∧
  (∀ (body : List Byte) (s : State), exec (.z80V1Terminator body) s = .next { s with answer := .bytes body })

/-- R300, R301, R302: `SAVE_Z80` returns a version 3 file and changes nothing else: the header fields (the machine
code names a machine of the architecture's memory class), then each bank of the architecture as a compressed block under its page id, which decompresses to the bank and is never 0xFFFF long. The page ids are R302's list whatever the configuration's page maps are (log 39). -/
def Obligations.SaveZ80File : Prop :=
  ∀ s : State, ∃ f, exec .saveZ80 s = .next { s with answer := .bytes f } ∧
    let r := s.regs
    let l := s.latches
    let ext := if s.arch = .plus2A then 55 else 54
    fileByte f 0 = r.a ∧ fileByte f 1 = r.f ∧ le16 f 2 = r.bc ∧ le16 f 4 = r.hl ∧ le16 f 6 = 0 ∧ le16 f 8 = r.sp ∧
    fileByte f 10 = r.i ∧ fileByte f 11 = r.r ∧
    fileByte f 12 = ((if r.r.getLsbD 7 = true then (0x01 : Byte) else 0) ||| ((s.port254 &&& 0x07) <<< 1)) ∧ le16 f 13 = r.de ∧
    le16 f 15 = r.bc2 ∧ le16 f 17 = r.de2 ∧ le16 f 19 = r.hl2 ∧ fileByte f 21 = r.a2 ∧ fileByte f 22 = r.f2 ∧
    le16 f 23 = r.iy ∧ le16 f 25 = r.ix ∧ fileByte f 27 = (if r.iff1 = true then 1 else 0) ∧
    fileByte f 28 = (if r.iff2 = true then 1 else 0) ∧ fileByte f 29 = imByte r.im ∧ (le16 f 30).toNat = ext ∧
    le16 f 32 = r.pc ∧ fileByte f 34 = pick s.cfg.z80SaveCode s.arch ∧
    (∃ m, z80MachineMap s.cfg 3 (fileByte f 34) = some m ∧ m.is48 = s.arch.is48) ∧
    fileByte f 35 = (if s.arch.is48 = true then 0 else
      l.bankLatch.setWidth 8 ||| (if l.videoLatch = true then (0x08 : Byte) else 0) |||
        (if l.romLatch.getLsbD 0 = true then (0x10 : Byte) else 0) ||| (if l.pagingLock = true then (0x20 : Byte) else 0)) ∧
    (∀ k, 36 ≤ k → k < 86 → fileByte f k = 0) ∧
    (s.arch = .plus2A →
      fileByte f 86 = ((if l.pagingmode2A3 = true then (0x01 : Byte) else 0) ||| (l.specialCfg2A3.setWidth 8 <<< 1))) ∧
    (let banks : List (Byte × BitVec 3) :=
      if s.arch.is48 = true then [(4, 2), (5, 0), (8, 5)]
      else [(3, 0), (4, 1), (5, 2), (6, 3), (7, 4), (8, 5), (9, 6), (10, 7)]
     let packed := fun b : BitVec 3 => compress (s.pageBytes (.ram b))
     f.drop (32 + ext) = banks.flatMap (fun e =>
       (BitVec.ofNat 16 (packed e.2).length).extractLsb' 0 8 :: (BitVec.ofNat 16 (packed e.2).length).extractLsb' 8 8 ::
         e.1 :: packed e.2) ∧
     ∀ b : BitVec 3, (packed b).length < 0xFFFF ∧ decompress (packed b) 16384 = s.pageBytes (.ram b))

/-- R293, R296, R292: an escape form stands for `count` copies of `value`, with count zero for no byte; nothing else
changes. -/
def Obligations.RleEscapeForms : Prop :=
  ∀ (count value : Byte) (s : State),
    exec (.rleEscape count value) s = .next { s with answer := .bytes (List.replicate count.toNat value) } ∧
    exec (.rleEscapeCount0 value) s = .next { s with answer := .bytes [] }

/-- R299: decompressing what the compressor writes gives the source back, for every bound not below its length; a run of
exactly five bytes other than 0xED takes the escape form, one of at most four stays literal, and a 0xED alone goes out with
the next byte unchanged. -/
def Obligations.RleRoundTrip : Prop :=
  (∀ (src : List Byte) (m : Nat), src.length ≤ m → decompress (compress src) m = src) ∧
  (∀ b : Byte, b ≠ 0xED → compress (List.replicate 5 b) = [0xED, 0xED, 5, b]) ∧
  (∀ (b : Byte) (n : Nat), b ≠ 0xED → n ≤ 4 → compress (List.replicate n b) = List.replicate n b) ∧
  (∀ b : Byte, b ≠ 0xED → compress [0xED, b] = [0xED, b])

/-- R295: decompression never returns more than the bound, and a bound only cuts what a larger one would return. -/
def Obligations.RleHardBound : Prop :=
  ∀ (src : List Byte) (m n : Nat),
    (decompress src m).length ≤ m ∧ (m ≤ n → decompress src m = (decompress src n).take m)

/-- R320 to R325, R349, R393: an SP file loads: registers, `PC` and `SP` as stored, border, interrupt state, latches cleared, banks 5, 2,
0, and the embedded ROM page into `rom[0]` where there is one. `LOAD_SP` of the file does the same. -/
def Obligations.SpLoad : Prop :=
  ∀ (rom : Bool) (f : List Byte) (s : State), fileByte f 0 = 0x53 → fileByte f 1 = 0x50 →
    (if rom = true then le16 f 2 = 0 ∧ le16 f 4 = 0 ∧ f.length = 65574
     else le16 f 2 = 49152 ∧ le16 f 4 = 16384 ∧ f.length = 49190) →
    let target := if s.arch = .spec48 ∨ s.arch = .tk then s.arch else .spec48
    (target = s.arch ∨ s.cfg.allocOk = true) →
    let s1 := if target = s.arch then s else s.powerOn target
    let st := le16 f 36
    let m := if rom = true then 16422 else 38
    ∃ t, exec (if rom = true then .spWithRom f else .spNoRom f) s = .next t ∧
      (s.file = some f → exec .loadSp s = .next t) ∧
      t = { s1 with
        regs := {
          bc := le16 f 6, de := le16 f 8, hl := le16 f 10, f := fileByte f 12, a := fileByte f 13, ix := le16 f 14,
          iy := le16 f 16, bc2 := le16 f 18, de2 := le16 f 20, hl2 := le16 f 22, f2 := fileByte f 24, a2 := fileByte f 25,
          r := fileByte f 26, i := fileByte f 27, sp := le16 f 28, pc := le16 f 30, iff1 := st.getLsbD 0,
          iff2 := st.getLsbD 2, im := if st.getLsbD 1 = true then .im2 else .im1 }
        mem := t.mem
        latches := ⟨0, false, 0, false, false, 0, false⟩
        map := t.map
        port254 := (s1.port254 &&& 0xF8) ||| (fileByte f 34 &&& 0x07)
        events := s1.events ++ [.borderChange s1.tick ((fileByte f 34).extractLsb' 0 3)]
        cheats := []
        pokes := []
        fill := ⟨none, 0⟩
        failed := false
        answer := .loaded } ∧
      t.arch = target ∧ t.Mapped ∧
      ∀ (p : Page) (o : Nat), o < 0x4000 → t.readPage p o =
        if p = .ram 5 then fileByte f (m + o)
        else if p = .ram 2 then fileByte f (m + 16384 + o)
        else if p = .ram 0 then fileByte f (m + 32768 + o)
        else if p = .rom 0 ∧ rom = true then fileByte f (38 + o)
        else s1.readPage p o

/-! ### Cheats -/

/-- R337, R348, R349: closing, and loading an absent file, empty the arrays; loading a file fills them; no memory page, latch
or register is touched. -/
def Obligations.CheatLoadAndClose : Prop :=
  ∀ s : State,
    exec .cheatClose s = .next { s with cheats := [], pokes := [], fill := ⟨none, 0⟩, answer := .none } ∧
    (s.file = none →
      exec .cheatLoad s = .next { s with cheats := [], pokes := [], fill := ⟨none, 0⟩, answer := .none }) ∧
    ∃ t, exec .cheatLoad s = .next t ∧
      t = { s with cheats := t.cheats, pokes := t.pokes, fill := ⟨none, 0⟩, answer := .none }

/-- R335, R336, R337, R339, R340: what a `.pok` file leaves. The arrays are those of its lines taken one after the other
from the empty arrays, each tagged line with the effect `PokLineEffects` states, an untagged one skipped, and the open cheat
flushed at the end. So there are at most as many cheats as `N` lines and as many pokes as `M` and `Z` lines; every cheat is
disabled, with at least one poke, its slice inside the poke array, and no original is captured from memory. -/
def Obligations.CheatFillWithinCounts : Prop :=
  ∀ (s : State) (text : List Byte), s.file = some text →
    let after := fun (i : Instr) (x : State) =>
      match exec i x with
      | .next y => y
      | _ => x
    let line := fun (x : State) (l : List Byte) =>
      match l with
      | [] => { x with fill := ⟨x.fill.cur, x.fill.off + 1⟩, answer := .none }
      | tag :: rest =>
        if tag = 0x4E then after (.pokN rest) x
        else if tag = 0x4D then after (.pokM rest) x
        else if tag = 0x5A then after (.pokZ rest) x
        else { x with fill := ⟨x.fill.cur, x.fill.off + (rest.length + 1) + 1⟩, answer := .none }
    let u := (pokLines text).foldl line { s with cheats := [], pokes := [], fill := ⟨none, 0⟩, answer := .none }
    ∃ t, exec .cheatLoad s = .next t ∧
      t = { s with
        cheats := match u.fill.cur with
          | some c => if 1 ≤ c.pokeCount then u.cheats ++ [c] else u.cheats
          | none => u.cheats
        pokes := u.pokes
        fill := ⟨none, 0⟩
        answer := .none } ∧
      t.cheats.length ≤ ((pokLines text).filter (fun l => l.head? == some 0x4E)).length ∧
      t.pokes.length ≤ ((pokLines text).filter (fun l => l.head? == some 0x4D || l.head? == some 0x5A)).length ∧
      (∀ c ∈ t.cheats, c.enabled = false ∧ 1 ≤ c.pokeCount ∧ c.pokeStartIdx + c.pokeCount ≤ t.pokes.length) ∧
      (∀ p ∈ t.pokes, p.origMem = false)

/-- R338, R340: one line of a file being filled: an `N` line flushes the open cheat and opens one; an `M` or `Z` line with
four integers inside a cheat appends its masked poke; one without, or outside a cheat, only moves the offset (log 22, 23).
The end of a file whose lines were issued one by one flushes the open cheat. -/
def Obligations.PokLineEffects : Prop :=
  (∀ (s : State) (rest : List AgendaItem), s.cfg.allocOk = true → s.cpu = none → s.agenda = .pokEnd :: rest →
    step s = .next
      { s with
        agenda := rest
        cheats := match s.fill.cur with
          | some c => if 1 ≤ c.pokeCount then s.cheats ++ [c] else s.cheats
          | none => s.cheats
        fill := ⟨none, 0⟩ }) ∧
  ∀ (rest : List Byte) (s : State),
    let next := s.fill.off + (rest.length + 1) + 1
    exec (.pokN rest) s = .next
      { s with
        cheats := match s.fill.cur with
          | some c => if 1 ≤ c.pokeCount then s.cheats ++ [c] else s.cheats
          | none => s.cheats
        fill := ⟨some ⟨s.fill.off + 1, s.pokes.length, 0, false, 0⟩, next⟩
        answer := .none } ∧
    ∀ i : Instr, i = .pokM rest ∨ i = .pokZ rest →
      (pokeFields rest = none ∨ s.fill.cur = none →
        exec i s = .next { s with fill := ⟨s.fill.cur, next⟩, answer := .none }) ∧
      (∀ (b a v o : Int) (c : Cheat), pokeFields rest = some (b, a, v, o) → s.fill.cur = some c →
        let p : Poke :=
          { bank := BitVec.ofInt 4 b, address := BitVec.ofInt 16 a, original := BitVec.ofInt 8 o
            value := if v = 256 then BitVec.ofInt 8 o else BitVec.ofInt 8 v
            isInput := decide (v = 256), origMem := false, origFile := decide (o ≠ 0) }
        exec i s = .next
          { s with
            pokes := s.pokes ++ [p]
            fill := ⟨some { c with
              pokeCount := c.pokeCount + 1
              inputCount := c.inputCount + (if v = 256 then 1 else 0) }, next⟩
            answer := .none })

/-- R342, R343, R344 (a): `CHEAT_APPLY` writes memory only, and a second one in a row changes no byte. Over all cheats and
their pokes in order, an enabled cheat writes each poke's value, a disabled one the original of each captured poke: a RAM byte
some such write addresses holds what the last of them wrote, and every other byte, and every byte of ROM, is as it was. A
poke a slice names past the end of `pokes[]` is skipped (log 40). -/
def Obligations.CheatApplyIdempotent : Prop :=
  (∀ s : State, ∃ t u, exec .cheatApply s = .next t ∧ t = { s with mem := t.mem, answer := .none } ∧
    exec .cheatApply t = .next u ∧ SameMemory t u) ∧
  (∀ s : State,
    let place := fun p : Poke =>
      (if p.bank.getLsbD 3 = true then s.map.ramCurrent.get (win p.address) else Page.ram (p.bank.setWidth 3),
       (off p.address).toNat)
    let writes : List ((Page × Nat) × Byte) := s.cheats.flatMap fun c =>
      ((s.pokes.drop c.pokeStartIdx).take c.pokeCount).filterMap fun p =>
        if c.enabled = true then some (place p, p.value)
        else if p.origMem = true ∨ p.origFile = true then some (place p, p.original)
        else none
    ∃ t, exec .cheatApply s = .next t ∧
      (∀ (b : BitVec 3) (o : Nat), o < 0x4000 →
        t.readPage (.ram b) o =
          match writes.reverse.find? (fun w => w.1 == (Page.ram b, o)) with
          | some w => w.2
          | none => s.readPage (.ram b) o) ∧
      (∀ (r : Fin 5) (o : Nat), o < 0x4000 → t.readPage (.rom r) o = s.readPage (.rom r) o))

/-- R345, R336: `CHEAT_FETCH` captures the live byte of every poke captured from neither file nor memory, marks it, and does
so exactly once: a second fetch changes nothing, whatever memory holds then. -/
def Obligations.CheatFetchCapturesOnce : Prop :=
  ∀ s : State,
    let live := fun p : Poke =>
      if p.bank.getLsbD 3 = true then s.readPage (s.map.ramCurrent.get (win p.address)) (off p.address).toNat
      else s.readPage (.ram (p.bank.setWidth 3)) (off p.address).toNat
    ∃ t, exec .cheatFetch s = .next t ∧
      t = { s with
        pokes := s.pokes.map (fun p =>
          if p.origMem = false ∧ p.origFile = false then { p with original := live p, origMem := true } else p)
        answer := .none } ∧
      ∀ u : State, u.pokes = t.pokes → exec .cheatFetch u = .next { u with answer := .none }
end

