-- ==== Sys2Proof/Laws/State.lean ====
section
/-! SUPPORT. What each named update does to each field of the state, by definition. -/

namespace Sys2Proof.Machine

section
variable (s : State) (p : Page) (o : Nat) (v : Byte)

@[simp] theorem State.writePage_regs : (s.writePage p o v).regs = s.regs := rfl
@[simp] theorem State.writePage_mem : (s.writePage p o v).mem = Memory.write s.mem (phys p o) v := rfl
@[simp] theorem State.writePage_ramEpoch : (s.writePage p o v).ramEpoch = s.ramEpoch := rfl
@[simp] theorem State.writePage_rom0Any : (s.writePage p o v).rom0Any = s.rom0Any := rfl
@[simp] theorem State.writePage_romOf : (s.writePage p o v).romOf = s.romOf := rfl
@[simp] theorem State.writePage_latches : (s.writePage p o v).latches = s.latches := rfl
@[simp] theorem State.writePage_map : (s.writePage p o v).map = s.map := rfl
@[simp] theorem State.writePage_port254 : (s.writePage p o v).port254 = s.port254 := rfl
@[simp] theorem State.writePage_port : (s.writePage p o v).port = s.port := rfl
@[simp] theorem State.writePage_tick : (s.writePage p o v).tick = s.tick := rfl
@[simp] theorem State.writePage_lastContended : (s.writePage p o v).lastContended = s.lastContended := rfl
@[simp] theorem State.writePage_ay : (s.writePage p o v).ay = s.ay := rfl
@[simp] theorem State.writePage_cheats : (s.writePage p o v).cheats = s.cheats := rfl
@[simp] theorem State.writePage_pokes : (s.writePage p o v).pokes = s.pokes := rfl
@[simp] theorem State.writePage_fill : (s.writePage p o v).fill = s.fill := rfl
@[simp] theorem State.writePage_arch : (s.writePage p o v).arch = s.arch := rfl
@[simp] theorem State.writePage_failed : (s.writePage p o v).failed = s.failed := rfl
@[simp] theorem State.writePage_cfg : (s.writePage p o v).cfg = s.cfg := rfl
@[simp] theorem State.writePage_events : (s.writePage p o v).events = s.events := rfl
@[simp] theorem State.writePage_answer : (s.writePage p o v).answer = s.answer := rfl
@[simp] theorem State.writePage_agenda : (s.writePage p o v).agenda = s.agenda := rfl
@[simp] theorem State.writePage_cpu : (s.writePage p o v).cpu = s.cpu := rfl
@[simp] theorem State.writePage_file : (s.writePage p o v).file = s.file := rfl
@[simp] theorem State.writePage_oracle : (s.writePage p o v).oracle = s.oracle := rfl
@[simp] theorem State.writePage_draws : (s.writePage p o v).draws = s.draws := rfl

end

section
variable (s : State) (p : Page) (bs : List Byte)

@[simp] theorem State.loadPage_regs : (s.loadPage p bs).regs = s.regs := rfl
@[simp] theorem State.loadPage_mem : (s.loadPage p bs).mem = Memory.writeRun s.mem p.base (bs.take pageSize) := rfl
@[simp] theorem State.loadPage_ramEpoch : (s.loadPage p bs).ramEpoch = s.ramEpoch := rfl
@[simp] theorem State.loadPage_rom0Any : (s.loadPage p bs).rom0Any = s.rom0Any := rfl
@[simp] theorem State.loadPage_romOf : (s.loadPage p bs).romOf = s.romOf := rfl
@[simp] theorem State.loadPage_latches : (s.loadPage p bs).latches = s.latches := rfl
@[simp] theorem State.loadPage_map : (s.loadPage p bs).map = s.map := rfl
@[simp] theorem State.loadPage_port254 : (s.loadPage p bs).port254 = s.port254 := rfl
@[simp] theorem State.loadPage_port : (s.loadPage p bs).port = s.port := rfl
@[simp] theorem State.loadPage_tick : (s.loadPage p bs).tick = s.tick := rfl
@[simp] theorem State.loadPage_lastContended : (s.loadPage p bs).lastContended = s.lastContended := rfl
@[simp] theorem State.loadPage_ay : (s.loadPage p bs).ay = s.ay := rfl
@[simp] theorem State.loadPage_cheats : (s.loadPage p bs).cheats = s.cheats := rfl
@[simp] theorem State.loadPage_pokes : (s.loadPage p bs).pokes = s.pokes := rfl
@[simp] theorem State.loadPage_fill : (s.loadPage p bs).fill = s.fill := rfl
@[simp] theorem State.loadPage_arch : (s.loadPage p bs).arch = s.arch := rfl
@[simp] theorem State.loadPage_failed : (s.loadPage p bs).failed = s.failed := rfl
@[simp] theorem State.loadPage_cfg : (s.loadPage p bs).cfg = s.cfg := rfl
@[simp] theorem State.loadPage_events : (s.loadPage p bs).events = s.events := rfl
@[simp] theorem State.loadPage_answer : (s.loadPage p bs).answer = s.answer := rfl
@[simp] theorem State.loadPage_agenda : (s.loadPage p bs).agenda = s.agenda := rfl
@[simp] theorem State.loadPage_cpu : (s.loadPage p bs).cpu = s.cpu := rfl
@[simp] theorem State.loadPage_file : (s.loadPage p bs).file = s.file := rfl
@[simp] theorem State.loadPage_oracle : (s.loadPage p bs).oracle = s.oracle := rfl
@[simp] theorem State.loadPage_draws : (s.loadPage p bs).draws = s.draws := rfl

end

section
variable (s : State) 

@[simp] theorem State.remap_regs : (s.remap).regs = s.regs := rfl
@[simp] theorem State.remap_mem : (s.remap).mem = s.mem := rfl
@[simp] theorem State.remap_ramEpoch : (s.remap).ramEpoch = s.ramEpoch := rfl
@[simp] theorem State.remap_rom0Any : (s.remap).rom0Any = s.rom0Any := rfl
@[simp] theorem State.remap_romOf : (s.remap).romOf = s.romOf := rfl
@[simp] theorem State.remap_latches : (s.remap).latches = s.latches := rfl
@[simp] theorem State.remap_map : (s.remap).map = mapOf s.cfg s.arch s.latches := rfl
@[simp] theorem State.remap_port254 : (s.remap).port254 = s.port254 := rfl
@[simp] theorem State.remap_port : (s.remap).port = s.port := rfl
@[simp] theorem State.remap_tick : (s.remap).tick = s.tick := rfl
@[simp] theorem State.remap_lastContended : (s.remap).lastContended = s.lastContended := rfl
@[simp] theorem State.remap_ay : (s.remap).ay = s.ay := rfl
@[simp] theorem State.remap_cheats : (s.remap).cheats = s.cheats := rfl
@[simp] theorem State.remap_pokes : (s.remap).pokes = s.pokes := rfl
@[simp] theorem State.remap_fill : (s.remap).fill = s.fill := rfl
@[simp] theorem State.remap_arch : (s.remap).arch = s.arch := rfl
@[simp] theorem State.remap_failed : (s.remap).failed = s.failed := rfl
@[simp] theorem State.remap_cfg : (s.remap).cfg = s.cfg := rfl
@[simp] theorem State.remap_events : (s.remap).events = s.events := rfl
@[simp] theorem State.remap_answer : (s.remap).answer = s.answer := rfl
@[simp] theorem State.remap_agenda : (s.remap).agenda = s.agenda := rfl
@[simp] theorem State.remap_cpu : (s.remap).cpu = s.cpu := rfl
@[simp] theorem State.remap_file : (s.remap).file = s.file := rfl
@[simp] theorem State.remap_oracle : (s.remap).oracle = s.oracle := rfl
@[simp] theorem State.remap_draws : (s.remap).draws = s.draws := rfl

end

section
variable (s : State) (l : Latches)

@[simp] theorem State.setLatches_regs : (s.setLatches l).regs = s.regs := rfl
@[simp] theorem State.setLatches_mem : (s.setLatches l).mem = s.mem := rfl
@[simp] theorem State.setLatches_ramEpoch : (s.setLatches l).ramEpoch = s.ramEpoch := rfl
@[simp] theorem State.setLatches_rom0Any : (s.setLatches l).rom0Any = s.rom0Any := rfl
@[simp] theorem State.setLatches_romOf : (s.setLatches l).romOf = s.romOf := rfl
@[simp] theorem State.setLatches_latches : (s.setLatches l).latches = l := rfl
@[simp] theorem State.setLatches_map : (s.setLatches l).map = mapOf s.cfg s.arch l := rfl
@[simp] theorem State.setLatches_port254 : (s.setLatches l).port254 = s.port254 := rfl
@[simp] theorem State.setLatches_port : (s.setLatches l).port = s.port := rfl
@[simp] theorem State.setLatches_tick : (s.setLatches l).tick = s.tick := rfl
@[simp] theorem State.setLatches_lastContended : (s.setLatches l).lastContended = s.lastContended := rfl
@[simp] theorem State.setLatches_ay : (s.setLatches l).ay = s.ay := rfl
@[simp] theorem State.setLatches_cheats : (s.setLatches l).cheats = s.cheats := rfl
@[simp] theorem State.setLatches_pokes : (s.setLatches l).pokes = s.pokes := rfl
@[simp] theorem State.setLatches_fill : (s.setLatches l).fill = s.fill := rfl
@[simp] theorem State.setLatches_arch : (s.setLatches l).arch = s.arch := rfl
@[simp] theorem State.setLatches_failed : (s.setLatches l).failed = s.failed := rfl
@[simp] theorem State.setLatches_cfg : (s.setLatches l).cfg = s.cfg := rfl
@[simp] theorem State.setLatches_events : (s.setLatches l).events = s.events := rfl
@[simp] theorem State.setLatches_answer : (s.setLatches l).answer = s.answer := rfl
@[simp] theorem State.setLatches_agenda : (s.setLatches l).agenda = s.agenda := rfl
@[simp] theorem State.setLatches_cpu : (s.setLatches l).cpu = s.cpu := rfl
@[simp] theorem State.setLatches_file : (s.setLatches l).file = s.file := rfl
@[simp] theorem State.setLatches_oracle : (s.setLatches l).oracle = s.oracle := rfl
@[simp] theorem State.setLatches_draws : (s.setLatches l).draws = s.draws := rfl

end

section
variable (s : State) (n : Nat) (c : Bool)

@[simp] theorem State.advance_regs : (s.advance n c).regs = s.regs := rfl
@[simp] theorem State.advance_mem : (s.advance n c).mem = s.mem := rfl
@[simp] theorem State.advance_ramEpoch : (s.advance n c).ramEpoch = s.ramEpoch := rfl
@[simp] theorem State.advance_rom0Any : (s.advance n c).rom0Any = s.rom0Any := rfl
@[simp] theorem State.advance_romOf : (s.advance n c).romOf = s.romOf := rfl
@[simp] theorem State.advance_latches : (s.advance n c).latches = s.latches := rfl
@[simp] theorem State.advance_map : (s.advance n c).map = s.map := rfl
@[simp] theorem State.advance_port254 : (s.advance n c).port254 = s.port254 := rfl
@[simp] theorem State.advance_port : (s.advance n c).port = s.port := rfl
@[simp] theorem State.advance_tick : (s.advance n c).tick = advanceTick s.cfg s.arch n c s.tick := rfl
@[simp] theorem State.advance_lastContended : (s.advance n c).lastContended = s.lastContended := rfl
@[simp] theorem State.advance_ay : (s.advance n c).ay = s.ay := rfl
@[simp] theorem State.advance_cheats : (s.advance n c).cheats = s.cheats := rfl
@[simp] theorem State.advance_pokes : (s.advance n c).pokes = s.pokes := rfl
@[simp] theorem State.advance_fill : (s.advance n c).fill = s.fill := rfl
@[simp] theorem State.advance_arch : (s.advance n c).arch = s.arch := rfl
@[simp] theorem State.advance_failed : (s.advance n c).failed = s.failed := rfl
@[simp] theorem State.advance_cfg : (s.advance n c).cfg = s.cfg := rfl
@[simp] theorem State.advance_events : (s.advance n c).events = s.events := rfl
@[simp] theorem State.advance_answer : (s.advance n c).answer = s.answer := rfl
@[simp] theorem State.advance_agenda : (s.advance n c).agenda = s.agenda := rfl
@[simp] theorem State.advance_cpu : (s.advance n c).cpu = s.cpu := rfl
@[simp] theorem State.advance_file : (s.advance n c).file = s.file := rfl
@[simp] theorem State.advance_oracle : (s.advance n c).oracle = s.oracle := rfl
@[simp] theorem State.advance_draws : (s.advance n c).draws = s.draws := rfl

end

section
variable (s : State) (e : Event)

@[simp] theorem State.emit_regs : (s.emit e).regs = s.regs := rfl
@[simp] theorem State.emit_mem : (s.emit e).mem = s.mem := rfl
@[simp] theorem State.emit_ramEpoch : (s.emit e).ramEpoch = s.ramEpoch := rfl
@[simp] theorem State.emit_rom0Any : (s.emit e).rom0Any = s.rom0Any := rfl
@[simp] theorem State.emit_romOf : (s.emit e).romOf = s.romOf := rfl
@[simp] theorem State.emit_latches : (s.emit e).latches = s.latches := rfl
@[simp] theorem State.emit_map : (s.emit e).map = s.map := rfl
@[simp] theorem State.emit_port254 : (s.emit e).port254 = s.port254 := rfl
@[simp] theorem State.emit_port : (s.emit e).port = s.port := rfl
@[simp] theorem State.emit_tick : (s.emit e).tick = s.tick := rfl
@[simp] theorem State.emit_lastContended : (s.emit e).lastContended = s.lastContended := rfl
@[simp] theorem State.emit_ay : (s.emit e).ay = s.ay := rfl
@[simp] theorem State.emit_cheats : (s.emit e).cheats = s.cheats := rfl
@[simp] theorem State.emit_pokes : (s.emit e).pokes = s.pokes := rfl
@[simp] theorem State.emit_fill : (s.emit e).fill = s.fill := rfl
@[simp] theorem State.emit_arch : (s.emit e).arch = s.arch := rfl
@[simp] theorem State.emit_failed : (s.emit e).failed = s.failed := rfl
@[simp] theorem State.emit_cfg : (s.emit e).cfg = s.cfg := rfl
@[simp] theorem State.emit_events : (s.emit e).events = s.events ++ [e] := rfl
@[simp] theorem State.emit_answer : (s.emit e).answer = s.answer := rfl
@[simp] theorem State.emit_agenda : (s.emit e).agenda = s.agenda := rfl
@[simp] theorem State.emit_cpu : (s.emit e).cpu = s.cpu := rfl
@[simp] theorem State.emit_file : (s.emit e).file = s.file := rfl
@[simp] theorem State.emit_oracle : (s.emit e).oracle = s.oracle := rfl
@[simp] theorem State.emit_draws : (s.emit e).draws = s.draws := rfl

end

section
variable (s : State) (a : Answer)

@[simp] theorem State.give_regs : (s.give a).regs = s.regs := rfl
@[simp] theorem State.give_mem : (s.give a).mem = s.mem := rfl
@[simp] theorem State.give_ramEpoch : (s.give a).ramEpoch = s.ramEpoch := rfl
@[simp] theorem State.give_rom0Any : (s.give a).rom0Any = s.rom0Any := rfl
@[simp] theorem State.give_romOf : (s.give a).romOf = s.romOf := rfl
@[simp] theorem State.give_latches : (s.give a).latches = s.latches := rfl
@[simp] theorem State.give_map : (s.give a).map = s.map := rfl
@[simp] theorem State.give_port254 : (s.give a).port254 = s.port254 := rfl
@[simp] theorem State.give_port : (s.give a).port = s.port := rfl
@[simp] theorem State.give_tick : (s.give a).tick = s.tick := rfl
@[simp] theorem State.give_lastContended : (s.give a).lastContended = s.lastContended := rfl
@[simp] theorem State.give_ay : (s.give a).ay = s.ay := rfl
@[simp] theorem State.give_cheats : (s.give a).cheats = s.cheats := rfl
@[simp] theorem State.give_pokes : (s.give a).pokes = s.pokes := rfl
@[simp] theorem State.give_fill : (s.give a).fill = s.fill := rfl
@[simp] theorem State.give_arch : (s.give a).arch = s.arch := rfl
@[simp] theorem State.give_failed : (s.give a).failed = s.failed := rfl
@[simp] theorem State.give_cfg : (s.give a).cfg = s.cfg := rfl
@[simp] theorem State.give_events : (s.give a).events = s.events := rfl
@[simp] theorem State.give_answer : (s.give a).answer = a := rfl
@[simp] theorem State.give_agenda : (s.give a).agenda = s.agenda := rfl
@[simp] theorem State.give_cpu : (s.give a).cpu = s.cpu := rfl
@[simp] theorem State.give_file : (s.give a).file = s.file := rfl
@[simp] theorem State.give_oracle : (s.give a).oracle = s.oracle := rfl
@[simp] theorem State.give_draws : (s.give a).draws = s.draws := rfl

end

section
variable (s : State) (c : BitVec 3)

@[simp] theorem State.setBorder_regs : (s.setBorder c).regs = s.regs := rfl
@[simp] theorem State.setBorder_mem : (s.setBorder c).mem = s.mem := rfl
@[simp] theorem State.setBorder_ramEpoch : (s.setBorder c).ramEpoch = s.ramEpoch := rfl
@[simp] theorem State.setBorder_rom0Any : (s.setBorder c).rom0Any = s.rom0Any := rfl
@[simp] theorem State.setBorder_romOf : (s.setBorder c).romOf = s.romOf := rfl
@[simp] theorem State.setBorder_latches : (s.setBorder c).latches = s.latches := rfl
@[simp] theorem State.setBorder_map : (s.setBorder c).map = s.map := rfl
@[simp] theorem State.setBorder_port254 : (s.setBorder c).port254 = (s.port254 &&& 0xF8) ||| c.setWidth 8 := rfl
@[simp] theorem State.setBorder_port : (s.setBorder c).port = s.port := rfl
@[simp] theorem State.setBorder_tick : (s.setBorder c).tick = s.tick := rfl
@[simp] theorem State.setBorder_lastContended : (s.setBorder c).lastContended = s.lastContended := rfl
@[simp] theorem State.setBorder_ay : (s.setBorder c).ay = s.ay := rfl
@[simp] theorem State.setBorder_cheats : (s.setBorder c).cheats = s.cheats := rfl
@[simp] theorem State.setBorder_pokes : (s.setBorder c).pokes = s.pokes := rfl
@[simp] theorem State.setBorder_fill : (s.setBorder c).fill = s.fill := rfl
@[simp] theorem State.setBorder_arch : (s.setBorder c).arch = s.arch := rfl
@[simp] theorem State.setBorder_failed : (s.setBorder c).failed = s.failed := rfl
@[simp] theorem State.setBorder_cfg : (s.setBorder c).cfg = s.cfg := rfl
@[simp] theorem State.setBorder_events : (s.setBorder c).events = s.events ++ [.borderChange s.tick c] := rfl
@[simp] theorem State.setBorder_answer : (s.setBorder c).answer = s.answer := rfl
@[simp] theorem State.setBorder_agenda : (s.setBorder c).agenda = s.agenda := rfl
@[simp] theorem State.setBorder_cpu : (s.setBorder c).cpu = s.cpu := rfl
@[simp] theorem State.setBorder_file : (s.setBorder c).file = s.file := rfl
@[simp] theorem State.setBorder_oracle : (s.setBorder c).oracle = s.oracle := rfl
@[simp] theorem State.setBorder_draws : (s.setBorder c).draws = s.draws := rfl

end

section
variable (s : State) 

@[simp] theorem State.cheatClose_regs : (s.cheatClose).regs = s.regs := rfl
@[simp] theorem State.cheatClose_mem : (s.cheatClose).mem = s.mem := rfl
@[simp] theorem State.cheatClose_ramEpoch : (s.cheatClose).ramEpoch = s.ramEpoch := rfl
@[simp] theorem State.cheatClose_rom0Any : (s.cheatClose).rom0Any = s.rom0Any := rfl
@[simp] theorem State.cheatClose_romOf : (s.cheatClose).romOf = s.romOf := rfl
@[simp] theorem State.cheatClose_latches : (s.cheatClose).latches = s.latches := rfl
@[simp] theorem State.cheatClose_map : (s.cheatClose).map = s.map := rfl
@[simp] theorem State.cheatClose_port254 : (s.cheatClose).port254 = s.port254 := rfl
@[simp] theorem State.cheatClose_port : (s.cheatClose).port = s.port := rfl
@[simp] theorem State.cheatClose_tick : (s.cheatClose).tick = s.tick := rfl
@[simp] theorem State.cheatClose_lastContended : (s.cheatClose).lastContended = s.lastContended := rfl
@[simp] theorem State.cheatClose_ay : (s.cheatClose).ay = s.ay := rfl
@[simp] theorem State.cheatClose_cheats : (s.cheatClose).cheats = [] := rfl
@[simp] theorem State.cheatClose_pokes : (s.cheatClose).pokes = [] := rfl
@[simp] theorem State.cheatClose_fill : (s.cheatClose).fill = ⟨none, 0⟩ := rfl
@[simp] theorem State.cheatClose_arch : (s.cheatClose).arch = s.arch := rfl
@[simp] theorem State.cheatClose_failed : (s.cheatClose).failed = s.failed := rfl
@[simp] theorem State.cheatClose_cfg : (s.cheatClose).cfg = s.cfg := rfl
@[simp] theorem State.cheatClose_events : (s.cheatClose).events = s.events := rfl
@[simp] theorem State.cheatClose_answer : (s.cheatClose).answer = s.answer := rfl
@[simp] theorem State.cheatClose_agenda : (s.cheatClose).agenda = s.agenda := rfl
@[simp] theorem State.cheatClose_cpu : (s.cheatClose).cpu = s.cpu := rfl
@[simp] theorem State.cheatClose_file : (s.cheatClose).file = s.file := rfl
@[simp] theorem State.cheatClose_oracle : (s.cheatClose).oracle = s.oracle := rfl
@[simp] theorem State.cheatClose_draws : (s.cheatClose).draws = s.draws := rfl

end

section
variable (s : State) (c : Bool) (v : Byte)

@[simp] theorem State.noteContended_regs : (s.noteContended c v).regs = s.regs := rfl
@[simp] theorem State.noteContended_mem : (s.noteContended c v).mem = s.mem := rfl
@[simp] theorem State.noteContended_ramEpoch : (s.noteContended c v).ramEpoch = s.ramEpoch := rfl
@[simp] theorem State.noteContended_rom0Any : (s.noteContended c v).rom0Any = s.rom0Any := rfl
@[simp] theorem State.noteContended_romOf : (s.noteContended c v).romOf = s.romOf := rfl
@[simp] theorem State.noteContended_latches : (s.noteContended c v).latches = s.latches := rfl
@[simp] theorem State.noteContended_map : (s.noteContended c v).map = s.map := rfl
@[simp] theorem State.noteContended_port254 : (s.noteContended c v).port254 = s.port254 := rfl
@[simp] theorem State.noteContended_port : (s.noteContended c v).port = s.port := rfl
@[simp] theorem State.noteContended_tick : (s.noteContended c v).tick = s.tick := rfl
@[simp] theorem State.noteContended_lastContended : (s.noteContended c v).lastContended = if c then v else s.lastContended := rfl
@[simp] theorem State.noteContended_ay : (s.noteContended c v).ay = s.ay := rfl
@[simp] theorem State.noteContended_cheats : (s.noteContended c v).cheats = s.cheats := rfl
@[simp] theorem State.noteContended_pokes : (s.noteContended c v).pokes = s.pokes := rfl
@[simp] theorem State.noteContended_fill : (s.noteContended c v).fill = s.fill := rfl
@[simp] theorem State.noteContended_arch : (s.noteContended c v).arch = s.arch := rfl
@[simp] theorem State.noteContended_failed : (s.noteContended c v).failed = s.failed := rfl
@[simp] theorem State.noteContended_cfg : (s.noteContended c v).cfg = s.cfg := rfl
@[simp] theorem State.noteContended_events : (s.noteContended c v).events = s.events := rfl
@[simp] theorem State.noteContended_answer : (s.noteContended c v).answer = s.answer := rfl
@[simp] theorem State.noteContended_agenda : (s.noteContended c v).agenda = s.agenda := rfl
@[simp] theorem State.noteContended_cpu : (s.noteContended c v).cpu = s.cpu := rfl
@[simp] theorem State.noteContended_file : (s.noteContended c v).file = s.file := rfl
@[simp] theorem State.noteContended_oracle : (s.noteContended c v).oracle = s.oracle := rfl
@[simp] theorem State.noteContended_draws : (s.noteContended c v).draws = s.draws := rfl

end

section
variable (s : State) (port : Word)

@[simp] theorem State.chargePort_regs : (s.chargePort port).regs = s.regs := rfl
@[simp] theorem State.chargePort_mem : (s.chargePort port).mem = s.mem := rfl
@[simp] theorem State.chargePort_ramEpoch : (s.chargePort port).ramEpoch = s.ramEpoch := rfl
@[simp] theorem State.chargePort_rom0Any : (s.chargePort port).rom0Any = s.rom0Any := rfl
@[simp] theorem State.chargePort_romOf : (s.chargePort port).romOf = s.romOf := rfl
@[simp] theorem State.chargePort_latches : (s.chargePort port).latches = s.latches := rfl
@[simp] theorem State.chargePort_map : (s.chargePort port).map = s.map := rfl
@[simp] theorem State.chargePort_port254 : (s.chargePort port).port254 = s.port254 := rfl
@[simp] theorem State.chargePort_port : (s.chargePort port).port = s.port := rfl
@[simp] theorem State.chargePort_tick : (s.chargePort port).tick = portTick s port := rfl
@[simp] theorem State.chargePort_lastContended : (s.chargePort port).lastContended = s.lastContended := rfl
@[simp] theorem State.chargePort_ay : (s.chargePort port).ay = s.ay := rfl
@[simp] theorem State.chargePort_cheats : (s.chargePort port).cheats = s.cheats := rfl
@[simp] theorem State.chargePort_pokes : (s.chargePort port).pokes = s.pokes := rfl
@[simp] theorem State.chargePort_fill : (s.chargePort port).fill = s.fill := rfl
@[simp] theorem State.chargePort_arch : (s.chargePort port).arch = s.arch := rfl
@[simp] theorem State.chargePort_failed : (s.chargePort port).failed = s.failed := rfl
@[simp] theorem State.chargePort_cfg : (s.chargePort port).cfg = s.cfg := rfl
@[simp] theorem State.chargePort_events : (s.chargePort port).events = s.events := rfl
@[simp] theorem State.chargePort_answer : (s.chargePort port).answer = s.answer := rfl
@[simp] theorem State.chargePort_agenda : (s.chargePort port).agenda = s.agenda := rfl
@[simp] theorem State.chargePort_cpu : (s.chargePort port).cpu = s.cpu := rfl
@[simp] theorem State.chargePort_file : (s.chargePort port).file = s.file := rfl
@[simp] theorem State.chargePort_oracle : (s.chargePort port).oracle = s.oracle := rfl
@[simp] theorem State.chargePort_draws : (s.chargePort port).draws = s.draws := rfl

end

end Sys2Proof.Machine
end

