-- ==== Sys2Proof/Laws/Memory.lean ====
section
/-! SUPPORT. The laws of the list of written bytes and of the pages over it: read after write, nothing else disturbed, and
the canonical form kept. -/

namespace Sys2Proof.Machine

/-! ### The list of written bytes -/

@[simp] theorem Memory.read?_write_self (m : List Host.Cell) (a : Nat) (v : Byte) :
    Memory.read? (Memory.write m a v) a = some v := by
  induction m with
  | nil => simp [Memory.write, Memory.read?]
  | cons c m ih =>
    obtain ⟨k, b⟩ := c
    simp only [Memory.write]
    split
    · simp [Memory.read?]
    · split
      · simp [Memory.read?]
      · simp only [Memory.read?]
        rw [if_neg (by omega), ih]

theorem Memory.read?_write_ne (m : List Host.Cell) (v : Byte) {a b : Nat} (h : b ≠ a) :
    Memory.read? (Memory.write m a v) b = Memory.read? m b := by
  induction m with
  | nil => simp [Memory.write, Memory.read?, h.symm]
  | cons c m ih =>
    obtain ⟨k, w⟩ := c
    simp only [Memory.write]
    split
    · simp [Memory.read?, h.symm]
    · split
      · next hk => subst hk; simp [Memory.read?, h.symm]
      · simp only [Memory.read?, ih]

/-- A filter on addresses hides the addresses it drops and leaves the others. -/
theorem Memory.read?_filter (m : List Host.Cell) (p : Nat → Bool) (a : Nat) :
    Memory.read? (m.filter (fun c => p c.1)) a = if p a then Memory.read? m a else none := by
  induction m with
  | nil => simp [Memory.read?]
  | cons c m ih =>
    obtain ⟨k, w⟩ := c
    by_cases hk : k = a
    · subst hk
      by_cases hp : p k = true
      · simp [hp, Memory.read?]
      · rw [List.filter_cons]; simp only [hp]; simpa [hp] using ih
    · by_cases hp : p k = true
      · simp [hp, Memory.read?, hk, ih]
      · rw [List.filter_cons]; simp only [hp]
        simp only [Memory.read?, hk, if_false]; simpa using ih

theorem Memory.read?_append (m n : List Host.Cell) (a : Nat) :
    Memory.read? (m ++ n) a = (Memory.read? m a).or (Memory.read? n a) := by
  induction m with
  | nil => simp [Memory.read?]
  | cons c m ih =>
    obtain ⟨k, w⟩ := c
    by_cases hk : k = a <;> simp [Memory.read?, hk, ih]

/-- What a run of cells lists. -/
theorem Memory.read?_run (bs : List Byte) (b a : Nat) :
    Memory.read? (Memory.run b bs) a = if b ≤ a then bs[a - b]? else none := by
  induction bs generalizing b with
  | nil => simp [Memory.run, Memory.read?]
  | cons x xs ih =>
    simp only [Memory.run, Memory.read?]
    by_cases hb : b = a
    · subst hb; simp
    · rw [if_neg hb, ih]
      by_cases hle : b + 1 ≤ a
      · rw [if_pos hle, if_pos (by omega)]
        have : a - b = (a - (b + 1)) + 1 := by omega
        rw [this, List.getElem?_cons_succ]
      · rw [if_neg hle, if_neg (by omega)]

/-- Writing a run: the bytes of the run where it lies, the old ones elsewhere. -/
theorem Memory.read?_writeRun (m : List Host.Cell) (b : Nat) (bs : List Byte) (a : Nat) :
    Memory.read? (Memory.writeRun m b bs) a =
      if b ≤ a ∧ a < b + bs.length then bs[a - b]? else Memory.read? m a := by
  have h1 := Memory.read?_filter m (fun k => decide (k < b)) a
  have h2 := Memory.read?_filter m (fun k => decide (b + bs.length ≤ k)) a
  simp only [Memory.writeRun, Memory.read?_append, h1, h2, Memory.read?_run, decide_eq_true_eq]
  by_cases hlt : a < b
  · rw [if_pos hlt, if_neg (by omega), if_neg (by omega), if_neg (by omega)]
    cases Memory.read? m a <;> rfl
  · by_cases hin : a < b + bs.length
    · rw [if_neg hlt, if_pos (by omega), if_neg (by omega), if_pos (by omega)]
      cases bs[a - b]? <;> rfl
    · rw [if_neg hlt, if_pos (by omega), if_pos (by omega), if_neg (by omega)]
      have : bs[a - b]? = none := List.getElem?_eq_none (by omega)
      rw [this]; rfl

theorem Memory.mem_write {m : List Host.Cell} {a : Nat} {v : Byte} {c : Host.Cell} (h : c ∈ Memory.write m a v) :
    c = (a, v) ∨ c ∈ m := by
  induction m with
  | nil => simpa [Memory.write] using h
  | cons d m ih =>
    obtain ⟨k, b⟩ := d
    simp only [Memory.write] at h
    split at h
    · simpa using h
    · split at h
      · rcases List.mem_cons.1 h with rfl | h
        · exact .inl rfl
        · exact .inr (List.mem_cons_of_mem _ h)
      · rcases List.mem_cons.1 h with rfl | h
        · exact .inr List.mem_cons_self
        · exact (ih h).imp id (List.mem_cons_of_mem _)

/-- A write keeps the canonical form. -/
theorem Memory.write_wf {m : List Host.Cell} {a : Nat} (v : Byte) (h : Memory.wf m) (ha : a < 0x34000) :
    Memory.wf (Memory.write m a v) := by
  refine ⟨?_, fun c hc => (Memory.mem_write hc).elim (fun e => e ▸ ha) (h.2 c)⟩
  have h1 := h.1
  clear h
  induction m with
  | nil => simp [Memory.write]
  | cons d m ih =>
    obtain ⟨k, b⟩ := d
    obtain ⟨hd, ht⟩ := List.pairwise_cons.1 h1
    simp only [Memory.write]
    split
    · next hlt =>
      refine List.pairwise_cons.2 ⟨fun c hc => ?_, h1⟩
      rcases List.mem_cons.1 hc with rfl | hc
      · exact hlt
      · exact Nat.lt_trans hlt (hd c hc)
    · split
      · next hk => exact List.pairwise_cons.2 ⟨fun c hc => hk ▸ hd c hc, ht⟩
      · refine List.pairwise_cons.2 ⟨fun c hc => ?_, ih ht⟩
        rcases Memory.mem_write hc with rfl | hc
        · show k < a; omega
        · exact hd c hc

/-- Dropping cells keeps the canonical form. -/
theorem Memory.filter_wf {m : List Host.Cell} (p : Host.Cell → Bool) (h : Memory.wf m) : Memory.wf (m.filter p) :=
  ⟨h.1.filter p, fun c hc => h.2 c (List.mem_filter.1 hc).1⟩

theorem Memory.forget_wf {m : List Host.Cell} (a n : Nat) (h : Memory.wf m) : Memory.wf (Memory.forget m a n) :=
  Memory.filter_wf _ h

theorem Memory.mem_run {bs : List Byte} {b : Nat} {c : Host.Cell} (h : c ∈ Memory.run b bs) :
    b ≤ c.1 ∧ c.1 < b + bs.length := by
  induction bs generalizing b with
  | nil => simp [Memory.run] at h
  | cons x xs ih =>
    simp only [Memory.run] at h
    rcases List.mem_cons.1 h with rfl | h
    · simp
    · have := ih h
      simp only [List.length_cons]; omega

theorem Memory.run_pairwise (bs : List Byte) (b : Nat) :
    (Memory.run b bs).Pairwise (fun c d : Host.Cell => c.1 < d.1) := by
  induction bs generalizing b with
  | nil => exact List.Pairwise.nil
  | cons x xs ih =>
    exact List.pairwise_cons.2 ⟨fun c hc => by have := Memory.mem_run hc; show b < c.1; omega, ih (b + 1)⟩

/-- Writing a run keeps the canonical form. -/
theorem Memory.writeRun_wf {m : List Host.Cell} {b : Nat} {bs : List Byte} (h : Memory.wf m)
    (hb : b + bs.length ≤ 0x34000) : Memory.wf (Memory.writeRun m b bs) := by
  refine ⟨?_, fun c hc => ?_⟩
  · refine List.pairwise_append.2 ⟨List.pairwise_append.2 ⟨h.1.filter _, Memory.run_pairwise bs b, ?_⟩, h.1.filter _, ?_⟩
    · intro c hc d hd
      have h1 : c.1 < b := by simpa using (List.mem_filter.1 hc).2
      exact Nat.lt_of_lt_of_le h1 (Memory.mem_run hd).1
    · intro c hc d hd
      have h2 : b + bs.length ≤ d.1 := by simpa using (List.mem_filter.1 hd).2
      rcases List.mem_append.1 hc with hc | hc
      · have h1 : c.1 < b := by simpa using (List.mem_filter.1 hc).2
        omega
      · have := (Memory.mem_run hc).2
        omega
  · rcases List.mem_append.1 hc with hc | hc
    · rcases List.mem_append.1 hc with hc | hc
      · exact h.2 c (List.mem_filter.1 hc).1
      · have := (Memory.mem_run hc).2
        omega
    · exact h.2 c (List.mem_filter.1 hc).1

/-- The memory of the state after reset is canonical. -/
theorem State.reset_memOk : Memory.wf State.reset.mem := ⟨List.Pairwise.nil, fun _ h => absurd h List.not_mem_nil⟩

/-! ### Pages -/

theorem Page.base_le (p : Page) : p.base + 0x4000 ≤ 0x34000 := by
  cases p with
  | ram b => have := b.isLt; simp only [Page.base]; omega
  | rom r => have := r.isLt; simp only [Page.base]; omega

theorem phys_lt {o : Nat} (p : Page) (h : o < 0x4000) : phys p o < 0x34000 := by
  have := p.base_le; simp only [phys]; omega

/-- Two bytes of pages lie at one place only when they are the same byte. -/
theorem phys_inj {p q : Page} {o o' : Nat} (ho : o < 0x4000) (ho' : o' < 0x4000) (h : phys p o = phys q o') :
    p = q ∧ o = o' := by
  cases p with
  | ram b =>
    cases q with
    | ram c =>
      simp only [phys, Page.base] at h
      exact ⟨congrArg Page.ram (BitVec.eq_of_toNat_eq (by omega)), by omega⟩
    | rom r => have := b.isLt; simp only [phys, Page.base] at h; omega
  | rom r =>
    cases q with
    | ram c => have := c.isLt; simp only [phys, Page.base] at h; omega
    | rom q =>
      simp only [phys, Page.base] at h
      exact ⟨congrArg Page.rom (Fin.ext (by omega)), by omega⟩

/-- A byte of a page depends on memory, the epoch and the ROM identities only. -/
theorem State.readPage_congr {s t : State} (hm : t.mem = s.mem) (he : t.ramEpoch = s.ramEpoch)
    (ha : t.rom0Any = s.rom0Any) (ho : t.romOf = s.romOf) (p : Page) (o : Nat) : t.readPage p o = s.readPage p o := by
  simp only [State.readPage, State.unwritten, hm, he, ha, ho]

@[simp] theorem State.readPage_writePage_self (s : State) (p : Page) (o : Nat) (v : Byte) :
    (s.writePage p o v).readPage p o = v := by simp [State.readPage]

theorem State.readPage_writePage_ne (s : State) (v : Byte) {p q : Page} {o o' : Nat} (ho : o < 0x4000) (ho' : o' < 0x4000)
    (h : ¬(q = p ∧ o' = o)) : (s.writePage p o v).readPage q o' = s.readPage q o' := by
  have hne : phys q o' ≠ phys p o := fun e => h (phys_inj ho' ho e)
  simp only [State.readPage, State.writePage, Memory.read?_write_ne _ _ hne]
  rfl

theorem State.readPage_loadPage_self (s : State) {p : Page} {bs : List Byte} {o : Nat} (h : o < bs.length)
    (ho : o < 0x4000) : (s.loadPage p bs).readPage p o = bs[o] := by
  have hl : o < (bs.take pageSize).length := by simp [pageSize]; omega
  have hr : Memory.read? (s.loadPage p bs).mem (phys p o) = some bs[o] := by
    simp only [State.loadPage, Memory.read?_writeRun, phys]
    rw [if_pos ⟨by omega, by omega⟩, show p.base + o - p.base = o by omega, List.getElem?_eq_getElem hl]
    simp
  simp only [State.readPage, hr]

theorem State.readPage_loadPage_ne (s : State) {p q : Page} (bs : List Byte) {o : Nat} (ho : o < 0x4000) (h : q ≠ p) :
    (s.loadPage p bs).readPage q o = s.readPage q o := by
  have hr : Memory.read? (s.loadPage p bs).mem (phys q o) = Memory.read? s.mem (phys q o) := by
    simp only [State.loadPage, Memory.read?_writeRun]
    refine if_neg fun hc => ?_
    have hl : (bs.take pageSize).length ≤ 0x4000 := by simp [pageSize]
    have e : phys p (phys q o - p.base) = phys q o := by simp only [phys] at *; omega
    exact h (phys_inj (by simp only [phys] at *; omega) ho e).1.symm
  simp only [State.readPage, hr]
  rfl

/-- A whole page loaded reads as the bytes loaded. -/
theorem State.pageBytes_loadPage_self (s : State) (p : Page) {bs : List Byte} (h : bs.length = pageSize) :
    (s.loadPage p bs).pageBytes p = bs := by
  refine List.ext_getElem (by simp [State.pageBytes, h]) fun i h1 h2 => ?_
  simp only [State.pageBytes, List.getElem_map, List.getElem_range]
  exact s.readPage_loadPage_self h2 (by rw [h] at h2; exact h2)

theorem State.pageBytes_loadPage_ne (s : State) {p q : Page} (bs : List Byte) (h : q ≠ p) :
    (s.loadPage p bs).pageBytes q = s.pageBytes q := by
  refine List.map_congr_left fun o ho => ?_
  exact s.readPage_loadPage_ne bs (List.mem_range.1 ho) h

@[simp] theorem State.pageBytes_length (s : State) (p : Page) : (s.pageBytes p).length = 0x4000 := by
  simp [State.pageBytes, pageSize]

/-! ### The canonical form through the page operations -/

theorem State.writePage_memOk {s : State} (p : Page) {o : Nat} (v : Byte) (h : Memory.wf s.mem) (ho : o < 0x4000) :
    Memory.wf (s.writePage p o v).mem := Memory.write_wf v h (phys_lt p ho)

theorem State.loadPage_memOk {s : State} (p : Page) (bs : List Byte) (h : Memory.wf s.mem) :
    Memory.wf (s.loadPage p bs).mem := by
  refine Memory.writeRun_wf h ?_
  have := p.base_le
  simp [pageSize]; omega

end Sys2Proof.Machine
end

