-- ==== Sys2Proof/Laws/Ops.lean ====
section
/-! SUPPORT. What each shared operation can do, said once: the counter, the oracles, the untimed and the timed accesses,
and the window map. -/

namespace Sys2Proof.Machine

/-! ### The counter -/

theorem advanceTick_ge (cfg : Cfg) (arch : Arch) (n : Nat) (c : Bool) (t : Nat) : t + n ≤ advanceTick cfg arch n c t := by
  simp only [advanceTick]; split <;> omega

theorem lateUlaTick_ge (cfg : Cfg) (arch : Arch) (t : Nat) : t ≤ lateUlaTick cfg arch t := by
  simp only [lateUlaTick]
  split
  · omega
  · have := advanceTick_ge cfg arch 3 true t; omega

theorem lateOddTick_ge (cfg : Cfg) (arch : Arch) (c : Bool) (t : Nat) : t + 3 ≤ lateOddTick cfg arch c t := by
  simp only [lateOddTick]
  split
  · have h1 := advanceTick_ge cfg arch 1 true t
    have h2 := advanceTick_ge cfg arch 1 true (advanceTick cfg arch 1 true t)
    have h3 := advanceTick_ge cfg arch 1 true (advanceTick cfg arch 1 true (advanceTick cfg arch 1 true t))
    omega
  · exact advanceTick_ge cfg arch 3 false t

/-- A port access moves the counter on. -/
theorem portTick_gt (s : State) (port : Word) : s.tick < portTick s port := by
  have h1 := advanceTick_ge s.cfg s.arch 1 (s.contendedAt port) s.tick
  simp only [portTick]
  split
  · have := lateUlaTick_ge s.cfg s.arch (advanceTick s.cfg s.arch 1 (s.contendedAt port) s.tick); omega
  · have := lateOddTick_ge s.cfg s.arch (s.contendedAt port) (advanceTick s.cfg s.arch 1 (s.contendedAt port) s.tick); omega

/-- The ticks of a port access where the delay is nil (R240). -/
theorem portTick_of_no_delay {s : State} (port : Word) (harch : s.arch ≠ .tk)
    (h : ∀ t, contentionDelay s.cfg s.arch t = 0) : portTick s port = s.tick + 4 := by
  simp only [portTick, lateUlaTick, lateOddTick, advanceTick, h, if_neg harch]
  cases evenPort port <;> cases s.contendedAt port <;> simp

/-- What R301 binds `Z80SaveMachineCode` with: the code names, in version 3, a machine of the architecture's memory class. -/
theorem z80SaveCode_fits (cfg : Cfg) (a : Arch) :
    ∃ m, z80MachineMap cfg 3 (pick cfg.z80SaveCode a) = some m ∧ m.is48 = a.is48 := by
  have fits : ∀ c, saveCodeFits cfg.z80Machines a c = true →
      ∃ m, z80MachineMap cfg 3 c = some m ∧ m.is48 = a.is48 := by
    intro c h
    simp only [saveCodeFits, z80MachineMap] at h ⊢
    split at h
    · next m hm => exact ⟨m, hm, by simpa using h⟩
    · cases h
  have h := cfg.saveCodes
  simp only [saveCodesFit, Bool.and_eq_true] at h
  cases a <;> exact fits _ (by simp only [pick, h])

/-! ### Oracles -/

/-- One query moves the host's queue or the draw counter and nothing else. -/
theorem State.ask_frame (s : State) : s.ask.2 = { s with oracle := s.ask.2.oracle, draws := s.ask.2.draws } := by
  simp only [State.ask]; split <;> rfl

theorem State.ask_queued {s : State} {b : Byte} {bs : List Byte} (h : s.oracle = b :: bs) :
    s.ask = (b, { s with oracle := bs }) := by simp only [State.ask, h]

theorem State.ask_empty {s : State} (h : s.oracle = []) :
    s.ask = (Config.oracleByte s.draws, { s with draws := s.draws + 1 }) := by simp only [State.ask, h]

theorem State.earTerm_frame (s : State) :
    s.earTerm.2 = { s with oracle := s.earTerm.2.oracle, draws := s.earTerm.2.draws } := by
  simp only [State.earTerm]
  split
  · rw [State.ask_frame s.ask.2]
    rw [State.ask_frame s]
  · exact State.ask_frame s

/-! ### The window map -/

/-- Window 0 is the only window that may show ROM (R33, R74). -/
theorem ramCurrentOf_ram (arch : Arch) (l : Latches) {w : Fin 4} (hw : w ≠ 0) : ∃ b, (ramCurrentOf arch l).get w = .ram b := by
  simp only [ramCurrentOf, specialTable]
  have h : w = 1 ∨ w = 2 ∨ w = 3 := by omega
  rcases h with rfl | rfl | rfl <;> split <;> (try split) <;> exact ⟨_, rfl⟩

/-- Window 0 shows the ROM in use in normal mode and a RAM bank in special mode (R64, R70). -/
theorem ramCurrentOf_zero (arch : Arch) (l : Latches) :
    (ramCurrentOf arch l).get 0 =
      if arch = .plus2A ∧ l.pagingmode2A3 = true then (specialTable l.specialCfg2A3).get 0 else .rom (romInUseOf l) := by
  simp only [ramCurrentOf]; split <;> rfl

theorem specialTable_ram (n : BitVec 2) (w : Fin 4) : ∃ b, (specialTable n).get w = .ram b := by
  have hw : w = 0 ∨ w = 1 ∨ w = 2 ∨ w = 3 := by omega
  simp only [specialTable]
  rcases hw with rfl | rfl | rfl | rfl <;> split <;> exact ⟨_, rfl⟩

/-- The contention flag of a window is the flag of its page (R36). -/
theorem mapOf_contended (cfg : Cfg) (arch : Arch) (l : Latches) (w : Fin 4) :
    (mapOf cfg arch l).ramContended.get w = pageContended cfg arch ((mapOf cfg arch l).ramCurrent.get w) := by
  have hw : w = 0 ∨ w = 1 ∨ w = 2 ∨ w = 3 := by omega
  rcases hw with rfl | rfl | rfl | rfl <;> rfl

/-! ### Untimed accesses -/

theorem State.memWrite_frame (s : State) (addr : Word) (v : Byte) :
    s.memWrite addr v = { s with mem := (s.memWrite addr v).mem } := by
  simp only [State.memWrite]; split <;> rfl

theorem State.memWrite_rom {s : State} {addr : Word} (v : Byte) {r : Fin 5} (h : s.pageAt addr = .rom r) :
    s.memWrite addr v = s := by simp only [State.memWrite, h]

theorem State.memWrite_ram {s : State} {addr : Word} (v : Byte) {b : BitVec 3} (h : s.pageAt addr = .ram b) :
    s.memWrite addr v = s.writePage (.ram b) (off addr).toNat v := by simp only [State.memWrite, h]

theorem off_lt (addr : Word) : (off addr).toNat < 0x4000 := (off addr).isLt

/-- What a byte of a page reads after a window write: the byte written where it lies, the old one elsewhere (R63, R64). -/
theorem State.readPage_memWrite (s : State) (addr : Word) (v : Byte) (p : Page) {o : Nat} (ho : o < 0x4000) :
    (s.memWrite addr v).readPage p o =
      match s.pageAt addr with
      | .rom _ => s.readPage p o
      | .ram b => if p = .ram b ∧ o = (off addr).toNat then v else s.readPage p o := by
  cases h : s.pageAt addr with
  | rom r => rw [State.memWrite_rom v h]
  | ram b =>
    rw [State.memWrite_ram v h]
    by_cases hc : p = .ram b ∧ o = (off addr).toNat
    · obtain ⟨rfl, rfl⟩ := hc; simp
    · simp only [if_neg hc]; exact s.readPage_writePage_ne v (off_lt addr) ho hc

theorem State.memWrite_memOk {s : State} (addr : Word) (v : Byte) (h : Memory.wf s.mem) :
    Memory.wf (s.memWrite addr v).mem := by
  simp only [State.memWrite]
  split
  · exact h
  · exact State.writePage_memOk _ v h (off_lt addr)

/-! ### Timed accesses -/

/-- What a timed byte read does (R141). -/
theorem State.readTimed_eq (s : State) (addr : Word) :
    s.readTimed addr =
      (s.memRead addr,
       { s with
         tick := advanceTick s.cfg s.arch s.cfg.memTicks (s.contendedAt addr) s.tick
         lastContended := if s.contendedAt addr then s.memRead addr else s.lastContended }) := rfl

/-- What a timed byte write does (R142). -/
theorem State.writeTimed_eq (s : State) (addr : Word) (v : Byte) :
    s.writeTimed addr v =
      { s with
        tick := advanceTick s.cfg s.arch s.cfg.memTicks (s.contendedAt addr) s.tick
        mem := (s.memWrite addr v).mem
        lastContended := if s.contendedAt addr then v else s.lastContended } := by
  simp only [State.writeTimed, State.noteContended, State.memWrite, State.advance, State.pageAt]
  split <;> rfl

/-- The answer of an earlier transaction plays no part in a timed write. -/
theorem State.writeTimed_give (s : State) (a : Answer) (addr : Word) (v : Byte) :
    (s.give a).writeTimed addr v = (s.writeTimed addr v).give a := by
  simp only [State.writeTimed, State.memWrite, State.pageAt, State.advance_map, State.give_map]
  split <;> rfl

end Sys2Proof.Machine
end

