-- ==== Sys2Proof/Laws/Cheats.lean ====
section
/-! SUPPORT. What the Cheat Engine's operations can do, said once. -/

namespace Sys2Proof.Machine

/-- A poke writes memory and nothing else (R343). -/
theorem State.pokeWrite_frame (s : State) (p : Poke) (v : Byte) :
    s.pokeWrite p v = { s with mem := (s.pokeWrite p v).mem } := by
  simp only [State.pokeWrite]
  split
  · exact s.memWrite_frame p.address v
  · rfl

theorem State.pokeWrite_memOk {s : State} (p : Poke) (v : Byte) (h : Memory.wf s.mem) :
    Memory.wf (s.pokeWrite p v).mem := by
  simp only [State.pokeWrite]
  split
  · exact State.memWrite_memOk _ v h
  · exact State.writePage_memOk _ v h (off_lt p.address)

theorem State.applyPoke_frame (e : Bool) (s : State) (p : Poke) :
    State.applyPoke e s p = { s with mem := (State.applyPoke e s p).mem } := by
  simp only [State.applyPoke]
  split
  · exact s.pokeWrite_frame p _
  · split
    · exact s.pokeWrite_frame p _
    · rfl

theorem State.applyPoke_memOk (e : Bool) {s : State} (p : Poke) (h : Memory.wf s.mem) :
    Memory.wf (State.applyPoke e s p).mem := by
  simp only [State.applyPoke]
  split
  · exact State.pokeWrite_memOk p _ h
  · split
    · exact State.pokeWrite_memOk p _ h
    · exact h

/-- A fold of operations that change memory only changes memory only. -/
theorem foldl_mem_frame {α : Type} {f : State → α → State} (hf : ∀ s a, f s a = { s with mem := (f s a).mem })
    (l : List α) (s : State) : l.foldl f s = { s with mem := (l.foldl f s).mem } := by
  induction l generalizing s with
  | nil => rfl
  | cons a l ih => rw [List.foldl_cons, ih, hf s a]

theorem foldl_memOk {α : Type} {f : State → α → State} (hf : ∀ s a, Memory.wf s.mem → Memory.wf (f s a).mem)
    (l : List α) {s : State} (h : Memory.wf s.mem) : Memory.wf (l.foldl f s).mem := by
  induction l generalizing s with
  | nil => exact h
  | cons a l ih => exact ih (hf s a h)

theorem State.applyCheat_frame (s : State) (c : Cheat) : s.applyCheat c = { s with mem := (s.applyCheat c).mem } :=
  foldl_mem_frame (State.applyPoke_frame c.enabled) _ s

/-- `applyCheats()` writes memory and nothing else (R342). -/
theorem State.applyCheats_frame (s : State) : s.applyCheats = { s with mem := s.applyCheats.mem } :=
  foldl_mem_frame State.applyCheat_frame _ s

theorem State.applyCheats_memOk {s : State} (h : Memory.wf s.mem) : Memory.wf s.applyCheats.mem :=
  foldl_memOk (fun _ c h => foldl_memOk (fun _ p h => State.applyPoke_memOk c.enabled p h) _ h) _ h

/-! ### Applying -/

/-- The page and offset a poke addresses (R343). -/
def State.pokePlace (s : State) (p : Poke) : Page × Nat :=
  (if p.absolute then s.pageAt p.address else p.page, (off p.address).toNat)

/-- What a byte of RAM reads after a poke (R343): the byte written where it lies, the old one elsewhere. -/
theorem State.readPage_pokeWrite (s : State) (p : Poke) (v : Byte) (b : BitVec 3) {o : Nat} (ho : o < 0x4000) :
    (s.pokeWrite p v).readPage (.ram b) o = if s.pokePlace p = (.ram b, o) then v else s.readPage (.ram b) o := by
  simp only [State.pokeWrite, State.pokePlace, Prod.mk.injEq]
  by_cases ha : p.absolute = true
  · simp only [if_pos ha]
    rw [s.readPage_memWrite p.address v _ ho]
    cases s.pageAt p.address with
    | rom r => simp
    | ram c => simp only [Page.ram.injEq, eq_comm]
  · simp only [if_neg ha, Poke.page]
    by_cases hc : Page.ram b = .ram (p.bank.setWidth 3) ∧ o = (off p.address).toNat
    · obtain ⟨h1, rfl⟩ := hc; rw [h1]; simp
    · rw [s.readPage_writePage_ne v (off_lt p.address) ho hc, if_neg (fun h => hc ⟨h.1.symm, h.2.symm⟩)]

/-- No poke reaches a ROM page (R343, R64). -/
theorem State.readPage_pokeWrite_rom (s : State) (p : Poke) (v : Byte) (r : Fin 5) {o : Nat} (ho : o < 0x4000) :
    (s.pokeWrite p v).readPage (.rom r) o = s.readPage (.rom r) o := by
  simp only [State.pokeWrite]
  split
  · rw [s.readPage_memWrite p.address v _ ho]
    cases s.pageAt p.address with
    | rom r => rfl
    | ram c => simp
  · exact s.readPage_writePage_ne v (off_lt p.address) ho (fun h => by simp [Poke.page] at h)

/-- The pokes a cheat writes and the bytes it writes there, in order (R342). -/
def State.cheatWrites (s : State) (c : Cheat) : List (Poke × Byte) :=
  (s.pokesOf c).filterMap fun p =>
    if c.enabled = true then some (p, p.value)
    else if p.origMem = true ∨ p.origFile = true then some (p, p.original)
    else none

/-- Pokes written one after the other. -/
def State.writeAll (s : State) (l : List (Poke × Byte)) : State := l.foldl (fun t w => t.pokeWrite w.1 w.2) s

theorem State.writeAll_frame (s : State) (l : List (Poke × Byte)) : s.writeAll l = { s with mem := (s.writeAll l).mem } :=
  foldl_mem_frame (fun t w => t.pokeWrite_frame w.1 w.2) l s

theorem State.applyPokes_eq (s : State) (e : Bool) (l : List Poke) :
    l.foldl (State.applyPoke e) s =
      s.writeAll (l.filterMap fun p =>
        if e = true then some (p, p.value)
        else if p.origMem = true ∨ p.origFile = true then some (p, p.original)
        else none) := by
  induction l generalizing s with
  | nil => rfl
  | cons p l ih =>
    rw [List.foldl_cons, ih]
    simp only [State.applyPoke, List.filterMap_cons]
    split
    · rfl
    · split <;> rfl

/-- `applyCheats()` is its writes, cheat by cheat and poke by poke (R342). -/
theorem State.applyCheats_eq (s : State) : s.applyCheats = s.writeAll (s.cheats.flatMap s.cheatWrites) := by
  suffices h : ∀ (cs : List Cheat) (t : State), t.pokes = s.pokes →
      cs.foldl State.applyCheat t = t.writeAll (cs.flatMap s.cheatWrites) from h _ s rfl
  intro cs
  induction cs with
  | nil => intro t _; rfl
  | cons c cs ih =>
    intro t ht
    have e : t.applyCheat c = t.writeAll (s.cheatWrites c) := by
      simp only [State.applyCheat, State.cheatWrites, State.pokesOf, ht]
      exact t.applyPokes_eq c.enabled _
    rw [List.foldl_cons, ih _ (by rw [t.applyCheat_frame c]; exact ht), e, List.flatMap_cons]
    simp only [State.writeAll, List.foldl_append]

/-- What a byte of RAM reads after pokes (R342): what the last one that addresses it wrote, or what it read before. -/
theorem State.readPage_writeAll (s : State) (l : List (Poke × Byte)) (b : BitVec 3) {o : Nat} (ho : o < 0x4000) :
    (s.writeAll l).readPage (.ram b) o =
      match (l.map fun w => (s.pokePlace w.1, w.2)).reverse.find? (fun w => w.1 == (Page.ram b, o)) with
      | some w => w.2
      | none => s.readPage (.ram b) o := by
  induction l generalizing s with
  | nil => rfl
  | cons w l ih =>
    have hp : ∀ p, (s.pokeWrite w.1 w.2).pokePlace p = s.pokePlace p := fun p => by rw [s.pokeWrite_frame w.1 w.2]; rfl
    have e : s.writeAll (w :: l) = (s.pokeWrite w.1 w.2).writeAll l := rfl
    rw [e, ih]
    simp only [hp, List.map_cons, List.reverse_cons, List.find?_append]
    cases (l.map fun w => (s.pokePlace w.1, w.2)).reverse.find? (fun w => w.1 == (Page.ram b, o)) with
    | some x => rfl
    | none =>
      simp only [Option.none_or, List.find?_cons, List.find?_nil]
      rw [s.readPage_pokeWrite w.1 w.2 b ho]
      by_cases hc : s.pokePlace w.1 = (.ram b, o)
      · simp [hc]
      · rw [if_neg hc, beq_false_of_ne hc]

theorem State.readPage_writeAll_rom (s : State) (l : List (Poke × Byte)) (r : Fin 5) {o : Nat} (ho : o < 0x4000) :
    (s.writeAll l).readPage (.rom r) o = s.readPage (.rom r) o := by
  induction l generalizing s with
  | nil => rfl
  | cons w l ih =>
    have e : s.writeAll (w :: l) = (s.pokeWrite w.1 w.2).writeAll l := rfl
    rw [e, ih, s.readPage_pokeWrite_rom w.1 w.2 r ho]

/-! ### Filling -/

theorem State.flush_frame (s : State) : s.flush = { s with cheats := s.flush.cheats, fill := s.flush.fill } := by
  simp only [State.flush]; split <;> rfl

theorem State.pokName_frame (s : State) :
    s.pokName = { s with cheats := s.pokName.cheats, fill := s.pokName.fill } := by
  simp only [State.pokName]; rw [s.flush_frame]

theorem State.pokPoke_frame (s : State) (rest : List Byte) :
    s.pokPoke rest = { s with pokes := (s.pokPoke rest).pokes, fill := (s.pokPoke rest).fill } := by
  simp only [State.pokPoke]; split <;> rfl

/-- A `.pok` line fills the two arrays and the cursor; nothing else (R340). -/
theorem State.fillLine_frame (s : State) (line : List Byte) :
    s.fillLine line =
      { s with
        cheats := (s.fillLine line).cheats
        pokes := (s.fillLine line).pokes
        fill := (s.fillLine line).fill } := by
  cases line with
  | nil => rfl
  | cons tag rest =>
    simp only [State.fillLine]
    by_cases h1 : tag = 0x4E
    · simp only [if_pos h1]; rw [s.pokName_frame]
    · simp only [if_neg h1]
      by_cases h2 : tag = 0x4D ∨ tag = 0x5A
      · simp only [if_pos h2]; rw [s.pokPoke_frame rest]
      · simp only [if_neg h2]

theorem State.fillLines_frame (ls : List (List Byte)) (s : State) :
    ls.foldl State.fillLine s =
      { s with
        cheats := (ls.foldl State.fillLine s).cheats
        pokes := (ls.foldl State.fillLine s).pokes
        fill := (ls.foldl State.fillLine s).fill } := by
  induction ls generalizing s with
  | nil => rfl
  | cons l ls ih => rw [List.foldl_cons, ih, s.fillLine_frame l]

theorem State.fillEnd_frame (s : State) : s.fillEnd = { s with cheats := s.fillEnd.cheats, fill := ⟨none, 0⟩ } := by
  simp only [State.fillEnd]; rw [s.flush_frame]

/-- `FillPass` fills the two arrays; nothing else (R337, R340). -/
theorem State.fillPass_frame (s : State) (text : List Byte) :
    s.fillPass text =
      { s with
        cheats := (s.fillPass text).cheats
        pokes := (s.fillPass text).pokes
        fill := ⟨none, 0⟩ } := by
  simp only [State.fillPass]
  rw [State.fillEnd_frame, State.fillLines_frame]

end Sys2Proof.Machine
end

