-- ==== Sys2Proof/Laws/Loads.lean ====
section
/-! SUPPORT. What the parts of the snapshot loaders can do, said once. -/

namespace Sys2Proof.Machine

/-- What a part of a loader may change between the architecture switch and the end of the load: the register file, memory,
the latches, the map, `port254`, the event stream (which only grows) and the AY image. -/
structure Loads (s t : State) : Prop where
  frame : t =
    { s with
      regs := t.regs
      mem := t.mem
      latches := t.latches
      map := t.map
      port254 := t.port254
      events := t.events
      ay := t.ay }
  memOk : Memory.wf s.mem → Memory.wf t.mem
  events : ∃ l, t.events = s.events ++ l

/-- The same of either outcome of a loader part. -/
def Loading.Loads (s : State) : Loading → Prop
  | .ok t => Machine.Loads s t
  | .error (_, t) => Machine.Loads s t

theorem Loads.refl (s : State) : Loads s s := ⟨rfl, id, [], (List.append_nil _).symm⟩

theorem Loads.trans {s t u : State} (h1 : Loads s t) (h2 : Loads t u) : Loads s u := by
  refine ⟨?_, fun h => h2.memOk (h1.memOk h), ?_⟩
  · rw [h2.frame, h1.frame]
  · obtain ⟨l, hl⟩ := h1.events
    obtain ⟨k, hk⟩ := h2.events
    exact ⟨l ++ k, by rw [hk, hl, List.append_assoc]⟩

theorem Loading.Loads.of {s t : State} {e : Loading} (h : Machine.Loads s t) (he : Loading.Loads t e) :
    Loading.Loads s e := by
  cases e with
  | ok u => exact h.trans he
  | error e => exact h.trans he

theorem Loads.withRegs (s : State) (r : Regs) : Loads s { s with regs := r } := ⟨rfl, id, [], (List.append_nil _).symm⟩

theorem Loads.withLatches (s : State) (l : Latches) : Loads s { s with latches := l } :=
  ⟨rfl, id, [], (List.append_nil _).symm⟩

theorem Loads.withRegsLatches (s : State) (r : Regs) (l : Latches) : Loads s { s with regs := r, latches := l } :=
  ⟨rfl, id, [], (List.append_nil _).symm⟩

theorem Loads.setLatches (s : State) (l : Latches) : Loads s (s.setLatches l) := ⟨rfl, id, [], (List.append_nil _).symm⟩

theorem Loads.setBorder (s : State) (c : BitVec 3) : Loads s (s.setBorder c) := ⟨rfl, id, _, rfl⟩

theorem Loads.loadPage (s : State) (p : Page) (bs : List Byte) : Loads s (s.loadPage p bs) :=
  ⟨rfl, State.loadPage_memOk p bs, [], (List.append_nil _).symm⟩

theorem Loads.loadThree (s : State) (f : List Byte) (o : Nat) : Loads s (s.loadThree f o) :=
  ((Loads.loadPage _ _ _).trans (Loads.loadPage _ _ _)).trans (Loads.loadPage _ _ _)

theorem Loads.loadBanks (f : List Byte) (bs : List (BitVec 3)) (p : Nat) (s : State) : Loads s (loadBanks f bs p s) := by
  induction bs generalizing p s with
  | nil => exact Loads.refl s
  | cons b bs ih => exact (Loads.loadPage _ _ _).trans (ih _ _)

theorem loadSnaHeader_loads (f : List Byte) (s : State) : Loading.Loads s (loadSnaHeader f s) := by
  simp only [loadSnaHeader]
  split
  · exact Loads.withRegs s _
  · exact (Loads.withRegs s _).trans (Loads.setBorder _ _)

theorem loadSna48_loads (f : List Byte) (s : State) : Loads s (loadSna48 f s) := by
  have h := (Loads.loadThree s f 27).trans (Loads.setLatches (s.loadThree f 27) Latches.reset)
  simp only [loadSna48]
  exact h.trans (Loads.withRegs _ _)

theorem loadSna128_loads (v : SnaVariant) (f : List Byte) (s : State) : Loading.Loads s (loadSna128 v f s) := by
  unfold loadSna128
  extract_lets s1 r0 s2 cur s3 tailEnd
  have h2 : Loads s s2 := (Loads.loadThree s f 27).trans (Loads.withRegsLatches _ _ _)
  have h3 : Loads s s3 := by
    by_cases hc : cur = 0
    · simp only [s3, if_pos hc]; exact h2
    · simp only [s3, if_neg hc]; exact h2.trans (Loads.loadPage _ _ _)
  clear_value s3
  by_cases he : tailEnd = 49183 + 16384 * (remainingBanks cur).length
  · rw [if_pos he]; exact h3.trans (Loads.loadBanks _ _ _ _)
  · rw [if_neg he]; exact h3

theorem loadSnaTrailer_loads (f : List Byte) (s : State) : Loads s (loadSnaTrailer f s) := by
  simp only [loadSnaTrailer]
  exact ⟨rfl, id, [], (List.append_nil _).symm⟩

/-- Everything the part of `LOAD_SNA` after `CheatClose()` can change. -/
theorem snaPart_loads (v : SnaVariant) (f : List Byte) (s : State) : Loading.Loads s (snaPart v f s) := by
  have hh := loadSnaHeader_loads f s
  simp only [snaPart]
  cases h : loadSnaHeader f s with
  | error e => rw [h] at hh; exact hh
  | ok s1 =>
    rw [h] at hh
    replace hh : Loads s s1 := hh
    have h1 : ∀ w, Loading.Loads s (loadSna128 w f s1) := by
      intro w
      have hw := loadSna128_loads w f s1
      generalize loadSna128 w f s1 = e at hw
      exact Loading.Loads.of hh hw
    have h2 : ∀ w, Loading.Loads s
        (match loadSna128 w f s1 with | .error e => .error e | .ok s2 => .ok (loadSnaTrailer f s2)) := by
      intro w
      have := h1 w
      cases hc : loadSna128 w f s1 with
      | error e => rw [hc] at this; exact this
      | ok s2 => rw [hc] at this; exact Loads.trans this (loadSnaTrailer_loads f s2)
    cases v with
    | s48 => exact Loads.trans hh (loadSna48_loads f s1)
    | s128a => exact h1 _
    | s128b => exact h1 _
    | s2A3a => exact h2 _
    | s2A3b => exact h2 _

theorem loadZ80Header_loads (f : List Byte) (s : State) : Loading.Loads s (loadZ80Header f s) := by
  have h : Loads s (({ s with regs := z80Regs f s.regs }).setBorder ((z80Flags f).extractLsb' 1 3)) :=
    (Loads.withRegs s _).trans (Loads.setBorder _ _)
  simp only [loadZ80Header]
  split
  · exact h
  · exact h.trans (Loads.withRegs _ _)

theorem loadZ80V1_loads (f : List Byte) (s : State) : Loading.Loads s (loadZ80V1 f s) := by
  simp only [loadZ80V1]
  split
  · exact Loads.withRegs s _
  · exact ((Loads.withRegs s _).trans (Loads.loadThree _ _ _)).trans (Loads.withLatches _ _)

theorem loadZ80Ext_loads (f : List Byte) (s : State) : Loading.Loads s (loadZ80Ext f s) := by
  simp only [loadZ80Ext]
  split
  · exact Loads.refl s
  · exact (Loads.withRegs s _).trans (Loads.withLatches _ _)

theorem loadZ80Page_loads (id : Byte) (page : List Byte) (s : State) : Loads s (loadZ80Page id page s) := by
  simp only [loadZ80Page]
  split
  · exact Loads.loadPage _ _ _
  · exact Loads.refl s

theorem loadZ80Block_loads (len : Word) (id : Byte) (data : List Byte) (s : State) :
    Loading.Loads s (loadZ80Block len id data s) := by
  simp only [loadZ80Block]
  split <;> split
  · exact loadZ80Page_loads _ _ s
  · exact Loads.refl s
  · exact loadZ80Page_loads _ _ s
  · exact Loads.refl s

theorem loadZ80Blocks_loads (fuel : Nat) (rest : List Byte) (s : State) :
    Loading.Loads s (loadZ80Blocks fuel rest s) := by
  induction fuel generalizing rest s with
  | zero => exact Loads.refl s
  | succ n ih =>
    simp only [loadZ80Blocks]
    split
    · exact Loads.refl s
    · split
      · exact Loads.refl s
      · split
        · exact Loads.refl s
        · have hb := loadZ80Block_loads (le16 rest 0) (fileByte rest 2) (slice rest 3 (blockDataLen (le16 rest 0))) s
          split
          · next e he => rw [he] at hb; exact hb
          · next s1 he => rw [he] at hb; exact Loading.Loads.of hb (ih _ _)

/-- A block, loaded or refused, changes memory and nothing else (R289, R290). -/
theorem loadZ80Block_frame (len : Word) (id : Byte) (data : List Byte) (s : State) :
    (∀ t, loadZ80Block len id data s = .ok t → t = { s with mem := t.mem }) ∧
    (∀ e, loadZ80Block len id data s = .error e → e = (.truncated, s)) := by
  unfold loadZ80Block
  extract_lets page
  split
  · refine ⟨fun t h => ?_, fun e h => by cases h⟩
    cases h
    unfold loadZ80Page
    split <;> rfl
  · exact ⟨fun t h => (by cases h), fun e h => by cases h; rfl⟩

/-- Blocks, up to the end of the file or to the one that is cut off, change memory and nothing else (R289, R290). -/
theorem loadZ80Blocks_frame (fuel : Nat) (rest : List Byte) (s : State) :
    (∀ t, loadZ80Blocks fuel rest s = .ok t → t = { s with mem := t.mem }) ∧
    (∀ e, loadZ80Blocks fuel rest s = .error e → e = (.truncated, { s with mem := e.2.mem })) := by
  induction fuel generalizing rest s with
  | zero => exact ⟨fun _ h => by cases h; rfl, fun _ h => by cases h⟩
  | succ n ih =>
    simp only [loadZ80Blocks]
    split
    · exact ⟨fun _ h => by cases h; rfl, fun _ h => by cases h⟩
    · split
      · exact ⟨fun _ h => (by cases h), fun _ h => by cases h; rfl⟩
      · split
        · exact ⟨fun _ h => (by cases h), fun _ h => by cases h; rfl⟩
        · have hb := loadZ80Block_frame (le16 rest 0) (fileByte rest 2) (slice rest 3 (blockDataLen (le16 rest 0))) s
          split
          · next e he =>
            refine ⟨fun _ h => (by cases h), fun _ h => ?_⟩
            cases h; rw [hb.2 _ he]
          · next s1 he =>
            have h1 := hb.1 _ he
            refine ⟨fun t h => ?_, fun e h => ?_⟩
            · have := (ih _ _).1 t h
              rw [this, h1]
            · have := (ih _ _).2 e h
              rw [this, h1]

/-- Everything the part of `LOAD_Z80` after `CheatClose()` can change. -/
theorem z80Part_loads (v : Z80Ver) (f : List Byte) (s : State) : Loading.Loads s (z80Part v f s) := by
  have hh := loadZ80Header_loads f s
  simp only [z80Part]
  cases h : loadZ80Header f s with
  | error e => rw [h] at hh; exact hh
  | ok s1 =>
    rw [h] at hh
    have h2 : Loading.Loads s
        (match loadZ80Ext f s1 with
         | .error e => .error e
         | .ok s2 => loadZ80Blocks f.length (f.drop (32 + z80ExtLen f)) s2) := by
      have := Loading.Loads.of hh (loadZ80Ext_loads f s1)
      cases hc : loadZ80Ext f s1 with
      | error e => rw [hc] at this; exact this
      | ok s2 => rw [hc] at this; exact Loading.Loads.of this (loadZ80Blocks_loads _ _ _)
    cases v with
    | v1 => exact Loading.Loads.of hh (loadZ80V1_loads f s1)
    | v2 => exact h2
    | v3 => exact h2

/-- Everything the part of `LOAD_SP` after `CheatClose()` can change. -/
theorem spPart_loads (rom : Bool) (f : List Byte) (s : State) : Loading.Loads s (spPart rom f s) := by
  have h : Loads s (loadSpHeader f s) :=
    ((Loads.withRegs s _).trans (Loads.setBorder _ _)).trans (Loads.withLatches _ _)
  refine h.trans ?_
  simp only [loadSpMemory]
  split
  · exact (Loads.loadPage _ _ _).trans (Loads.loadThree _ _ _)
  · exact Loads.loadThree _ _ _

/-! ### The ends of a load -/

theorem finishLoad_ok (s : State) : finishLoad (.ok s) = .next ({ s.remap with failed := false }.give .loaded) := rfl

theorem finishLoad_error (r : LoadFailure) (s : State) : finishLoad (.error (r, s)) = .next (s.lateFailure r) := rfl

theorem State.enterArch_same {s : State} {target : Arch} (h : target = s.arch) : s.enterArch target = .ok s := by
  simp only [State.enterArch, h, if_true]

theorem State.enterArch_switch {s : State} {target : Arch} (h : target ≠ s.arch) (ha : s.cfg.allocOk = true) :
    s.enterArch target = .ok (s.powerOn target) := by simp only [State.enterArch, if_neg h, ha, if_true]

/-- A load on the running architecture switches nothing (R253). -/
theorem loadOn_same {s : State} {target : Arch} (part : State → Loading) (h : target = s.arch) :
    loadOn target part s = finishLoad (part s.cheatClose) := by simp only [loadOn, State.enterArch_same h]

/-- A load on another architecture starts from its power-on reset (R253, R393). -/
theorem loadOn_switch {s : State} {target : Arch} (part : State → Loading) (h : target ≠ s.arch)
    (ha : s.cfg.allocOk = true) : loadOn target part s = finishLoad (part (s.powerOn target).cheatClose) := by
  simp only [loadOn, State.enterArch_switch h ha]

/-- A load starts from the running state, or from the power-on reset of another architecture (R253, R393). -/
theorem loadOn_entered {s : State} {target : Arch} (part : State → Loading) (h : target = s.arch ∨ s.cfg.allocOk = true) :
    loadOn target part s = finishLoad (part (if target = s.arch then s else s.powerOn target).cheatClose) := by
  by_cases ht : target = s.arch
  · rw [loadOn_same part ht, if_pos ht]
  · rw [loadOn_switch part ht (h.resolve_left ht), if_neg ht]

/-! ### The parts of a load, as state updates -/

theorem imOf_some {v : Byte} (h : v &&& 0x03 ≠ 3) : ∃ m, imOf v = some m ∧ imByte m = v &&& 0x03 := by
  revert v; decide

theorem imOf_none {v : Byte} (h : v &&& 0x03 = 3) : imOf v = none := by revert v; decide

theorem setWidth_low3 (v : Byte) : (v.extractLsb' 0 3).setWidth 8 = v &&& 0x07 := by revert v; decide

/-- Three blocks loaded change memory and nothing else (R256). -/
theorem State.loadThree_frame (s : State) (f : List Byte) (o : Nat) :
    s.loadThree f o = { s with mem := (s.loadThree f o).mem } := rfl

/-- The three blocks land the same whatever the rest of the state. -/
theorem State.loadThree_mem_congr {s t : State} (h : s.mem = t.mem) (f : List Byte) (o : Nat) :
    (s.loadThree f o).mem = (t.loadThree f o).mem := by simp only [State.loadThree, State.loadPage, h]

/-- The SNA header with an `IM` field the machine has (R255). -/
theorem loadSnaHeader_ok {f : List Byte} {m : IntMode} (h : imOf (fileByte f 25) = some m) (s : State) :
    loadSnaHeader f s =
      .ok (({ s with regs := { snaRegs f s.regs with im := m } }).setBorder ((fileByte f 26).extractLsb' 0 3)) := by
  simp only [loadSnaHeader, h]

/-- What the 48K part writes, once the three blocks are in memory `m` (R256). -/
theorem loadSna48_eq {f : List Byte} {s : State} {m : List Host.Cell} (h : (s.loadThree f 27).mem = m) :
    loadSna48 f s =
      { s with
        regs := { s.regs with
          pc := ({ s with mem := m, latches := Latches.reset, map := mapOf s.cfg s.arch Latches.reset } : State).memRead2
            s.regs.sp
          sp := s.regs.sp + 2 }
        mem := m
        latches := Latches.reset
        map := mapOf s.cfg s.arch Latches.reset } := by
  have e : s.loadThree f 27 = { s with mem := m } := by rw [← h]; exact s.loadThree_frame f 27
  simp only [loadSna48, e, State.setLatches]

/-- A load answers a next state unless a page allocation fails (R361, R363). -/
theorem loadOn_cases (target : Arch) (part : State → Loading) (s : State) :
    (∃ s1, (s1 = s ∧ target = s.arch ∨ s1 = s.powerOn target ∧ target ≠ s.arch) ∧
        loadOn target part s = finishLoad (part s1.cheatClose)) ∨
      (target ≠ s.arch ∧ s.cfg.allocOk = false ∧ loadOn target part s = .fault .initAllocFailure) := by
  by_cases h : target = s.arch
  · exact .inl ⟨s, .inl ⟨rfl, h⟩, loadOn_same part h⟩
  · by_cases ha : s.cfg.allocOk = true
    · exact .inl ⟨_, .inr ⟨rfl, h⟩, loadOn_switch part h ha⟩
    · refine .inr ⟨h, by simpa using ha, ?_⟩
      simp only [loadOn, State.enterArch, if_neg h, if_neg ha]

theorem State.powerOn_mem (s : State) (target : Arch) : (s.powerOn target).mem = [] := rfl

theorem State.lateFailure_memOk {s : State} (r : LoadFailure) (h : Memory.wf s.mem) :
    Memory.wf (s.lateFailure r).mem := Memory.filter_wf _ h

/-! ### The three blocks of a 48K image -/

theorem slice_length {f : List Byte} {i n : Nat} (h : i + n ≤ f.length) : (slice f i n).length = n := by
  simp only [slice, List.length_take, List.length_drop]; omega

theorem slice_getElem {f : List Byte} {i n o : Nat} (ho : o < n) (h : i + n ≤ f.length) :
    (slice f i n)[o]'(by rw [slice_length h]; exact ho) = fileByte f (i + o) := by
  simp only [slice, List.getElem_take, List.getElem_drop, fileByte]
  rw [List.getD_eq_getElem f 0 (show i + o < f.length by omega)]

/-- What the pages read after the three blocks are loaded (R256): banks 5, 2, 0 from the file, every other page as it was. -/
theorem State.readPage_loadThree (s : State) (f : List Byte) (b : Nat) (hf : b + 49152 ≤ f.length) (p : Page) {o : Nat}
    (ho : o < 0x4000) :
    (s.loadThree f b).readPage p o =
      if p = .ram 5 then fileByte f (b + o)
      else if p = .ram 2 then fileByte f (b + 16384 + o)
      else if p = .ram 0 then fileByte f (b + 32768 + o)
      else s.readPage p o := by
  have hp : pageSize = 16384 := rfl
  have l0 : (slice f b pageSize).length = pageSize := slice_length (by omega)
  have l1 : (slice f (b + 16384) pageSize).length = pageSize := slice_length (by omega)
  have l2 : (slice f (b + 32768) pageSize).length = pageSize := slice_length (by omega)
  have h05 : (Page.ram 5) ≠ .ram 0 := by decide
  have h25 : (Page.ram 5) ≠ .ram 2 := by decide
  have h02 : (Page.ram 2) ≠ .ram 0 := by decide
  simp only [State.loadThree]
  by_cases p5 : p = .ram 5
  · subst p5
    rw [if_pos rfl, State.readPage_loadPage_ne _ _ ho h05, State.readPage_loadPage_ne _ _ ho h25,
      State.readPage_loadPage_self _ (by omega) ho]
    exact slice_getElem (by omega) (by omega)
  · rw [if_neg p5]
    by_cases p2 : p = .ram 2
    · subst p2
      rw [if_pos rfl, State.readPage_loadPage_ne _ _ ho h02, State.readPage_loadPage_self _ (by omega) ho]
      exact slice_getElem (by omega) (by omega)
    · rw [if_neg p2]
      by_cases p0 : p = .ram 0
      · subst p0
        rw [if_pos rfl, State.readPage_loadPage_self _ (by omega) ho]
        exact slice_getElem (by omega) (by omega)
      · rw [if_neg p0, State.readPage_loadPage_ne _ _ ho p0, State.readPage_loadPage_ne _ _ ho p2,
          State.readPage_loadPage_ne _ _ ho p5]

/-- What the pages read after banks are loaded in a row (R259): bank `k` of the list from the `k`-th block, every page
outside the list as it was. -/
theorem readPage_loadBanks (f : List Byte) {bs : List (BitVec 3)} (hn : bs.Nodup) (p : Nat) (s : State)
    (hf : p + 16384 * bs.length ≤ f.length) {o : Nat} (ho : o < 0x4000) :
    (∀ k b, bs[k]? = some b → (loadBanks f bs p s).readPage (.ram b) o = fileByte f (p + 16384 * k + o)) ∧
      ∀ q, (∀ b ∈ bs, q ≠ .ram b) → (loadBanks f bs p s).readPage q o = s.readPage q o := by
  have hp : pageSize = 16384 := rfl
  induction bs generalizing p s with
  | nil => exact ⟨fun k b h => by simp at h, fun q _ => rfl⟩
  | cons c bs ih =>
    obtain ⟨hc, hn'⟩ := List.nodup_cons.1 hn
    rw [List.length_cons] at hf
    obtain ⟨h1, h2⟩ := ih hn' (p + 16384) (s.loadPage (.ram c) (slice f p pageSize)) (by omega)
    refine ⟨fun k b h => ?_, fun q hq => ?_⟩
    · cases k with
      | zero =>
        obtain rfl : c = b := by simpa using h
        have hne : ∀ b ∈ bs, Page.ram c ≠ .ram b := fun b hb e => hc (by injection e with e; rwa [e])
        show (loadBanks f bs (p + 16384) _).readPage _ o = _
        have hl : (slice f p pageSize).length = pageSize := slice_length (by omega)
        rw [h2 _ hne, State.readPage_loadPage_self _ (by omega) ho, slice_getElem (by omega) (by omega)]
        congr 1
      | succ k =>
        show (loadBanks f bs (p + 16384) _).readPage _ o = _
        rw [h1 k b (by simpa using h)]
        congr 1; omega
    · show (loadBanks f bs (p + 16384) _).readPage _ o = _
      rw [h2 q fun b hb => hq b (List.mem_cons_of_mem _ hb)]
      exact State.readPage_loadPage_ne _ _ ho (hq c List.mem_cons_self)

/-- Banks loaded in a row change memory and nothing else (R259). -/
theorem loadBanks_frame (f : List Byte) (bs : List (BitVec 3)) (p : Nat) (s : State) :
    loadBanks f bs p s = { s with mem := (loadBanks f bs p s).mem } := by
  induction bs generalizing p s with
  | nil => rfl
  | cons b bs ih =>
    have e : loadBanks f (b :: bs) p s = loadBanks f bs (p + 16384) (s.loadPage (.ram b) (slice f p pageSize)) := rfl
    rw [e, ih]; rfl

theorem remainingBanks_nodup (cur : BitVec 3) : (remainingBanks cur).Nodup := by revert cur; decide

theorem remainingBanks_length (cur : BitVec 3) : (remainingBanks cur).length = if cur = 2 ∨ cur = 5 then 6 else 5 := by
  revert cur; decide

theorem mem_remainingBanks {cur b : BitVec 3} : b ∈ remainingBanks cur ↔ b ≠ 2 ∧ b ≠ 5 ∧ b ≠ cur := by
  revert cur b; decide

/-- What the 128K-class part leaves of a file whose size matches its paging byte (R257 to R259). -/
theorem loadSna128_ok (v : SnaVariant) (f : List Byte) (s : State) (hv : v ≠ .s48) (hlen : f.length = v.size)
   (hsz : v = .s128a ∨ v = .s2A3a ↔ (fileByte f 49181).extractLsb' 0 3 ≠ 2 ∧ (fileByte f 49181).extractLsb' 0 3 ≠ 5) :
   ∃ m, loadSna128 v f s = .ok { s with regs := { s.regs with pc := le16 f 49179 }, latches := sna128Latches s.arch s.latches (fileByte f 49181) (fileByte f 49182), mem := m } ∧
    (∀ (u : State), u.mem = m → u.ramEpoch = s.ramEpoch → u.rom0Any = s.rom0Any → u.romOf = s.romOf →
      let cur := (fileByte f 49181).extractLsb' 0 3
      ∀ o, o < 0x4000 →
        u.readPage (.ram cur) o = fileByte f (32795 + o) ∧
        (cur ≠ 5 → u.readPage (.ram 5) o = fileByte f (27 + o)) ∧
        (cur ≠ 2 → u.readPage (.ram 2) o = fileByte f (16411 + o)) ∧
        (∀ b k, (remainingBanks cur)[k]? = some b → u.readPage (.ram b) o = fileByte f (49183 + 16384 * k + o)) ∧
        (∀ r, u.readPage (.rom r) o = s.readPage (.rom r) o)) := by
  have hl2 := remainingBanks_length ((fileByte f 49181).extractLsb' 0 3)
  generalize hcur : (fileByte f 49181).extractLsb' 0 3 = cur at hsz hl2
  have hf0 : 131103 ≤ f.length := by rw [hlen]; cases v <;> first | exact absurd rfl hv | decide
  obtain ⟨x, hx⟩ : ∃ x, x = s.loadThree f 27 := ⟨_, rfl⟩
  have hxf : x = { s with mem := x.mem } := by rw [hx]; exact s.loadThree_frame f 27
  have htail : (if v.hasTrailer then f.length - 18 else f.length) = 49183 + 16384 * (remainingBanks cur).length := by
    rw [hl2, hlen]
    by_cases h : cur = 2 ∨ cur = 5
    · rw [if_pos h]
      have : ¬(v = .s128a ∨ v = .s2A3a) := by rw [hsz]; tauto
      cases v with
      | s48 => exact absurd rfl hv
      | s128a => exact absurd (.inl rfl) this
      | s2A3a => exact absurd (.inr rfl) this
      | s128b => rfl
      | s2A3b => rfl
    · rw [if_neg h]
      have : (v = .s128a ∨ v = .s2A3a) := by rw [hsz]; tauto
      rcases this with rfl | rfl <;> rfl
  have hrem : 49183 + 16384 * (remainingBanks cur).length ≤ f.length := by
    rw [← htail]; split <;> omega
  let s2 : State := { s with regs := { s.regs with pc := le16 f 49179 }, latches := sna128Latches s.arch s.latches (fileByte f 49181) (fileByte f 49182), mem := x.mem }
  let s3 : State := if cur = 0 then s2 else s2.loadPage (.ram cur) (s2.pageBytes (.ram 0))
  have hopen : loadSna128 v f s = .ok (loadBanks f (remainingBanks cur) 49183 s3) := by
    unfold loadSna128
    extract_lets a1 r0 a2 c a3 te
    have e1 : a1 = x := hx.symm
    have e2 : a2 = s2 := by
      simp only [a2, r0, s2, ← e1]; rfl
    have e3 : c = cur := by
      show a2.latches.bankLatch = cur
      rw [e2]; exact hcur
    have e4 : a3 = s3 := by
      show (if c = 0 then a2 else a2.loadPage (.ram c) (a2.pageBytes (.ram 0))) = _
      rw [e2, e3]
    have e5 : te = 49183 + 16384 * (remainingBanks c).length := by rw [e3]; exact htail
    rw [if_pos e5, e4, e3]
  have hs3f : s3 = { s2 with mem := s3.mem } := by
    by_cases hc : cur = 0
    · simp only [s3, if_pos hc]
    · simp only [s3, if_neg hc]; rfl
  refine ⟨(loadBanks f (remainingBanks cur) 49183 s3).mem, ?_, ?_⟩
  · rw [hopen, loadBanks_frame, hs3f]
  · intro u hm he ha hr _ o ho
    obtain ⟨b1, b2⟩ := readPage_loadBanks f (remainingBanks_nodup cur) 49183 s3 hrem ho
    have hu : ∀ q, u.readPage q o = (loadBanks f (remainingBanks cur) 49183 s3).readPage q o := by
      intro q
      refine State.readPage_congr hm ?_ ?_ ?_ q o
      · rw [he, loadBanks_frame, hs3f]
      · rw [ha, loadBanks_frame, hs3f]
      · rw [hr, loadBanks_frame, hs3f]
    have hs2 : ∀ q, s2.readPage q o = if q = .ram 5 then fileByte f (27 + o)
      else if q = .ram 2 then fileByte f (27 + 16384 + o)
      else if q = .ram 0 then fileByte f (27 + 32768 + o)
      else s.readPage q o := by
      intro q
      rw [← State.readPage_loadThree s f 27 (by omega) q ho]
      refine State.readPage_congr (s := s.loadThree f 27) (t := s2) ?_ rfl rfl rfl q o
      show x.mem = _
      rw [hx]
    have hs3cur : s3.readPage (.ram cur) o = fileByte f (32795 + o) := by
      by_cases hc : cur = 0
      · simp only [s3, if_pos hc, hs2, hc]; rfl
      · simp only [s3, if_neg hc]
        rw [State.readPage_loadPage_self _ (by simp; omega) ho]
        simp only [State.pageBytes, List.getElem_map, List.getElem_range, hs2]
        rfl
    have hs3ne : ∀ q, q ≠ .ram cur → s3.readPage q o = s2.readPage q o := by
      intro q hq
      by_cases hc : cur = 0
      · simp only [s3, if_pos hc]
      · simp only [s3, if_neg hc]; exact State.readPage_loadPage_ne _ _ ho hq
    refine ⟨?_, ?_, ?_, ?_, ?_⟩
    · rw [hu, b2 _ (fun b hb e => by injection e with e; exact (mem_remainingBanks.1 hb).2.2 e.symm), hs3cur]
    · intro h5
      rw [hu, b2 _ (fun b hb e => by injection e with e; exact (mem_remainingBanks.1 hb).2.1 e.symm), hs3ne _ (by simpa using Ne.symm h5), hs2]; rfl
    · intro h5
      rw [hu, b2 _ (fun b hb e => by injection e with e; exact (mem_remainingBanks.1 hb).1 e.symm), hs3ne _ (by simpa using Ne.symm h5), hs2]; rfl
    · intro b k hk
      rw [hu, b1 k b hk]
    · intro r
      rw [hu, b2 _ (fun b hb e => by cases e), hs3ne _ (by simp), hs2]; rfl

/-- The bytes of one Z80 memory block: length, page id, data (R289). -/
def z80BlockBytes (b : Word × Byte × List Byte) : List Byte := loByte b.1 :: hiByte b.1 :: b.2.1 :: b.2.2

/-- The page a Z80 memory block stands for (R289). -/
def z80BlockPage (b : Word × Byte × List Byte) : List Byte := if b.1 = 0xFFFF then b.2.2 else decompress b.2.2 16384

theorem wordOf_bytes (v : Word) : wordOf (hiByte v) (loByte v) = v := by
  refine BitVec.eq_of_getLsbD_eq fun i hi => ?_
  simp only [wordOf, hiByte, loByte, BitVec.getLsbD_append, BitVec.getLsbD_extractLsb']
  by_cases h : i < 8
  · simp [h]
  · simp only [h, if_false, Nat.add_sub_cancel' (Nat.le_of_not_lt h), decide_eq_true (show i - 8 < 8 by omega),
      Bool.true_and]

theorem loByte_wordOf (hi lo : Byte) : loByte (wordOf hi lo) = lo := by
  refine BitVec.eq_of_getLsbD_eq fun i h => ?_
  simp only [loByte, wordOf, BitVec.getLsbD_extractLsb', BitVec.getLsbD_append]
  simp [h]

theorem hiByte_wordOf (hi lo : Byte) : hiByte (wordOf hi lo) = hi := by
  refine BitVec.eq_of_getLsbD_eq fun i h => ?_
  simp only [hiByte, wordOf, BitVec.getLsbD_extractLsb', BitVec.getLsbD_append]
  simp [h]

/-- Whole blocks load one after the other (R289, R290). -/
theorem loadZ80Blocks_whole (bs : List (Word × Byte × List Byte)) (fuel : Nat) (s : State) (hf : bs.length ≤ fuel)
    (hb : ∀ b ∈ bs, b.2.2.length = blockDataLen b.1 ∧ (z80BlockPage b).length = 16384) :
    loadZ80Blocks fuel (bs.flatMap z80BlockBytes) s =
      .ok (bs.foldl (fun t b => loadZ80Page b.2.1 (z80BlockPage b) t) s) := by
  induction bs generalizing fuel s with
  | nil => cases fuel <;> rfl
  | cons b bs ih =>
    obtain ⟨len, id, data⟩ := b
    obtain ⟨hd, hp⟩ := hb _ List.mem_cons_self
    cases fuel with
    | zero => simp at hf
    | succ n =>
      have hl : le16 (loByte len :: hiByte len :: id :: (data ++ bs.flatMap z80BlockBytes)) 0 = len := wordOf_bytes len
      have hi : fileByte (loByte len :: hiByte len :: id :: (data ++ bs.flatMap z80BlockBytes)) 2 = id := rfl
      simp only at hd hp
      have hs : slice (loByte len :: hiByte len :: id :: (data ++ bs.flatMap z80BlockBytes)) 3 (blockDataLen len) = data := by
        simp only [slice, List.drop_succ_cons, List.drop_zero, ← hd, List.take_left]
      have hr : (loByte len :: hiByte len :: id :: (data ++ bs.flatMap z80BlockBytes)).drop (3 + blockDataLen len) =
          bs.flatMap z80BlockBytes := by
        rw [Nat.add_comm, ← hd]; simp only [List.drop_succ_cons, List.drop_left]
      have e : List.flatMap z80BlockBytes ((len, id, data) :: bs) =
          loByte len :: hiByte len :: id :: (data ++ bs.flatMap z80BlockBytes) := by
        simp [z80BlockBytes]
      have hlen : ¬(loByte len :: hiByte len :: id :: (data ++ bs.flatMap z80BlockBytes)).length < 3 := by simp
      have hlen2 : ¬(loByte len :: hiByte len :: id :: (data ++ bs.flatMap z80BlockBytes)).length - 3 < blockDataLen len := by
        rw [← hd]; simp
      have hblk : loadZ80Block len id data s = .ok (loadZ80Page id (z80BlockPage (len, id, data)) s) := by
        have hp' : (if len = 0xFFFF then data else decompress data 16384).length = 16384 := hp
        simp only [loadZ80Block]; rw [if_pos hp']; rfl
      rw [e]
      simp only [loadZ80Blocks, hl, hi, hs, hr]
      rw [if_neg (by simp), if_neg hlen, if_neg hlen2, hblk]
      exact ih n _ (by simpa using hf) fun c hc => hb c (List.mem_cons_of_mem _ hc)

/-- The rest of a file is a sequence of whole blocks, or its load ends `truncated` (R289). -/
theorem loadZ80Blocks_truncated (fuel : Nat) (rest : List Byte) (s : State) (hf : rest.length ≤ fuel) :
    (∃ bs : List (Word × Byte × List Byte), rest = bs.flatMap z80BlockBytes ∧
      ∀ b ∈ bs, b.2.2.length = blockDataLen b.1 ∧ (z80BlockPage b).length = 16384) ∨
    ∃ u, loadZ80Blocks fuel rest s = .error (.truncated, u) := by
  induction fuel generalizing rest s with
  | zero => exact .inl ⟨[], List.length_eq_zero_iff.1 (Nat.le_zero.1 hf), fun _ h => absurd h List.not_mem_nil⟩
  | succ n ih =>
    rcases rest with _ | ⟨lo, _ | ⟨hi, _ | ⟨id, data⟩⟩⟩
    · exact .inl ⟨[], rfl, fun _ h => absurd h List.not_mem_nil⟩
    · exact .inr ⟨s, rfl⟩
    · exact .inr ⟨s, rfl⟩
    · have e : loadZ80Blocks (n + 1) (lo :: hi :: id :: data) s =
          if data.length < blockDataLen (wordOf hi lo) then .error (.truncated, s)
          else
            match loadZ80Block (wordOf hi lo) id (data.take (blockDataLen (wordOf hi lo))) s with
            | .error e => .error e
            | .ok s1 => loadZ80Blocks n (data.drop (blockDataLen (wordOf hi lo))) s1 := by
        simp only [loadZ80Blocks, slice, List.drop_succ_cons, List.drop_zero, Nat.add_comm 3]
        rfl
      rw [e]
      split
      · exact .inr ⟨s, rfl⟩
      · next hl =>
        simp only [loadZ80Block]
        by_cases hp : (z80BlockPage (wordOf hi lo, id, data.take (blockDataLen (wordOf hi lo)))).length = 16384
        · have hp' := hp
          simp only [z80BlockPage] at hp'
          rw [if_pos hp']
          rcases ih (data.drop (blockDataLen (wordOf hi lo))) _ (by simp at hf ⊢; omega) with ⟨bs, h1, h2⟩ | h
          · refine .inl ⟨(wordOf hi lo, id, data.take (blockDataLen (wordOf hi lo))) :: bs, ?_, fun b hb => ?_⟩
            · rw [List.flatMap_cons, ← h1]
              simp only [z80BlockBytes, loByte_wordOf, hiByte_wordOf, List.cons_append, List.take_append_drop]
            · rcases List.mem_cons.1 hb with rfl | hb
              · exact ⟨by simp only [List.length_take]; omega, hp⟩
              · exact h2 b hb
          · exact .inr h
        · simp only [z80BlockPage] at hp
          rw [if_neg hp]; exact .inr ⟨s, rfl⟩
/-- Blocks change memory and nothing else (R290). -/
theorem z80Pages_frame (bs : List (Word × Byte × List Byte)) (s : State) :
    bs.foldl (fun t b => loadZ80Page b.2.1 (z80BlockPage b) t) s =
      { s with mem := (bs.foldl (fun t b => loadZ80Page b.2.1 (z80BlockPage b) t) s).mem } := by
  induction bs generalizing s with
  | nil => rfl
  | cons b bs ih =>
    rw [List.foldl_cons, ih]
    simp only [loadZ80Page]
    split <;> rfl

/-- What a page reads after whole blocks are loaded (R290): the last block whose id names it, else what it read. -/
theorem readPage_z80Pages (bs : List (Word × Byte × List Byte)) (s : State)
    (hb : ∀ b ∈ bs, (z80BlockPage b).length = 16384) {o : Nat} (ho : o < 0x4000) (p : Page) :
    (bs.foldl (fun t b => loadZ80Page b.2.1 (z80BlockPage b) t) s).readPage p o =
      match bs.reverse.find? (fun e => (z80PageMap s.cfg s.arch e.2.1).map Page.ram == some p) with
      | some e => fileByte (z80BlockPage e) o
      | none => s.readPage p o := by
  induction bs generalizing s with
  | nil => rfl
  | cons b bs ih =>
    have hc : (loadZ80Page b.2.1 (z80BlockPage b) s).cfg = s.cfg := by simp only [loadZ80Page]; split <;> rfl
    have ha : (loadZ80Page b.2.1 (z80BlockPage b) s).arch = s.arch := by simp only [loadZ80Page]; split <;> rfl
    rw [List.foldl_cons, ih _ fun c h => hb c (List.mem_cons_of_mem _ h), hc, ha, List.reverse_cons, List.find?_append]
    cases bs.reverse.find? (fun e => (z80PageMap s.cfg s.arch e.2.1).map Page.ram == some p) with
    | some e => rfl
    | none =>
      have hlen := hb b List.mem_cons_self
      simp only [Option.none_or, List.find?_cons, List.find?_nil, loadZ80Page]
      cases hz : z80PageMap s.cfg s.arch b.2.1 with
      | none => rfl
      | some c =>
        by_cases hp : Page.ram c = p
        · subst hp
          simp only [Option.map_some, beq_self_eq_true]
          rw [State.readPage_loadPage_self _ (by omega) ho, fileByte, List.getD_eq_getElem _ _ (by omega)]
        · have hp' : (some (Page.ram c) == some p) = false := by simpa using hp
          simp only [Option.map_some, hp']
          exact State.readPage_loadPage_ne _ _ ho (Ne.symm hp)

/-! ### Late failures -/

/-- A load whose part fails ends as a late failure, its counter where the load started (R362). -/
theorem loadOn_fails {s u : State} {target : Arch} {part : State → Loading} {r : LoadFailure}
    (ht : target = s.arch ∨ s.cfg.allocOk = true)
    (hp : part (if target = s.arch then s else s.powerOn target).cheatClose = .error (r, u))
    (hl : Loads (if target = s.arch then s else s.powerOn target).cheatClose u) :
    ∃ t, loadOn target part s = .next t ∧ t.failed = true ∧ t.answer = .failure r ∧ t.map = mapOf t.cfg t.arch t.latches ∧
      (target = s.arch → t.tick = s.tick) := by
  refine ⟨u.lateFailure r, by rw [loadOn_entered part ht, hp]; rfl, rfl, rfl, rfl, fun h => ?_⟩
  show u.tick = s.tick
  rw [hl.frame, if_pos h]; rfl

/-- Where the part of a Z80 load fails once the header is read (R283, R284, R286, R289). -/
theorem z80Part_fails (v : Z80Ver) (f : List Byte) (s : State) :
    (fileByte f 29 &&& 0x03 = 3 → ∃ u, z80Part v f s = .error (.badField, u)) ∧
    (fileByte f 29 &&& 0x03 ≠ 3 →
      (v = .v1 → bit (z80Flags f) 5 = false → (f.drop 30).length ≠ 49152 → ∃ u, z80Part v f s = .error (.badSize, u)) ∧
      (v = .v1 → bit (z80Flags f) 5 = true → (decompress (stripTerminator (f.drop 30)) 49152).length ≠ 49152 →
        ∃ u, z80Part v f s = .error (.truncated, u)) ∧
      (v ≠ .v1 → f.length < 32 + z80ExtLen f → ∃ u, z80Part v f s = .error (.badSize, u)) ∧
      (v ≠ .v1 → 32 + z80ExtLen f ≤ f.length →
        ¬(∃ bs : List (Word × Byte × List Byte), f.drop (32 + z80ExtLen f) = bs.flatMap z80BlockBytes ∧
          ∀ b ∈ bs, b.2.2.length = blockDataLen b.1 ∧ (z80BlockPage b).length = 16384) →
        ∃ u, z80Part v f s = .error (.truncated, u))) := by
  constructor
  · intro h
    simp only [z80Part, loadZ80Header, imOf_none h]; exact ⟨_, rfl⟩
  · intro h
    obtain ⟨m, hm, -⟩ := imOf_some h
    have hz : ∀ s1, ∀ r, v = .v1 → z80V1Image f = .error r → loadZ80Header f s = .ok s1 → ∃ u, z80Part v f s = .error (r, u) := by
      intro s1 r hv hi hh
      subst hv
      simp only [z80Part, hh, loadZ80V1, hi]; exact ⟨_, rfl⟩
    obtain ⟨s1, hh⟩ : ∃ s1, loadZ80Header f s = .ok s1 := by simp only [loadZ80Header, hm]; exact ⟨_, rfl⟩
    refine ⟨fun hv hb hl => hz s1 _ hv ?_ hh, fun hv hb hl => hz s1 _ hv ?_ hh, fun hv hl => ?_, fun hv hl hn => ?_⟩
    · simp only [z80V1Image, hb, Bool.false_eq_true, if_false, if_neg hl]
    · simp only [z80V1Image, hb, if_true, if_neg hl]
    · cases v with
      | v1 => exact absurd rfl hv
      | v2 => simp only [z80Part, hh, loadZ80Ext, if_pos hl]; exact ⟨_, rfl⟩
      | v3 => simp only [z80Part, hh, loadZ80Ext, if_pos hl]; exact ⟨_, rfl⟩
    · have hb := fun t => (loadZ80Blocks_truncated f.length (f.drop (32 + z80ExtLen f)) t (by simp)).resolve_left hn
      cases v with
      | v1 => exact absurd rfl hv
      | v2 => simp only [z80Part, hh, loadZ80Ext, if_neg (Nat.not_lt.2 hl)]; exact hb _
      | v3 => simp only [z80Part, hh, loadZ80Ext, if_neg (Nat.not_lt.2 hl)]; exact hb _

end Sys2Proof.Machine
end

