-- ==== Sys2Proof/Laws/Ports.lean ====
section
/-! SUPPORT. What the rows of the port decode can do, said once. -/

namespace Sys2Proof.Machine

/-! ### Addresses -/

theorem one_getLsbD (i : Nat) : (1 : Word).getLsbD i = decide (i = 0) := by
  show (1#16).getLsbD i = _
  rw [BitVec.getLsbD_one]; simp

/-- An address is of the ULA class when its bit 0 is clear (R92). -/
theorem evenPort_eq (port : Word) : evenPort port = !port.getLsbD 0 := by
  have h : port &&& 1 = if port.getLsbD 0 then 1 else 0 := by
    refine BitVec.eq_of_getLsbD_eq fun i _ => ?_
    rw [BitVec.getLsbD_and, one_getLsbD]
    by_cases h0 : i = 0
    · subst h0; cases port.getLsbD 0 <;> rfl
    · rw [decide_eq_false h0, Bool.and_false]
      cases port.getLsbD 0
      · exact BitVec.getLsbD_zero.symm
      · rw [if_pos rfl, one_getLsbD, decide_eq_false h0]
  show (port &&& 1 == 0) = _
  rw [h]
  cases port.getLsbD 0 <;> rfl

/-- On an odd address a mask that tests `A0` = 1 besides other bits tests only those (R99, R100). -/
theorem maskHit_odd {port mask value : Word} (hp : port.getLsbD 0 = true) (hm : mask.getLsbD 0 = false)
    (hv : value.getLsbD 0 = false) : maskHit port (mask ||| 1) (value ||| 1) = maskHit port mask value := by
  have h : port &&& (mask ||| 1) = value ||| 1 ↔ port &&& mask = value := by
    constructor
    · intro e
      refine BitVec.eq_of_getLsbD_eq fun i _ => ?_
      have he := congrArg (fun x : Word => x.getLsbD i) e
      simp only [BitVec.getLsbD_and, BitVec.getLsbD_or, one_getLsbD] at he
      rw [BitVec.getLsbD_and]
      by_cases h0 : i = 0
      · subst h0; rw [hm, hv, Bool.and_false]
      · simpa [h0] using he
    · intro e
      refine BitVec.eq_of_getLsbD_eq fun i _ => ?_
      rw [← e]
      simp only [BitVec.getLsbD_and, BitVec.getLsbD_or, one_getLsbD]
      by_cases h0 : i = 0
      · subst h0; rw [hp, hm]; rfl
      · simp [h0]
  simp only [maskHit]
  rw [Bool.eq_iff_iff, beq_iff_eq, beq_iff_eq]
  exact h

/-! ### The paging latches -/

theorem State.page7Port_frame (s : State) (v : Byte) :
    s.page7Port v = { s with latches := (s.page7Port v).latches, map := (s.page7Port v).map } := by
  simp only [State.page7Port]; split <;> rfl

theorem State.page1Port_frame (s : State) (v : Byte) :
    s.page1Port v = { s with latches := (s.page1Port v).latches, map := (s.page1Port v).map } := by
  simp only [State.page1Port]; split <;> rfl

/-- With the lock set the first paging port does nothing (R204). -/
theorem State.page7Port_locked {s : State} (v : Byte) (h : s.latches.pagingLock = true) : s.page7Port v = s := by
  simp only [State.page7Port, h, if_true]

/-- With the lock clear it writes the latches of format PD7 (R203). -/
theorem State.page7Port_open {s : State} (v : Byte) (h : s.latches.pagingLock = false) :
    s.page7Port v = s.setLatches (pd7Latches s.arch s.latches v) := by
  simp only [State.page7Port, h, Bool.false_eq_true, if_false]

theorem State.page1Port_locked {s : State} (v : Byte) (h : s.latches.pagingLock = true) : s.page1Port v = s := by
  simp only [State.page1Port, h, if_true]

theorem State.page1Port_open {s : State} (v : Byte) (h : s.latches.pagingLock = false) :
    s.page1Port v = s.setLatches (pd1Latches s.latches v) := by
  simp only [State.page1Port, h, Bool.false_eq_true, if_false]

/-- A paging write leaves the derived map equal to what `Remap()` computes (R32). -/
theorem State.page7Port_map {s : State} (v : Byte) (h : s.map = mapOf s.cfg s.arch s.latches) :
    (s.page7Port v).map = mapOf s.cfg s.arch (s.page7Port v).latches := by
  simp only [State.page7Port]; split
  · exact h
  · rfl

theorem State.page1Port_map {s : State} (v : Byte) (h : s.map = mapOf s.cfg s.arch s.latches) :
    (s.page1Port v).map = mapOf s.cfg s.arch (s.page1Port v).latches := by
  simp only [State.page1Port]; split
  · exact h
  · rfl

/-! ### Reading -/

theorem State.ulaRead_frame (s : State) (port : Word) :
    (s.ulaRead port).2 = { s with oracle := (s.ulaRead port).2.oracle, draws := (s.ulaRead port).2.draws } :=
  State.earTerm_frame s

/-- A row that answers moves the oracle, and the latches where it is the paging-port read; nothing else. -/
theorem InRow.read_frame (r : InRow) (port : Word) (s : State) :
    (r.read port s).2 =
      { s with
        oracle := (r.read port s).2.oracle
        draws := (r.read port s).2.draws
        latches := (r.read port s).2.latches
        map := (r.read port s).2.map } := by
  cases r with
  | ula => simp only [InRow.read]; rw [s.ulaRead_frame port]
  | trdos q => simp only [InRow.read]; rw [s.ask_frame]
  | mouse q => simp only [InRow.read]; rw [s.ask_frame]
  | ay => simp only [InRow.read]; rw [s.ask_frame]
  | page7 => simp only [InRow.read]; rw [s.page7Port_frame]
  | kempston => rfl
  | fuller => rfl
  | floatBus => rfl

/-- Only the paging-port read writes latches (R160). -/
theorem InRow.read_latches {r : InRow} (port : Word) (s : State) (h : r ≠ .page7) :
    (r.read port s).2.latches = s.latches ∧ (r.read port s).2.map = s.map := by
  cases r with
  | ula => simp only [InRow.read]; rw [s.ulaRead_frame port]; exact ⟨rfl, rfl⟩
  | trdos q => simp only [InRow.read]; rw [s.ask_frame]; exact ⟨rfl, rfl⟩
  | mouse q => simp only [InRow.read]; rw [s.ask_frame]; exact ⟨rfl, rfl⟩
  | ay => simp only [InRow.read]; rw [s.ask_frame]; exact ⟨rfl, rfl⟩
  | page7 => exact absurd rfl h
  | kempston => exact ⟨rfl, rfl⟩
  | fuller => exact ⟨rfl, rfl⟩
  | floatBus => exact ⟨rfl, rfl⟩

/-- The whole of what a list of rows can change. -/
theorem readRows_frame (rows : List InRow) (port : Word) (s : State) :
    (readRows rows port s).2 =
      { s with
        oracle := (readRows rows port s).2.oracle
        draws := (readRows rows port s).2.draws
        latches := (readRows rows port s).2.latches
        map := (readRows rows port s).2.map } := by
  induction rows with
  | nil => rfl
  | cons r rs ih =>
    simp only [readRows]
    split
    · exact r.read_frame port s
    · exact ih

/-- The first row that takes the address answers (R165). -/
theorem readRows_of_takes {pre post : List InRow} {r : InRow} {port : Word} {s : State}
    (hpre : ∀ q ∈ pre, q.takes port s = false) (hr : r.takes port s = true) :
    readRows (pre ++ r :: post) port s = r.read port s := by
  induction pre with
  | nil => simp [readRows, hr]
  | cons q pre ih =>
    simp only [List.cons_append, readRows, hpre q List.mem_cons_self, Bool.false_eq_true, if_false]
    exact ih fun q hq => hpre q (List.mem_cons_of_mem _ hq)

/-- Some row answers and the rows before it do not take the address, or none does and the bus floats. -/
theorem readRows_cases (rows : List InRow) (port : Word) (s : State) :
    (∃ r ∈ rows, r.takes port s = true ∧ readRows rows port s = r.read port s) ∨
      readRows rows port s = (s.floatBus, s) := by
  induction rows with
  | nil => exact .inr rfl
  | cons q rs ih =>
    by_cases h : q.takes port s = true
    · exact .inl ⟨q, List.mem_cons_self, h, by simp only [readRows, h, if_true]⟩
    · simp only [readRows, if_neg h]
      exact ih.imp (fun ⟨r, hr, h1, h2⟩ => ⟨r, List.mem_cons_of_mem _ hr, h1, h2⟩) id

/-- A port read leaves the derived map equal to what `Remap()` computes. -/
theorem readRows_map (rows : List InRow) (port : Word) {s : State} (h : s.map = mapOf s.cfg s.arch s.latches) :
    (readRows rows port s).2.map = mapOf s.cfg s.arch (readRows rows port s).2.latches := by
  rcases readRows_cases rows port s with ⟨r, _, _, e⟩ | e
  · rw [e]
    by_cases hr : r = .page7
    · subst hr; exact State.page7Port_map _ h
    · rw [(InRow.read_latches port s hr).1, (InRow.read_latches port s hr).2]; exact h
  · rw [e]; exact h

/-- The input rows whose pattern an odd address has a row of its own in are tried in the order of R99. -/
theorem rowsFrom_head (r : InRow) (h : r ∈ oddRows) : ∃ post, rowsFrom r = r :: post := by
  cases r with
  | ula => simp [oddRows] at h
  | trdos q => cases q <;> exact ⟨_, rfl⟩
  | mouse q => cases q <;> exact ⟨_, rfl⟩
  | kempston => exact ⟨_, rfl⟩
  | fuller => exact ⟨_, rfl⟩
  | ay => exact ⟨_, rfl⟩
  | page7 => exact ⟨_, rfl⟩
  | floatBus => exact ⟨_, rfl⟩

/-! ### Writing -/

theorem State.ulaWrite_frame (s : State) (v : Byte) :
    s.ulaWrite v = { s with port254 := v, events := (s.ulaWrite v).events } := by
  simp only [State.ulaWrite]; split <;> split <;> rfl

/-- The events of a ULA write (R193, R194). -/
theorem State.ulaWrite_events (s : State) (v : Byte) :
    (s.ulaWrite v).events =
      s.events ++
        (if v.extractLsb' 0 3 ≠ s.port254.extractLsb' 0 3 then [Event.borderChange s.tick (v.extractLsb' 0 3)] else []) ++
        (if s.cfg.turbo then [] else [Event.beeper s.tick (bit v 4) (bit v 3)]) := by
  simp only [State.ulaWrite]
  by_cases h : v.extractLsb' 0 3 ≠ s.port254.extractLsb' 0 3 <;> by_cases ht : s.cfg.turbo = true <;>
    simp only [h, ht, if_true, if_false, Bool.false_eq_true, ne_eq, not_false_eq_true] <;>
    simp [State.emit]

theorem State.zx81Write_frame (s : State) (port : Word) (v : Byte) :
    s.zx81Write port v = { s with ay := (s.zx81Write port v).ay, events := (s.zx81Write port v).events } := by
  simp only [State.zx81Write]; split <;> split <;> rfl

/-- No channel is selected twice (R199: a set). -/
theorem covoxChannels_nodup (cfg : Cfg) (port : Word) : (covoxChannels cfg port).Nodup := List.nodup_dedup _

/-- The channels a configuration's patterns select (R199). -/
theorem mem_covoxChannels {cfg : Cfg} {rows : List CovoxRow} (h : cfg.covox = some rows) (port : Word) (c : Nat) :
    c ∈ covoxChannels cfg port ↔
      ∃ r ∈ rows, r.mode = cfg.covoxMode ∧ port &&& r.mask = r.value ∧ r.channel = c := by
  simp only [covoxChannels, List.mem_dedup, covoxMatches, h, List.mem_map, List.mem_filter, Bool.and_eq_true, beq_iff_eq,
    and_assoc]

theorem emitAll_frame {α : Type} (l : List α) (f : α → Event) (s : State) :
    l.foldl (fun t c => t.emit (f c)) s = { s with events := s.events ++ l.map f } := by
  induction l generalizing s with
  | nil => simp
  | cons c l ih => rw [List.foldl_cons, ih]; simp [State.emit]

/-- One event per selected channel, and nothing else (R199). -/
theorem State.covoxWrite_eq (s : State) (port : Word) (v : Byte) :
    s.covoxWrite port v =
      { s with events := s.events ++ (covoxChannels s.cfg port).map (fun c => Event.covoxWrite c v) } :=
  emitAll_frame _ _ s

/-- A row that acts writes the ULA latch, the AY image, the paging latches and the event stream; nothing else. -/
theorem OutRow.write_frame (r : OutRow) (port : Word) (v : Byte) (s : State) :
    r.write port v s =
      { s with
        port254 := (r.write port v s).port254
        events := (r.write port v s).events
        ay := (r.write port v s).ay
        latches := (r.write port v s).latches
        map := (r.write port v s).map } := by
  simp only [OutRow.write]
  split
  · cases r with
    | ula => simp only [OutRow.act]; rw [s.ulaWrite_frame v]
    | ayZx81 => simp only [OutRow.act]; rw [s.zx81Write_frame port v]
    | fullerSel => rfl
    | fullerDat => rfl
    | aySel => rfl
    | ayDat => rfl
    | covox => simp only [OutRow.act, State.covoxWrite_eq]
    | trdos q => rfl
    | page7 => simp only [OutRow.act]; rw [s.page7Port_frame v]
    | page7Plus2A => simp only [OutRow.act]; rw [s.page7Port_frame v]
    | page1Plus2A => simp only [OutRow.act]; rw [s.page1Port_frame v]
  · rfl

/-- The events a row emits follow the ones already there. -/
theorem OutRow.write_events (r : OutRow) (port : Word) (v : Byte) (s : State) :
    ∃ l, (r.write port v s).events = s.events ++ l := by
  simp only [OutRow.write]
  split
  · cases r with
    | ula => exact ⟨_, by simp only [OutRow.act, State.ulaWrite_events, List.append_assoc]; rfl⟩
    | ayZx81 =>
      simp only [OutRow.act, State.zx81Write]
      split <;> split <;>
        first
        | exact ⟨_, rfl⟩
        | exact ⟨[], (List.append_nil _).symm⟩
        | exact ⟨_, List.append_assoc _ _ _⟩
    | fullerSel => exact ⟨_, rfl⟩
    | fullerDat => exact ⟨_, rfl⟩
    | aySel => exact ⟨_, rfl⟩
    | ayDat => exact ⟨_, rfl⟩
    | covox => exact ⟨_, by simp only [OutRow.act, State.covoxWrite_eq]; rfl⟩
    | trdos q => exact ⟨_, rfl⟩
    | page7 => exact ⟨[], by simp only [OutRow.act]; rw [s.page7Port_frame v]; simp⟩
    | page7Plus2A => exact ⟨[], by simp only [OutRow.act]; rw [s.page7Port_frame v]; simp⟩
    | page1Plus2A => exact ⟨[], by simp only [OutRow.act]; rw [s.page1Port_frame v]; simp⟩
  · exact ⟨[], (List.append_nil _).symm⟩

/-- A row leaves the derived map equal to what `Remap()` computes. -/
theorem OutRow.write_map (r : OutRow) (port : Word) (v : Byte) {s : State} (h : s.map = mapOf s.cfg s.arch s.latches) :
    (r.write port v s).map = mapOf s.cfg s.arch (r.write port v s).latches := by
  simp only [OutRow.write]
  split
  · cases r with
    | ula => simp only [OutRow.act]; rw [s.ulaWrite_frame v]; exact h
    | ayZx81 => simp only [OutRow.act]; rw [s.zx81Write_frame port v]; exact h
    | fullerSel => exact h
    | fullerDat => exact h
    | aySel => exact h
    | ayDat => exact h
    | covox => simp only [OutRow.act, State.covoxWrite_eq]; exact h
    | trdos q => exact h
    | page7 => exact State.page7Port_map v h
    | page7Plus2A => exact State.page7Port_map v h
    | page1Plus2A => exact State.page1Port_map v h
  · exact h

/-- The whole of what a list of output rows can change. -/
theorem writeRows_frame (rows : List OutRow) (port : Word) (v : Byte) (s : State) :
    writeRows rows port v s =
      { s with
        port254 := (writeRows rows port v s).port254
        events := (writeRows rows port v s).events
        ay := (writeRows rows port v s).ay
        latches := (writeRows rows port v s).latches
        map := (writeRows rows port v s).map } := by
  induction rows generalizing s with
  | nil => rfl
  | cons r rs ih =>
    have e : writeRows (r :: rs) port v s = writeRows rs port v (r.write port v s) := rfl
    rw [e, ih (r.write port v s), r.write_frame port v s]

theorem writeRows_events (rows : List OutRow) (port : Word) (v : Byte) (s : State) :
    ∃ l, (writeRows rows port v s).events = s.events ++ l := by
  induction rows generalizing s with
  | nil => exact ⟨[], (List.append_nil _).symm⟩
  | cons r rs ih =>
    obtain ⟨l, hl⟩ := ih (r.write port v s)
    obtain ⟨k, hk⟩ := r.write_events port v s
    exact ⟨k ++ l, by rw [← List.append_assoc, ← hk]; exact hl⟩

theorem writeRows_map (rows : List OutRow) (port : Word) (v : Byte) {s : State}
    (h : s.map = mapOf s.cfg s.arch s.latches) :
    (writeRows rows port v s).map = mapOf s.cfg s.arch (writeRows rows port v s).latches := by
  induction rows generalizing s with
  | nil => exact h
  | cons r rs ih =>
    have e : writeRows (r :: rs) port v s = writeRows rs port v (r.write port v s) := rfl
    have hf := r.write_frame port v s
    have := ih (s := r.write port v s) (by rw [show (r.write port v s).cfg = s.cfg by rw [hf],
      show (r.write port v s).arch = s.arch by rw [hf]]; exact r.write_map port v h)
    rw [e, this, show (r.write port v s).cfg = s.cfg by rw [hf], show (r.write port v s).arch = s.arch by rw [hf]]

/-- A row that does not take the address does nothing (R191). -/
theorem OutRow.write_of_not_takes {r : OutRow} {port : Word} (v : Byte) {s : State} (h : r.takes port s = false) :
    r.write port v s = s := by simp only [OutRow.write, h, Bool.false_eq_true, if_false]

theorem OutRow.write_of_takes {r : OutRow} {port : Word} (v : Byte) {s : State} (h : r.takes port s = true) :
    r.write port v s = r.act port v s := by simp only [OutRow.write, h, if_true]

/-! ### All rows at once -/

/-- No row writes `trdosPaged` (R47). -/
theorem OutRow.write_trdos (r : OutRow) (port : Word) (v : Byte) (s : State) :
    (r.write port v s).latches.trdosPaged = s.latches.trdosPaged := by
  simp only [OutRow.write]
  split
  · cases r with
    | ula => simp only [OutRow.act]; rw [s.ulaWrite_frame v]
    | ayZx81 => simp only [OutRow.act]; rw [s.zx81Write_frame port v]
    | covox => simp only [OutRow.act, State.covoxWrite_eq]
    | page7 => simp only [OutRow.act, State.page7Port]; split <;> rfl
    | page7Plus2A => simp only [OutRow.act, State.page7Port]; split <;> rfl
    | page1Plus2A => simp only [OutRow.act, State.page1Port]; split <;> rfl
    | _ => rfl
  · rfl

/-- A row's condition reads nothing a row writes (R100). -/
theorem OutRow.takes_write (q r : OutRow) (port : Word) (v : Byte) (s : State) :
    q.takes port (r.write port v s) = q.takes port s := by
  have h := r.write_trdos port v s
  have hc : (r.write port v s).cfg = s.cfg := by rw [r.write_frame port v s]
  have ha : (r.write port v s).arch = s.arch := by rw [r.write_frame port v s]
  cases q <;> simp only [OutRow.takes, OutRow.enabled, h, hc, ha]

/-- The AY ports a row writes where it takes the address (R196, R197). -/
def OutRow.ayParts (r : OutRow) (cfg : Cfg) (port : Word) : List AyPart :=
  match r with
  | .ayZx81 =>
    (if loByte port = cfg.ayZx81Sel then [.select] else []) ++ (if loByte port = cfg.ayZx81Dat then [.data] else [])
  | .fullerSel | .aySel => [.select]
  | .fullerDat | .ayDat => [.data]
  | .ula | .covox | .trdos _ | .page7 | .page7Plus2A | .page1Plus2A => []

/-- The image after one AY write (R196). -/
def Ay.put (v : Byte) (a : Ay) : AyPart → Ay
  | .select => { a with sel := v }
  | .data => { a with reg := a.reg.setIfInBounds (a.sel.toNat % 16) v }

/-- The events a row other than the ULA emits where it takes the address (R196 to R200). -/
def OutRow.emits (r : OutRow) (cfg : Cfg) (port : Word) (v : Byte) : List Event :=
  (r.ayParts cfg port).map (fun w => Event.ayWrite w v) ++
    match r with
    | .covox => (covoxChannels cfg port).map fun c => .covoxWrite c v
    | .trdos q => [.trdosWrite q v]
    | .ula | .ayZx81 | .fullerSel | .fullerDat | .aySel | .ayDat | .page7 | .page7Plus2A | .page1Plus2A => []

theorem OutRow.write_ay (r : OutRow) (port : Word) (v : Byte) (s : State) :
    (r.write port v s).ay = (if r.takes port s then r.ayParts s.cfg port else []).foldl (Ay.put v) s.ay := by
  simp only [OutRow.write]
  split
  · cases r with
    | ula => simp only [OutRow.act]; rw [s.ulaWrite_frame v]; rfl
    | ayZx81 =>
      simp only [OutRow.act, State.zx81Write, OutRow.ayParts]
      split <;> split <;> rfl
    | covox => simp only [OutRow.act, State.covoxWrite_eq]; rfl
    | page7 => simp only [OutRow.act]; rw [s.page7Port_frame v]; rfl
    | page7Plus2A => simp only [OutRow.act]; rw [s.page7Port_frame v]; rfl
    | page1Plus2A => simp only [OutRow.act]; rw [s.page1Port_frame v]; rfl
    | _ => rfl
  · rfl

theorem OutRow.write_emits {r : OutRow} (hr : r ≠ .ula) (port : Word) (v : Byte) (s : State) :
    (r.write port v s).events = s.events ++ (if r.takes port s then r.emits s.cfg port v else []) := by
  simp only [OutRow.write]
  split
  · cases r with
    | ula => exact absurd rfl hr
    | ayZx81 =>
      simp only [OutRow.act, State.zx81Write, OutRow.emits, OutRow.ayParts]
      split <;> split <;> simp [State.aySelect, State.ayData, State.emit]
    | covox => simp only [OutRow.act, State.covoxWrite_eq]; rfl
    | page7 => simp only [OutRow.act]; rw [s.page7Port_frame v]; exact (List.append_nil _).symm
    | page7Plus2A => simp only [OutRow.act]; rw [s.page7Port_frame v]; exact (List.append_nil _).symm
    | page1Plus2A => simp only [OutRow.act]; rw [s.page1Port_frame v]; exact (List.append_nil _).symm
    | _ => rfl
  · exact (List.append_nil _).symm

/-- The AY image after a list of rows: every row that takes the address writes it, in order (R191). -/
theorem writeRows_ay (rows : List OutRow) (port : Word) (v : Byte) (s : State) :
    (writeRows rows port v s).ay =
      (rows.flatMap fun r => if r.takes port s then r.ayParts s.cfg port else []).foldl (Ay.put v) s.ay := by
  induction rows generalizing s with
  | nil => rfl
  | cons r rs ih =>
    have e : writeRows (r :: rs) port v s = writeRows rs port v (r.write port v s) := rfl
    have hc : (r.write port v s).cfg = s.cfg := by rw [r.write_frame port v s]
    rw [e, ih, r.write_ay port v s, hc]
    simp only [OutRow.takes_write, List.flatMap_cons, List.foldl_append]

/-- The events of a list of rows without the ULA: every row that takes the address emits its own, in order (R191). -/
theorem writeRows_emits (rows : List OutRow) (hr : OutRow.ula ∉ rows) (port : Word) (v : Byte) (s : State) :
    (writeRows rows port v s).events =
      s.events ++ rows.flatMap fun r => if r.takes port s then r.emits s.cfg port v else [] := by
  induction rows generalizing s with
  | nil => exact (List.append_nil _).symm
  | cons r rs ih =>
    have e : writeRows (r :: rs) port v s = writeRows rs port v (r.write port v s) := rfl
    have hc : (r.write port v s).cfg = s.cfg := by rw [r.write_frame port v s]
    have h1 : r ≠ .ula := fun h => hr (h ▸ List.mem_cons_self)
    rw [e, ih (fun h => hr (List.mem_cons_of_mem _ h)), OutRow.write_emits h1 port v s, hc]
    simp only [OutRow.takes_write, List.flatMap_cons, List.append_assoc]

end Sys2Proof.Machine
end

