-- ==== Sys2Proof/Laws/Exec.lean ====
section
/-! SUPPORT. The forms an execution and a fetch can take, said once, so that a statement about every instruction is a case
analysis over a score of forms. -/

namespace Sys2Proof.Machine

/-- The forms of `exec i s`, with what each says of the instruction. -/
inductive ExecForm (s : State) : Instr → Result → Prop where
  | rdb (addr : Word) : ExecForm s (.rdb addr) (execRdb addr s)
  | wrb (addr : Word) (v : Byte) : ExecForm s (.wrb addr v) (execWrb addr v s)
  | rdw (addr : Word) : ExecForm s (.rdw addr) (execRdw addr s)
  | wrw (addr v : Word) : ExecForm s (.wrw addr v) (execWrw addr v s)
  | tick (n : Nat) : ExecForm s (.tick n) (execTick n s)
  | reset : ExecForm s .reset (execReset s)
  | cheatLoad : ExecForm s .cheatLoad (execCheatLoad s)
  | cheatApply : ExecForm s .cheatApply (execCheatApply s)
  | cheatFetch : ExecForm s .cheatFetch (execCheatFetch s)
  | cheatClose : ExecForm s .cheatClose (execCheatClose s)
  | pd7 (v : Byte) : ExecForm s (.pd7 v) (execPd7 v s)
  | pd1 (v : Byte) : ExecForm s (.pd1 v) (execPd1 v s)
  | pdu (v : Byte) : ExecForm s (.pdu v) (execPdu v s)
  | z80Block (len : Word) (id : Byte) (data : List Byte) :
      ExecForm s (.z80Block len id data) (execZ80Block len id data s)
  | refused (slot : Byte) : ExecForm s (.reserved slot) (.refused .reservedSlot)
  /-- A port read offered to a list of rows. -/
  | reads (i : Instr) (rows : List InRow) (port : Word) (ha : i.agent = .cpu) (hp : i.inPort? = some port) :
      ExecForm s i (inpRows rows port s)
  /-- A port write offered to a list of rows. -/
  | writes (i : Instr) (rows : List OutRow) (port : Word) (v : Byte) (ha : i.agent = .cpu)
      (hp : i.outPort? = some port) : ExecForm s i (outpRows rows port v s)
  /-- An operation that only answers. -/
  | answers (i : Instr) (a : Answer) (ha : i.agent = .snap) : ExecForm s i (.next (s.give a))
  /-- A `.pok` line. -/
  | line (i : Instr) (l : List Byte) (ha : i.agent = .cheat) : ExecForm s i (.next ((s.fillLine l).give .none))
  /-- An SNA file that passes its size check. -/
  | sna (i : Instr) (v : SnaVariant) (f : List Byte) (ha : i.agent = .snap) (hf : f.length = v.size) :
      ExecForm s i (loadOn (snaArch v s) (snaPart v f) s)
  /-- A Z80 file that passes its version and machine checks. -/
  | z80 (i : Instr) (v : Z80Ver) (f : List Byte) (target : Arch) (ha : i.agent = .snap)
      (ht : z80Arch v f s = .ok target) : ExecForm s i (loadOn target (z80Part v f) s)
  /-- An SP file that passes its checks. -/
  | sp (i : Instr) (rom : Bool) (f : List Byte) (ha : i.agent = .snap) (hr : i = .loadSp ∨ (∃ g, i = .spWithRom g) ∨ rom = false) :
      ExecForm s i (loadOn (spArch s) (spPart rom f) s)

theorem loadSnaAs_form {i : Instr} (ha : i.agent = .snap) (v : SnaVariant) (f : List Byte) (s : State) :
    ExecForm s i (loadSnaAs v f s) := by
  simp only [loadSnaAs]
  split
  · next h => exact .sna i v f ha h
  · exact .answers i _ ha

theorem loadSnaFile_form {i : Instr} (ha : i.agent = .snap) (f : List Byte) (s : State) :
    ExecForm s i (loadSnaFile f s) := by
  simp only [loadSnaFile]
  split
  · exact loadSnaAs_form ha _ f s
  · exact .answers i _ ha

theorem loadZ80At_form {i : Instr} (ha : i.agent = .snap) (v : Z80Ver) (f : List Byte) (s : State) :
    ExecForm s i (loadZ80At v f s) := by
  simp only [loadZ80At]
  split
  · exact .answers i _ ha
  · next h => exact .z80 i v f _ ha h

theorem loadZ80File_form {i : Instr} (ha : i.agent = .snap) (f : List Byte) (s : State) :
    ExecForm s i (loadZ80File f s) := by
  simp only [loadZ80File]
  split
  · exact .answers i _ ha
  · split
    · exact .answers i _ ha
    · exact loadZ80At_form ha _ f s

theorem loadZ80As_form {i : Instr} (ha : i.agent = .snap) (v : Z80Ver) (f : List Byte) (s : State) :
    ExecForm s i (loadZ80As v f s) := by
  simp only [loadZ80As]
  split
  · exact .answers i _ ha
  · split
    · exact .answers i _ ha
    · split
      · exact loadZ80At_form ha _ f s
      · exact .answers i _ ha

theorem loadSpFile_form (f : List Byte) (s : State) : ExecForm s .loadSp (loadSpFile f s) := by
  simp only [loadSpFile]
  split
  · exact .answers _ _ rfl
  · exact .sp _ _ f rfl (.inl rfl)

theorem loadSpAs_form {i : Instr} (ha : i.agent = .snap) (rom : Bool) (f : List Byte)
    (hr : i = .loadSp ∨ (∃ g, i = .spWithRom g) ∨ rom = false) (s : State) : ExecForm s i (loadSpAs rom f s) := by
  simp only [loadSpAs]
  split
  · exact .answers i _ ha
  · split
    · exact .sp i rom f ha hr
    · exact .answers i _ ha

/-- Every execution has one of the forms. -/
theorem exec_form (i : Instr) (s : State) : ExecForm s i (exec i s) := by
  cases i with
  | rdb addr => exact .rdb addr
  | wrb addr v => exact .wrb addr v
  | rdw addr => exact .rdw addr
  | wrw addr v => exact .wrw addr v
  | inp port => exact .reads _ _ port rfl rfl
  | outp port v => exact .writes _ _ port v rfl rfl
  | tick n => exact .tick n
  | reset => exact .reset
  | loadSna =>
    simp only [exec, execLoadSna]
    split
    · exact loadSnaFile_form rfl _ s
    · exact loadSnaFile_form rfl _ s
  | saveSna => exact .answers _ _ rfl
  | loadZ80 =>
    simp only [exec, execLoadZ80]
    split
    · exact loadZ80File_form rfl _ s
    · exact loadZ80File_form rfl _ s
  | saveZ80 => exact .answers _ _ rfl
  | loadSp =>
    simp only [exec, execLoadSp]
    split
    · exact loadSpFile_form _ s
    · exact loadSpFile_form _ s
  | cheatLoad => exact .cheatLoad
  | cheatApply => exact .cheatApply
  | cheatFetch => exact .cheatFetch
  | cheatClose => exact .cheatClose
  | reserved slot => exact .refused slot
  | inpUla port => exact .reads _ _ port rfl rfl
  | inpTrdosStatus port => exact .reads _ _ port rfl rfl
  | inpTrdosTrack port => exact .reads _ _ port rfl rfl
  | inpTrdosSector port => exact .reads _ _ port rfl rfl
  | inpTrdosData port => exact .reads _ _ port rfl rfl
  | inpTrdosSystem port => exact .reads _ _ port rfl rfl
  | inpMouseX port => exact .reads _ _ port rfl rfl
  | inpMouseY port => exact .reads _ _ port rfl rfl
  | inpMouseButtons port => exact .reads _ _ port rfl rfl
  | inpKempston port => exact .reads _ _ port rfl rfl
  | inpFuller port => exact .reads _ _ port rfl rfl
  | inpAy port => exact .reads _ _ port rfl rfl
  | inpPage7Read port => exact .reads _ _ port rfl rfl
  | inpFloatBus port => exact .reads _ _ port rfl rfl
  | outpUla port v => exact .writes _ _ port v rfl rfl
  | outpAyZx81 port v => exact .writes _ _ port v rfl rfl
  | outpAyFullerSel port v => exact .writes _ _ port v rfl rfl
  | outpAyFullerDat port v => exact .writes _ _ port v rfl rfl
  | outpAySel port v => exact .writes _ _ port v rfl rfl
  | outpAyDat port v => exact .writes _ _ port v rfl rfl
  | outpCovox port v => exact .writes _ _ port v rfl rfl
  | outpTrdosCommand port v => exact .writes _ _ port v rfl rfl
  | outpTrdosTrack port v => exact .writes _ _ port v rfl rfl
  | outpTrdosSector port v => exact .writes _ _ port v rfl rfl
  | outpTrdosData port v => exact .writes _ _ port v rfl rfl
  | outpTrdosSystem port v => exact .writes _ _ port v rfl rfl
  | outpPage7 port v => exact .writes _ _ port v rfl rfl
  | outpPage7Plus2A port v => exact .writes _ _ port v rfl rfl
  | outpPage1Plus2A port v => exact .writes _ _ port v rfl rfl
  | pd7 v => exact .pd7 v
  | pd1 v => exact .pd1 v
  | pdu v => exact .pdu v
  | snaS48 f => exact loadSnaAs_form rfl _ f s
  | snaS128a f => exact loadSnaAs_form rfl _ f s
  | snaS128b f => exact loadSnaAs_form rfl _ f s
  | snaS2A3a f => exact loadSnaAs_form rfl _ f s
  | snaS2A3b f => exact loadSnaAs_form rfl _ f s
  | z80V1 f => exact loadZ80As_form rfl _ f s
  | z80V2 f => exact loadZ80As_form rfl _ f s
  | z80V3 f => exact loadZ80As_form rfl _ f s
  | z80Block len id data => exact .z80Block len id data
  | z80V1Terminator body => exact .answers _ _ rfl
  | rleEscape c v => exact .answers _ _ rfl
  | rleEscapeCount0 v => exact .answers _ _ rfl
  | spNoRom f => exact loadSpAs_form rfl false f (.inr (.inr rfl)) s
  | spWithRom f => exact loadSpAs_form rfl true f (.inr (.inl ⟨f, rfl⟩)) s
  | pokN rest => exact .line _ _ rfl
  | pokM rest => exact .line _ _ rfl
  | pokZ rest => exact .line _ _ rfl

/-- A row of an input channel is a CPU item (R8). -/
theorem inRowInstr_agent (r : InRow) (port : Word) : (inRowInstr r port).agent = .cpu := by
  rcases r with _ | q | a | _ | _ | _ | _ | _ <;> first | rfl | (cases q <;> rfl) | (cases a <;> rfl)

/-- A row of an output channel is a CPU item (R8). -/
theorem outRowInstr_agent (r : OutRow) (port : Word) (v : Byte) : (outRowInstr r port v).agent = .cpu := by
  rcases r with _ | _ | _ | _ | _ | _ | _ | q | _ | _ | _ <;> first | rfl | (cases q <;> rfl)

/-- An item comes from the environment's list, between CPU steps. -/
theorem fetch_item {s t : State} {ch : Channel} {bytes : List Byte} (h : fetch s = .item ch bytes t) :
    ∃ rest, s.cpu = none ∧ s.agenda = .issue ch bytes :: rest ∧ t = { s with agenda := rest } := by
  unfold fetch at h
  split at h
  · cases h
  · split at h
    · unfold State.goOnCpu at h
      split at h
      · cases h
      · split at h <;> cases h
    · next hc =>
      split at h
      · cases h
      · next rest ha => cases h; exact ⟨rest, hc, ha, rfl⟩
      · unfold State.beginCpu at h; split at h <;> cases h
      · cases h
      · cases h

/-- A call comes from the CPU step in progress. -/
theorem fetch_call {s t : State} {op : BusOp} (h : fetch s = .call op t) :
    ∃ answers, s.cpu = some answers ∧ s.failed = false ∧ cpuStep s.regs answers = .transact op ∧ t = s := by
  unfold fetch at h
  split at h
  · cases h
  · split at h
    · next answers hc =>
      unfold State.goOnCpu at h
      split at h
      · cases h
      · next hf =>
        split at h
        · next ho => cases h; exact ⟨answers, hc, by simpa using hf, ho, rfl⟩
        · cases h
    · split at h
      · cases h
      · cases h
      · unfold State.beginCpu at h; split at h <;> cases h
      · cases h
      · cases h

/-- A step that issues no instruction: a CPU step begins or ends, a `HOST` write, or the end of a `.pok` file. -/
theorem fetch_done {s t : State} (h : fetch s = .done t) :
    (∃ agenda, t = { s with agenda := agenda, cpu := some [] }) ∨ (∃ r, t = { s with regs := r, cpu := none }) ∨
      (∃ a rest, s.cpu = none ∧ s.agenda = .host a :: rest ∧ t = a.apply { s with agenda := rest }) ∨
      ∃ rest, s.cpu = none ∧ s.agenda = .pokEnd :: rest ∧ t = ({ s with agenda := rest }).fillEnd := by
  unfold fetch at h
  split at h
  · cases h
  · split at h
    · unfold State.goOnCpu at h
      split at h
      · cases h
      · split at h
        · cases h
        · cases h; exact .inr (.inl ⟨_, rfl⟩)
    · next hc =>
      split at h
      · cases h
      · cases h
      · next rest _ =>
        unfold State.beginCpu at h
        split at h
        · cases h
        · cases h; exact .inl ⟨rest, rfl⟩
      · next a rest ha => cases h; exact .inr (.inr (.inl ⟨a, rest, hc, ha, rfl⟩))
      · next rest ha => cases h; exact .inr (.inr (.inr ⟨rest, hc, ha, rfl⟩))

/-- An issued instruction that answers a next state ran, and its answer was noted. -/
theorem issue_next {i : Instr} {s t : State} (h : issue i s = .next t) :
    ∃ w, exec i s = .next w ∧ t = { w with cpu := w.cpu.map (fun l : List Answer => l ++ [w.answer]) } := by
  unfold issue at h
  split at h
  · cases h
  · cases hx : exec i s with
    | next w => rw [hx] at h; cases h; exact ⟨w, rfl, rfl⟩
    | fault f => rw [hx] at h; cases h
    | refused r => rw [hx] at h; cases h

/-- An SNA file the decoder reads as no variant is refused before any state is changed (R251, R362). -/
theorem loadSnaFile_other {f : List Byte} {r : Reject} (h : decodeSna f = .error r) (s : State) :
    loadSnaFile f s = .next (s.earlyFailure .badSize) := by
  cases e : snaVariant f.length with
  | some v => simp only [decodeSna, e] at h; cases h
  | none => simp only [loadSnaFile, e]

/-- A Z80 file the decoder reads as no version is refused before any state is changed (R280, R281, R362). -/
theorem loadZ80File_other {f : List Byte} {r : Reject} (h : decodeZ80 f = .error r) (s : State) :
    loadZ80File f s = .next (s.earlyFailure (if f.length < 32 then .badSize else .unknownVersion)) := by
  unfold decodeZ80 at h
  unfold loadZ80File
  split at h
  · next hl => rw [if_pos hl, if_pos (by omega)]
  · next hl =>
    rw [if_neg hl]
    split at h
    · cases h
    · next e he =>
      rw [he]
      unfold z80Version at he
      split at he
      · cases he
      · split at he
        · next h32 => cases he; rw [if_pos h32]
        · next h32 =>
          rw [if_neg h32]
          split at he
          · cases he
          · split at he <;> cases he
            rfl

/-- An SP file the decoder reads as no variant is refused before any state is changed (R320, R326). -/
theorem loadSpFile_other {f : List Byte} {r : Reject} (h : decodeSp f = .error r) (s : State) :
    ∃ q, spKind f = .error q ∧ loadSpFile f s = .next (s.earlyFailure q) := by
  cases e : spKind f with
  | ok b => simp only [decodeSp, e] at h; cases b <;> cases h
  | error q => exact ⟨q, rfl, by simp only [loadSpFile, e]⟩

/-- Everything bytes that are no row of their channel can do (log 41): a port access its row declines, an answer alone, the
blocks of a block string, or the lines of a `.pok` text. -/
inductive OtherForm (ch : Channel) (s : State) : State → Prop where
  | port (i : Instr) (w : State) (ha : i.agent = .cpu) (hw : exec i s = .next w) :
      OtherForm ch s { w with cpu := w.cpu.map (fun l : List Answer => l ++ [w.answer]) }
  | answer (a : Answer) : OtherForm ch s (s.give a)
  | blocks (hc : ch = .z80Block) (bytes : List Byte) (t : State) (h : loadZ80Blocks bytes.length bytes s = .ok t) :
      OtherForm ch s (t.give .loaded)
  | cutOff (hc : ch = .z80Block) (mem : List Host.Cell) (hm : Memory.wf s.mem → Memory.wf mem) :
      OtherForm ch s (({ s with mem := mem }).lateFailure .truncated)
  | lines (hc : ch = .pokLine) (bytes : List Byte) :
      OtherForm ch s (((pokLines bytes).foldl State.fillLine s).give .none)

theorem issueOther_form {ch : Channel} {bytes : List Byte} {r : Reject} {s t : State} (hd : decode ch bytes = .error r)
    (h : issueOther ch bytes r s = .next t) : OtherForm ch s t := by
  unfold issueOther at h
  split at h
  · next row lo hi =>
    obtain ⟨w, hw, rfl⟩ := issue_next h
    exact .port _ w (inRowInstr_agent _ _) hw
  · next row lo hi v =>
    obtain ⟨w, hw, rfl⟩ := issue_next h
    exact .port _ w (outRowInstr_agent _ _ _) hw
  · rw [loadSnaFile_other hd] at h; cases h; exact .answer _
  · rw [loadZ80File_other hd] at h; cases h; exact .answer _
  · obtain ⟨q, _, e⟩ := loadSpFile_other hd s
    rw [e] at h; cases h; exact .answer _
  · unfold loadBlocksOf at h
    have hf := loadZ80Blocks_frame bytes.length bytes s
    have hl := loadZ80Blocks_loads bytes.length bytes s
    split at h
    · next u e => cases h; exact .blocks rfl _ u e
    · next q u e =>
      cases h
      obtain ⟨hq, hu⟩ := Prod.mk.inj (hf.2 _ e)
      rw [e] at hl
      rw [hq, hu]
      exact .cutOff rfl u.mem hl.memOk
  · cases h; exact .answer _
  · cases h; exact .answer _
  · cases h; exact .lines rfl _
  all_goals cases h

/-- A step at an item whose bytes are no row of its channel is the effect of those bytes. -/
theorem step_other {s : State} {ch : Channel} {bytes : List Byte} {rest : List AgendaItem} {r : Reject}
    (ha : s.cfg.allocOk = true) (hc : s.cpu = none) (hg : s.agenda = .issue ch bytes :: rest)
    (hd : decode ch bytes = .error r) : step s = issueOther ch bytes r { s with agenda := rest } := by
  have hf : fetch s = .item ch bytes { s with agenda := rest } := by
    unfold fetch; rw [if_neg (by simp [ha]), hc, hg]
  unfold step; rw [hf]; simp only [hd]

/-- A step that answers a next state: a fetch that issues nothing; an execution, with its answer noted, of what the CPU
step in progress asks for or of the item at the head of the environment's list; or the effect of an item whose bytes are no
row of its channel. -/
theorem step_next {s t : State} (h : step s = .next t) :
    fetch s = .done t ∨
      (∃ i u w,
        ((∃ answers op, s.cpu = some answers ∧ s.failed = false ∧ cpuStep s.regs answers = .transact op ∧
            i = busInstr op ∧ u = s) ∨
          ∃ ch bytes rest, s.cpu = none ∧ s.agenda = .issue ch bytes :: rest ∧ decode ch bytes = .ok i ∧
            u = { s with agenda := rest }) ∧
        exec i u = .next w ∧ t = { w with cpu := w.cpu.map (fun l : List Answer => l ++ [w.answer]) }) ∨
      ∃ ch bytes rest r, s.cpu = none ∧ s.agenda = .issue ch bytes :: rest ∧ decode ch bytes = .error r ∧
        OtherForm ch { s with agenda := rest } t := by
  unfold step at h
  split at h
  · cases h
  · next e => cases h; exact .inl e
  · next op u e =>
    obtain ⟨answers, hc, hf, ho, rfl⟩ := fetch_call e
    obtain ⟨w, hw, ht⟩ := issue_next h
    exact .inr (.inl ⟨_, _, w, .inl ⟨answers, op, hc, hf, ho, rfl, rfl⟩, hw, ht⟩)
  · next ch bytes u e =>
    obtain ⟨rest, hc, ha, rfl⟩ := fetch_item e
    split at h
    · next r hr => exact .inr (.inr ⟨ch, bytes, rest, r, hc, ha, hr, issueOther_form hr h⟩)
    · next i hi =>
      obtain ⟨w, hw, ht⟩ := issue_next h
      exact .inr (.inl ⟨i, _, w, .inr ⟨ch, bytes, rest, hc, ha, hi, rfl⟩, hw, ht⟩)

/-- Every CPU step ends, whatever its transactions answer (R122, R123). -/
theorem moveAfter_ends (p : CpuProgram) (answers : Nat → Answer) :
    ∃ n r, moveAfter p ((List.range n).map answers) = .ends r := by
  induction p generalizing answers with
  | ends r => exact ⟨0, r, rfl⟩
  | transact op next ih =>
    obtain ⟨n, r, h⟩ := ih (answers 0) (fun k => answers (k + 1))
    refine ⟨n + 1, r, ?_⟩
    rw [List.range_succ_eq_map, List.map_cons, List.map_map]
    exact h

/-- The end of a load: a loaded state with `failed` clear and the map recomputed, or a late failure. -/
theorem loadOn_next {target : Arch} {part : State → Loading} {s t : State} (h : loadOn target part s = .next t) :
    ∃ s1, (s1 = s ∧ target = s.arch ∨ s1 = s.powerOn target ∧ target ≠ s.arch) ∧
      ((∃ u, part s1.cheatClose = .ok u ∧ t = { u.remap with failed := false, answer := .loaded }) ∨
       ∃ r u, part s1.cheatClose = .error (r, u) ∧ t = u.lateFailure r) := by
  rcases loadOn_cases target part s with ⟨s1, h1, e⟩ | ⟨_, _, e⟩
  · rw [e] at h
    refine ⟨s1, h1, ?_⟩
    cases hp : part s1.cheatClose with
    | ok u => rw [hp] at h; cases h; exact .inl ⟨u, rfl, rfl⟩
    | error e =>
      obtain ⟨r, u⟩ := e
      rw [hp] at h; cases h; exact .inr ⟨r, u, rfl, rfl⟩
  · rw [e] at h; cases h

end Sys2Proof.Machine
end

