-- ==== Sys2Proof/Laws/PerInstr.lean ====
section
/-! SUPPORT. Statements about every instruction as syntax. `EncodedSize`: on a channel whose items have one size (a
transaction record, a port address, an address with a data byte, a data byte, an escape form; R90, R92, R93, R293, R115)
the encoder writes exactly that many bytes. -/

namespace Sys2Proof.Laws.EncodedSize

open Machine

/-- The size of an item of a channel whose items have one size. -/
def channelSize : Channel → Option Nat
  | .record => some 5
  | .portIn _ => some 2
  | .portOut _ => some 3
  | .dataPd7 | .dataPd1 | .dataPdu => some 1
  | .rle => some 4
  | .snaFile | .z80File | .z80Block | .z80Tail | .spFile | .pokLine => none

/-- The encoding has the size of its channel, where the channel has one. -/
def Statement (i : Instr) : Prop := ∀ n, channelSize (encode i).1 = some n → (encode i).2.length = n

/-- A channel without one size asks nothing. -/
theorem ofNone {n : Nat} {p : Prop} (h : (none : Option Nat) = some n) : p := nomatch h

theorem rdb (addr : Word) : Statement (.rdb addr) := fun _ h => Option.some.inj h

theorem wrb (addr : Word) (v : Byte) : Statement (.wrb addr v) := fun _ h => Option.some.inj h

theorem rdw (addr : Word) : Statement (.rdw addr) := fun _ h => Option.some.inj h

theorem wrw (addr : Word) (v : Word) : Statement (.wrw addr v) := fun _ h => Option.some.inj h

theorem inp (port : Word) : Statement (.inp port) := fun _ h => Option.some.inj h

theorem outp (port : Word) (v : Byte) : Statement (.outp port v) := fun _ h => Option.some.inj h

theorem tick (n : Nat) : Statement (.tick n) := fun _ h => Option.some.inj h

theorem reset : Statement (.reset) := fun _ h => Option.some.inj h

theorem loadSna : Statement (.loadSna) := fun _ h => Option.some.inj h

theorem saveSna : Statement (.saveSna) := fun _ h => Option.some.inj h

theorem loadZ80 : Statement (.loadZ80) := fun _ h => Option.some.inj h

theorem saveZ80 : Statement (.saveZ80) := fun _ h => Option.some.inj h

theorem loadSp : Statement (.loadSp) := fun _ h => Option.some.inj h

theorem cheatLoad : Statement (.cheatLoad) := fun _ h => Option.some.inj h

theorem cheatApply : Statement (.cheatApply) := fun _ h => Option.some.inj h

theorem cheatFetch : Statement (.cheatFetch) := fun _ h => Option.some.inj h

theorem cheatClose : Statement (.cheatClose) := fun _ h => Option.some.inj h

theorem reserved (slot : Byte) : Statement (.reserved slot) := fun _ h => Option.some.inj h

theorem inpUla (port : Word) : Statement (.inpUla port) := fun _ h => Option.some.inj h

theorem inpTrdosStatus (port : Word) : Statement (.inpTrdosStatus port) := fun _ h => Option.some.inj h

theorem inpTrdosTrack (port : Word) : Statement (.inpTrdosTrack port) := fun _ h => Option.some.inj h

theorem inpTrdosSector (port : Word) : Statement (.inpTrdosSector port) := fun _ h => Option.some.inj h

theorem inpTrdosData (port : Word) : Statement (.inpTrdosData port) := fun _ h => Option.some.inj h

theorem inpTrdosSystem (port : Word) : Statement (.inpTrdosSystem port) := fun _ h => Option.some.inj h

theorem inpMouseX (port : Word) : Statement (.inpMouseX port) := fun _ h => Option.some.inj h

theorem inpMouseY (port : Word) : Statement (.inpMouseY port) := fun _ h => Option.some.inj h

theorem inpMouseButtons (port : Word) : Statement (.inpMouseButtons port) := fun _ h => Option.some.inj h

theorem inpKempston (port : Word) : Statement (.inpKempston port) := fun _ h => Option.some.inj h

theorem inpFuller (port : Word) : Statement (.inpFuller port) := fun _ h => Option.some.inj h

theorem inpAy (port : Word) : Statement (.inpAy port) := fun _ h => Option.some.inj h

theorem inpPage7Read (port : Word) : Statement (.inpPage7Read port) := fun _ h => Option.some.inj h

theorem inpFloatBus (port : Word) : Statement (.inpFloatBus port) := fun _ h => Option.some.inj h

theorem outpUla (port : Word) (v : Byte) : Statement (.outpUla port v) := fun _ h => Option.some.inj h

theorem outpAyZx81 (port : Word) (v : Byte) : Statement (.outpAyZx81 port v) := fun _ h => Option.some.inj h

theorem outpAyFullerSel (port : Word) (v : Byte) : Statement (.outpAyFullerSel port v) := fun _ h => Option.some.inj h

theorem outpAyFullerDat (port : Word) (v : Byte) : Statement (.outpAyFullerDat port v) := fun _ h => Option.some.inj h

theorem outpAySel (port : Word) (v : Byte) : Statement (.outpAySel port v) := fun _ h => Option.some.inj h

theorem outpAyDat (port : Word) (v : Byte) : Statement (.outpAyDat port v) := fun _ h => Option.some.inj h

theorem outpCovox (port : Word) (v : Byte) : Statement (.outpCovox port v) := fun _ h => Option.some.inj h

theorem outpTrdosCommand (port : Word) (v : Byte) : Statement (.outpTrdosCommand port v) := fun _ h => Option.some.inj h

theorem outpTrdosTrack (port : Word) (v : Byte) : Statement (.outpTrdosTrack port v) := fun _ h => Option.some.inj h

theorem outpTrdosSector (port : Word) (v : Byte) : Statement (.outpTrdosSector port v) := fun _ h => Option.some.inj h

theorem outpTrdosData (port : Word) (v : Byte) : Statement (.outpTrdosData port v) := fun _ h => Option.some.inj h

theorem outpTrdosSystem (port : Word) (v : Byte) : Statement (.outpTrdosSystem port v) := fun _ h => Option.some.inj h

theorem outpPage7 (port : Word) (v : Byte) : Statement (.outpPage7 port v) := fun _ h => Option.some.inj h

theorem outpPage7Plus2A (port : Word) (v : Byte) : Statement (.outpPage7Plus2A port v) := fun _ h => Option.some.inj h

theorem outpPage1Plus2A (port : Word) (v : Byte) : Statement (.outpPage1Plus2A port v) := fun _ h => Option.some.inj h

theorem pd7 (v : Byte) : Statement (.pd7 v) := fun _ h => Option.some.inj h

theorem pd1 (v : Byte) : Statement (.pd1 v) := fun _ h => Option.some.inj h

theorem pdu (v : Byte) : Statement (.pdu v) := fun _ h => Option.some.inj h

theorem snaS48 (file : List Byte) : Statement (.snaS48 file) := fun _ h => ofNone h

theorem snaS128a (file : List Byte) : Statement (.snaS128a file) := fun _ h => ofNone h

theorem snaS128b (file : List Byte) : Statement (.snaS128b file) := fun _ h => ofNone h

theorem snaS2A3a (file : List Byte) : Statement (.snaS2A3a file) := fun _ h => ofNone h

theorem snaS2A3b (file : List Byte) : Statement (.snaS2A3b file) := fun _ h => ofNone h

theorem z80V1 (file : List Byte) : Statement (.z80V1 file) := fun _ h => ofNone h

theorem z80V2 (file : List Byte) : Statement (.z80V2 file) := fun _ h => ofNone h

theorem z80V3 (file : List Byte) : Statement (.z80V3 file) := fun _ h => ofNone h

theorem z80Block (len : Word) (id : Byte) (data : List Byte) : Statement (.z80Block len id data) := fun _ h => ofNone h

theorem z80V1Terminator (body : List Byte) : Statement (.z80V1Terminator body) := fun _ h => ofNone h

theorem rleEscape (count value : Byte) : Statement (.rleEscape count value) := fun _ h => Option.some.inj h

theorem rleEscapeCount0 (value : Byte) : Statement (.rleEscapeCount0 value) := fun _ h => Option.some.inj h

theorem spNoRom (file : List Byte) : Statement (.spNoRom file) := fun _ h => ofNone h

theorem spWithRom (file : List Byte) : Statement (.spWithRom file) := fun _ h => ofNone h

theorem pokN (rest : List Byte) : Statement (.pokN rest) := fun _ h => ofNone h

theorem pokM (rest : List Byte) : Statement (.pokM rest) := fun _ h => ofNone h

theorem pokZ (rest : List Byte) : Statement (.pokZ rest) := fun _ h => ofNone h

end Sys2Proof.Laws.EncodedSize
end

