-- ==== Sys2Proof/Machine/Pseudo.lean ====
section
/-! DEFINITION. The pseudo-instructions of R116: names the spec's own listings use for short sequences of transactions.
They are no rows of the opcode table. -/

namespace Sys2Proof.Machine

/-- A pseudo-instruction of R116. -/
inductive Pseudo where
  | fetch (addr : Word)
  | page7 (v : Byte)
  | page1 (v : Byte)
  | border (c : BitVec 3)
  | keys (rows : Byte)
  | pushw (v : Word)
  | popw
  deriving DecidableEq, Repr

/-- The transactions a pseudo-instruction expands to and the `SP` it leaves, from the `SP` it finds (R116). -/
def Pseudo.expand (p : Pseudo) (sp : Word) : List BusOp × Word :=
  match p with
  | .fetch addr => ([.rdb addr, .tick 1], sp)
  | .page7 v => ([.outp 0x7FFD v], sp)
  | .page1 v => ([.outp 0x1FFD v], sp)
  | .border c => ([.outp 0x00FE (c.setWidth 8)], sp)
  | .keys rows => ([.inp (wordOf rows 0xFE)], sp)
  | .pushw v => ([.wrw (sp - 2) v], sp - 2)
  | .popw => ([.rdw sp], sp + 2)

/-- One transaction of the dispatch contract (R121). -/
def execBusOp (op : BusOp) (s : State) : Result :=
  match op with
  | .rdb addr => execRdb addr s
  | .wrb addr v => execWrb addr v s
  | .rdw addr => execRdw addr s
  | .wrw addr v => execWrw addr v s
  | .inp port => execInp port s
  | .outp port v => execOutp port v s
  | .tick n => execTick n s

/-- The answer of a sequence is that of its last read: a transaction that returns nothing keeps the one before it
(R116: `FETCH` returns what its `RDB` read). -/
def State.keepAnswer (s : State) (before : Answer) : State := if s.answer = .none then s.give before else s

/-- Transactions one after the other (R122), after one that answered `before`. -/
def execBusOpsFrom (before : Answer) : List BusOp → State → Result
  | [], s => .next s
  | op :: ops, s =>
    match execBusOp op s with
    | .next t => execBusOpsFrom (t.keepAnswer before).answer ops (t.keepAnswer before)
    | .fault f => .fault f
    | .refused r => .refused r

/-- Transactions one after the other (R122), with the answer of the last read, or none. -/
def execBusOps (ops : List BusOp) (s : State) : Result := execBusOpsFrom .none ops s

/-- A pseudo-instruction (R116): its transactions, what the read among them returns, and `SP`. -/
def execPseudo (p : Pseudo) (s : State) : Result :=
  match execBusOps (p.expand s.regs.sp).1 s with
  | .next t => .next { t with regs := { t.regs with sp := (p.expand s.regs.sp).2 } }
  | .fault f => .fault f
  | .refused r => .refused r

end Sys2Proof.Machine
end

