-- ==== Sys2Proof/Tests/Slice0.lean ====
section
/-! SUPPORT. The model's own tests: decoding from words written out by hand, ill-formed terms refused, one-step vectors of
95_test_vectors (the vector's name stands at each), and a witness for the hypotheses of each statement. -/

namespace Sys2Proof.Tests

open Sys2Proof Sys2Proof.Machine

/-! ### Decoding: every constructor from a word written out from its encoding -/

/-- Format T (R90, R91): slot, address low, address high, data low, data high. -/
theorem test_decode_transactions :
    decode .record [0x00, 0x34, 0x12, 0x00, 0x00] = .ok (.rdb 0x1234) ∧
    decode .record [0x01, 0x00, 0xC0, 0x11, 0x00] = .ok (.wrb 0xC000 0x11) ∧
    decode .record [0x02, 0xFF, 0xFF, 0x00, 0x00] = .ok (.rdw 0xFFFF) ∧
    decode .record [0x03, 0xFF, 0x3F, 0xEF, 0xBE] = .ok (.wrw 0x3FFF 0xBEEF) ∧
    decode .record [0x04, 0xFE, 0x7F, 0x00, 0x00] = .ok (.inp 0x7FFE) ∧
    decode .record [0x05, 0xFD, 0x7F, 0x03, 0x00] = .ok (.outp 0x7FFD 0x03) ∧
    decode .record [0x06, 0x00, 0x00, 0x04, 0x01] = .ok (.tick 260) :=
  ⟨rfl, rfl, rfl, rfl, rfl, rfl, rfl⟩

/-- The host commands (R91) and the reserved slots at their edges (R110; V-X4). -/
theorem test_decode_commands :
    decode .record [0x10, 0x00, 0x00, 0x00, 0x00] = .ok .reset ∧
    decode .record [0x11, 0x00, 0x00, 0x00, 0x00] = .ok .loadSna ∧
    decode .record [0x12, 0x00, 0x00, 0x00, 0x00] = .ok .saveSna ∧
    decode .record [0x13, 0x00, 0x00, 0x00, 0x00] = .ok .loadZ80 ∧
    decode .record [0x14, 0x00, 0x00, 0x00, 0x00] = .ok .saveZ80 ∧
    decode .record [0x15, 0x00, 0x00, 0x00, 0x00] = .ok .loadSp ∧
    decode .record [0x16, 0x00, 0x00, 0x00, 0x00] = .ok .cheatLoad ∧
    decode .record [0x17, 0x00, 0x00, 0x00, 0x00] = .ok .cheatApply ∧
    decode .record [0x18, 0x00, 0x00, 0x00, 0x00] = .ok .cheatFetch ∧
    decode .record [0x19, 0x00, 0x00, 0x00, 0x00] = .ok .cheatClose ∧
    decode .record [0x07, 0x00, 0x00, 0x00, 0x00] = .ok (.reserved 0x07) ∧
    decode .record [0x0F, 0x00, 0x00, 0x00, 0x00] = .ok (.reserved 0x0F) ∧
    decode .record [0x1A, 0x00, 0x00, 0x00, 0x00] = .ok (.reserved 0x1A) ∧
    decode .record [0xFF, 0x00, 0x00, 0x00, 0x00] = .ok (.reserved 0xFF) :=
  ⟨rfl, rfl, rfl, rfl, rfl, rfl, rfl, rfl, rfl, rfl, rfl, rfl, rfl, rfl⟩

/-- The input rows of R99, each on a port address that has its pattern. -/
theorem test_decode_input_rows :
    decode (.portIn .ula) [0xFE, 0xFE] = .ok (.inpUla 0xFEFE) ∧
    decode (.portIn (.trdos .status)) [0x07, 0x00] = .ok (.inpTrdosStatus 0x0007) ∧
    decode (.portIn (.trdos .track)) [0x3F, 0x00] = .ok (.inpTrdosTrack 0x003F) ∧
    decode (.portIn (.trdos .sector)) [0x5F, 0x00] = .ok (.inpTrdosSector 0x005F) ∧
    decode (.portIn (.trdos .data)) [0x7F, 0x00] = .ok (.inpTrdosData 0x007F) ∧
    decode (.portIn (.trdos .system)) [0xFF, 0x00] = .ok (.inpTrdosSystem 0x00FF) ∧
    decode (.portIn (.mouse .x)) [0xDF, 0xFB] = .ok (.inpMouseX 0xFBDF) ∧
    decode (.portIn (.mouse .y)) [0xDF, 0xFF] = .ok (.inpMouseY 0xFFDF) ∧
    decode (.portIn (.mouse .buttons)) [0xDF, 0xFA] = .ok (.inpMouseButtons 0xFADF) ∧
    decode (.portIn .kempston) [0x1F, 0x00] = .ok (.inpKempston 0x001F) ∧
    decode (.portIn .fuller) [0x7F, 0x12] = .ok (.inpFuller 0x127F) ∧
    decode (.portIn .ay) [0xFD, 0xFF] = .ok (.inpAy 0xFFFD) ∧
    decode (.portIn .page7) [0xFD, 0x7F] = .ok (.inpPage7Read 0x7FFD) ∧
    decode (.portIn .floatBus) [0xFF, 0x40] = .ok (.inpFloatBus 0x40FF) ∧
    decode (.portIn .ula) [0xFF, 0xFE] = .error .rowMismatch :=
  ⟨rfl, rfl, rfl, rfl, rfl, rfl, rfl, rfl, rfl, rfl, rfl, rfl, rfl, rfl, rfl⟩

/-- The output rows of R100. -/
theorem test_decode_output_rows :
    decode (.portOut .ula) [0xFE, 0x00, 0x12] = .ok (.outpUla 0x00FE 0x12) ∧
    decode (.portOut .ayZx81) [0xDF, 0x00, 0x01] = .ok (.outpAyZx81 0x00DF 0x01) ∧
    decode (.portOut .fullerSel) [0x3F, 0x00, 0x07] = .ok (.outpAyFullerSel 0x003F 0x07) ∧
    decode (.portOut .fullerDat) [0x5F, 0x00, 0x38] = .ok (.outpAyFullerDat 0x005F 0x38) ∧
    decode (.portOut .aySel) [0xFD, 0xFF, 0x07] = .ok (.outpAySel 0xFFFD 0x07) ∧
    decode (.portOut .ayDat) [0xFD, 0xBF, 0x38] = .ok (.outpAyDat 0xBFFD 0x38) ∧
    decode (.portOut .covox) [0xFB, 0x00, 0x80] = .ok (.outpCovox 0x00FB 0x80) ∧
    decode (.portOut (.trdos .status)) [0x1F, 0x00, 0x08] = .ok (.outpTrdosCommand 0x001F 0x08) ∧
    decode (.portOut (.trdos .track)) [0x3F, 0x00, 0x08] = .ok (.outpTrdosTrack 0x003F 0x08) ∧
    decode (.portOut (.trdos .sector)) [0x5F, 0x00, 0x08] = .ok (.outpTrdosSector 0x005F 0x08) ∧
    decode (.portOut (.trdos .data)) [0x7F, 0x00, 0x08] = .ok (.outpTrdosData 0x007F 0x08) ∧
    decode (.portOut (.trdos .system)) [0xFF, 0x00, 0x08] = .ok (.outpTrdosSystem 0x00FF 0x08) ∧
    decode (.portOut .page7) [0xFD, 0x7F, 0x03] = .ok (.outpPage7 0x7FFD 0x03) ∧
    decode (.portOut .page7Plus2A) [0xFD, 0x7F, 0x03] = .ok (.outpPage7Plus2A 0x7FFD 0x03) ∧
    decode (.portOut .page1Plus2A) [0xFD, 0x1F, 0x01] = .ok (.outpPage1Plus2A 0x1FFD 0x01) ∧
    decode (.portOut .page7) [0xFD, 0xFF, 0x03] = .error .rowMismatch :=
  ⟨rfl, rfl, rfl, rfl, rfl, rfl, rfl, rfl, rfl, rfl, rfl, rfl, rfl, rfl, rfl, rfl⟩

/-- The data bytes (R93, R94, R95), the Z80 items (R281, R284, R289), the escape forms (R293, R296), the lines (R338). -/
theorem test_decode_small_forms :
    decode .dataPd7 [0x2B] = .ok (.pd7 0x2B) ∧
    decode .dataPd1 [0x07] = .ok (.pd1 0x07) ∧
    decode .dataPdu [0x1A] = .ok (.pdu 0x1A) ∧
    decode .z80File ((List.replicate 6 0 : List Byte) ++ [0x01, 0x00] ++ List.replicate 22 0) =
      .ok (.z80V1 (List.replicate 6 0 ++ [0x01, 0x00] ++ List.replicate 22 0)) ∧
    decode .z80File ((List.replicate 30 0 : List Byte) ++ [23, 0]) = .ok (.z80V2 (List.replicate 30 0 ++ [23, 0])) ∧
    decode .z80File ((List.replicate 30 0 : List Byte) ++ [54, 0]) = .ok (.z80V3 (List.replicate 30 0 ++ [54, 0])) ∧
    decode .z80File ((List.replicate 30 0 : List Byte) ++ [55, 0]) = .ok (.z80V3 (List.replicate 30 0 ++ [55, 0])) ∧
    decode .z80Block [0x04, 0x00, 0x08, 0xED, 0xED, 0x05, 0x00] = .ok (.z80Block 4 8 [0xED, 0xED, 0x05, 0x00]) ∧
    decode .z80Tail [0xAA, 0x00, 0xED, 0xED, 0x00] = .ok (.z80V1Terminator [0xAA]) ∧
    decode .rle [0xED, 0xED, 0x05, 0x77] = .ok (.rleEscape 0x05 0x77) ∧
    decode .rle [0xED, 0xED, 0x00, 0x77] = .ok (.rleEscapeCount0 0x77) ∧
    decode .pokLine [0x4E, 0x58] = .ok (.pokN [0x58]) ∧
    decode .pokLine [0x4D, 0x20, 0x38] = .ok (.pokM [0x20, 0x38]) ∧
    decode .pokLine [0x5A, 0x20, 0x38] = .ok (.pokZ [0x20, 0x38]) :=
  ⟨rfl, rfl, rfl, rfl, rfl, rfl, rfl, rfl, rfl, rfl, rfl, rfl, rfl, rfl⟩

/-- The SNA sizes of R251 spell the five variants; one byte less spells nothing. -/
theorem test_decode_sna_sizes :
    snaVariant 49179 = some .s48 ∧ snaVariant 131103 = some .s128a ∧ snaVariant 147487 = some .s128b ∧
    snaVariant 131121 = some .s2A3a ∧ snaVariant 147505 = some .s2A3b ∧ snaVariant 49178 = none :=
  ⟨rfl, rfl, rfl, rfl, rfl, rfl⟩

theorem test_decode_sna (n : Nat) (v : SnaVariant) (h : snaVariant n = some v) :
    decode .snaFile (List.replicate n 0) = .ok (snaInstr v (List.replicate n 0)) := by
  simp only [decode, decodeSna, List.length_replicate, h]

/-- A byte of a file that starts with bytes written out and goes on with one repeated byte. -/
theorem fileByte_head (h : List Byte) (n : Nat) (v : Byte) (i : Nat) (hi : i < h.length) :
    fileByte (h ++ List.replicate n v) i = h.getD i 0 := by
  simp only [fileByte, List.getD_eq_getElem?_getD, List.getElem?_append_left hi]

/-- An SP file without ROM, of V-P1: the two words of its header and its length tell it. -/
def spFile : List Byte := [0x53, 0x50, 0x00, 0xC0, 0x00, 0x40] ++ List.replicate 49184 0

/-- An SP file with the ROM page, of V-P2. -/
def spRomFile : List Byte := [0x53, 0x50, 0x00, 0x00, 0x00, 0x00] ++ List.replicate 65568 0

theorem spKind_spFile : spKind spFile = .ok false := by
  have hl : spFile.length = 49190 := by simp only [spFile, List.length_append, List.length_replicate]; rfl
  have h : ∀ i, i < 6 → fileByte spFile i = [0x53, 0x50, 0x00, 0xC0, 0x00, 0x40].getD i 0 := fun i hi => fileByte_head _ _ _ i hi
  simp only [spKind, hl, le16, h 0 (by omega), h 1 (by omega), h 2 (by omega), h 3 (by omega), h 4 (by omega), h 5 (by omega)]
  rfl

theorem spKind_spRomFile : spKind spRomFile = .ok true := by
  have hl : spRomFile.length = 65574 := by simp only [spRomFile, List.length_append, List.length_replicate]; rfl
  have h : ∀ i, i < 6 → fileByte spRomFile i = [0x53, 0x50, 0x00, 0x00, 0x00, 0x00].getD i 0 := fun i hi => fileByte_head _ _ _ i hi
  simp only [spKind, hl, le16, h 0 (by omega), h 1 (by omega), h 2 (by omega), h 3 (by omega), h 4 (by omega), h 5 (by omega)]
  rfl

theorem decode_sp_of {f : List Byte} {b : Bool} (h : spKind f = .ok b) :
    decode .spFile f = .ok (if b then .spWithRom f else .spNoRom f) := by
  simp only [decode, decodeSp, h]
  cases b <;> rfl

theorem test_decode_sp :
    decode .spFile spFile = .ok (.spNoRom spFile) ∧ decode .spFile spRomFile = .ok (.spWithRom spRomFile) :=
  ⟨decode_sp_of spKind_spFile, decode_sp_of spKind_spRomFile⟩

/-! ### Ill-formed terms -/

/-- Ill-formed terms, one or more for each check of `Instr.wf`: counts, slots and input rows. -/
def illInputs : List Instr :=
  [.tick 65536, .reserved 0x06, .reserved 0x10, .inpUla 0x0001, .inpTrdosStatus 0x0023, .inpTrdosTrack 0x0003,
   .inpTrdosSector 0x0003, .inpTrdosData 0x0003, .inpTrdosSystem 0x0003, .inpMouseX 0x05DF, .inpMouseY 0x01DF,
   .inpMouseButtons 0x01DF, .inpKempston 0x007F, .inpFuller 0x001F, .inpAy 0xBFFD, .inpPage7Read 0xFFFD,
   .inpFloatBus 0x00FE]

/-- Output rows. -/
def illOutputs : List Instr :=
  [.outpUla 0x00FF 0, .outpAyFullerSel 0x005F 0, .outpAyFullerDat 0x003F 0, .outpAySel 0xBFFD 0, .outpAyDat 0xFFFD 0,
   .outpCovox 0x00FA 0, .outpTrdosCommand 0x003F 0, .outpTrdosTrack 0x001F 0, .outpTrdosSector 0x001F 0,
   .outpTrdosData 0x001F 0, .outpTrdosSystem 0x001F 0, .outpPage7 0xFFFD 0, .outpPage7Plus2A 0x3FFD 0,
   .outpPage1Plus2A 0x7FFD 0]

/-- Files, blocks, escapes and lines. -/
def illFiles : List Instr :=
  [.snaS48 [0], .snaS128a [0], .snaS128b [0], .snaS2A3a [0], .snaS2A3b [0], .z80V1 (List.replicate 30 0),
   .z80V2 (List.replicate 6 0 ++ [1, 0] ++ List.replicate 22 0), .z80V3 (List.replicate 30 0 ++ [23, 0]),
   .z80V1 (List.replicate 29 1), .z80Block 2 8 [0], .z80Block 0xFFFF 8 [0], .rleEscape 0 0x55, .spNoRom [0x53, 0x50],
   .spWithRom [0x53, 0x50], .pokN [0x0A], .pokM [0x20, 0x0A], .pokZ [0x0A, 0x20]]

theorem test_wf_refuses_inputs : illInputs.all (fun i => !i.wf) = true := by decide +kernel

theorem test_wf_refuses_outputs : illOutputs.all (fun i => !i.wf) = true := by decide +kernel

theorem test_wf_refuses_files : illFiles.all (fun i => !i.wf) = true := by decide +kernel

/-! ### One-step vectors -/

/-- The ULA pattern and the +2A pattern of R239; no contention elsewhere; tables where the spec gives no default. -/
def cfgT : Cfg :=
  { defaultCfg with
    ayZx81Sel := 0xDF
    ayZx81Dat := 0x0F
    covox := some [⟨.mono, 0x00FF, 0x00FB, 2⟩, ⟨.stereo, 0x00FF, 0x000F, 0⟩]
    frame := ⟨modulusOf 69888, modulusOf 70908, modulusOf 70908, modulusOf 71680, modulusOf 69888⟩
    display := ⟨⟨some 14335, modulusOf 224⟩, ⟨some 14361, modulusOf 228⟩, ⟨some 14361, modulusOf 228⟩,
      ⟨none, modulusOf 224⟩, ⟨some 14335, modulusOf 224⟩⟩
    delay := ⟨.pattern ulaPattern, .pattern ulaPattern, .pattern plus2APattern, .table [], .table []⟩
    tkLineLength := modulusOf 4
    tkLate := .table [3, 4, 5, 6]
    floatBus := ⟨.table [(14339, 0x1800)], .table [(14365, 0x0005)], .table [], .table [], .table []⟩ }

/-- The base state of 95_test_vectors on an architecture, with the bytes given; every byte of `port[]` is 0xFF. -/
def base (a : Arch) (mem : List Host.Cell) : State :=
  { State.reset with
    arch := a
    romOf := a
    cfg := cfgT
    map := mapOf cfgT a Latches.reset
    port := Vector.replicate 128 0xFF
    mem := mem }

/-- The machine at a counter value. -/
def tickAt (s : State) (t : Nat) : State := { s with tick := t }

/-- The result is a next state with the property. -/
def ok (r : Result) (p : State → Bool) : Bool :=
  match r with
  | .next t => p t
  | .fault _ => false
  | .refused _ => false

/-- V-M1, and a contended read at the first displayed tick (V-CT2). -/
theorem test_rdb :
    ok (exec (.rdb 0x4000) (tickAt (base .pentagon [(0x14000, 0x3C)]) 100)) (fun t => t.answer == .byte 0x3C && t.tick == 103) = true ∧
    ok (exec (.rdb 0x4000) (tickAt (base .spec48 []) 14335)) (fun t => t.tick == 14344) = true := by decide +kernel

/-- V-M2 (dropped on ROM) and V-M3. -/
theorem test_wrb :
    ok (exec (.wrb 0x0000 0xAA) (base .spec48 [])) (fun t => t.mem == [] && t.tick == 3) = true ∧
    ok (exec (.wrb 0x4000 0xAA) (base .spec48 [])) (fun t =>
      t.readPage (.ram 5) 0 == 0xAA && t.tick == 3 && t.lastContended == 0xAA) = true := by decide +kernel

/-- V-M11 and V-CT10. -/
theorem test_rdw :
    ok (exec (.rdw 0x8000) (base .spec48 [(0x8000, 0x34), (0x8001, 0x12)])) (fun t =>
      t.answer == .word 0x1234 && t.tick == 6) = true ∧
    ok (exec (.rdw 0x7FFF) (tickAt (base .spec48 []) 14335)) (fun t => t.tick == 14347) = true := by decide +kernel

/-- V-M6 and V-M7: a word across a window edge, one byte of it into ROM. -/
theorem test_wrw :
    ok (exec (.wrw 0x3FFF 0xBEEF) (base .spec48 [])) (fun t => t.mem == [(0x14000, 0xBE)] && t.tick == 6) = true ∧
    ok (exec (.wrw 0xFFFF 0x1234) (base .pentagon [])) (fun t => t.mem == [(0x3FFF, 0x34)] && t.tick == 6) = true := by decide +kernel

/-- V-M9. -/
theorem test_tick : ok (exec (.tick 4) (tickAt (base .pentagon []) 10)) (fun t => t.tick == 14) = true := by decide +kernel

/-- The oracle answers in this order. -/
def told (s : State) (bs : List Byte) : State := { s with oracle := bs }

/-- V-I2 (all rows) and V-CT22 (odd, contended window). -/
theorem test_inp :
    ok (exec (.inp 0x00FE) (told { base .spec128 [] with port := ((Vector.replicate 128 0xFF).set 0 0xFE).set 3 0xFB } [0]))
      (fun t => t.answer == .byte 0xBA && t.tick == 4) = true ∧
    ok (exec (.inp 0x40FF) (tickAt (base .spec48 []) 14335)) (fun t => t.answer == .byte 0xFF && t.tick == 14351) = true := by decide +kernel

/-- V-CT24 and step 2 of P1: `OUTP 0x7FFD, 0x03` on Pentagon. -/
theorem test_outp :
    ok (exec (.outp 0x7FFD 0x00) (tickAt (base .spec128 []) 14361)) (fun t => t.tick == 14377) = true ∧
    ok (exec (.outp 0x7FFD 0x03) (base .pentagon [])) (fun t =>
      t.latches.bankLatch == 3 && t.map.ramCurrent.get 3 == .ram 3 && t.tick == 4) = true := by decide +kernel

/-- V-I6 (Issue 2) and V-I9 (the tape's bit wins). -/
theorem test_inpUla :
    ok (exec (.inpUla 0xFFFE) (told { base .spec48 [] with cfg := { cfgT with issue2 := true }, port254 := 0x08 } [0]))
      (fun t => t.answer == .byte 0xFF) = true ∧
    ok (exec (.inpUla 0xFFFE) (told (base .spec48 []) [1, 1])) (fun t => t.answer == .byte 0xFF) = true := by decide +kernel

/-- A machine with the disk interface paged in. -/
def disk (s : State) : State := s.setLatches { s.latches with trdosPaged := true }

/-- V-I12: the mask 0xE3 names the register; with the interface paged out the row does not answer. -/
theorem test_inpTrdos :
    ok (exec (.inpTrdosStatus 0x0007) (told (disk (base .pentagon [])) [0x5A])) (fun t => t.answer == .byte 0x5A) = true ∧
    ok (exec (.inpTrdosTrack 0x003F) (told (disk (base .pentagon [])) [0x5B])) (fun t => t.answer == .byte 0x5B) = true ∧
    ok (exec (.inpTrdosSector 0x005F) (told (disk (base .pentagon [])) [0x5C])) (fun t => t.answer == .byte 0x5C) = true ∧
    ok (exec (.inpTrdosData 0x007F) (told (disk (base .pentagon [])) [0x5D])) (fun t => t.answer == .byte 0x5D) = true ∧
    ok (exec (.inpTrdosSystem 0x00FF) (told (disk (base .pentagon [])) [0x5E])) (fun t => t.answer == .byte 0x5E) = true ∧
    ok (exec (.inpTrdosStatus 0x0007) (told (base .pentagon []) [0x5A])) (fun t => t.answer == .byte 0xFF) = true := by decide +kernel

/-- V-I13. -/
theorem test_inpMouse :
    ok (exec (.inpMouseX 0xFBDF) (told { base .spec48 [] with cfg := { cfgT with mouse := true } } [1]))
      (fun t => t.answer == .byte 1) = true ∧
    ok (exec (.inpMouseY 0xFFDF) (told { base .spec48 [] with cfg := { cfgT with mouse := true } } [2]))
      (fun t => t.answer == .byte 2) = true ∧
    ok (exec (.inpMouseButtons 0xFADF) (told { base .spec48 [] with cfg := { cfgT with mouse := true } } [3]))
      (fun t => t.answer == .byte 3) = true := by decide +kernel

/-- V-I14 and V-I16 (no joystick: the bus floats). -/
theorem test_inpKempston :
    ok (exec (.inpKempston 0x001F)
      { base .spec48 [] with cfg := { cfgT with joystick := .kempston }, port := (Vector.replicate 128 0xFF).set 0x1F 0x10 })
      (fun t => t.answer == .byte 0x10) = true ∧
    ok (exec (.inpKempston 0x001F) (base .spec48 [])) (fun t => t.answer == .byte 0xFF) = true := by decide +kernel

/-- V-I15. -/
theorem test_inpFuller :
    ok (exec (.inpFuller 0x007F)
      { base .spec48 [] with cfg := { cfgT with joystick := .fuller }, port := (Vector.replicate 128 0xFF).set 0x7F 0x7E })
      (fun t => t.answer == .byte 0x7E) = true := by decide +kernel

/-- V-I17. -/
theorem test_inpAy :
    ok (exec (.inpAy 0xFFFD) (told { base .spec128 [] with cfg := { cfgT with ayPresent := true } } [0x2A]))
      (fun t => t.answer == .byte 0x2A) = true := by decide +kernel

/-- V-I19 (0xFF written back) and V-I21 (the lock blocks the write-back). -/
theorem test_inpPage7Read :
    ok (exec (.inpPage7Read 0x7FFD) (tickAt (base .spec128 []) 100)) (fun t =>
      t.answer == .byte 0xFF && t.latches == ⟨7, true, 1, true, false, 0, false⟩ && t.map.ramCurrent.get 0 == .rom 1 &&
      t.map.grmem == .ram 7 && t.tick == 104) = true ∧
    ok (exec (.inpPage7Read 0x7FFD) ((base .spec128 []).setLatches ⟨2, false, 0, true, false, 0, false⟩)) (fun t =>
      t.answer == .byte 0xFF && t.latches == ⟨2, false, 0, true, false, 0, false⟩) = true := by decide +kernel

/-- V-CT13 and V-CT15 (a tick from which the access ends where the display fetches). -/
theorem test_inpFloatBus :
    ok (exec (.inpFloatBus 0x0FFD) { base .plus2A [] with lastContended := 0x3C }) (fun t => t.answer == .byte 0x3D) = true ∧
    ok (exec (.inpFloatBus 0x00FF) (tickAt (base .spec48 [(0x15800, 0x47)]) 14335)) (fun t =>
      t.answer == .byte 0x47 && t.tick == 14339) = true := by decide +kernel

/-- P5, steps 1 and 5: the border event only where the colour changes. -/
theorem test_outpUla :
    ok (exec (.outpUla 0x00FE 0x12) (base .spec128 [])) (fun t =>
      t.port254 == 0x12 && t.events == [.borderChange 4 2, .beeper 4 true false]) = true ∧
    ok (exec (.outpUla 0x00FE 0x02) { base .spec128 [] with port254 := 0x12 }) (fun t =>
      t.events == [.beeper 4 false false]) = true := by decide +kernel

/-- The two values of the low byte select and write (R196). -/
theorem test_outpAyZx81 :
    ok (exec (.outpAyZx81 0x00DF 0x07) { base .spec48 [] with cfg := { cfgT with ayZx81 := true } }) (fun t =>
      t.ay.sel == 0x07 && t.events == [.ayWrite .select 0x07]) = true ∧
    ok (exec (.outpAyZx81 0x000F 0x38) { base .spec48 [] with cfg := { cfgT with ayZx81 := true } }) (fun t =>
      t.ay.reg.get 0 == 0x38 && t.ay.sel == 0) = true := by decide +kernel

/-- The Fuller ports (R196); not configured, nothing. -/
theorem test_outpAyFuller :
    ok (exec (.outpAyFullerSel 0x003F 0x07) { base .spec48 [] with cfg := { cfgT with ayFuller := true } }) (fun t =>
      t.ay.sel == 0x07) = true ∧
    ok (exec (.outpAyFullerDat 0x005F 0x38) { base .spec48 [] with cfg := { cfgT with ayFuller := true } }) (fun t =>
      t.events == [.ayWrite .data 0x38]) = true ∧
    ok (exec (.outpAyFullerSel 0x003F 0x07) (base .spec48 [])) (fun t => t.ay.sel == 0 && t.events == []) = true := by decide +kernel

/-- The generic AY ports (R197; T14): the register index is taken modulo 16. -/
theorem test_outpAy :
    ok (exec (.outpAySel 0xFFFD 0x17) { base .spec128 [] with cfg := { cfgT with ayPresent := true } }) (fun t =>
      t.ay.sel == 0x17) = true ∧
    ok (exec (.outpAyDat 0xBFFD 0x38)
      { base .spec128 [] with cfg := { cfgT with ayPresent := true }, ay := ⟨0x17, Vector.replicate 16 0⟩ }) (fun t =>
      t.ay.reg.get 7 == 0x38 && t.events == [.ayWrite .data 0x38]) = true := by decide +kernel

/-- R199: the channels the decode selects in the configured mode; none where not configured. -/
theorem test_outpCovox :
    ok (exec (.outpCovox 0x00FB 0x80) { base .spec48 [] with cfg := { cfgT with covoxMode := .mono } }) (fun t =>
      t.events == [.covoxWrite 2 0x80]) = true ∧
    ok (exec (.outpCovox 0x00FB 0x80) (base .spec48 [])) (fun t => t.events == []) = true := by decide +kernel

/-- R200: a write event for each register of the paged-in interface. -/
theorem test_outpTrdos :
    ok (exec (.outpTrdosCommand 0x001F 0x08) (disk (base .pentagon []))) (fun t => t.events == [.trdosWrite .status 0x08]) = true ∧
    ok (exec (.outpTrdosTrack 0x003F 0x08) (disk (base .pentagon []))) (fun t => t.events == [.trdosWrite .track 0x08]) = true ∧
    ok (exec (.outpTrdosSector 0x005F 0x08) (disk (base .pentagon []))) (fun t => t.events == [.trdosWrite .sector 0x08]) = true ∧
    ok (exec (.outpTrdosData 0x007F 0x08) (disk (base .pentagon []))) (fun t => t.events == [.trdosWrite .data 0x08]) = true ∧
    ok (exec (.outpTrdosSystem 0x00FF 0x08) (disk (base .pentagon []))) (fun t => t.events == [.trdosWrite .system 0x08]) = true := by
  decide +kernel

/-- P1, steps 2, 4 and 6: paging, the locking write performed in full, and the lock. -/
theorem test_outpPage7 :
    ok (exec (.outpPage7 0x7FFD 0x20) ((base .pentagon []).setLatches ⟨3, false, 0, false, false, 0, false⟩)) (fun t =>
      t.latches == ⟨0, false, 0, true, false, 0, false⟩ && t.map.ramCurrent.get 3 == .ram 0) = true ∧
    ok (exec (.outpPage7 0x7FFD 0x03) ((base .pentagon []).setLatches ⟨0, false, 0, true, false, 0, false⟩)) (fun t =>
      t.latches == ⟨0, false, 0, true, false, 0, false⟩) = true := by decide +kernel

/-- P2, step 12: bit 0 of the ROM latch only. -/
theorem test_outpPage7Plus2A :
    ok (exec (.outpPage7Plus2A 0x7FFD 0x20) ((base .plus2A []).setLatches ⟨0, false, 3, false, false, 2, false⟩)) (fun t =>
      t.latches == ⟨0, false, 2, true, false, 2, false⟩ && t.map.ramCurrent.get 0 == .rom 2) = true := by decide +kernel

/-- P2, steps 5 and 10. -/
theorem test_outpPage1Plus2A :
    ok (exec (.outpPage1Plus2A 0x1FFD 0x03) (base .plus2A [])) (fun t =>
      t.map.ramCurrent == #v[.ram 4, .ram 5, .ram 6, .ram 7]) = true ∧
    ok (exec (.outpPage1Plus2A 0x1FFD 0x04) ((base .plus2A []).setLatches ⟨0, false, 1, false, false, 0, false⟩)) (fun t =>
      t.latches == ⟨0, false, 3, false, false, 2, false⟩ && t.map.ramCurrent.get 0 == .rom 3) = true := by decide +kernel

/-- The data bytes act as their ports do (R93, R94, R95), and PD7 nowhere on a 48K. -/
theorem test_dataBytes :
    ok (exec (.pd7 0x1B) (base .spec128 [])) (fun t => t.latches == ⟨3, true, 1, false, false, 0, false⟩) = true ∧
    ok (exec (.pd7 0x1B) (base .spec48 [])) (fun t => t.latches == Latches.reset) = true ∧
    ok (exec (.pd1 0x05) (base .plus2A [])) (fun t => t.latches == ⟨0, false, 2, false, true, 2, false⟩) = true ∧
    ok (exec (.pdu 0x12) (base .spec128 [])) (fun t => t.events == [.borderChange 0 2, .beeper 0 true false]) = true := by decide +kernel

/-- V-X1. -/
theorem test_reset :
    ok (exec .reset (tickAt ((base .spec128 [(0x8000, 0x55)]).setLatches ⟨7, true, 1, true, false, 0, false⟩) 7)) (fun t =>
      t.latches == Latches.reset && t.tick == 0 && t.regs.pc == 0 && t.readPage (.ram 2) 0 == 0x55 &&
      t.map.ramCurrent == #v[.rom 0, .ram 5, .ram 2, .ram 0]) = true := by decide +kernel

/-- V-X4. -/
theorem test_reserved : exec (.reserved 0x1A) State.reset = .refused .reservedSlot := rfl

/-- V-RLE31 and V-RLE30: count zero gives nothing; a bound cuts a run; the row of the escape form. -/
theorem test_rle :
    decompress [0xED, 0xED, 0x00, 0x55, 0xAA] 10 = [0xAA] ∧ decompress [0xED, 0xED, 0x0A, 0x55] 4 = [0x55, 0x55, 0x55, 0x55] ∧
    decompress [0xED, 0xED, 0x02, 0xED, 0xED, 0xED, 0x03, 0x00] 10 = [0xED, 0xED, 0, 0, 0] ∧
    decompress [0x01, 0xED, 0xED, 0x05] 10 = [0x01] ∧ decompress [0xED] 10 = [0xED] := by decide +kernel

/-- V-RLE20 and V-RLE23 on shorter runs: runs of five and more, and any pair of 0xED, take the escape form. -/
theorem test_compress :
    compress [0, 0, 0, 0, 0, 7] = [0xED, 0xED, 0x05, 0x00, 7] ∧ compress [0, 0, 0, 0] = [0, 0, 0, 0] ∧
    compress [0xED, 0xED] = [0xED, 0xED, 0x02, 0xED] ∧ compress [0xED, 0x00, 0x00, 0x00, 0x00, 0x00] = [0xED, 0, 0, 0, 0, 0] := by
  decide +kernel

theorem test_rleEscape :
    ok (exec (.rleEscape 3 0x55) State.reset) (fun t => t.answer == .bytes [0x55, 0x55, 0x55]) = true ∧
    ok (exec (.rleEscapeCount0 0x55) State.reset) (fun t => t.answer == .bytes []) = true := by decide +kernel

/-- V-Z5: the four bytes end the body and are no data. -/
theorem test_z80V1Terminator :
    ok (exec (.z80V1Terminator [0xAA, 0xBB]) State.reset) (fun t => t.answer == .bytes [0xAA, 0xBB]) = true := by decide +kernel

/-- V-P3 to V-P5 and the sizes of R251, R280: each refused with its reason and no state change. -/
theorem test_loads_refuse :
    ok (exec .loadSna State.reset) (fun t => t.answer == .failure .badSize && !t.failed) = true ∧
    ok (exec .loadZ80 { State.reset with file := some (List.replicate 30 0 ++ [24, 0]) })
      (fun t => t.answer == .failure .unknownVersion && !t.failed) = true ∧
    ok (exec .loadZ80 { State.reset with file := some (List.replicate 30 0 ++ [54, 0, 0, 0, 200]) })
      (fun t => t.answer == .failure .unknownMachine && !t.failed) = true ∧
    ok (exec .loadSp { State.reset with file := some ([0x53, 0x51] ++ List.replicate 36 0) })
      (fun t => t.answer == .failure .badSignature && !t.failed) = true ∧
    ok (exec .loadSp { State.reset with file := some ([0x53, 0x50, 0, 0xC0] ++ List.replicate 34 0) })
      (fun t => t.answer == .failure .badField && !t.failed) = true ∧
    ok (exec .loadSp { State.reset with file := some (List.replicate 37 0) })
      (fun t => t.answer == .failure .badSize && !t.failed) = true := by decide +kernel

/-- The text of V-H1: `NInfinite lives`, `M 8 35899 0 53`, `Z 8 35900 256 5`. -/
def pokText : List Byte :=
  [0x4E, 0x49, 0x6E, 0x66, 0x69, 0x6E, 0x69, 0x74, 0x65, 0x20, 0x6C, 0x69, 0x76, 0x65, 0x73, 0x0A] ++
  [0x4D, 0x20, 0x38, 0x20, 0x33, 0x35, 0x38, 0x39, 0x39, 0x20, 0x30, 0x20, 0x35, 0x33, 0x0A] ++
  [0x5A, 0x20, 0x38, 0x20, 0x33, 0x35, 0x39, 0x30, 0x30, 0x20, 0x32, 0x35, 0x36, 0x20, 0x35, 0x0A]

/-- The records of V-H1. -/
def cheatH1 : Cheat := ⟨1, 0, 2, false, 1⟩
def pokeH1a : Poke := ⟨8, 0x8C3B, 0, 53, false, false, true⟩
def pokeH1b : Poke := ⟨8, 0x8C3C, 5, 5, true, false, true⟩

/-- V-H1 and V-H11. -/
theorem test_cheatLoad :
    ok (exec .cheatLoad { State.reset with file := some pokText }) (fun t =>
      t.cheats == [cheatH1] && t.pokes == [pokeH1a, pokeH1b]) = true ∧
    ok (exec .cheatLoad { State.reset with cheats := [cheatH1] }) (fun t => t.cheats == []) = true := by decide +kernel

/-- V-H8: a line outside a cheat, an empty cheat, a malformed line, and the masks. -/
theorem test_cheatLoad_masks :
    ok (exec .cheatLoad { State.reset with
      file := some ([0x4D, 0x20, 0x38, 0x20, 0x31, 0x20, 0x32, 0x20, 0x33, 0x0A] ++ [0x4E, 0x41, 0x0A, 0x4E, 0x42, 0x0A] ++
        [0x4D, 0x20, 0x38, 0x20, 0x31, 0x20, 0x32, 0x0A] ++
        [0x4D, 0x20, 0x32, 0x34, 0x20, 0x36, 0x35, 0x35, 0x33, 0x36, 0x20, 0x32, 0x35, 0x37, 0x20, 0x33, 0x30, 0x30, 0x0A]) })
      (fun t => t.cheats == [⟨14, 0, 1, false, 0⟩] && t.pokes == [⟨8, 0x0000, 0x01, 0x2C, false, false, true⟩]) = true := by decide +kernel

/-- V-H2 (absolute mode), and V-H7 (a disabled cheat with nothing captured writes nothing). -/
theorem test_cheatApply :
    ok (exec .cheatApply { base .spec48 [] with cheats := [{ cheatH1 with enabled := true }], pokes := [pokeH1a, pokeH1b] })
      (fun t => t.mem == [(0x8C3B, 0), (0x8C3C, 5)] && t.tick == 0) = true ∧
    ok (exec .cheatApply { base .spec48 [] with
      cheats := [⟨1, 0, 1, false, 0⟩], pokes := [⟨8, 0x8000, 1, 0x77, false, false, false⟩] }) (fun t => t.mem == []) = true := by decide +kernel

/-- V-H3: fixed-bank mode captures bank 3 though it is not mapped. -/
theorem test_cheatFetch :
    ok (exec .cheatFetch { base .spec128 [(0xC000, 0x3E)] with
      cheats := [⟨1, 0, 1, false, 0⟩], pokes := [⟨3, 49152, 201, 0, false, false, false⟩] })
      (fun t => t.pokes == [⟨3, 49152, 201, 0x3E, false, true, false⟩]) = true := by decide +kernel

theorem test_cheatClose :
    ok (exec .cheatClose { base .spec48 [(0x8000, 1)] with cheats := [cheatH1], pokes := [pokeH1a] }) (fun t =>
      t.cheats == [] && t.pokes == [] && t.mem == [(0x8000, 1)]) = true := by decide +kernel

/-- V-H1 line by line. -/
theorem test_pokLines :
    ok (exec (.pokN [0x58]) State.reset) (fun t => t.fill == ⟨some ⟨1, 0, 0, false, 0⟩, 3⟩) = true ∧
    ok (exec (.pokM [0x20, 0x38, 0x20, 0x31, 0x20, 0x32, 0x20, 0x33]) { State.reset with fill := ⟨some cheatH1, 0⟩ })
      (fun t => t.pokes == [⟨8, 1, 2, 3, false, false, true⟩]) = true ∧
    ok (exec (.pokZ [0x20, 0x38, 0x20, 0x31]) { State.reset with fill := ⟨some cheatH1, 0⟩ })
      (fun t => t.pokes == [] && t.fill == ⟨some cheatH1, 6⟩) = true := by decide +kernel

/-! ### Snapshot files -/

/-- A 48K SNA file: `I` = 3F, `IFF2` = 1, `A` = 5A, `SP` = 8000, `IM` 1, border 2, the word 1234 at the stack top (V-S1). -/
def sna48 : List Byte :=
  ([0x3F] ++ List.replicate 18 0 ++ [4, 0, 0, 0x5A, 0x00, 0x80, 1, 2] ++ List.replicate 16384 0 ++ [0x34, 0x12]) ++
    List.replicate 32766 0

theorem sna48_length : sna48.length = 49179 := by
  simp only [sna48, List.length_append, List.length_replicate]; rfl

/-- The load of a file of the right size is the load proper. -/
theorem exec_snaS48_sized {f : List Byte} (h : f.length = 49179) (s : State) :
    exec (.snaS48 f) s = loadOn (snaArch .s48 s) (snaPart .s48 f) s := by
  show loadSnaAs .s48 f s = _
  simp only [loadSnaAs, SnaVariant.size]
  exact if_pos h

theorem exec_spNoRom_sized {f : List Byte} (h : spKind f = .ok false) (s : State) :
    exec (.spNoRom f) s = loadOn (spArch s) (spPart false f) s := by
  show loadSpAs false f s = _
  simp only [loadSpAs, h, if_true]

theorem exec_spWithRom_sized {f : List Byte} (h : spKind f = .ok true) (s : State) :
    exec (.spWithRom f) s = loadOn (spArch s) (spPart true f) s := by
  show loadSpAs true f s = _
  simp only [loadSpAs, h, if_true]

/-- V-S1: the header's registers, the border event, and `SP` moved past the popped `PC`. -/
theorem test_snaS48 :
    ok (exec (.snaS48 sna48) (base .spec48 [])) (fun t =>
      t.regs.a == 0x5A && t.regs.iff1 && t.regs.im == .im1 && t.regs.sp == 0x8002 && t.events == [.borderChange 0 2] &&
      t.answer == .loaded && t.port254 == 2) = true := by
  refine Eq.trans (congrArg (fun r => ok r _) (exec_snaS48_sized sna48_length _)) ?_
  decide +kernel

/-- The header and the image bytes of a save (R263, R264): `SP - 2` in the header, `PC` in the image only. -/
theorem test_saveSna :
    ok (exec .saveSna { base .spec48 [] with regs := { Regs.reset with sp := 0x4002, pc := 0x1234, iff2 := true, im := .im2 } })
      (fun t => match t.answer with
        | .bytes f => fileByte f 19 == 4 && le16 f 23 == 0x4000 && fileByte f 25 == 2 && le16 f 27 == 0x1234
        | _ => false) = true := by decide +kernel

/-- R300, R301: `PC` zero at 6, the extended header 54 bytes long, `PC` at 32, `R` bit 7 and the border at 12. -/
theorem test_saveZ80 :
    ok (exec .saveZ80 { base .spec128 [] with regs := { Regs.reset with pc := 0x1234, r := 0x81 }, port254 := 0x05 })
      (fun t => match t.answer with
        | .bytes f => le16 f 6 == 0 && le16 f 30 == 54 && le16 f 32 == 0x1234 && fileByte f 12 == 0x0B && fileByte f 34 == 4
        | _ => false) = true := by decide +kernel

/-- A file of 30 header bytes whose word at 6 is not zero is version 1 (V-Z1); a raw body of the wrong size fails late with
`badSize`, a third interrupt mode with `badField`, a compressed body that is short with `truncated`. -/
theorem test_z80V1 :
    ok (exec (.z80V1 (List.replicate 6 0 ++ [1, 0] ++ List.replicate 22 0)) (base .spec48 [])) (fun t =>
      t.failed && t.answer == .failure .badSize) = true ∧
    ok (exec (.z80V1 (List.replicate 6 0 ++ [1, 0] ++ List.replicate 4 0 ++ [0x20] ++ List.replicate 17 0 ++ [0xED, 0xED, 2, 7]))
      (base .spec48 [])) (fun t => t.failed && t.answer == .failure .truncated) = true := by decide +kernel

/-- A version 2 file with no block at all (R289): registers and latches load, `PC` from 32. -/
theorem test_z80V2 :
    ok (exec (.z80V2 (List.replicate 30 0 ++ [23, 0, 0x34, 0x12, 3, 0x1B] ++ List.replicate 19 0)) (base .spec128 [])) (fun t =>
      t.regs.pc == 0x1234 && t.latches == ⟨3, true, 1, false, false, 0, false⟩ && t.answer == .loaded) = true := by decide +kernel

/-- Version 3 on Plus2A: byte 86 is the second paging byte where `L` is 55 (R286); a block cut short is `truncated`. -/
theorem test_z80V3 :
    ok (exec (.z80V3 (List.replicate 30 0 ++ [55, 0, 0x34, 0x12, 7, 0x10] ++ List.replicate 50 0 ++ [0x04])) (base .plus2A []))
      (fun t => t.latches == ⟨0, false, 3, false, false, 2, false⟩ && t.answer == .loaded) = true ∧
    ok (exec (.z80V3 (List.replicate 30 0 ++ [54, 0, 0, 0, 4, 0] ++ List.replicate 50 0 ++ [0x04, 0x00])) (base .spec128 []))
      (fun t => t.failed && t.answer == .failure .truncated) = true := by decide +kernel

/-- A block whose data decompresses short is `truncated` (R289). -/
theorem test_z80Block :
    ok (exec (.z80Block 4 8 [0xED, 0xED, 0x05, 0x00]) (base .spec48 [])) (fun t =>
      t.failed && t.answer == .failure .truncated) = true := by decide +kernel

/-- V-P1: without its memory, the registers an SP header gives. -/
theorem test_spNoRom :
    ok (exec (.spNoRom spFile) (base .spec48 [])) (fun t => t.regs.im == .im1 && t.answer == .loaded) = true := by
  refine Eq.trans (congrArg (fun r => ok r _) (exec_spNoRom_sized spKind_spFile _)) ?_
  decide +kernel

theorem test_spWithRom :
    ok (exec (.spWithRom spRomFile) (base .spec48 [])) (fun t => t.regs.pc == 0 && t.answer == .loaded) = true := by
  refine Eq.trans (congrArg (fun r => ok r _) (exec_spWithRom_sized spKind_spRomFile _)) ?_
  decide +kernel

/-- The run ends with its list (R130), and a CPU step stands in the list as an item. -/
theorem test_step_ends :
    step State.reset = .fault .runEnded ∧
    ok (step { State.reset with agenda := [.cpuStep] }) (fun t => t.cpu == some [] && t.agenda == []) = true :=
  ⟨rfl, rfl⟩

/-- `FETCH` returns what its `RDB` read, a tick later (R116); `POPW` returns the word and moves `SP`. -/
theorem test_pseudo :
    ok (execPseudo (.fetch 0x4000) (base .pentagon [(0x14000, 0x3C)])) (fun t => t.answer == .byte 0x3C && t.tick == 4) = true ∧
    ok (execPseudo .popw { base .pentagon [(0x14000, 0x34), (0x14001, 0x12)] with regs := { Regs.reset with sp := 0x4000 } })
      (fun t => t.answer == .word 0x1234 && t.regs.sp == 0x4002) = true := by decide +kernel

/-- A CPU may ask for any natural number of ticks (R121). -/
theorem test_tick_natural : ok (issue (busInstr (.tick 70000)) (base .pentagon [])) (fun t => t.tick == 70000) = true := by
  decide +kernel

/-- One write seen by several devices (R191): the ULA and the generic AY on an even address, the disk and the Covox on an odd
one. -/
theorem test_outp_devices :
    ok (exec (.outp 0x8000 0x12) { base .spec128 [] with cfg := { cfgT with ayPresent := true } }) (fun t =>
      t.events == [.borderChange 4 2, .beeper 4 true false, .ayWrite .data 0x12] && t.ay.reg.get 0 == 0x12) = true ∧
    ok (exec (.outp 0x00E3 0x80) (disk { base .pentagon [] with cfg := { cfgT with
        covoxMode := .mono, covox := some [⟨.mono, 0x00FF, 0x00E3, 2⟩] } })) (fun t =>
      t.events == [.covoxWrite 2 0x80, .trdosWrite .system 0x80]) = true := by decide +kernel

/-- The requirement of R301: version 3 reads code 3 as Spec48, so it may not be saved for Spec128. -/
theorem test_saveCodesFit :
    saveCodesFit defaultMachines ⟨3, 6, 8, 9, 1⟩ = true ∧ saveCodesFit defaultMachines ⟨0, 3, 7, 9, 0⟩ = false ∧
    saveCodesFit [] ⟨0, 4, 7, 9, 0⟩ = false := by decide +kernel

/-- Two patterns of one channel select it once (R199: a set). -/
theorem test_covox_set :
    covoxChannels { cfgT with
      covoxMode := .mono, covox := some [⟨.mono, 0x00FF, 0x00FB, 2⟩, ⟨.mono, 0x000F, 0x000B, 2⟩, ⟨.stereo, 0, 0, 1⟩] } 0x00FB =
      [2] := by decide +kernel

/-! ### Witnesses: for each statement with hypotheses, a state and operands that meet them, each clause at an edge -/

/-- A state of the machine with the bytes given to a paging latch, its map following. -/
def latched (a : Arch) (l : Latches) : State := (base a []).setLatches l

/-- An item at the head of the environment's list. -/
def issued (s : State) (ch : Channel) (bytes : List Byte) : State := { s with agenda := [.issue ch bytes] }

theorem witness_PowerOnState : ((7 : Fin 128).val < 8) := by decide

theorem witness_StepKeepsInvariant :
    (issued (base .spec128 []) .record [0x10, 0, 0, 0, 0]).Inv ∧
    ∃ t, step (issued (base .spec128 []) .record [0x10, 0, 0, 0, 0]) = .next t :=
  ⟨⟨rfl, List.Pairwise.nil, fun _ h => absurd h List.not_mem_nil⟩, _, rfl⟩

theorem witness_StepKeepsConfiguration : ∃ t, step (issued (base .plus2A []) .record [0x10, 0, 0, 0, 0]) = .next t := ⟨_, rfl⟩

theorem witness_EventsOnlyGrow :
    ∃ t, step (issued (base .plus2A []) .record [0x05, 0xFE, 0x00, 0x07, 0]) = .next t ∧ t.events ≠ [] := by
  refine ⟨_, rfl, ?_⟩
  decide +kernel

/-- The clauses: an item of the list, a CPU step in progress, a word of the opcode table, and bytes of each channel that are
no row of it. -/
theorem witness_StepRunsDecodedInstruction :
    (let s := issued (base .spec48 []) .record [0x00, 0x00, 0x80, 0, 0]
     s.cfg.allocOk = true ∧ s.cpu = none ∧ s.agenda = .issue .record [0x00, 0x00, 0x80, 0, 0] :: [] ∧
       decode .record [0x00, 0x00, 0x80, 0, 0] = .ok (.rdb 0x8000) ∧ s.failed = false) ∧
    (let s := { base .spec48 [] with cpu := some [] }
     s.cfg.allocOk = true ∧ s.failed = false ∧ s.cpu = some []) ∧
    ((base .spec48 []).cfg.allocOk = true ∧ (base .spec48 []).failed = false ∧
      decodeTableWord 8 0x19 = some .cheatClose) ∧
    decode (.portIn .ula) [0xFF, 0xFF] = .error .rowMismatch ∧ decode (.portOut .ula) [0xFF, 0xFF, 0] = .error .rowMismatch ∧
    decode .snaFile [0] = .error .noVariant ∧ decode .z80File [0] = .error .wrongLength ∧
    decode .spFile [0x53, 0x50] = .error .noVariant ∧ decode .z80Block [0, 0x40, 3] = .error .wrongLength ∧
    decode .z80Tail [0xED] = .error .wrongForm ∧ decode .rle [0xED] = .error .wrongLength ∧
    decode .pokLine [0x59] = .error .noVariant ∧ decode .record [0] = .error .wrongLength :=
  ⟨⟨rfl, rfl, rfl, rfl, rfl⟩, ⟨rfl, rfl, rfl⟩, ⟨rfl, rfl, rfl⟩, by decide +kernel⟩

/-- R111, R364: an output address its row does not match takes its ticks and does nothing else; an input one reads the
floating bus, which outside the display is 0xFF. -/
theorem test_row_declines :
    ok (step (issued (base .spec128 []) (.portOut .page7) [0xFF, 0xFF, 0x03]))
      (fun t => t.latches == (base .spec128 []).latches && decide (0 < t.tick) && t.events == []) = true ∧
    ok (step (issued (base .spec48 []) (.portIn .ula) [0xFF, 0xFF])) (fun t => t.answer == .byte 0xFF) = true := by
  decide +kernel

/-- R112, R251, R281, R320, R362: files of no variant are loads refused early. -/
theorem test_file_of_no_variant :
    ok (step (issued (base .spec48 []) .snaFile [0])) (fun t => t.answer == .failure .badSize && !t.failed) = true ∧
    ok (step (issued (base .spec48 []) .z80File (List.replicate 30 0 ++ [24, 0])))
      (fun t => t.answer == .failure .unknownVersion && !t.failed) = true ∧
    ok (step (issued (base .spec48 []) .spFile (List.replicate 38 0)))
      (fun t => t.answer == .failure .badSignature && !t.failed) = true := by decide +kernel

/-- R289, R361, R362: a block whose data runs past the end is truncated, a late failure; no block at all loads nothing. -/
theorem test_block_string :
    ok (step (issued (base .spec48 []) .z80Block [0x05, 0x00, 0x08, 0x01]))
      (fun t => t.answer == .failure .truncated && t.failed) = true ∧
    ok (step (issued (base .spec48 []) .z80Block [])) (fun t => t.answer == .loaded && t.mem == []) = true := by decide +kernel

/-- R284, R293, R294: a body without the terminator is all data; literals stand for themselves, a lone 0xED at the end too. -/
theorem test_coded_bytes :
    ok (step (issued (base .spec48 []) .z80Tail [0x01, 0xED])) (fun t => t.answer == .bytes [0x01, 0xED]) = true ∧
    ok (step (issued (base .spec48 []) .rle [0x01, 0xED, 0xED, 0x02, 0x05, 0xED]))
      (fun t => t.answer == .bytes [0x01, 0x05, 0x05, 0xED]) = true := by decide +kernel

/-- R338, R340: an untagged line is ignored, its offset counted; lines of one text are taken one after the other. -/
theorem test_pok_text :
    ok (step (issued (base .spec48 []) .pokLine [0x59])) (fun t => t.fill == ⟨none, 2⟩ && t.cheats == []) = true ∧
    ok (step (issued (base .spec48 []) .pokLine
        [0x4E, 0x41, 0x0A, 0x5A, 0x20, 0x38, 0x20, 0x31, 0x20, 0x32, 0x20, 0x33, 0x0A, 0x4E, 0x42]))
      (fun t => t.cheats == [⟨1, 0, 1, false, 0⟩] && t.pokes.length == 1) = true := by decide +kernel

/-- R90, R115: a record that is not 5 bytes long is no transaction. -/
theorem test_short_record :
    step (issued (base .spec48 []) .record [0x00, 0x00]) = .refused (.spellsNothing .wrongLength) := rfl

/-- R340: the end of the file flushes the open cheat, which has a poke; the cursor is cleared. -/
theorem test_pok_end :
    ok (step { base .spec48 [] with agenda := [.pokEnd], fill := ⟨some cheatH1, 30⟩ })
      (fun t => t.cheats == [cheatH1] && t.fill == ⟨none, 0⟩) = true := by decide +kernel

/-- The edges of the operands' ranges. -/
theorem witness_DecodeEncodeRoundTrip :
    (Instr.tick 65535).wf = true ∧ (Instr.reserved 0x0F).wf = true ∧ (Instr.reserved 0xFF).wf = true ∧
    (Instr.wrw 0xFFFF 0xFFFF).wf = true ∧ (Instr.rleEscape 1 0xED).wf = true ∧ (Instr.outpPage1Plus2A 0x1FFD 0xFF).wf = true ∧
    (Instr.z80Block 1 0xFF [0]).wf = true ∧ (Instr.pokZ []).wf = true := by decide +kernel

theorem witness_ReservedSlotRefused :
    ((0x07 : Byte) ≤ 0x07 ∧ (0x07 : Byte) ≤ 0x0F) ∧ ((0x07 : Byte) ≤ 0x0F ∧ (0x0F : Byte) ≤ 0x0F) ∧ (0x1A : Byte) ≤ 0x1A ∧
    (0x1A : Byte) ≤ 0xFF := by decide

/-- A byte of a RAM window and another byte of the same page, and a ROM window. -/
theorem witness_WriteByteResult :
    (base .spec48 []).map.ramCurrent.get (win 0xFFFF) = .ram 0 ∧ (0x3FFF : Nat) < 0x4000 ∧
    ¬((Page.ram 0) = .ram 0 ∧ (0x3FFE : Nat) = (off 0xFFFF).toNat ∧ ∃ b, Page.ram 0 = .ram b) ∧
    ¬((Page.rom 0) = .rom 0 ∧ (0x3FFF : Nat) = (off 0x3FFF).toNat ∧ ∃ b, Page.rom 0 = .ram b) :=
  ⟨rfl, by decide, fun h => absurd h.2.1 (by decide), fun h => by obtain ⟨b, hb⟩ := h.2.2; cases hb⟩

/-- Both clauses: the last address of window 0, the first of window 1, and window 0 in special mode. -/
theorem witness_RomWriteDropped :
    ((base .plus2A []).Mapped ∧ (base .plus2A []).LatchesLegal ∧ win 0x3FFF = 0 ∧
      (base .plus2A []).latches.pagingmode2A3 = false) ∧
    ¬(win 0x4000 = 0 ∧ (base .plus2A []).latches.pagingmode2A3 = false) ∧
    (let s := latched .plus2A ⟨0, false, 0, false, true, 0, false⟩
     s.Mapped ∧ s.LatchesLegal ∧ ¬(win 0x0000 = 0 ∧ s.latches.pagingmode2A3 = false)) := by
  refine ⟨⟨rfl, ⟨?_, ?_, ?_⟩, rfl, rfl⟩, ?_, rfl, ⟨?_, ?_, ?_⟩, ?_⟩ <;> decide +kernel

theorem witness_CpuTickNeverDecreases : (Instr.wrw 0xFFFF 0).agent = .cpu ∧ (Instr.pdu 0).agent = .cpu := ⟨rfl, rfl⟩

/-- Every class of the charge: even on and off TK, odd contended and not, input and output. -/
theorem witness_PortAccessTicks :
    (Instr.inp 0x7FFE).inPort? = some 0x7FFE ∧ (Instr.outp 0x40FF 0).outPort? = some 0x40FF ∧
    (0x7FFE : Word).getLsbD 0 = false ∧ (0x40FF : Word).getLsbD 0 = true ∧ (base .tk []).arch = .tk ∧
    (base .spec48 []).arch ≠ .tk ∧ (base .spec48 []).map.ramContended.get (win 0x40FF) = true ∧
    (base .spec48 []).map.ramContended.get (win 0x00FF) = false := by decide +kernel

theorem witness_KeyRowsAnded :
    (7 : Nat) < 8 ∧ (7 : Fin 128).val < 8 ∧ (0x7FFE : Word).getLsbD (8 + (7 : Fin 128).val) = false := by decide

/-- No tape, and a tape that plays; the two rows. -/
theorem witness_UlaReadResult :
    (0xFFFE : Word).getLsbD 0 = false ∧ (∃ r, (told (base .spec48 []) [0xFE]).oracle = 0xFE :: r ∧ (0xFE : Byte).getLsbD 0 = false) ∧
    (∃ r, (told (base .spec48 []) [1, 0xFF]).oracle = 1 :: 0xFF :: r ∧ (1 : Byte).getLsbD 0 = true) :=
  ⟨rfl, ⟨_, rfl, rfl⟩, ⟨_, rfl, rfl⟩⟩

theorem witness_OddPortReadPriority : (0x7FFD : Word).getLsbD 0 = true ∧ (0x001F : Word).getLsbD 0 = true := ⟨rfl, rfl⟩

/-- One address of each row, with the row's condition, and a queued answer. -/
theorem witness_CollaboratorReads :
    ((disk (base .pentagon [])).latches.trdosPaged = true ∧ (0x0007 : Word) &&& 0x00E3 = 0x03 ∧
      (0x003F : Word) &&& 0x00E3 = 0x23 ∧ (0xFF5F : Word) &&& 0x00E3 = 0x43 ∧ (0x007F : Word) &&& 0x00E3 = 0x63 ∧
      (0x00FF : Word) &&& 0x00E3 = 0xE3) ∧
    ({ cfgT with mouse := true }.mouse = true ∧ (0xFBDF : Word) &&& 0x05FF = 0x01DF ∧ (0xFFDF : Word) &&& 0x05FF = 0x05DF ∧
      (0xFADF : Word) &&& 0x05FF = 0x00DF) ∧
    ({ cfgT with ayPresent := true }.ayPresent = true ∧ (0xFFFD : Word).getLsbD 0 = true ∧ (0xFFFD : Word) &&& 0xC002 = 0xC000) ∧
    (∃ r, (told (base .pentagon []) [0x5A]).oracle = 0x5A :: r) :=
  ⟨⟨rfl, rfl, rfl, rfl, rfl, rfl⟩, ⟨rfl, rfl, rfl, rfl⟩, ⟨rfl, rfl, rfl⟩, _, rfl⟩

theorem witness_JoystickReads :
    ({ cfgT with joystick := .kempston }.joystick = .kempston ∧ (0xFF1F : Word) &&& 0x00FF = 0x001F) ∧
    ({ cfgT with joystick := .fuller }.joystick = .fuller ∧ (0x007F : Word) &&& 0x00FF = 0x007F) := ⟨⟨rfl, rfl⟩, rfl, rfl⟩

theorem witness_PagingPortRead :
    (base .spec128 []).arch = .spec128 ∧ (0x7FFD : Word).getLsbD 0 = true ∧ (0x7FFD : Word) &&& 0x8002 = 0x0000 :=
  ⟨rfl, rfl, rfl⟩

theorem witness_FloatBusRead : (0x40FF : Word).getLsbD 0 = true := rfl

/-- A read that may page, one that may not, and a mapped state. -/
theorem witness_InputFrame :
    (Instr.inpPage7Read 0x7FFD).inPort? = some 0x7FFD ∧ (base .pentagon []).arch ≠ .spec128 ∧
    (latched .spec128 ⟨0, false, 0, true, false, 0, false⟩).latches.pagingLock = true ∧ (0x00FE : Word).getLsbD 0 = false ∧
    (base .spec128 []).Mapped := ⟨rfl, by decide, rfl, rfl, rfl⟩

theorem witness_OutputFrame :
    (Instr.outpCovox 0x00FB 0).outPort? = some 0x00FB ∧ (0x00FB : Word).getLsbD 0 = true ∧
    (Instr.outpUla 0x00FE 0).outPort? = some 0x00FE ∧ (0x00FE : Word).getLsbD 0 = false ∧ (base .spec128 []).Mapped :=
  ⟨rfl, rfl, rfl, rfl, rfl⟩

theorem witness_UlaWriteResult : (0xFFFE : Word).getLsbD 0 = false := rfl

/-- Configured and not, paged in and not, one address of each row. -/
theorem witness_CovoxAndDiskWrites :
    ((0x00FB : Word).getLsbD 0 = true ∧ { cfgT with covoxMode := .mono }.covoxMode ≠ .none) ∧ cfgT.covoxMode = .none ∧
    ((disk (base .pentagon [])).latches.trdosPaged = true ∧ (0x001F : Word) &&& 0x00E3 = 0x03 ∧
      (0x003F : Word) &&& 0x00E3 = 0x23 ∧ (0x005F : Word) &&& 0x00E3 = 0x43 ∧ (0x007F : Word) &&& 0x00E3 = 0x63 ∧
      (0x00FF : Word) &&& 0x00E3 = 0xE3) ∧ (base .pentagon []).latches.trdosPaged = false :=
  ⟨⟨rfl, by decide⟩, rfl, ⟨rfl, rfl, rfl, rfl, rfl, rfl⟩, rfl⟩

/-- The three forms, the lock clear. -/
theorem witness_FirstPagingPort :
    (base .pentagon []).latches.pagingLock = false ∧ (0x7FFD : Word).getLsbD 0 = true ∧ (0x7FFD : Word) &&& 0x8002 = 0x0000 ∧
    (base .plus2A []).latches.pagingLock = false ∧ (0x7FFD : Word) &&& 0xC002 = 0x4000 ∧
    (base .spec128 []).latches.pagingLock = false ∧ (base .spec128 []).arch.is48 = false := ⟨rfl, rfl, rfl, rfl, rfl, rfl, rfl⟩

theorem witness_SecondPagingPort :
    (base .plus2A []).latches.pagingLock = false ∧ (base .plus2A []).arch = .plus2A ∧ (0x1FFD : Word).getLsbD 0 = true ∧
    (0x1FFD : Word) &&& 0xF002 = 0x1000 := ⟨rfl, rfl, rfl, rfl⟩

/-- A paging write with the lock set. -/
theorem witness_LockFreezesPaging :
    (latched .spec128 ⟨0, false, 0, true, false, 0, false⟩).latches.pagingLock = true ∧
    (Instr.outp 0x7FFD 0x07).agent ≠ .snap ∧ Instr.outp 0x7FFD 0x07 ≠ .reset ∧
    ∃ t, exec (.outp 0x7FFD 0x07) (latched .spec128 ⟨0, false, 0, true, false, 0, false⟩) = .next t :=
  ⟨rfl, by decide, by decide, _, rfl⟩

/-- `RESET` clears a set lock. A block cut off is a failure at which the lock holds any value. -/
theorem witness_LockClearedOnlyByResetOrLoad :
    ∃ t, step (issued (latched .spec128 ⟨0, false, 0, true, false, 0, false⟩) .record [0x10, 0, 0, 0, 0]) = .next t ∧
      (issued (latched .spec128 ⟨0, false, 0, true, false, 0, false⟩) .record [0x10, 0, 0, 0, 0]).latches.pagingLock = true ∧
      t.latches.pagingLock = false := ⟨_, rfl, rfl, rfl⟩

theorem witness_LockClearedByBlock :
    (∃ r, decode .z80Block [0x05, 0x00, 0x08] = .error r) ∧
    ∃ t, step (issued (latched .spec128 ⟨0, false, 0, true, false, 0, false⟩) .z80Block [0x05, 0x00, 0x08]) = .next t ∧
      t.answer = .failure .truncated := ⟨⟨_, rfl⟩, _, rfl, rfl⟩

/-- The four special tables, the normal map, a RAM window and the ROM window. -/
theorem witness_RemapWindows :
    (∀ n : BitVec 2, (latched .plus2A ⟨0, false, 0, false, true, n, false⟩).arch = .plus2A ∧
      (latched .plus2A ⟨0, false, 0, false, true, n, false⟩).latches.pagingmode2A3 = true ∧
      (latched .plus2A ⟨0, false, 0, false, true, n, false⟩).latches.specialCfg2A3 = n) ∧
    ¬((base .spec128 []).arch = .plus2A ∧ (base .spec128 []).latches.pagingmode2A3 = true) ∧
    (base .spec128 []).remap.map.ramCurrent.get 3 = .ram 0 ∧ (base .spec128 []).remap.map.ramCurrent.get 0 = .rom 0 :=
  ⟨fun _ => ⟨rfl, rfl, rfl⟩, by decide, rfl, rfl⟩

theorem witness_LatchesStayLegal :
    (base .spec128 []).LatchesLegal ∧ (base .spec128 []).failed = false ∧
    ∃ t, step (issued (base .spec128 []) .record [0x05, 0xFD, 0x7F, 0x3F, 0]) = .next t ∧ t.failed = false := by
  refine ⟨⟨?_, ?_, ?_⟩, rfl, _, rfl, ?_⟩ <;> decide +kernel

theorem witness_CpuTransactionKeeps : (Instr.outp 0x7FFD 0x07).agent = .cpu := rfl

/-- A write that ROM drops. -/
theorem witness_RomPagesKept :
    ∃ t, exec (.wrb 0x0000 0xAA) (base .spec48 []) = .next t ∧ Instr.wrb 0x0000 0xAA ≠ .loadSp ∧
      (∀ f, Instr.wrb 0x0000 0xAA ≠ .spWithRom f) ∧ t.arch = (base .spec48 []).arch ∧ t.failed = false ∧ (0x3FFF : Nat) < 0x4000 :=
  ⟨_, rfl, by simp, by simp, rfl, rfl, by simp⟩

theorem witness_ResetCommand : ((7 : Fin 128).val < 8) := by decide

/-- Every way the machine is stuck. -/
theorem witness_StuckMachine :
    { cfgT with allocOk := false }.allocOk = false ∧
    (let s := { base .spec48 [] with failed := true }
     s.cfg.allocOk = true ∧ s.failed = true ∧ s.cpu = none ∧ s.agenda = [] ∧ { s with cpu := some [] }.cpu ≠ none ∧
       { s with agenda := [.cpuStep] }.agenda = .cpuStep :: [] ∧
       (issued s .record [0x06, 0, 0, 4, 0]).agenda = .issue .record [0x06, 0, 0, 4, 0] :: [] ∧
       decode .record [0x06, 0, 0, 4, 0] = .ok (.tick 4) ∧ (Instr.tick 4).agent = .cpu) :=
  ⟨rfl, rfl, rfl, rfl, rfl, by simp, rfl, rfl, rfl, rfl⟩

/-- A host write at the head of the list, and an element of each array at index 0. -/
theorem witness_HostWrites :
    let s := { base .spec48 [] with
      agenda := [.host (.setPort 127 0xFE)], cheats := [cheatH1], pokes := [pokeH1b, pokeH1a] }
    s.cfg.allocOk = true ∧ s.cpu = none ∧ s.agenda = .host (.setPort 127 0xFE) :: [] ∧ s.cheats[0]? = some cheatH1 ∧
      s.pokes[0]? = some pokeH1b ∧ pokeH1b.isInput = true ∧ s.pokes[1]? = some pokeH1a ∧ pokeH1a.isInput = false :=
  ⟨rfl, rfl, rfl, rfl, rfl, rfl, rfl, rfl⟩

/-- A file for each refusal, at the edge of its length. -/
theorem witness_LoadRefusedEarly :
    ((List.replicate 29 (0 : Byte)).length < 30 ∧ (List.replicate 29 (0 : Byte)).length ∉ [49179, 131103, 147487, 131121, 147505]) ∧
    (let f : List Byte := List.replicate 31 0
     30 ≤ f.length ∧ le16 f 6 = 0 ∧ f.length < 32) ∧
    (let f : List Byte := List.replicate 30 0 ++ [24, 0]
     30 ≤ f.length ∧ le16 f 6 = 0 ∧ 32 ≤ f.length ∧ le16 f 30 ∉ ([23, 54, 55] : List Word)) ∧
    (let f : List Byte := List.replicate 30 0 ++ [55, 0, 0, 0]
     le16 f 6 = 0 ∧ 32 ≤ f.length ∧ le16 f 30 ∈ ([23, 54, 55] : List Word) ∧ f.length < 35) ∧
    (let f : List Byte := List.replicate 30 0 ++ [23, 0, 0, 0, 2]
     35 ≤ f.length ∧ le16 f 6 = 0 ∧ le16 f 30 = 23 ∧ z80MachineMap cfgT 2 (fileByte f 34) = none) ∧
    (let f : List Byte := List.replicate 30 0 ++ [54, 0, 0, 0, 2]
     35 ≤ f.length ∧ le16 f 6 = 0 ∧ le16 f 30 = 54 ∧ z80MachineMap cfgT 3 (fileByte f 34) = none) ∧
    (List.replicate 37 (0 : Byte)).length < 38 ∧
    (let f : List Byte := [0x53, 0x51] ++ List.replicate 36 0
     38 ≤ f.length ∧ ¬(fileByte f 0 = 0x53 ∧ fileByte f 1 = 0x50)) ∧
    (let f : List Byte := [0x53, 0x50, 0x00, 0xC0] ++ List.replicate 34 0
     38 ≤ f.length ∧ (fileByte f 0 = 0x53 ∧ fileByte f 1 = 0x50) ∧ ¬(le16 f 2 = 49152 ∧ le16 f 4 = 16384) ∧
       ¬(le16 f 2 = 0 ∧ le16 f 4 = 0)) ∧
    (let f : List Byte := [0x53, 0x50, 0x00, 0xC0, 0x00, 0x40] ++ List.replicate 32 0
     38 ≤ f.length ∧ (fileByte f 0 = 0x53 ∧ fileByte f 1 = 0x50) ∧ (le16 f 2 = 49152 ∧ le16 f 4 = 16384) ∧ f.length ≠ 49190) ∧
    (let f : List Byte := [0x53, 0x50] ++ List.replicate 36 0
     38 ≤ f.length ∧ (fileByte f 0 = 0x53 ∧ fileByte f 1 = 0x50) ∧ (le16 f 2 = 0 ∧ le16 f 4 = 0) ∧ f.length ≠ 65574) ∧
    ({ base .spec48 [] with file := some [] }.file = some [] ∧ (base .spec48 []).file = none) := by decide +kernel

/-! ### Witnesses of the snapshot and cheat statements -/

/-- A file of `a` zeros, one byte, and `n` zeros more. -/
def mark (a : Nat) (v : Byte) (n : Nat) : List Byte := List.replicate a 0 ++ v :: List.replicate n 0

theorem mark_length (a : Nat) (v : Byte) (n : Nat) : (mark a v n).length = a + (n + 1) := by
  simp only [mark, List.length_append, List.length_replicate, List.length_cons]

theorem mark_at (a : Nat) (v : Byte) (n : Nat) : fileByte (mark a v n) a = v := by
  simp [fileByte, mark, List.getD_eq_getElem?_getD]

theorem mark_before {a i : Nat} (v : Byte) (n : Nat) (h : i < a) : fileByte (mark a v n) i = 0 := by
  simp [fileByte, mark, List.getD_eq_getElem?_getD, List.getElem?_append_left, h]

/-- On the running architecture, and with a switch. -/
theorem witness_Sna48Load :
    sna48.length = 49179 ∧ fileByte sna48 25 &&& 0x03 ≠ 3 ∧ (base .tk []).arch = .tk ∧
    (base .pentagon []).cfg.allocOk = true ∧ { base .tk [] with file := some sna48 }.file = some sna48 :=
  ⟨sna48_length, by decide +kernel, rfl, rfl, rfl⟩

/-- A file for each variant, its paging byte on the edge of the size rule. -/
theorem witness_Sna128Load :
    (let f := mark 49181 0x07 81921
     f.length = SnaVariant.s128a.size ∧ fileByte f 25 &&& 0x03 ≠ 3 ∧ (fileByte f 49181).extractLsb' 0 3 ≠ 2 ∧
       (fileByte f 49181).extractLsb' 0 3 ≠ 5) ∧
    (let f := mark 49181 0x02 98305
     f.length = SnaVariant.s128b.size ∧ fileByte f 25 &&& 0x03 ≠ 3 ∧ (fileByte f 49181).extractLsb' 0 3 = 2) ∧
    (let f := mark 49181 0x20 81939
     f.length = SnaVariant.s2A3a.size ∧ fileByte f 25 &&& 0x03 ≠ 3 ∧ (fileByte f 49181).extractLsb' 0 3 ≠ 2 ∧
       (fileByte f 49181).extractLsb' 0 3 ≠ 5) ∧
    (let f := mark 49181 0x05 98323
     f.length = SnaVariant.s2A3b.size ∧ fileByte f 25 &&& 0x03 ≠ 3 ∧ (fileByte f 49181).extractLsb' 0 3 = 5) ∧
    SnaVariant.s128a ≠ .s48 ∧ (base .spec128 []).cfg.allocOk = true := by
  simp only [mark_length, mark_at, mark_before _ _ (show 25 < 49181 by omega)]
  refine ⟨?_, ?_, ?_, ?_, ?_, rfl⟩ <;> decide +kernel

/-- Both memory classes, +2A among them, and the edges of the image. -/
theorem witness_SaveSnaFile :
    (base .tk []).arch.is48 = true ∧ (0x4000 : Word) ≤ 0x4000 ∧ (0x4000 : Word) ≤ 0xFFFF ∧ (base .plus2A []).arch.is48 = false ∧
    (base .plus2A []).arch = .plus2A ∧ (0x3FFF : Nat) < 0x4000 ∧ (remainingBanks 2)[5]? = some 7 := by decide +kernel

/-- The edges of the stack pointer that R267 admits are met; here `SP` = 8000. -/
theorem witness_Sna48RoundTrip :
    sna48.length = 49179 ∧ (base .spec48 []).arch.is48 = true ∧ fileByte sna48 19 &&& 0xFB = 0 ∧ fileByte sna48 25 ≤ 2 ∧
    fileByte sna48 26 < 8 ∧ 0x4000 ≤ le16 sna48 23 ∧ le16 sna48 23 ≤ 0xFFFE :=
  ⟨sna48_length, rfl, by decide +kernel, by decide +kernel, by decide +kernel, by decide +kernel, by decide +kernel⟩

/-- `n` escapes of 255 zeros. -/
def zeros255 (n : Nat) : List Byte := (List.replicate n [0xED, 0xED, 0xFF, 0x00]).flatten

theorem zeros255_length (n : Nat) : (zeros255 n).length = 4 * n := by
  simp only [zeros255, List.length_flatten, List.map_replicate, List.sum_replicate, smul_eq_mul]
  exact Nat.mul_comm n 4

/-- What a run of escapes stands for (V-RLE24). -/
theorem decompress_zeros255 (n m : Nat) (tail : List Byte) :
    (decompress (zeros255 n ++ tail) (255 * n + m)).length = 255 * n + (decompress tail m).length := by
  induction n with
  | zero => simp [zeros255]
  | succ n ih =>
    have e : zeros255 (n + 1) ++ tail = 0xED :: 0xED :: 0xFF :: 0x00 :: (zeros255 n ++ tail) := by
      simp [zeros255, List.replicate_succ]
    have h : 255 * (n + 1) + m = (255 * n + m + 254) + 1 := by omega
    have hm : min (0xFF : Byte).toNat (255 * n + m + 254 + 1) = 255 := by
      show min 255 _ = 255
      omega
    rw [e, h, decompress, if_pos ⟨rfl, rfl⟩]
    simp only [hm, List.length_append, List.length_replicate]
    rw [show 255 * n + m + 254 + 1 - 255 = 255 * n + m by omega, ih]
    omega

/-- A version 1 header, with the flags byte given: `PC` = 1. -/
def v1Header (flags : Byte) : List Byte :=
  List.replicate 6 0 ++ [1, 0] ++ List.replicate 4 0 ++ [flags] ++ List.replicate 17 0

/-- A version 1 header with the flags and `IM` bytes given. -/
def v1HeaderIm (flags im : Byte) : List Byte := (v1Header flags).take 29 ++ [im]

/-- A raw body, and a compressed one that ends in its terminator. -/
theorem witness_Z80V1Load :
    (let f := v1Header 0 ++ List.replicate 49152 0
     30 ≤ f.length ∧ le16 f 6 ≠ 0 ∧ fileByte f 29 &&& 0x03 ≠ 3 ∧ (fileByte f 12).getLsbD 5 = false ∧
       f.drop 30 = List.replicate 49152 0 ∧ (List.replicate 49152 (0 : Byte)).length = 49152) ∧
    (let body := zeros255 192 ++ [0xED, 0xED, 0xC0, 0x00]
     let f := v1Header 0x20 ++ (body ++ [0x00, 0xED, 0xED, 0x00])
     30 ≤ f.length ∧ le16 f 6 ≠ 0 ∧ fileByte f 29 &&& 0x03 ≠ 3 ∧ fileByte f 12 ≠ 255 ∧ (fileByte f 12).getLsbD 5 = true ∧
       (f.drop 30).drop ((f.drop 30).length - 4) = [0x00, 0xED, 0xED, 0x00] ∧
       (decompress ((f.drop 30).take ((f.drop 30).length - 4)) 49152).length = 49152) ∧
    (base .pentagon []).cfg.allocOk = true := by
  have hl : ∀ v, (v1Header v).length = 30 := fun v => rfl
  have hd : ∀ v (l : List Byte), (v1Header v ++ l).drop 30 = l := fun v l => List.drop_left' (hl v)
  refine ⟨⟨?_, ?_, ?_, ?_, hd _ _, List.length_replicate⟩, ⟨?_, ?_, ?_, ?_, ?_, ?_, ?_⟩, rfl⟩
  · simp only [List.length_append, hl]; omega
  · decide +kernel
  · decide +kernel
  · decide +kernel
  · simp only [List.length_append, hl]; omega
  · decide +kernel
  · decide +kernel
  · decide +kernel
  · decide +kernel
  · rw [hd]; exact List.drop_left' (by simp)
  · rw [hd, List.take_left' (by simp)]
    exact (decompress_zeros255 192 192 _).trans (by decide +kernel)

/-- A version 2 header of an architecture code: `PC` = 1234, paging byte 1B. -/
def v2Header (code : Byte) : List Byte :=
  List.replicate 30 0 ++ [23, 0, 0x34, 0x12, code, 0x1B] ++ List.replicate 19 0

/-- A version 3 header with the second paging byte: `L` = 55. -/
def v3Header (code : Byte) : List Byte :=
  List.replicate 30 0 ++ [55, 0, 0x34, 0x12, code, 0x1B] ++ List.replicate 50 0 ++ [0x05]

/-- The late failures of the three formats, on the running architecture. -/
theorem witness_LateLoadFailure :
    (let f := mark 25 3 49153
     f.length = SnaVariant.s48.size ∧ fileByte f 25 &&& 0x03 = 3 ∧ snaArch .s48 (base .spec48 []) = (base .spec48 []).arch) ∧
    (let f := mark 49181 0x02 81921
     f.length = SnaVariant.s128a.size ∧ fileByte f 25 &&& 0x03 ≠ 3 ∧ SnaVariant.s128a ≠ .s48 ∧
       snaArch .s128a (base .spec128 []) = (base .spec128 []).arch ∧
       ¬(SnaVariant.s128a = .s128a ∨ SnaVariant.s128a = .s2A3a ↔
         (fileByte f 49181).extractLsb' 0 3 ≠ 2 ∧ (fileByte f 49181).extractLsb' 0 3 ≠ 5)) ∧
    (∃ t, exec (.z80Block 4 8 [0]) (base .spec48 []) = .next t ∧ (base .spec48 []).failed = false ∧ t.failed = true) := by
  simp only [mark_length, mark_at, mark_before _ _ (show 25 < 49181 by omega)]
  refine ⟨?_, ?_, _, rfl, rfl, rfl⟩ <;> decide +kernel

/-- A Z80 file for each late failure: `IM` 3, a raw body and a compressed one cut short, a header cut short, and a last block
of one byte. -/
theorem witness_LateLoadFailure_z80 :
    (let f := v1HeaderIm 0 3
     30 ≤ f.length ∧ z80Version f = .ok .v1 ∧ z80Arch .v1 f (base .spec48 []) = .ok .spec48 ∧ fileByte f 29 &&& 0x03 = 3) ∧
    (let f := v1Header 0
     z80Version f = .ok .v1 ∧ fileByte f 29 &&& 0x03 ≠ 3 ∧ (fileByte f 12).getLsbD 5 = false ∧ (f.drop 30).length ≠ 49152) ∧
    (let f := v1Header 0x20
     z80Version f = .ok .v1 ∧ (fileByte f 12).getLsbD 5 = true ∧ (decompress (f.drop 30) 49152).length ≠ 49152) ∧
    (let f := (v2Header 0).take 54
     30 ≤ f.length ∧ z80Version f = .ok .v2 ∧ z80Arch .v2 f (base .spec48 []) = .ok .spec48 ∧ fileByte f 29 &&& 0x03 ≠ 3 ∧
       f.length < 32 + (le16 f 30).toNat) ∧
    (let f := v2Header 0 ++ [0x00]
     z80Version f = .ok .v2 ∧ 32 + (le16 f 30).toNat ≤ f.length ∧
       ¬∃ blocks : List (Word × Byte × List Byte),
         f.drop (32 + (le16 f 30).toNat) =
           blocks.flatMap (fun b => b.1.extractLsb' 0 8 :: b.1.extractLsb' 8 8 :: b.2.1 :: b.2.2)) ∧
    ¬(([0] : List Byte).length = (if (4 : Word) = 0xFFFF then 16384 else (4 : Word).toNat)) := by
  refine ⟨by decide +kernel, by decide +kernel, by decide +kernel, by decide +kernel, ⟨by decide +kernel, by decide +kernel, ?_⟩,
    by decide⟩
  rintro ⟨blocks, h⟩
  have h1 : (v2Header 0 ++ [0x00]).drop (32 + (le16 (v2Header 0 ++ [0x00]) 30).toNat) = [0x00] := by decide +kernel
  rw [h1] at h
  cases blocks with
  | nil => simp at h
  | cons b bs => simp at h

/-- A zero page as a compressed block: 64 escapes of 255 and one of 64, 260 bytes. -/
def zeroPage : List Byte := zeros255 64 ++ [0xED, 0xED, 0x40, 0x00]

theorem zeroPage_length : zeroPage.length = 260 := by
  simp only [zeroPage, List.length_append, zeros255_length]; rfl

theorem zeroPage_decompress : (decompress zeroPage 16384).length = 16384 :=
  (decompress_zeros255 64 64 _).trans (by decide +kernel)

/-- A raw and a compressed block on the running architecture; no block at all, on a switch to Plus2A. -/
theorem witness_Z80BlocksLoad :
    (let blocks : List (Word × Byte × List Byte) := [(0xFFFF, 8, List.replicate 16384 0), (260, 8, zeroPage)]
     let f := v2Header 0 ++ blocks.flatMap (fun b => b.1.extractLsb' 0 8 :: b.1.extractLsb' 8 8 :: b.2.1 :: b.2.2)
     Z80Ver.v2 ≠ .v1 ∧ 30 ≤ f.length ∧ z80Version f = .ok .v2 ∧ z80Arch .v2 f (base .tk []) = .ok .tk ∧
       fileByte f 29 &&& 0x03 ≠ 3 ∧ 32 + (le16 f 30).toNat ≤ f.length ∧
       f.drop (32 + (le16 f 30).toNat) =
         blocks.flatMap (fun b => b.1.extractLsb' 0 8 :: b.1.extractLsb' 8 8 :: b.2.1 :: b.2.2) ∧
       ∀ b ∈ blocks, b.2.2.length = (if b.1 = 0xFFFF then 16384 else b.1.toNat) ∧
         (if b.1 = 0xFFFF then b.2.2 else decompress b.2.2 16384).length = 16384) ∧
    (let f := v3Header 7
     z80Version f = .ok .v3 ∧ z80Arch .v3 f (base .spec48 []) = .ok .plus2A ∧ fileByte f 29 &&& 0x03 ≠ 3 ∧
       f.drop (32 + (le16 f 30).toNat) = [] ∧ (base .spec48 []).cfg.allocOk = true) := by
  refine ⟨?_, by decide +kernel, by decide +kernel, by decide +kernel, by decide +kernel, rfl⟩
  extract_lets blocks f
  have h2 : (v2Header 0).length = 55 := rfl
  have hb : ∀ i, i < 55 → fileByte f i = fileByte (v2Header 0) i := fun i hi => by
    simp only [f, fileByte, List.getD_eq_getElem?_getD, List.getElem?_append_left (h2 ▸ hi)]
  have hlen : 55 ≤ f.length := by simp only [f, List.length_append, h2]; omega
  have hext : (le16 f 30).toNat = 23 := by simp only [le16, hb 30 (by omega), hb 31 (by omega)]; rfl
  refine ⟨by decide, by omega, ?_, ?_, ?_, by omega, ?_, ?_⟩
  · have h6 : le16 f 6 = 0 := by simp only [le16, hb 6 (by omega), hb 7 (by omega)]; rfl
    simp only [z80Version, z80ExtLen, hext, h6, if_neg (show ¬f.length < 32 by omega)]
    rfl
  · simp only [z80Arch, if_neg (show ¬f.length < 35 by omega), hb 34 (by omega)]
    rfl
  · rw [hb 29 (by omega)]; decide
  · rw [hext]; exact List.drop_left' h2
  · intro b hm
    rcases List.mem_cons.1 hm with rfl | hm
    · simp only [if_true, List.length_replicate, and_self]
    · obtain rfl := List.mem_singleton.1 hm
      exact ⟨zeroPage_length, zeroPage_decompress⟩

/-- A raw and a compressed block. -/
theorem witness_Z80BlockAndTerminator :
    ((List.replicate 16384 (0 : Byte)).length = (if (0xFFFF : Word) = 0xFFFF then 16384 else (0xFFFF : Word).toNat)) ∧
    (zeroPage.length = (if (260 : Word) = 0xFFFF then 16384 else (260 : Word).toNat) ∧
      (if (260 : Word) = 0xFFFF then zeroPage else decompress zeroPage 16384).length = 16384) :=
  ⟨by simp only [if_true, List.length_replicate], zeroPage_length, zeroPage_decompress⟩

theorem witness_SaveZ80File : (36 ≤ 36 ∧ 36 < 86) ∧ (36 ≤ 85 ∧ 85 < 86) ∧ (base .plus2A []).arch = .plus2A :=
  ⟨by decide, by decide, rfl⟩

theorem witness_RleRoundTrip :
    ([0xED, 0xED] : List Byte).length ≤ 2 ∧ (0xEE : Byte) ≠ 0xED ∧ (4 : Nat) ≤ 4 ∧ (0 : Nat) ≤ 4 := by decide

theorem witness_RleHardBound : (0 : Nat) ≤ 0 ∧ (4 : Nat) ≤ 255 := by decide

/-- Both variants, on the running architecture and with a switch. -/
theorem witness_SpLoad :
    (fileByte spFile 0 = 0x53 ∧ fileByte spFile 1 = 0x50 ∧ le16 spFile 2 = 49152 ∧ le16 spFile 4 = 16384 ∧
      spFile.length = 49190) ∧
    (fileByte spRomFile 0 = 0x53 ∧ fileByte spRomFile 1 = 0x50 ∧ le16 spRomFile 2 = 0 ∧ le16 spRomFile 4 = 0 ∧
      spRomFile.length = 65574) ∧ (base .plus2A []).cfg.allocOk = true := by
  refine ⟨⟨?_, ?_, ?_, ?_, ?_⟩, ⟨?_, ?_, ?_, ?_, ?_⟩, rfl⟩
  · decide +kernel
  · decide +kernel
  · decide +kernel
  · decide +kernel
  · simp only [spFile, List.length_append, List.length_replicate]; rfl
  · decide +kernel
  · decide +kernel
  · decide +kernel
  · decide +kernel
  · simp only [spRomFile, List.length_append, List.length_replicate]; rfl

theorem witness_CheatLoadAndClose : (base .spec48 []).file = none := rfl

/-- The file of V-H1 leaves a cheat and two pokes. -/
theorem witness_CheatFillWithinCounts :
    { State.reset with file := some pokText }.file = some pokText ∧
    ok (exec .cheatLoad { State.reset with file := some pokText }) (fun t => t.cheats == [cheatH1] && t.pokes.length == 2) = true :=
  ⟨rfl, by decide +kernel⟩

/-- A line with four integers inside a cheat, one of them 256, and a line with three. -/
theorem witness_PokLineEffects :
    pokeFields [0x20, 0x38, 0x20, 0x31, 0x20, 0x32, 0x35, 0x36, 0x20, 0x33] = some (8, 1, 256, 3) ∧
    pokeFields [0x20, 0x38, 0x20, 0x31, 0x20, 0x32] = none ∧
    { State.reset with fill := ⟨some cheatH1, 0⟩ }.fill.cur = some cheatH1 ∧ State.reset.fill.cur = none ∧
    { base .spec48 [] with agenda := [.pokEnd] }.agenda = .pokEnd :: [] ∧ (base .spec48 []).cpu = none ∧
    (base .spec48 []).cfg.allocOk = true := by decide +kernel

/-- Two enabled cheats that address one byte, the first twice: the last write in array order wins (R342); a disabled cheat
writes back what the file gave. -/
theorem witness_CheatApplyIdempotent :
    ok (exec .cheatApply { base .spec48 [] with
      cheats := [⟨1, 0, 2, true, 0⟩, ⟨9, 2, 1, true, 0⟩]
      pokes := [⟨8, 0xFFFF, 1, 0, false, false, false⟩, ⟨8, 0xFFFF, 2, 0, false, false, false⟩,
        ⟨0, 0x3FFF, 3, 0, false, false, false⟩] }) (fun t => t.readPage (.ram 0) 0x3FFF == 3 && t.mem.length == 1) = true ∧
    ok (exec .cheatApply { base .spec128 [] with
      cheats := [⟨1, 0, 1, false, 0⟩], pokes := [⟨7, 0xC000, 1, 5, false, false, true⟩] })
      (fun t => t.readPage (.ram 7) 0 == 5) = true := by decide +kernel

theorem witness_CheatFetchCapturesOnce :
    ∃ t, exec .cheatFetch { base .spec128 [(0xC000, 0x3E)] with pokes := [⟨3, 49152, 201, 0, false, false, false⟩] } = .next t ∧
      { base .spec128 [] with pokes := t.pokes }.pokes = t.pokes := ⟨_, rfl, rfl⟩

end Sys2Proof.Tests
end

section
/-! SUPPORT. The memory transactions as whole next states (R141 to R143), with the three statements about them. -/

namespace Sys2Proof.Machine

/-- The ticks of an access as one sum: the delay where the window is contended, then the access's own (R232). -/
theorem advanceTick_eq_add (cfg : Cfg) (arch : Arch) (n : Nat) (c : Bool) (t : Nat) :
    advanceTick cfg arch n c t = t + (if c = true then contentionDelay cfg arch t else 0) + n := by
  cases c with
  | false => rfl
  | true => rfl

theorem exec_rdb (addr : Word) (s : State) :
    exec (.rdb addr) s = .next ((s.readTimed addr).2.give (.byte (s.readTimed addr).1)) := rfl

theorem exec_wrb (addr : Word) (v : Byte) (s : State) :
    exec (.wrb addr v) s = .next ((s.writeTimed addr v).give .none) := rfl

theorem exec_rdw (addr : Word) (s : State) :
    exec (.rdw addr) s =
      .next (((s.readTimed addr).2.readTimed (addr + 1)).2.give
        (.word (wordOf ((s.readTimed addr).2.readTimed (addr + 1)).1 (s.readTimed addr).1))) := rfl

/-- The answer of an earlier transaction plays no part in a timed read. -/
theorem State.readTimed_give (s : State) (a : Answer) (addr : Word) :
    (s.give a).readTimed addr = ((s.readTimed addr).1, (s.readTimed addr).2.give a) := rfl

/-- What a byte of a page reads after a timed write is what it reads after the untimed one: ticks are not memory (R142). -/
theorem State.readPage_writeTimed (s : State) (addr : Word) (v : Byte) (p : Page) (o : Nat) :
    (s.writeTimed addr v).readPage p o = (s.memWrite addr v).readPage p o := by
  rw [s.writeTimed_eq addr v, s.memWrite_frame addr v]
  exact State.readPage_congr rfl rfl rfl rfl p o

/-- Settles O10: a timed read is its ticks, the byte the window shows, and the note of a contended access. -/
theorem readByteResult : Obligations.ReadByteResult := by
  intro addr s
  rw [exec_rdb, State.readTimed_eq, advanceTick_eq_add]
  rfl

/-- Settles O11: a timed write is its ticks, the note of a contended access, and the untimed write, which is performed on
a RAM page and dropped on a ROM page. -/
theorem writeByteResult : Obligations.WriteByteResult := by
  intro addr v s c p o
  have read : ∀ (q : Page) (o' : Nat),
      ((s.writeTimed addr v).give .none).readPage q o' = (s.memWrite addr v).readPage q o' :=
    s.readPage_writeTimed addr v
  refine ⟨_, exec_wrb addr v s, ?_, fun b hb => ?_, fun q o' ho' hne => ?_⟩
  · rw [State.writeTimed_eq, advanceTick_eq_add]
    rfl
  · have hpage : s.pageAt addr = .ram b := hb
    rw [read, s.readPage_memWrite addr v p (off_lt addr), hpage]
    exact if_pos ⟨hb, rfl⟩
  · rw [read, s.readPage_memWrite addr v q ho']
    cases hpage : s.pageAt addr with
    | rom r => rfl
    | ram b => exact if_neg fun ⟨hq, ho⟩ => hne ⟨hq.trans hpage.symm, ho, b, hpage⟩

/-- Settles O13: the second `RDB` of a word read does not see the answer of the first. -/
theorem readWordResult : Obligations.ReadWordResult := by
  intro addr s
  refine ⟨_, _, _, _, exec_rdb addr s, rfl, exec_rdb (addr + 1) _, rfl, ?_⟩
  rw [State.readTimed_give, exec_rdw]
  rfl

end Sys2Proof.Machine
end

section
/-! SUPPORT. What every step keeps of the state it starts from: the configuration record (R5, R396) and the events already
emitted (R10, R55). One lemma over the forms of an execution, one over the forms of a step. -/

namespace Sys2Proof.Machine

/-- A later state of the same machine: it has the same configuration record, and its event stream begins with the earlier
one. -/
structure State.Extends (s t : State) : Prop where
  cfg : t.cfg = s.cfg
  events : ∃ emitted, t.events = s.events ++ emitted

/-- The same of an outcome: its next state extends `s`, where it has one. -/
def Result.Extends (s : State) : Result → Prop
  | .next t => s.Extends t
  | .fault _ => True
  | .refused _ => True

theorem State.Extends.of_same {s t : State} (hc : t.cfg = s.cfg) (he : t.events = s.events) : s.Extends t :=
  ⟨hc, [], by rw [he, List.append_nil]⟩

/-- A frame that names neither of the two fields keeps both. -/
theorem State.Extends.of_frame {s t u : State} (h : t = u) (hc : u.cfg = s.cfg) (he : u.events = s.events) : s.Extends t :=
  h ▸ .of_same hc he

theorem State.Extends.refl (s : State) : s.Extends s := .of_same rfl rfl

theorem State.Extends.trans {s t u : State} (h1 : s.Extends t) (h2 : t.Extends u) : s.Extends u := by
  obtain ⟨c1, l1, e1⟩ := h1
  obtain ⟨c2, l2, e2⟩ := h2
  exact ⟨c2.trans c1, l1 ++ l2, by rw [e2, e1, List.append_assoc]⟩

theorem State.Extends.give {s t : State} (h : s.Extends t) (a : Answer) : s.Extends (t.give a) := ⟨h.cfg, h.events⟩

theorem Result.Extends.of {s t : State} {r : Result} (h : s.Extends t) (hr : Result.Extends t r) : Result.Extends s r := by
  cases r with
  | next u => exact h.trans hr
  | fault f => trivial
  | refused q => trivial

theorem Loads.to_extends {s t : State} (h : Loads s t) : s.Extends t := ⟨by rw [h.frame], h.events⟩

/-! ### The shared operations -/

theorem State.readTimed_extends (s : State) (addr : Word) : s.Extends (s.readTimed addr).2 := .of_same rfl rfl

theorem State.writeTimed_extends (s : State) (addr : Word) (v : Byte) : s.Extends (s.writeTimed addr v) :=
  .of_frame (s.writeTimed_eq addr v) rfl rfl

theorem State.chargePort_extends (s : State) (port : Word) : s.Extends (s.chargePort port) := .of_same rfl rfl

theorem readRows_extends (rows : List InRow) (port : Word) (s : State) : s.Extends (readRows rows port s).2 :=
  .of_frame (readRows_frame rows port s) rfl rfl

theorem writeRows_extends (rows : List OutRow) (port : Word) (v : Byte) (s : State) :
    s.Extends (writeRows rows port v s) :=
  ⟨by rw [writeRows_frame rows port v s], writeRows_events rows port v s⟩

theorem State.page7Port_extends (s : State) (v : Byte) : s.Extends (s.page7Port v) :=
  .of_frame (s.page7Port_frame v) rfl rfl

theorem State.page1Port_extends (s : State) (v : Byte) : s.Extends (s.page1Port v) :=
  .of_frame (s.page1Port_frame v) rfl rfl

theorem State.ulaWrite_extends (s : State) (v : Byte) : s.Extends (s.ulaWrite v) :=
  ⟨by rw [s.ulaWrite_frame v], _, by rw [s.ulaWrite_events v, List.append_assoc]⟩

theorem State.cheatClose_extends (s : State) : s.Extends s.cheatClose := .of_same rfl rfl

theorem State.applyCheats_extends (s : State) : s.Extends s.applyCheats :=
  .of_frame s.applyCheats_frame rfl rfl

theorem State.fillLine_extends (s : State) (line : List Byte) : s.Extends (s.fillLine line) :=
  .of_frame (s.fillLine_frame line) rfl rfl

theorem State.fillLines_extends (s : State) (lines : List (List Byte)) : s.Extends (lines.foldl State.fillLine s) :=
  .of_frame (State.fillLines_frame lines s) rfl rfl

theorem State.fillEnd_extends (s : State) : s.Extends s.fillEnd :=
  .of_frame s.fillEnd_frame rfl rfl

theorem State.fillPass_extends (s : State) (text : List Byte) : s.Extends (s.fillPass text) :=
  (s.fillLines_extends _).trans (State.fillEnd_extends _)

theorem State.powerOn_extends (s : State) (target : Arch) : s.Extends (s.powerOn target) := .of_same rfl rfl

theorem State.lateFailure_extends (s : State) (r : LoadFailure) : s.Extends (s.lateFailure r) := .of_same rfl rfl

/-- Every `HOST` write is to another field (R47, R49, R341, R397). -/
theorem HostAct.apply_extends (a : HostAct) (s : State) : s.Extends (a.apply s) := by
  cases a with
  | setPort i v => exact .of_same rfl rfl
  | setTrdos b => exact .of_same rfl rfl
  | enableCheat i b => exact .of_same rfl rfl
  | pokeValue j v => exact .of_same rfl rfl
  | present f => exact .of_same rfl rfl
  | answerOracle bs => exact .of_same rfl rfl

/-! ### Loads -/

/-- A load ends at a state that extends the one its part started from, loaded or failed late (R362). -/
theorem finishLoad_extends {s : State} {e : Loading} (h : Loading.Loads s e) : Result.Extends s (finishLoad e) := by
  cases e with
  | ok t => exact (Loads.to_extends h).trans (.of_same rfl rfl)
  | error e => exact (Loads.to_extends h).trans (State.lateFailure_extends _ _)

/-- A load keeps both through the architecture switch (R393, R396). -/
theorem loadOn_extends (target : Arch) {part : State → Loading} (hp : ∀ s, Loading.Loads s (part s)) (s : State) :
    Result.Extends s (loadOn target part s) := by
  rcases loadOn_cases target part s with ⟨s1, hs1, e⟩ | ⟨-, -, e⟩
  · have h1 : s.Extends s1 := by
      rcases hs1 with ⟨rfl, -⟩ | ⟨rfl, -⟩
      · exact .refl s1
      · exact s.powerOn_extends target
    rw [e]
    exact .of (h1.trans s1.cheatClose_extends) (finishLoad_extends (hp s1.cheatClose))
  · rw [e]; trivial

theorem execZ80Block_extends (len : Word) (id : Byte) (data : List Byte) (s : State) :
    Result.Extends s (execZ80Block len id data s) := by
  have hb := loadZ80Block_loads len id data s
  simp only [execZ80Block]
  split
  · split
    · next t e => rw [e] at hb; exact (Loads.to_extends hb).give _
    · next r t e => rw [e] at hb; exact (Loads.to_extends hb).trans (t.lateFailure_extends r)
  · exact s.lateFailure_extends _

/-! ### Executions and steps -/

/-- Every execution, by its form. -/
theorem exec_extends (i : Instr) (s : State) : Result.Extends s (exec i s) := by
  have form := exec_form i s
  generalize exec i s = r at form ⊢
  cases form with
  | rdb addr => exact (s.readTimed_extends addr).give _
  | wrb addr v => exact (s.writeTimed_extends addr v).give _
  | rdw addr => exact ((s.readTimed_extends addr).trans (State.readTimed_extends _ _)).give _
  | wrw addr v => exact ((s.writeTimed_extends addr _).trans (State.writeTimed_extends _ _ _)).give _
  | tick n => exact .of_same rfl rfl
  | reset => exact .of_same rfl rfl
  | cheatLoad =>
    simp only [execCheatLoad]
    split
    · exact s.cheatClose_extends.give _
    · exact (s.cheatClose_extends.trans (State.fillPass_extends _ _)).give _
  | cheatApply => exact s.applyCheats_extends.give _
  | cheatFetch => exact .of_same rfl rfl
  | cheatClose => exact s.cheatClose_extends.give _
  | pd7 v =>
    simp only [execPd7]
    split
    · exact (State.Extends.refl s).give _
    · exact (s.page7Port_extends v).give _
  | pd1 v =>
    simp only [execPd1]
    split
    · exact (s.page1Port_extends v).give _
    · exact (State.Extends.refl s).give _
  | pdu v => exact (s.ulaWrite_extends v).give _
  | z80Block len id data => exact execZ80Block_extends len id data s
  | refused slot => trivial
  | reads _ rows port => exact ((s.chargePort_extends port).trans (readRows_extends rows port _)).give _
  | writes _ rows port v => exact ((s.chargePort_extends port).trans (writeRows_extends rows port v _)).give _
  | answers _ a => exact (State.Extends.refl s).give a
  | line _ l => exact (s.fillLine_extends l).give _
  | sna _ v f => exact loadOn_extends _ (snaPart_loads v f) s
  | z80 _ v f target => exact loadOn_extends target (z80Part_loads v f) s
  | sp _ rom f => exact loadOn_extends _ (spPart_loads rom f) s

theorem exec_next_extends {i : Instr} {s t : State} (h : exec i s = .next t) : s.Extends t := by
  have := exec_extends i s
  rwa [h] at this

/-- Telling a CPU step in progress an answer is neither an event nor a configuration (R123). -/
theorem State.Extends.withCpu {s t : State} (h : s.Extends t) (c : Option (List Answer)) :
    s.Extends { t with cpu := c } := ⟨h.cfg, h.events⟩

/-- Taking an item off the environment's list is neither (R130). -/
theorem State.Extends.afterAgenda {s t : State} {rest : List AgendaItem} (h : { s with agenda := rest }.Extends t) :
    s.Extends t := ⟨h.cfg, h.events⟩

/-- A fetch that issues nothing. -/
theorem fetch_done_extends {s t : State} (h : fetch s = .done t) : s.Extends t := by
  rcases fetch_done h with ⟨agenda, rfl⟩ | ⟨r, rfl⟩ | ⟨a, rest, -, -, rfl⟩ | ⟨rest, -, -, rfl⟩
  · exact .of_same rfl rfl
  · exact .of_same rfl rfl
  · exact (a.apply_extends _).afterAgenda
  · exact (State.fillEnd_extends _).afterAgenda

/-- The effect of bytes that are no row of their channel (log 41). -/
theorem OtherForm.to_extends {ch : Channel} {s t : State} (h : OtherForm ch s t) : s.Extends t := by
  cases h with
  | port i w _ hw => exact (exec_next_extends hw).withCpu _
  | answer a => exact (State.Extends.refl s).give a
  | blocks _ bytes u hu =>
    have hl := loadZ80Blocks_loads bytes.length bytes s
    rw [hu] at hl
    exact (Loads.to_extends hl).give _
  | cutOff _ mem _ => exact .of_same rfl rfl
  | lines _ bytes => exact (s.fillLines_extends _).give _

/-- Every step, by its form. -/
theorem step_extends {s t : State} (h : step s = .next t) : s.Extends t := by
  rcases step_next h with hd | ⟨i, u, w, hu, hw, rfl⟩ | ⟨ch, bytes, rest, r, -, -, -, ho⟩
  · exact fetch_done_extends hd
  · have h1 : s.Extends u := by
      rcases hu with ⟨_, _, -, -, -, -, rfl⟩ | ⟨_, _, rest, -, -, -, rfl⟩
      · exact .refl u
      · exact .of_same rfl rfl
    exact (h1.trans (exec_next_extends hw)).withCpu _
  · exact ho.to_extends.afterAgenda

/-- Settles O4: every form of a step keeps the record. -/
theorem stepKeepsConfiguration : Obligations.StepKeepsConfiguration := fun _ _ h => (step_extends h).cfg

/-- Settles O5: every form of a step emits after what was emitted before. -/
theorem eventsOnlyGrow : Obligations.EventsOnlyGrow := fun _ _ h => (step_extends h).events

end Sys2Proof.Machine
end

section
/-! SUPPORT. The machine invariant and the legality of the latches through every step (R32, R70, R40 to R46, R207). One
relation, `State.Keeps`, says of an operation that it keeps the map, the canonical form and the legality; a late load failure
is the one end of a step that keeps only the first two. -/

namespace Sys2Proof.Machine

/-- Settles O2: the map written out for power-on is the one `Remap()` computes, and no byte is listed. -/
theorem resetMeetsInvariant : Obligations.ResetMeetsInvariant := ⟨rfl, State.reset_memOk⟩

/-! ### What the map and the legality depend on -/

/-- The part of the state that paging is about: what `Remap()` reads and what it writes (R70). -/
def State.paging (s : State) : Cfg × Arch × Latches × WindowMap := (s.cfg, s.arch, s.latches, s.map)

theorem State.Mapped.congr {s t : State} (h : s.Mapped) (e : t.paging = s.paging) : t.Mapped := by
  simp only [State.paging, Prod.mk.injEq] at e
  obtain ⟨hc, ha, hl, hm⟩ := e
  simp only [State.Mapped, hc, ha, hl, hm]
  exact h

theorem State.LatchesLegal.congr {s t : State} (h : s.LatchesLegal) (ha : t.arch = s.arch) (hl : t.latches = s.latches) :
    t.LatchesLegal := by
  obtain ⟨special, shared, none48⟩ := h
  constructor <;> rw [ha, hl] <;> assumption

/-! ### The latch writes keep the latches legal -/

theorem State.LatchesLegal.of_reset {t : State} (hl : t.latches = Latches.reset) : t.LatchesLegal where
  special _ := by rw [hl]; exact ⟨rfl, rfl, rfl⟩
  shared _ := by rw [hl]; rfl
  none48 _ := by rw [hl]; exact ⟨rfl, rfl, rfl, rfl⟩

/-- Off Plus2A a write of `romLatch[0]` leaves a 1-bit latch (R42). -/
theorem setRomLow_high_off {arch : Arch} (h : arch ≠ .plus2A) (r : BitVec 2) (b : Bool) :
    (setRomLow arch r b).getLsbD 1 = false := by
  simp only [setRomLow, if_neg h]
  cases b <;> rfl

/-- On Plus2A it keeps bit 1 (R206). -/
theorem setRomLow_high_plus2A (r : BitVec 2) (b : Bool) : (setRomLow .plus2A r b).getLsbD 1 = r.getLsbD 1 := by
  revert r b; decide

theorem setRomHigh_high (r : BitVec 2) (b : Bool) : (setRomHigh r b).getLsbD 1 = b := by
  revert r b; decide

/-- The first paging port's byte, with any value of `trdosPaged`, on an architecture that pages (R203, R206, R258, R286). -/
theorem State.LatchesLegal.pd7 {s t : State} {v : Byte} {b : Bool} (h : s.LatchesLegal) (h48 : s.arch.is48 = false)
    (ha : t.arch = s.arch) (hl : t.latches = { pd7Latches s.arch s.latches v with trdosPaged := b }) : t.LatchesLegal where
  special hne := by
    rw [ha] at hne
    obtain ⟨hmode, hcfg, -⟩ := h.special hne
    rw [hl]
    exact ⟨hmode, hcfg, setRomLow_high_off hne _ _⟩
  shared he := by
    rw [ha] at he
    rw [hl]
    show s.latches.specialCfg2A3.getLsbD 1 = (setRomLow s.arch s.latches.romLatch (bit v 4)).getLsbD 1
    rw [he, setRomLow_high_plus2A]
    exact h.shared he
  none48 hc := by rw [ha, h48] at hc; cases hc

/-- The second paging port's byte on Plus2A: bit 2 is both latch bits (R207). -/
theorem State.LatchesLegal.of_pd1 {t : State} {l : Latches} {v : Byte} (ha : t.arch = .plus2A)
    (hl : t.latches = pd1Latches l v) : t.LatchesLegal where
  special hne := absurd ha hne
  shared _ := by
    rw [hl]
    show (v.extractLsb' 1 2).getLsbD 1 = (setRomHigh l.romLatch (bit v 2)).getLsbD 1
    rw [setRomHigh_high, BitVec.getLsbD_extractLsb']
    rfl
  none48 hc := by rw [ha] at hc; cases hc

/-- `trdosPaged` is free on every architecture (R47). -/
theorem State.LatchesLegal.withTrdos {s : State} (h : s.LatchesLegal) (b : Bool) :
    (s.setLatches { s.latches with trdosPaged := b }).LatchesLegal := ⟨h.special, h.shared, h.none48⟩

/-! ### The relation -/

/-- What an operation keeps where it does not spoil the machine: the derived map, the canonical form of memory, and the
legality of the latches. -/
structure State.Keeps (s t : State) : Prop where
  mapped : s.Mapped → t.Mapped
  memOk : s.MemOk → t.MemOk
  legal : s.LatchesLegal → t.LatchesLegal

theorem State.Keeps.refl (s : State) : s.Keeps s := ⟨id, id, id⟩

theorem State.Keeps.trans {s t u : State} (h1 : s.Keeps t) (h2 : t.Keeps u) : s.Keeps u :=
  ⟨h2.mapped ∘ h1.mapped, h2.memOk ∘ h1.memOk, h2.legal ∘ h1.legal⟩

/-- An operation that touches nothing of paging. -/
theorem State.Keeps.of_paging {s t : State} (hp : t.paging = s.paging) (hm : s.MemOk → t.MemOk) : s.Keeps t where
  mapped h := h.congr hp
  memOk := hm
  legal h := by
    simp only [State.paging, Prod.mk.injEq] at hp
    exact h.congr hp.2.1 hp.2.2.1

/-- A frame that names nothing of paging and no byte of memory. -/
theorem State.Keeps.of_frame {s t u : State} (h : t = u) (hp : u.paging = s.paging) (hm : u.mem = s.mem) : s.Keeps t := by
  subst h
  exact .of_paging hp fun ok => by rw [State.MemOk, hm]; exact ok

theorem State.Keeps.give {s t : State} (h : s.Keeps t) (a : Answer) : s.Keeps (t.give a) :=
  h.trans (.of_frame rfl rfl rfl)

theorem State.Keeps.inv {s t : State} (h : s.Keeps t) (hs : s.Inv) : t.Inv := ⟨h.mapped hs.mapped, h.memOk hs.memOk⟩

/-- What a late load failure leaves (R362): `failed` is set, the map recomputed, and of memory only cells dropped. -/
structure State.FailsLate (s t : State) : Prop where
  failed : t.failed = true
  mapped : t.Mapped
  memOk : s.MemOk → t.MemOk

/-- The two ends of a step. -/
def State.KeepsOrFails (s t : State) : Prop := s.Keeps t ∨ s.FailsLate t

theorem State.KeepsOrFails.after {s t u : State} (h1 : s.Keeps t) (h2 : t.KeepsOrFails u) : s.KeepsOrFails u :=
  h2.imp h1.trans fun h => ⟨h.failed, h.mapped, h.memOk ∘ h1.memOk⟩

/-- Telling a CPU step in progress an answer changes neither end (R123). -/
theorem State.KeepsOrFails.withCpu {s t : State} (h : s.KeepsOrFails t) (c : Option (List Answer)) :
    s.KeepsOrFails { t with cpu := c } :=
  h.imp (fun h => h.trans (.of_frame rfl rfl rfl)) fun h => ⟨h.failed, h.mapped, h.memOk⟩

theorem State.KeepsOrFails.inv {s t : State} (h : s.KeepsOrFails t) (hs : s.Inv) : t.Inv :=
  h.elim (fun k => k.inv hs) fun f => ⟨f.mapped, f.memOk hs.memOk⟩

theorem State.KeepsOrFails.legal {s t : State} (h : s.KeepsOrFails t) (ht : t.failed = false) (hs : s.LatchesLegal) :
    t.LatchesLegal :=
  h.elim (fun k => k.legal hs) fun f => by rw [f.failed] at ht; cases ht

/-- The same of an outcome: of its next state, where it has one. -/
def Result.KeepsOrFails (s : State) : Result → Prop
  | .next t => s.KeepsOrFails t
  | .fault _ => True
  | .refused _ => True

/-! ### The shared operations -/

theorem State.readTimed_keeps (s : State) (addr : Word) : s.Keeps (s.readTimed addr).2 := .of_frame rfl rfl rfl

theorem State.writeTimed_keeps (s : State) (addr : Word) (v : Byte) : s.Keeps (s.writeTimed addr v) := by
  rw [s.writeTimed_eq addr v]
  exact .of_paging rfl (State.memWrite_memOk addr v)

theorem State.chargePort_keeps (s : State) (port : Word) : s.Keeps (s.chargePort port) := .of_frame rfl rfl rfl

/-- The first paging port, on an architecture that has one (R202, R203). -/
theorem State.page7Port_keeps {s : State} (v : Byte) (h48 : s.arch.is48 = false) : s.Keeps (s.page7Port v) := by
  cases hlock : s.latches.pagingLock with
  | true => rw [s.page7Port_locked v hlock]; exact .refl s
  | false => rw [s.page7Port_open v hlock]; exact ⟨fun _ => rfl, id, fun h => h.pd7 h48 rfl rfl⟩

/-- The second paging port (R207). -/
theorem State.page1Port_keeps {s : State} (v : Byte) (ha : s.arch = .plus2A) : s.Keeps (s.page1Port v) := by
  cases hlock : s.latches.pagingLock with
  | true => rw [s.page1Port_locked v hlock]; exact .refl s
  | false => rw [s.page1Port_open v hlock]; exact ⟨fun _ => rfl, id, fun _ => .of_pd1 ha rfl⟩

theorem State.ulaWrite_keeps (s : State) (v : Byte) : s.Keeps (s.ulaWrite v) := .of_frame (s.ulaWrite_frame v) rfl rfl

theorem State.cheatClose_keeps (s : State) : s.Keeps s.cheatClose := .of_frame rfl rfl rfl

theorem State.applyCheats_keeps (s : State) : s.Keeps s.applyCheats :=
  .of_paging (by rw [s.applyCheats_frame]; rfl) State.applyCheats_memOk

theorem State.fillLine_keeps (s : State) (line : List Byte) : s.Keeps (s.fillLine line) :=
  .of_frame (s.fillLine_frame line) rfl rfl

theorem State.fillLines_keeps (s : State) (lines : List (List Byte)) : s.Keeps (lines.foldl State.fillLine s) :=
  .of_frame (State.fillLines_frame lines s) rfl rfl

theorem State.fillEnd_keeps (s : State) : s.Keeps s.fillEnd := .of_frame s.fillEnd_frame rfl rfl

theorem State.fillPass_keeps (s : State) (text : List Byte) : s.Keeps (s.fillPass text) :=
  .of_frame (s.fillPass_frame text) rfl rfl

/-- The machine reset clears every latch and recomputes the map (R390). -/
theorem State.machineReset_keeps (s : State) : s.Keeps s.machineReset := ⟨fun _ => rfl, id, fun _ => .of_reset rfl⟩

/-- The power-on reset lists no byte (R392). -/
theorem State.powerOn_keeps (s : State) (target : Arch) : s.Keeps (s.powerOn target) :=
  ⟨fun _ => rfl, fun _ => State.reset_memOk, fun _ => .of_reset rfl⟩

theorem State.lateFailure_failsLate {s t : State} (r : LoadFailure) (hm : s.MemOk → t.MemOk) :
    s.FailsLate (t.lateFailure r) := ⟨rfl, rfl, fun h => State.lateFailure_memOk r (hm h)⟩

theorem HostAct.apply_keeps (a : HostAct) (s : State) : s.Keeps (a.apply s) := by
  cases a with
  | setTrdos b => exact ⟨fun _ => rfl, id, fun h => h.withTrdos b⟩
  | setPort i v => exact .of_frame rfl rfl rfl
  | enableCheat i b => exact .of_frame rfl rfl rfl
  | pokeValue j v => exact .of_frame rfl rfl rfl
  | present f => exact .of_frame rfl rfl rfl
  | answerOracle bs => exact .of_frame rfl rfl rfl

/-! ### Port rows -/

/-- A row that answers: only the paging-port read writes latches, and only Spec128 has it (R99, R171). -/
theorem InRow.read_keeps {r : InRow} {port : Word} {s : State} (ht : r.takes port s = true) : s.Keeps (r.read port s).2 := by
  by_cases hr : r = .page7
  · subst hr
    simp only [InRow.takes, InRow.enabled, Bool.and_eq_true, beq_iff_eq] at ht
    exact State.page7Port_keeps _ (by rw [ht.1]; rfl)
  · obtain ⟨hl, hm⟩ := InRow.read_latches port s hr
    exact .of_frame (r.read_frame port s) (by simp only [State.paging, hl, hm]) rfl

theorem readRows_keeps (rows : List InRow) (port : Word) (s : State) : s.Keeps (readRows rows port s).2 := by
  rcases readRows_cases rows port s with ⟨r, -, ht, e⟩ | e
  · rw [e]; exact InRow.read_keeps ht
  · rw [e]; exact .refl s

/-- A row that acts: the paging ports are rows of the architectures that have them (R201, R202). -/
theorem OutRow.act_keeps {r : OutRow} {port : Word} (v : Byte) {s : State} (ht : r.takes port s = true) :
    s.Keeps (r.act port v s) := by
  simp only [OutRow.takes, Bool.and_eq_true] at ht
  obtain ⟨he, -⟩ := ht
  cases r with
  | ula => exact s.ulaWrite_keeps v
  | ayZx81 => exact .of_frame (s.zx81Write_frame port v) rfl rfl
  | fullerSel => exact .of_frame rfl rfl rfl
  | fullerDat => exact .of_frame rfl rfl rfl
  | aySel => exact .of_frame rfl rfl rfl
  | ayDat => exact .of_frame rfl rfl rfl
  | covox => exact .of_frame (s.covoxWrite_eq port v) rfl rfl
  | trdos q => exact .of_frame rfl rfl rfl
  | page7 =>
    simp only [OutRow.enabled, Bool.or_eq_true, beq_iff_eq] at he
    exact State.page7Port_keeps v (by rcases he with h | h <;> rw [h] <;> rfl)
  | page7Plus2A =>
    simp only [OutRow.enabled, beq_iff_eq] at he
    exact State.page7Port_keeps v (by rw [he]; rfl)
  | page1Plus2A =>
    simp only [OutRow.enabled, beq_iff_eq] at he
    exact State.page1Port_keeps v he

theorem OutRow.write_keeps (r : OutRow) (port : Word) (v : Byte) (s : State) : s.Keeps (r.write port v s) := by
  simp only [OutRow.write]
  split
  · next ht => exact OutRow.act_keeps v ht
  · exact .refl s

theorem writeRows_keeps (rows : List OutRow) (port : Word) (v : Byte) (s : State) : s.Keeps (writeRows rows port v s) :=
  List.foldlRecOn rows _ (.refl s) fun t h r _ => h.trans (r.write_keeps port v t)

/-! ### The latches a load writes -/

theorem loadSnaHeader_latches {f : List Byte} {s t : State} (h : loadSnaHeader f s = .ok t) : t.latches = s.latches := by
  simp only [loadSnaHeader] at h
  split at h
  · cases h
  · cases h; rfl

theorem loadSna128_latches {v : SnaVariant} {f : List Byte} {s t : State} (h : loadSna128 v f s = .ok t) :
    t.latches = sna128Latches s.arch s.latches (fileByte f 49181) (fileByte f 49182) := by
  unfold loadSna128 at h
  extract_lets s1 r0 s2 cur s3 tailEnd at h
  have h3 : s3.latches = s2.latches := by
    by_cases hc : cur = 0
    · simp only [s3, if_pos hc]
    · simp only [s3, if_neg hc, State.loadPage_latches]
  split at h
  · cases h
    rw [loadBanks_frame]
    exact h3
  · cases h

theorem loadZ80Header_latches {f : List Byte} {s t : State} (h : loadZ80Header f s = .ok t) : t.latches = s.latches := by
  simp only [loadZ80Header] at h
  split at h
  · cases h
  · cases h; rfl

theorem loadZ80V1_latches {f : List Byte} {s t : State} (h : loadZ80V1 f s = .ok t) : t.latches = Latches.reset := by
  simp only [loadZ80V1] at h
  split at h
  · cases h
  · cases h; rfl

theorem loadZ80Ext_latches {f : List Byte} {s t : State} (h : loadZ80Ext f s = .ok t) :
    t.latches = z80ExtLatches f s.arch s.latches := by
  simp only [loadZ80Ext] at h
  split at h
  · cases h
  · cases h; rfl

theorem loadZ80Blocks_latches {fuel : Nat} {rest : List Byte} {s t : State} (h : loadZ80Blocks fuel rest s = .ok t) :
    t.latches = s.latches := by
  rw [(loadZ80Blocks_frame fuel rest s).1 t h]

theorem loadSpMemory_latches (rom : Bool) (f : List Byte) (s : State) : (loadSpMemory rom f s).latches = s.latches := by
  cases rom <;> rfl

theorem Loads.arch {s t : State} (h : Loads s t) : t.arch = s.arch := by rw [h.frame]

/-- A part that succeeded is one of what its loader can do. -/
theorem Loading.Loads.of_ok {s t : State} {e : Loading} (h : Loading.Loads s e) (ht : e = .ok t) : Machine.Loads s t := by
  subst ht; exact h

/-- The 128K-class tail writes the first paging port's byte, on an architecture that pages (R258). -/
theorem loadSna128_legal {v : SnaVariant} {f : List Byte} {s t : State} (h48 : s.arch.is48 = false)
    (hs : s.LatchesLegal) (h : loadSna128 v f s = .ok t) : t.LatchesLegal :=
  hs.pd7 h48 ((loadSna128_loads v f s).of_ok h).arch (loadSna128_latches h)

/-- A 128K file loads on an architecture that pages (R252). -/
theorem snaArch_128_pages (s : State) : (snaArch .s128a s).is48 = false := by
  simp only [snaArch]
  split
  · next h => rcases h with h | h <;> rw [h] <;> rfl
  · cases s.cfg.snaPrefers <;> rfl

/-- An SNA file leaves legal latches on the architecture its variant loads on (R252, R256, R258, R260). -/
theorem snaPart_legal {v : SnaVariant} {f : List Byte} {s0 s t : State} (ha : s.arch = snaArch v s0)
    (hs : s.LatchesLegal) (h : snaPart v f s = .ok t) : t.LatchesLegal := by
  simp only [snaPart] at h
  split at h
  · cases h
  · next s1 hh =>
    have ha1 : s1.arch = snaArch v s0 := ((loadSnaHeader_loads f s).of_ok hh).arch.trans ha
    have hs1 : s1.LatchesLegal := hs.congr ((loadSnaHeader_loads f s).of_ok hh).arch (loadSnaHeader_latches hh)
    have h2A3 : ∀ w, s1.arch = .plus2A →
        (match loadSna128 w f s1 with | .error e => .error e | .ok s2 => .ok (loadSnaTrailer f s2)) = Except.ok t →
        t.LatchesLegal := by
      intro w hp hw
      split at hw
      · cases hw
      · next s2 h2 =>
        cases hw
        exact .of_pd1 (((loadSna128_loads w f s1).of_ok h2).arch.trans hp) rfl
    cases v with
    | s48 => cases h; exact .of_reset rfl
    | s128a => exact loadSna128_legal (ha1 ▸ snaArch_128_pages s0) hs1 h
    | s128b => exact loadSna128_legal (ha1 ▸ snaArch_128_pages s0) hs1 h
    | s2A3a => exact h2A3 _ ha1 h
    | s2A3b => exact h2A3 _ ha1 h

/-- The extended header of a Z80 file writes what its architecture admits (R286). -/
theorem z80ExtLatches_legal {f : List Byte} {s t : State} (hs : s.LatchesLegal) (ha : t.arch = s.arch)
    (hl : t.latches = z80ExtLatches f s.arch s.latches) : t.LatchesLegal := by
  simp only [z80ExtLatches] at hl
  cases h48 : s.arch.is48 with
  | true => rw [h48, if_pos rfl] at hl; exact .of_reset hl
  | false =>
    rw [h48, if_neg (by simp)] at hl
    split at hl
    · next hp => exact .of_pd1 (ha.trans hp) hl
    · exact hs.pd7 h48 ha hl

theorem z80Part_legal {v : Z80Ver} {f : List Byte} {s t : State} (hs : s.LatchesLegal) (h : z80Part v f s = .ok t) :
    t.LatchesLegal := by
  simp only [z80Part] at h
  split at h
  · cases h
  · next s1 hh =>
    have hs1 : s1.LatchesLegal := hs.congr ((loadZ80Header_loads f s).of_ok hh).arch (loadZ80Header_latches hh)
    have hext : (match loadZ80Ext f s1 with
          | .error e => .error e
          | .ok s2 => loadZ80Blocks f.length (f.drop (32 + z80ExtLen f)) s2) = Except.ok t → t.LatchesLegal := by
      intro hw
      split at hw
      · cases hw
      · next s2 h2 =>
        have hs2 : s2.LatchesLegal :=
          z80ExtLatches_legal hs1 ((loadZ80Ext_loads f s1).of_ok h2).arch (loadZ80Ext_latches h2)
        exact hs2.congr ((loadZ80Blocks_loads _ _ s2).of_ok hw).arch (loadZ80Blocks_latches hw)
    cases v with
    | v1 => exact .of_reset (loadZ80V1_latches h)
    | v2 => exact hext h
    | v3 => exact hext h

theorem spPart_legal {rom : Bool} {f : List Byte} {s t : State} (h : spPart rom f s = .ok t) : t.LatchesLegal := by
  cases h
  exact .of_reset (loadSpMemory_latches rom f _)

/-! ### Loads -/

/-- A load keeps what its part keeps on the architecture it enters; the map is recomputed at either end (R253, R362). -/
theorem loadOn_keepsOrFails {target : Arch} {part : State → Loading} (hp : ∀ s, Loading.Loads s (part s))
    (hl : ∀ s u, s.arch = target → s.LatchesLegal → part s = .ok u → u.LatchesLegal) (s : State) :
    Result.KeepsOrFails s (loadOn target part s) := by
  cases h : loadOn target part s with
  | fault f => trivial
  | refused r => trivial
  | next t =>
    obtain ⟨s1, hs1, ht⟩ := loadOn_next h
    obtain ⟨ha, h1⟩ : s1.cheatClose.arch = target ∧ s.Keeps s1 := by
      rcases hs1 with ⟨rfl, e⟩ | ⟨rfl, -⟩
      · exact ⟨e.symm, .refl s1⟩
      · exact ⟨rfl, s.powerOn_keeps target⟩
    refine .after (h1.trans s1.cheatClose_keeps) ?_
    have part_loads := hp s1.cheatClose
    rcases ht with ⟨u, hu, rfl⟩ | ⟨r, u, hu, rfl⟩
    · rw [hu] at part_loads
      exact .inl ⟨fun _ => rfl, part_loads.memOk, fun h => (hl _ u ha h hu).congr rfl rfl⟩
    · rw [hu] at part_loads
      exact .inr (State.lateFailure_failsLate r part_loads.memOk)

theorem execZ80Block_keepsOrFails (len : Word) (id : Byte) (data : List Byte) (s : State) :
    Result.KeepsOrFails s (execZ80Block len id data s) := by
  have hb := loadZ80Block_loads len id data s
  simp only [execZ80Block]
  split
  · split
    · next t e =>
      rw [e] at hb
      refine .inl (State.Keeps.give (.of_paging ?_ hb.memOk) _)
      rw [(loadZ80Block_frame len id data s).1 t e]
      rfl
    · next r t e => rw [e] at hb; exact .inr (State.lateFailure_failsLate r hb.memOk)
  · exact .inr (State.lateFailure_failsLate _ fun h => h)

/-! ### Executions and steps -/

/-- Taking an item off the environment's list (R130). -/
theorem State.withAgenda_keeps (s : State) (rest : List AgendaItem) : s.Keeps { s with agenda := rest } :=
  .of_frame rfl rfl rfl

/-- Every execution, by its form. -/
theorem exec_keepsOrFails (i : Instr) (s : State) : Result.KeepsOrFails s (exec i s) := by
  have form := exec_form i s
  generalize exec i s = r at form ⊢
  cases form with
  | rdb addr => exact .inl ((s.readTimed_keeps addr).give _)
  | wrb addr v => exact .inl ((s.writeTimed_keeps addr v).give _)
  | rdw addr => exact .inl (((s.readTimed_keeps addr).trans (State.readTimed_keeps _ _)).give _)
  | wrw addr v => exact .inl (((s.writeTimed_keeps addr _).trans (State.writeTimed_keeps _ _ _)).give _)
  | tick n => exact .inl (.of_frame rfl rfl rfl)
  | reset => exact .inl (s.machineReset_keeps.give _)
  | cheatLoad =>
    simp only [execCheatLoad]
    split
    · exact .inl (s.cheatClose_keeps.give _)
    · exact .inl ((s.cheatClose_keeps.trans (State.fillPass_keeps _ _)).give _)
  | cheatApply => exact .inl (s.applyCheats_keeps.give _)
  | cheatFetch => exact .inl (.of_frame rfl rfl rfl)
  | cheatClose => exact .inl (s.cheatClose_keeps.give _)
  | pd7 v =>
    simp only [execPd7]
    split
    · exact .inl ((State.Keeps.refl s).give _)
    · next h48 => exact .inl ((State.page7Port_keeps v (by simpa using h48)).give _)
  | pd1 v =>
    simp only [execPd1]
    split
    · next ha => exact .inl ((State.page1Port_keeps v ha).give _)
    · exact .inl ((State.Keeps.refl s).give _)
  | pdu v => exact .inl ((s.ulaWrite_keeps v).give _)
  | z80Block len id data => exact execZ80Block_keepsOrFails len id data s
  | refused slot => trivial
  | reads _ rows port => exact .inl (((s.chargePort_keeps port).trans (readRows_keeps rows port _)).give _)
  | writes _ rows port v => exact .inl (((s.chargePort_keeps port).trans (writeRows_keeps rows port v _)).give _)
  | answers _ a => exact .inl ((State.Keeps.refl s).give a)
  | line _ l => exact .inl ((s.fillLine_keeps l).give _)
  | sna _ v f => exact loadOn_keepsOrFails (snaPart_loads v f) (fun _ _ ha hs h => snaPart_legal ha hs h) s
  | z80 _ v f => exact loadOn_keepsOrFails (z80Part_loads v f) (fun _ _ _ hs h => z80Part_legal hs h) s
  | sp _ rom f => exact loadOn_keepsOrFails (spPart_loads rom f) (fun _ _ _ _ h => spPart_legal h) s

theorem exec_next_keepsOrFails {i : Instr} {s t : State} (h : exec i s = .next t) : s.KeepsOrFails t := by
  have := exec_keepsOrFails i s
  rwa [h] at this

/-- A fetch that issues nothing. -/
theorem fetch_done_keeps {s t : State} (h : fetch s = .done t) : s.Keeps t := by
  rcases fetch_done h with ⟨agenda, rfl⟩ | ⟨r, rfl⟩ | ⟨a, rest, -, -, rfl⟩ | ⟨rest, -, -, rfl⟩
  · exact .of_frame rfl rfl rfl
  · exact .of_frame rfl rfl rfl
  · exact (s.withAgenda_keeps rest).trans (a.apply_keeps _)
  · exact (s.withAgenda_keeps rest).trans (State.fillEnd_keeps _)

/-- The effect of bytes that are no row of their channel (log 41). -/
theorem OtherForm.keepsOrFails {ch : Channel} {s t : State} (h : OtherForm ch s t) : s.KeepsOrFails t := by
  cases h with
  | port i w _ hw => exact (exec_next_keepsOrFails hw).withCpu _
  | answer a => exact .inl ((State.Keeps.refl s).give a)
  | blocks _ bytes u hu =>
    refine .inl (State.Keeps.give (.of_paging ?_ ((loadZ80Blocks_loads _ _ s).of_ok hu).memOk) _)
    rw [(loadZ80Blocks_frame bytes.length bytes s).1 u hu]
    rfl
  | cutOff _ mem hm => exact .inr (State.lateFailure_failsLate _ hm)
  | lines _ bytes => exact .inl ((s.fillLines_keeps _).give _)

/-- Every step, by its form. -/
theorem step_keepsOrFails {s t : State} (h : step s = .next t) : s.KeepsOrFails t := by
  rcases step_next h with hd | ⟨i, u, w, hu, hw, rfl⟩ | ⟨ch, bytes, rest, r, -, -, -, ho⟩
  · exact .inl (fetch_done_keeps hd)
  · have h1 : s.Keeps u := by
      rcases hu with ⟨_, _, -, -, -, -, rfl⟩ | ⟨_, _, rest, -, -, -, rfl⟩
      · exact .refl u
      · exact s.withAgenda_keeps rest
    exact (State.KeepsOrFails.after h1 (exec_next_keepsOrFails hw)).withCpu _
  · exact .after (s.withAgenda_keeps rest) ho.keepsOrFails

/-- Settles O3: either end of a step keeps the map and the canonical form. -/
theorem stepKeepsInvariant : Obligations.StepKeepsInvariant := fun _ _ hs h => (step_keepsOrFails h).inv hs

/-- Settles O36: a step that does not fail late keeps the latches legal. -/
theorem latchesStayLegal : Obligations.LatchesStayLegal := fun _ _ hs _ h ht => (step_keepsOrFails h).legal ht hs

end Sys2Proof.Machine
end

section
/-! SUPPORT. What a CPU transaction can do (R8, R360, R372): it completes, it stays within one frame, it leaves `trdosPaged`,
and the counter does not go back. One relation, `State.Transacts`, over the accesses a transaction is made of. -/

namespace Sys2Proof.Machine

/-- A state a CPU transaction can lead to: it differs at most in memory, the counter, the port and paging state, the AY
image, the events, the answer and the oracle; `trdosPaged` is kept and the counter has not gone back. -/
structure State.Transacts (s t : State) : Prop where
  frame : t =
    { s with
      mem := t.mem
      latches := t.latches
      map := t.map
      port254 := t.port254
      tick := t.tick
      lastContended := t.lastContended
      ay := t.ay
      events := t.events
      answer := t.answer
      oracle := t.oracle
      draws := t.draws }
  trdos : t.latches.trdosPaged = s.latches.trdosPaged
  tick : s.tick ≤ t.tick

theorem State.Transacts.refl (s : State) : s.Transacts s := ⟨rfl, rfl, Nat.le_refl _⟩

theorem State.Transacts.trans {s t u : State} (h1 : s.Transacts t) (h2 : t.Transacts u) : s.Transacts u where
  frame := by rw [h2.frame, h1.frame]
  trdos := h2.trdos.trans h1.trdos
  tick := Nat.le_trans h1.tick h2.tick

theorem State.Transacts.give {s t : State} (h : s.Transacts t) (a : Answer) : s.Transacts (t.give a) :=
  h.trans ⟨rfl, rfl, Nat.le_refl _⟩

/-! ### The accesses -/

theorem le_advanceTick (cfg : Cfg) (arch : Arch) (n : Nat) (c : Bool) (t : Nat) : t ≤ advanceTick cfg arch n c t :=
  Nat.le_trans (Nat.le_add_right t n) (advanceTick_ge cfg arch n c t)

theorem State.readTimed_transacts (s : State) (addr : Word) : s.Transacts (s.readTimed addr).2 :=
  ⟨rfl, rfl, le_advanceTick _ _ _ _ _⟩

theorem State.writeTimed_transacts (s : State) (addr : Word) (v : Byte) : s.Transacts (s.writeTimed addr v) := by
  rw [s.writeTimed_eq addr v]
  exact ⟨rfl, rfl, le_advanceTick _ _ _ _ _⟩

theorem State.chargePort_transacts (s : State) (port : Word) : s.Transacts (s.chargePort port) :=
  ⟨rfl, rfl, Nat.le_of_lt (portTick_gt s port)⟩

/-- No paging port writes `trdosPaged` (R47, R203). -/
theorem State.page7Port_trdos (s : State) (v : Byte) : (s.page7Port v).latches.trdosPaged = s.latches.trdosPaged := by
  cases hlock : s.latches.pagingLock with
  | true => rw [s.page7Port_locked v hlock]
  | false => rw [s.page7Port_open v hlock]; rfl

theorem State.page1Port_trdos (s : State) (v : Byte) : (s.page1Port v).latches.trdosPaged = s.latches.trdosPaged := by
  cases hlock : s.latches.pagingLock with
  | true => rw [s.page1Port_locked v hlock]
  | false => rw [s.page1Port_open v hlock]; rfl

theorem State.page7Port_transacts (s : State) (v : Byte) : s.Transacts (s.page7Port v) where
  frame := by rw [s.page7Port_frame v]
  trdos := s.page7Port_trdos v
  tick := by rw [s.page7Port_frame v]

theorem State.page1Port_transacts (s : State) (v : Byte) : s.Transacts (s.page1Port v) where
  frame := by rw [s.page1Port_frame v]
  trdos := s.page1Port_trdos v
  tick := by rw [s.page1Port_frame v]

theorem State.ulaWrite_transacts (s : State) (v : Byte) : s.Transacts (s.ulaWrite v) := by
  rw [s.ulaWrite_frame v]
  exact ⟨rfl, rfl, Nat.le_refl _⟩

theorem InRow.read_trdos (r : InRow) (port : Word) (s : State) :
    (r.read port s).2.latches.trdosPaged = s.latches.trdosPaged := by
  by_cases hr : r = .page7
  · subst hr; exact s.page7Port_trdos _
  · rw [(InRow.read_latches port s hr).1]

theorem InRow.read_transacts (r : InRow) (port : Word) (s : State) : s.Transacts (r.read port s).2 where
  frame := by rw [r.read_frame port s]
  trdos := r.read_trdos port s
  tick := by rw [r.read_frame port s]

theorem readRows_transacts (rows : List InRow) (port : Word) (s : State) : s.Transacts (readRows rows port s).2 := by
  rcases readRows_cases rows port s with ⟨r, -, -, e⟩ | e
  · rw [e]; exact r.read_transacts port s
  · rw [e]; exact .refl s

theorem OutRow.write_transacts (r : OutRow) (port : Word) (v : Byte) (s : State) : s.Transacts (r.write port v s) where
  frame := by rw [r.write_frame port v s]
  trdos := r.write_trdos port v s
  tick := by rw [r.write_frame port v s]

theorem writeRows_transacts (rows : List OutRow) (port : Word) (v : Byte) (s : State) :
    s.Transacts (writeRows rows port v s) :=
  List.foldlRecOn rows _ (.refl s) fun t h r _ => h.trans (r.write_transacts port v t)

/-! ### The transactions -/

/-- Every CPU transaction and row completes within the frame (R360). The forms of the other agents fall away. -/
theorem exec_cpu {i : Instr} (hi : i.agent = .cpu) (s : State) : ∃ t, exec i s = .next t ∧ s.Transacts t := by
  have form := exec_form i s
  generalize exec i s = r at form ⊢
  cases form with
  | rdb addr => exact ⟨_, rfl, (s.readTimed_transacts addr).give _⟩
  | wrb addr v => exact ⟨_, rfl, (s.writeTimed_transacts addr v).give _⟩
  | rdw addr => exact ⟨_, rfl, ((s.readTimed_transacts addr).trans (State.readTimed_transacts _ _)).give _⟩
  | wrw addr v => exact ⟨_, rfl, ((s.writeTimed_transacts addr _).trans (State.writeTimed_transacts _ _ _)).give _⟩
  | tick n => exact ⟨_, rfl, rfl, rfl, Nat.le_add_right _ _⟩
  | pd7 v =>
    refine ⟨_, rfl, State.Transacts.give ?_ _⟩
    split
    · exact .refl s
    · exact s.page7Port_transacts v
  | pd1 v =>
    refine ⟨_, rfl, State.Transacts.give ?_ _⟩
    split
    · exact s.page1Port_transacts v
    · exact .refl s
  | pdu v => exact ⟨_, rfl, (s.ulaWrite_transacts v).give _⟩
  | reads _ rows port => exact ⟨_, rfl, ((s.chargePort_transacts port).trans (readRows_transacts rows port _)).give _⟩
  | writes _ rows port v =>
    exact ⟨_, rfl, ((s.chargePort_transacts port).trans (writeRows_transacts rows port v _)).give _⟩
  | reset => cases hi
  | cheatLoad => cases hi
  | cheatApply => cases hi
  | cheatFetch => cases hi
  | cheatClose => cases hi
  | z80Block len id data => cases hi
  | refused slot => cases hi
  | answers _ a ha => rw [ha] at hi; cases hi
  | line _ l ha => rw [ha] at hi; cases hi
  | sna _ v f ha => rw [ha] at hi; cases hi
  | z80 _ v f target ha => rw [ha] at hi; cases hi
  | sp _ rom f ha => rw [ha] at hi; cases hi

/-- Settles O16: a transaction completes, and each access it is made of moves the counter on or leaves it. -/
theorem cpuTickNeverDecreases : Obligations.CpuTickNeverDecreases := fun _ s hi =>
  let ⟨t, h, reached⟩ := exec_cpu hi s
  ⟨t, h, reached.tick⟩

/-- Settles O37: a transaction stays within the frame of its accesses. -/
theorem cpuTransactionKeeps : Obligations.CpuTransactionKeeps := fun _ s hi =>
  let ⟨t, h, reached⟩ := exec_cpu hi s
  ⟨t, h, reached.frame, reached.trdos⟩

end Sys2Proof.Machine
end

section
/-! SUPPORT. Which operations leave the ROM pages alone (R30, R325): all but the load of an SP file with an embedded ROM, a
switch of the architecture and a late load failure. -/

namespace Sys2Proof.Machine

/-- Every byte of every ROM page reads the same in both states. -/
def State.KeepsRom (s t : State) : Prop :=
  ∀ (r : Fin 5) (o : Nat), o < 0x4000 → t.readPage (.rom r) o = s.readPage (.rom r) o

theorem State.KeepsRom.refl (s : State) : s.KeepsRom s := fun _ _ _ => rfl

theorem State.KeepsRom.trans {s t u : State} (h1 : s.KeepsRom t) (h2 : t.KeepsRom u) : s.KeepsRom u :=
  fun r o ho => (h2 r o ho).trans (h1 r o ho)

/-- What a byte of a page depends on: the written bytes, and which free contents the others have (R30, R31). -/
def State.stored (s : State) : List Host.Cell × Nat × Option Nat × Arch := (s.mem, s.ramEpoch, s.rom0Any, s.romOf)

theorem State.readPage_of_stored {s t : State} (e : t.stored = s.stored) (p : Page) (o : Nat) :
    t.readPage p o = s.readPage p o := by
  simp only [State.stored, Prod.mk.injEq] at e
  obtain ⟨hm, he, ha, ho⟩ := e
  exact State.readPage_congr hm he ha ho p o

/-- A frame that names nothing a page reads from. -/
theorem State.KeepsRom.of_frame {s t u : State} (h : t = u) (e : u.stored = s.stored) : s.KeepsRom t :=
  fun r o _ => by rw [h]; exact State.readPage_of_stored e (.rom r) o

theorem State.KeepsRom.give {s t : State} (h : s.KeepsRom t) (a : Answer) : s.KeepsRom (t.give a) :=
  h.trans (.of_frame rfl rfl)

/-- The register file and the latches are no memory. -/
theorem State.withRegsLatches_keepsRom (s : State) (regs : Regs) (l : Latches) :
    s.KeepsRom { s with regs := regs, latches := l } := .of_frame rfl rfl

theorem State.withRegs_keepsRom (s : State) (regs : Regs) : s.KeepsRom { s with regs := regs } := .of_frame rfl rfl

theorem State.withLatches_keepsRom (s : State) (l : Latches) : s.KeepsRom { s with latches := l } := .of_frame rfl rfl

theorem State.setLatches_keepsRom (s : State) (l : Latches) : s.KeepsRom (s.setLatches l) := .of_frame rfl rfl

/-! ### The shared operations -/

theorem State.chargePort_keepsRom (s : State) (port : Word) : s.KeepsRom (s.chargePort port) := .of_frame rfl rfl

theorem State.cheatClose_keepsRom (s : State) : s.KeepsRom s.cheatClose := .of_frame rfl rfl

theorem State.readTimed_keepsRom (s : State) (addr : Word) : s.KeepsRom (s.readTimed addr).2 := .of_frame rfl rfl

/-- A window write reaches RAM only (R64). -/
theorem State.memWrite_keepsRom (s : State) (addr : Word) (v : Byte) : s.KeepsRom (s.memWrite addr v) := fun r o ho => by
  rw [s.readPage_memWrite addr v (.rom r) ho]
  cases s.pageAt addr with
  | rom q => rfl
  | ram b => exact if_neg fun h => nomatch h.1

theorem State.writeTimed_keepsRom (s : State) (addr : Word) (v : Byte) : s.KeepsRom (s.writeTimed addr v) :=
  fun r o ho => (s.readPage_writeTimed addr v (.rom r) o).trans (s.memWrite_keepsRom addr v r o ho)

theorem State.page7Port_keepsRom (s : State) (v : Byte) : s.KeepsRom (s.page7Port v) :=
  .of_frame (s.page7Port_frame v) rfl

theorem State.page1Port_keepsRom (s : State) (v : Byte) : s.KeepsRom (s.page1Port v) :=
  .of_frame (s.page1Port_frame v) rfl

theorem State.ulaWrite_keepsRom (s : State) (v : Byte) : s.KeepsRom (s.ulaWrite v) :=
  .of_frame (s.ulaWrite_frame v) rfl

theorem readRows_keepsRom (rows : List InRow) (port : Word) (s : State) : s.KeepsRom (readRows rows port s).2 :=
  .of_frame (readRows_frame rows port s) rfl

theorem writeRows_keepsRom (rows : List OutRow) (port : Word) (v : Byte) (s : State) :
    s.KeepsRom (writeRows rows port v s) := .of_frame (writeRows_frame rows port v s) rfl

/-- The pokes of the Cheat Engine reach RAM only (R343). -/
theorem State.applyCheats_keepsRom (s : State) : s.KeepsRom s.applyCheats := fun r o ho => by
  rw [s.applyCheats_eq]
  exact s.readPage_writeAll_rom _ r ho

theorem State.fillLine_keepsRom (s : State) (line : List Byte) : s.KeepsRom (s.fillLine line) :=
  .of_frame (s.fillLine_frame line) rfl

theorem State.fillPass_keepsRom (s : State) (text : List Byte) : s.KeepsRom (s.fillPass text) :=
  .of_frame (s.fillPass_frame text) rfl

/-! ### The parts of a load -/

theorem State.loadPage_keepsRom (s : State) (b : BitVec 3) (bs : List Byte) : s.KeepsRom (s.loadPage (.ram b) bs) :=
  fun _ _ ho => s.readPage_loadPage_ne bs ho (nofun)

theorem State.loadThree_keepsRom (s : State) (f : List Byte) (o : Nat) : s.KeepsRom (s.loadThree f o) :=
  ((s.loadPage_keepsRom 5 _).trans (State.loadPage_keepsRom _ 2 _)).trans (State.loadPage_keepsRom _ 0 _)

theorem loadBanks_keepsRom (f : List Byte) (bs : List (BitVec 3)) (p : Nat) (s : State) :
    s.KeepsRom (loadBanks f bs p s) := by
  induction bs generalizing p s with
  | nil => exact .refl s
  | cons b bs ih => exact (s.loadPage_keepsRom b _).trans (ih _ _)

theorem loadSnaHeader_keepsRom {f : List Byte} {s t : State} (h : loadSnaHeader f s = .ok t) : s.KeepsRom t := by
  simp only [loadSnaHeader] at h
  split at h
  · cases h
  · cases h; exact .of_frame rfl rfl

theorem loadSna48_keepsRom (f : List Byte) (s : State) : s.KeepsRom (loadSna48 f s) := by
  have h := (s.loadThree_keepsRom f 27).trans (State.setLatches_keepsRom _ Latches.reset)
  simp only [loadSna48]
  exact h.trans (State.withRegs_keepsRom _ _)

theorem loadSna128_keepsRom {v : SnaVariant} {f : List Byte} {s t : State} (h : loadSna128 v f s = .ok t) :
    s.KeepsRom t := by
  unfold loadSna128 at h
  extract_lets s1 r0 s2 cur s3 tailEnd at h
  have h2 : s.KeepsRom s2 := (s.loadThree_keepsRom f 27).trans (State.withRegsLatches_keepsRom _ _ _)
  have h3 : s2.KeepsRom s3 := by
    by_cases hc : cur = 0
    · simp only [s3, if_pos hc]; exact .refl s2
    · simp only [s3, if_neg hc]; exact s2.loadPage_keepsRom cur _
  split at h
  · cases h; exact (h2.trans h3).trans (loadBanks_keepsRom _ _ _ s3)
  · cases h

theorem loadSnaTrailer_keepsRom (f : List Byte) (s : State) : s.KeepsRom (loadSnaTrailer f s) :=
  .of_frame rfl rfl

theorem snaPart_keepsRom {v : SnaVariant} {f : List Byte} {s t : State} (h : snaPart v f s = .ok t) : s.KeepsRom t := by
  simp only [snaPart] at h
  split at h
  · cases h
  · next s1 hh =>
    refine (loadSnaHeader_keepsRom hh).trans ?_
    split at h
    · cases h; exact loadSna48_keepsRom f s1
    · exact loadSna128_keepsRom h
    · exact loadSna128_keepsRom h
    all_goals
      split at h
      · cases h
      · next s2 h2 => cases h; exact (loadSna128_keepsRom h2).trans (loadSnaTrailer_keepsRom f s2)

theorem loadZ80Header_keepsRom {f : List Byte} {s t : State} (h : loadZ80Header f s = .ok t) : s.KeepsRom t := by
  simp only [loadZ80Header] at h
  split at h
  · cases h
  · cases h; exact .of_frame rfl rfl

theorem loadZ80V1_keepsRom {f : List Byte} {s t : State} (h : loadZ80V1 f s = .ok t) : s.KeepsRom t := by
  simp only [loadZ80V1] at h
  split at h
  · cases h
  · cases h
    exact ((s.withRegs_keepsRom _).trans (State.loadThree_keepsRom _ _ 0)).trans (State.withLatches_keepsRom _ _)

theorem loadZ80Ext_keepsRom {f : List Byte} {s t : State} (h : loadZ80Ext f s = .ok t) : s.KeepsRom t := by
  simp only [loadZ80Ext] at h
  split at h
  · cases h
  · cases h; exact .of_frame rfl rfl

/-- A page id names a RAM bank or nothing (R290, R291). -/
theorem loadZ80Page_keepsRom (id : Byte) (page : List Byte) (s : State) : s.KeepsRom (loadZ80Page id page s) := by
  simp only [loadZ80Page]
  split
  · exact s.loadPage_keepsRom _ page
  · exact .refl s

theorem loadZ80Block_keepsRom {len : Word} {id : Byte} {data : List Byte} {s t : State}
    (h : loadZ80Block len id data s = .ok t) : s.KeepsRom t := by
  unfold loadZ80Block at h
  extract_lets page at h
  split at h
  · cases h; exact loadZ80Page_keepsRom id page s
  · cases h

theorem loadZ80Blocks_keepsRom {fuel : Nat} {rest : List Byte} {s t : State} (h : loadZ80Blocks fuel rest s = .ok t) :
    s.KeepsRom t := by
  induction fuel generalizing rest s with
  | zero => cases h; exact .refl _
  | succ n ih =>
    simp only [loadZ80Blocks] at h
    split at h
    · cases h; exact .refl _
    · split at h
      · cases h
      · split at h
        · cases h
        · split at h
          · cases h
          · next s1 he => exact (loadZ80Block_keepsRom he).trans (ih h)

theorem z80Part_keepsRom {v : Z80Ver} {f : List Byte} {s t : State} (h : z80Part v f s = .ok t) : s.KeepsRom t := by
  simp only [z80Part] at h
  split at h
  · cases h
  · next s1 hh =>
    refine (loadZ80Header_keepsRom hh).trans ?_
    split at h
    · exact loadZ80V1_keepsRom h
    all_goals
      split at h
      · cases h
      · next s2 h2 => exact (loadZ80Ext_keepsRom h2).trans (loadZ80Blocks_keepsRom h)

/-- An SP file without an embedded ROM page loads the three banks (R324). -/
theorem spPart_keepsRom {f : List Byte} {s t : State} (h : spPart false f s = .ok t) : s.KeepsRom t := by
  cases h
  have header : s.KeepsRom (loadSpHeader f s) := .of_frame rfl rfl
  exact header.trans ((loadSpHeader f s).loadThree_keepsRom f 38)

/-! ### Loads and executions -/

/-- The same of an outcome: of its next state, unless it has another architecture or failed late. -/
def Result.KeepsRom (s : State) : Result → Prop
  | .next t => t.arch = s.arch → t.failed = false → s.KeepsRom t
  | .fault _ => True
  | .refused _ => True

theorem Result.KeepsRom.of {s t : State} (h : s.KeepsRom t) : Result.KeepsRom s (.next t) := fun _ _ => h

/-- A load keeps what its part keeps where it succeeds on the running architecture (R253). -/
theorem loadOn_keepsRom {target : Arch} {part : State → Loading} (hp : ∀ s, Loading.Loads s (part s))
    (hr : ∀ s u, part s = .ok u → s.KeepsRom u) (s : State) : Result.KeepsRom s (loadOn target part s) := by
  cases h : loadOn target part s with
  | fault f => trivial
  | refused r => trivial
  | next t =>
    intro ha hf
    obtain ⟨s1, hs1, ⟨u, hu, rfl⟩ | ⟨r, u, -, rfl⟩⟩ := loadOn_next h
    · have hu_arch : u.arch = s1.arch := ((hp s1.cheatClose).of_ok hu).arch
      rcases hs1 with ⟨rfl, -⟩ | ⟨rfl, hne⟩
      · exact (s1.cheatClose_keepsRom.trans (hr s1.cheatClose u hu)).trans (.of_frame rfl rfl)
      · exact absurd (hu_arch.symm.trans ha) hne
    · cases hf

/-- A block loads its bank or nothing (R290). -/
theorem execZ80Block_keepsRom (len : Word) (id : Byte) (data : List Byte) (s : State) :
    Result.KeepsRom s (execZ80Block len id data s) := by
  simp only [execZ80Block]
  split
  · split
    · next u hu => exact .of ((loadZ80Block_keepsRom hu).give _)
    · exact fun _ hf => nomatch hf
  · exact fun _ hf => nomatch hf

/-- Every execution but an SP load, by its form; of the two SP variants the one left over has no ROM page. -/
theorem exec_keepsRom {i : Instr} (hsp : i ≠ .loadSp) (hrom : ∀ f, i ≠ .spWithRom f) (s : State) :
    Result.KeepsRom s (exec i s) := by
  have form := exec_form i s
  generalize exec i s = r at form ⊢
  cases form with
  | rdb addr => exact .of ((s.readTimed_keepsRom addr).give _)
  | wrb addr v => exact .of ((s.writeTimed_keepsRom addr v).give _)
  | rdw addr => exact .of (((s.readTimed_keepsRom addr).trans (State.readTimed_keepsRom _ _)).give _)
  | wrw addr v => exact .of (((s.writeTimed_keepsRom addr _).trans (State.writeTimed_keepsRom _ _ _)).give _)
  | tick n => exact .of (.of_frame rfl rfl)
  | reset => exact .of (.of_frame rfl rfl)
  | cheatLoad =>
    simp only [execCheatLoad]
    split
    · exact .of (.of_frame rfl rfl)
    · exact .of ((s.cheatClose_keepsRom.trans (State.fillPass_keepsRom _ _)).give _)
  | cheatApply => exact .of (s.applyCheats_keepsRom.give _)
  | cheatFetch => exact .of (.of_frame rfl rfl)
  | cheatClose => exact .of (.of_frame rfl rfl)
  | pd7 v =>
    refine .of (State.KeepsRom.give ?_ _)
    split
    · exact .refl s
    · exact s.page7Port_keepsRom v
  | pd1 v =>
    refine .of (State.KeepsRom.give ?_ _)
    split
    · exact s.page1Port_keepsRom v
    · exact .refl s
  | pdu v => exact .of ((s.ulaWrite_keepsRom v).give _)
  | z80Block len id data => exact execZ80Block_keepsRom len id data s
  | refused slot => trivial
  | reads _ rows port => exact .of (((s.chargePort_keepsRom port).trans (readRows_keepsRom rows port _)).give _)
  | writes _ rows port v => exact .of (((s.chargePort_keepsRom port).trans (writeRows_keepsRom rows port v _)).give _)
  | answers _ a => exact .of (.of_frame rfl rfl)
  | line _ l => exact .of ((s.fillLine_keepsRom l).give _)
  | sna _ v f => exact loadOn_keepsRom (snaPart_loads v f) (fun _ _ => snaPart_keepsRom) s
  | z80 _ v f => exact loadOn_keepsRom (z80Part_loads v f) (fun _ _ => z80Part_keepsRom) s
  | sp _ rom f _ hr =>
    rcases hr with rfl | ⟨g, rfl⟩ | rfl
    · exact absurd rfl hsp
    · exact absurd rfl (hrom g)
    · exact loadOn_keepsRom (spPart_loads false f) (fun _ _ => spPart_keepsRom) s

/-- Settles O38: what the next state of such an execution keeps. -/
theorem romPagesKept : Obligations.RomPagesKept := by
  intro i s t h hsp hrom ha hf
  have keeps := exec_keepsRom hsp hrom s
  rw [h] at keeps
  exact keeps ha hf

end Sys2Proof.Machine
end

section
/-! SUPPORT. What the window map shows (R70, R72) and which window writes it drops (R64). -/

namespace Sys2Proof.Machine

/-! ### The pages of the windows -/

theorem ramCurrentOf_special {arch : Arch} {l : Latches} (h : arch = .plus2A ∧ l.pagingmode2A3 = true) :
    ramCurrentOf arch l = specialTable l.specialCfg2A3 := if_pos h

theorem ramCurrentOf_normal {arch : Arch} {l : Latches} (h : ¬(arch = .plus2A ∧ l.pagingmode2A3 = true)) :
    ramCurrentOf arch l = #v[.rom (romInUseOf l), .ram 5, .ram 2, .ram l.bankLatch] := if_neg h

/-- A window shows ROM exactly when it is window 0 in normal mode (R64, R70, R74). -/
theorem ramCurrentOf_rom_iff (arch : Arch) (l : Latches) (w : Fin 4) :
    (∃ r, (ramCurrentOf arch l).get w = .rom r) ↔ w = 0 ∧ ¬(arch = .plus2A ∧ l.pagingmode2A3 = true) := by
  constructor
  · rintro ⟨r, hr⟩
    refine ⟨?_, fun hspecial => ?_⟩
    · by_contra hw
      obtain ⟨b, hb⟩ := ramCurrentOf_ram arch l hw
      cases hb.symm.trans hr
    · obtain ⟨b, hb⟩ := specialTable_ram l.specialCfg2A3 w
      rw [ramCurrentOf_special hspecial, hb] at hr
      cases hr
  · rintro ⟨rfl, hnormal⟩
    exact ⟨romInUseOf l, by rw [ramCurrentOf_normal hnormal]; rfl⟩

/-- Where the latches are legal, the mode latch alone tells special mode from normal (R45). -/
theorem State.LatchesLegal.normal_iff {s : State} (h : s.LatchesLegal) :
    ¬(s.arch = .plus2A ∧ s.latches.pagingmode2A3 = true) ↔ s.latches.pagingmode2A3 = false := by
  by_cases ha : s.arch = .plus2A
  · simp [ha]
  · simp [ha, (h.special ha).1]

/-- The pages an address can resolve to, in a mapped state with legal latches (R64). -/
theorem State.pageAt_rom_iff {s : State} (hm : s.Mapped) (hl : s.LatchesLegal) (addr : Word) :
    (∃ r, s.pageAt addr = .rom r) ↔ win addr = 0 ∧ s.latches.pagingmode2A3 = false := by
  rw [State.pageAt, hm, ← hl.normal_iff]
  exact ramCurrentOf_rom_iff s.arch s.latches (win addr)

/-- `romInUse` is the TR-DOS ROM or the number in the latch, which the five ROM pages hold whole (R43). -/
theorem romInUseOf_val (l : Latches) : (romInUseOf l).val = if l.trdosPaged = true then 4 else l.romLatch.toNat := by
  have hlatch : l.romLatch.toNat < 4 := l.romLatch.isLt
  cases h : l.trdosPaged with
  | true => simp [romInUseOf, h]
  | false => simp [romInUseOf, h, Nat.mod_eq_of_lt (Nat.lt_succ_of_lt hlatch)]

/-! ### Timed writes through the map -/

/-- A write that resolves to a ROM page leaves every byte of memory (R64). -/
theorem State.writeTimed_rom {s : State} {addr : Word} (v : Byte) {r : Fin 5} (h : s.pageAt addr = .rom r) :
    SameMemory s (s.writeTimed addr v) := fun p o _ => by
  rw [s.readPage_writeTimed addr v p o, State.memWrite_rom v h]

/-- A timed write moves no page between windows (R142). -/
theorem State.pageAt_writeTimed (s : State) (addr : Word) (v : Byte) (a : Word) :
    (s.writeTimed addr v).pageAt a = s.pageAt a := by rw [s.writeTimed_eq addr v]; rfl

/-- A write that resolves to a RAM page is read back (R63). -/
theorem State.memRead_writeTimed_ram {s : State} {addr : Word} (v : Byte) {b : BitVec 3} (h : s.pageAt addr = .ram b) :
    (s.writeTimed addr v).memRead addr = v := by
  rw [State.memRead, s.pageAt_writeTimed addr v addr, s.readPage_writeTimed addr v,
    s.readPage_memWrite addr v _ (off_lt addr), h]
  exact if_pos ⟨rfl, rfl⟩

/-! ### The statements -/

/-- Settles O12: an address resolves to ROM in window 0 of the normal map only; the write then keeps memory, and is read
back otherwise. -/
theorem romWriteDropped : Obligations.RomWriteDropped := by
  intro addr v s hm hl
  have hrom := State.pageAt_rom_iff hm hl addr
  refine ⟨hrom, _, exec_wrb addr v s, fun hdropped => ?_, fun hperformed => ?_⟩
  · obtain ⟨r, hr⟩ := hrom.mpr hdropped
    exact State.writeTimed_rom v hr
  · cases hpage : s.pageAt addr with
    | rom r => exact absurd (hrom.mp ⟨r, hpage⟩) hperformed
    | ram b => exact State.memRead_writeTimed_ram v hpage

/-- Settles O35: the two modes by the table and by the normal map; the contention flag of a window is its page's. -/
theorem remapWindows : Obligations.RemapWindows := by
  intro s m special
  have table (h : special) (n : BitVec 2) (hn : s.latches.specialCfg2A3 = n) : m.ramCurrent = specialTable n :=
    hn ▸ ramCurrentOf_special h
  have contended (w : Fin 4) : m.ramContended.get w = pageContended s.cfg s.arch (m.ramCurrent.get w) :=
    mapOf_contended s.cfg s.arch s.latches w
  refine ⟨rfl, fun h => table h 0, fun h => table h 1, fun h => table h 2, fun h => table h 3, ramCurrentOf_normal,
    romInUseOf_val s.latches, fun w b hram => ?_, fun w r hrom => ?_, rfl⟩
  · rw [contended, hram]
    rfl
  · rw [contended, hrom]
    rfl

end Sys2Proof.Machine
end

section
/-! SUPPORT. Decode and encode agree (R90 to R101, R110): one lemma per channel says what the decoder reads from an item of
it, and the round trip is these lemmas at each instruction's channel. -/

namespace Sys2Proof.Machine

/-! ### Transaction records -/

theorem reservedSlot_iff (slot : Byte) :
    reservedSlot slot = true ↔ (0x07 ≤ slot ∧ slot ≤ 0x0F) ∨ 0x1A ≤ slot := by
  simp [reservedSlot, BitVec.le_def]

/-- A reserved slot is none of the table's (R91, R110). -/
theorem slotInstr_reserved {slot : Byte} (h : reservedSlot slot = true) (addr data : Word) :
    slotInstr slot addr data = .reserved slot := by
  unfold slotInstr
  split
  case h_18 => rfl
  all_goals
    next hslot => simp [reservedSlot, hslot] at h

/-- A record is read back as the transaction of its slot (R90). -/
theorem decode_record (slot : Byte) (addr data : Word) :
    decode (record slot addr data).1 (record slot addr data).2 = .ok (slotInstr slot addr data) := by
  simp only [record, decode, decodeRecord, wordOf_bytes]

/-! ### Port rows -/

/-- An address that hits its input row is read back as that row's instruction (R98, R99). -/
theorem decode_inItem {r : InRow} {port : Word} (h : r.hits port = true) :
    decode (inItem r port).1 (inItem r port).2 = .ok (inRowInstr r port) := by
  simp only [inItem, decode, decodePortIn, wordOf_bytes, h, if_true]

/-- An address that hits its output row is read back, with the data byte, as that row's instruction (R98, R100). -/
theorem decode_outItem {r : OutRow} {port : Word} (v : Byte) (h : r.hits port = true) :
    decode (outItem r port v).1 (outItem r port v).2 = .ok (outRowInstr r port v) := by
  simp only [outItem, decode, decodePortOut, wordOf_bytes, h, if_true]

/-! ### Files -/

theorem snaVariant_size (v : SnaVariant) : snaVariant v.size = some v := by
  cases v <;> rfl

/-- A file of a variant's size is that variant (R251). -/
theorem decode_snaFile {v : SnaVariant} {f : List Byte} (h : f.length = v.size) :
    decode .snaFile f = .ok (snaInstr v f) := by
  simp only [decode, decodeSna, h, snaVariant_size]

theorem isZ80_iff (v : Z80Ver) (f : List Byte) : isZ80 v f = true ↔ 30 ≤ f.length ∧ z80Version f = .ok v := by
  cases h : z80Version f <;> simp [isZ80, h]

/-- A whole header of a version is a file of that version (R281). -/
theorem decode_z80File {v : Z80Ver} {f : List Byte} (h : isZ80 v f = true) :
    decode .z80File f = .ok (z80Instr v f) := by
  obtain ⟨hlength, hversion⟩ := (isZ80_iff v f).mp h
  simp only [decode, decodeZ80, Nat.not_lt.mpr hlength, hversion, if_false]

/-- A block whose data has the announced length is read back whole (R289). -/
theorem decode_z80Block {len : Word} (id : Byte) {data : List Byte} (h : data.length = blockDataLen len) :
    decode .z80Block (loByte len :: hiByte len :: id :: data) = .ok (.z80Block len id data) := by
  simp only [decode, decodeZ80Block, wordOf_bytes, h, if_true]

theorem endsInTerminator_append (body : List Byte) : endsInTerminator (body ++ z80Terminator) = true := by
  simp [endsInTerminator, z80Terminator]

theorem withoutTail_append (body : List Byte) : withoutTail (body ++ z80Terminator) = body := by
  simp [withoutTail, z80Terminator]

/-- The terminator is cut off the body it ends (R284). -/
theorem decode_z80Tail (body : List Byte) :
    decode .z80Tail (body ++ z80Terminator) = .ok (.z80V1Terminator body) := by
  simp only [decode, decodeZ80Tail, endsInTerminator_append, withoutTail_append, if_true]

theorem isSp_iff (rom : Bool) (f : List Byte) : isSp rom f = true ↔ spKind f = .ok rom := by
  cases h : spKind f <;> simp [isSp, h]

theorem decode_spNoRom {f : List Byte} (h : isSp false f = true) : decode .spFile f = .ok (.spNoRom f) := by
  simp only [decode, decodeSp, (isSp_iff false f).mp h]

theorem decode_spWithRom {f : List Byte} (h : isSp true f = true) : decode .spFile f = .ok (.spWithRom f) := by
  simp only [decode, decodeSp, (isSp_iff true f).mp h]

/-! ### Escape forms and lines -/

/-- The escape form, whose count tells its row (R293, R296). -/
theorem decode_rle (c v : Byte) :
    decode .rle [0xED, 0xED, c, v] = .ok (if c = 0 then .rleEscapeCount0 v else .rleEscape c v) := rfl

theorem decode_pokN {rest : List Byte} (h : oneLine rest = true) : decode .pokLine (0x4E :: rest) = .ok (.pokN rest) :=
  if_pos h

theorem decode_pokM {rest : List Byte} (h : oneLine rest = true) : decode .pokLine (0x4D :: rest) = .ok (.pokM rest) :=
  if_pos h

theorem decode_pokZ {rest : List Byte} (h : oneLine rest = true) : decode .pokLine (0x5A :: rest) = .ok (.pokZ rest) :=
  if_pos h

/-! ### The statements -/

/-- Settles O7: by the instruction's channel; only a byte datum, a count of ticks and a reserved slot need a word more than
their channel's lemma. -/
theorem decodeEncodeRoundTrip : Obligations.DecodeEncodeRoundTrip := by
  intro i hwf
  cases i with
  | rdb a | rdw a | inp a => exact decode_record _ a 0
  | wrw a v => exact decode_record _ a v
  | wrb a v | outp a v =>
    refine (decode_record _ a (wordOf 0 v)).trans ?_
    simp [slotInstr, loByte_wordOf]
  | tick n =>
    refine (decode_record _ 0 (BitVec.ofNat 16 n)).trans ?_
    simp [slotInstr, Nat.mod_eq_of_lt (of_decide_eq_true hwf)]
  | reset | loadSna | saveSna | loadZ80 | saveZ80 | loadSp | cheatLoad | cheatApply | cheatFetch | cheatClose =>
    exact decode_record _ 0 0
  | reserved slot => exact (decode_record slot 0 0).trans (congrArg _ (slotInstr_reserved hwf 0 0))
  | inpUla | inpTrdosStatus | inpTrdosTrack | inpTrdosSector | inpTrdosData | inpTrdosSystem | inpMouseX | inpMouseY
  | inpMouseButtons | inpKempston | inpFuller | inpAy | inpPage7Read | inpFloatBus => exact decode_inItem hwf
  | outpUla _ v | outpAyZx81 _ v | outpAyFullerSel _ v | outpAyFullerDat _ v | outpAySel _ v | outpAyDat _ v
  | outpCovox _ v | outpTrdosCommand _ v | outpTrdosTrack _ v | outpTrdosSector _ v | outpTrdosData _ v
  | outpTrdosSystem _ v | outpPage7 _ v | outpPage7Plus2A _ v | outpPage1Plus2A _ v => exact decode_outItem v hwf
  | pd7 | pd1 | pdu => rfl
  | snaS48 | snaS128a | snaS128b | snaS2A3a | snaS2A3b => exact decode_snaFile (eq_of_beq hwf)
  | z80V1 | z80V2 | z80V3 => exact decode_z80File hwf
  | z80Block len id data => exact decode_z80Block id (eq_of_beq hwf)
  | z80V1Terminator body => exact decode_z80Tail body
  | rleEscape c v => exact (decode_rle c v).trans (congrArg _ (if_neg (bne_iff_ne.mp hwf)))
  | rleEscapeCount0 v => exact decode_rle 0 v
  | spNoRom => exact decode_spNoRom hwf
  | spWithRom => exact decode_spWithRom hwf
  | pokN => exact decode_pokN hwf
  | pokM => exact decode_pokM hwf
  | pokZ => exact decode_pokZ hwf

/-- Settles O8: the decoder run on each string. -/
theorem decodeWrittenOutWords : Obligations.DecodeWrittenOutWords :=
  ⟨rfl, rfl, rfl, rfl, rfl, rfl, rfl, rfl, rfl, rfl, rfl, rfl, rfl⟩

/-- Settles O9: the slot is none of the table's, whatever the other four bytes. -/
theorem reservedSlotRefused : Obligations.ReservedSlotRefused := by
  intro slot b1 b2 b3 b4 s hslot
  have hreserved : reservedSlot slot = true := (reservedSlot_iff slot).mpr hslot
  exact ⟨congrArg _ (slotInstr_reserved hreserved (wordOf b2 b1) (wordOf b4 b3)), rfl⟩

end Sys2Proof.Machine
end

section
/-! SUPPORT. What a step does, by what stands next (R122, R123, R130, R362, R363): one lemma for each kind of thing `fetch`
comes by, one for what `issue` does on a failed machine and on any other, and the effect of bytes that are no row of their
channel (log 41). -/

namespace Sys2Proof.Machine

/-! ### What is fetched -/

theorem fetch_without_alloc {s : State} (ha : s.cfg.allocOk = false) : fetch s = .stop .initAllocFailure := if_pos ha

theorem fetch_during_cpuStep {s : State} {answers : List Answer} (ha : s.cfg.allocOk = true) (hc : s.cpu = some answers) :
    fetch s = s.goOnCpu answers := by
  unfold fetch; rw [if_neg (by simp [ha]), hc]

theorem fetch_agenda_empty {s : State} (ha : s.cfg.allocOk = true) (hc : s.cpu = none) (hg : s.agenda = []) :
    fetch s = .stop .runEnded := by
  unfold fetch; rw [if_neg (by simp [ha]), hc, hg]

theorem fetch_agenda_cpuStep {s : State} {rest : List AgendaItem} (ha : s.cfg.allocOk = true) (hc : s.cpu = none)
    (hg : s.agenda = .cpuStep :: rest) : fetch s = ({ s with agenda := rest }).beginCpu := by
  unfold fetch; rw [if_neg (by simp [ha]), hc, hg]

theorem fetch_agenda_issue {s : State} {ch : Channel} {bytes : List Byte} {rest : List AgendaItem}
    (ha : s.cfg.allocOk = true) (hc : s.cpu = none) (hg : s.agenda = .issue ch bytes :: rest) :
    fetch s = .item ch bytes { s with agenda := rest } := by
  unfold fetch; rw [if_neg (by simp [ha]), hc, hg]

theorem State.beginCpu_failed {s : State} (hf : s.failed = true) : s.beginCpu = .stop .machineFailed := if_pos hf

theorem State.goOnCpu_failed {s : State} (hf : s.failed = true) (answers : List Answer) :
    s.goOnCpu answers = .stop .machineFailed := if_pos hf

theorem State.goOnCpu_transact {s : State} {answers : List Answer} {op : BusOp} (hf : s.failed = false)
    (ho : cpuStep s.regs answers = .transact op) : s.goOnCpu answers = .call op s := by
  unfold State.goOnCpu; rw [if_neg (by simp [hf]), ho]

theorem State.goOnCpu_ends {s : State} {answers : List Answer} {r : Regs} (hf : s.failed = false)
    (ho : cpuStep s.regs answers = .ends r) : s.goOnCpu answers = .done { s with regs := r, cpu := none } := by
  unfold State.goOnCpu; rw [if_neg (by simp [hf]), ho]

/-! ### What is issued -/

/-- An instruction the CPU does not issue, or any on a machine that is not failed, runs (R362). -/
theorem issue_runs {i : Instr} {s : State} (h : i.agent = .cpu → s.failed = false) : issue i s = noteAnswer (exec i s) := by
  have hh : haltedBy i s = none := if_neg fun ⟨hi, hf⟩ => by simp [h hi] at hf
  unfold issue; rw [hh]

/-- A failed machine takes no CPU transaction (R362). -/
theorem issue_failed {i : Instr} {s : State} (hi : i.agent = .cpu) (hf : s.failed = true) :
    issue i s = .fault .machineFailed := by
  have hh : haltedBy i s = some .machineFailed := if_pos ⟨hi, hf⟩
  unfold issue; rw [hh]

theorem issue_cpu {i : Instr} (hi : i.agent = .cpu) (s : State) :
    issue i s = if s.failed = true then .fault .machineFailed else noteAnswer (exec i s) := by
  split
  · next hf => exact issue_failed hi hf
  · next hf => exact issue_runs fun _ => Bool.eq_false_of_not_eq_true hf

/-! ### What a step does -/

theorem step_stop {s : State} {f : Fault} (h : fetch s = .stop f) : step s = .fault f := by
  unfold step; rw [h]

theorem step_done {s t : State} (h : fetch s = .done t) : step s = .next t := by
  unfold step; rw [h]

theorem step_call {s t : State} {op : BusOp} (h : fetch s = .call op t) : step s = issue (busInstr op) t := by
  unfold step; rw [h]

theorem step_item {s : State} {ch : Channel} {bytes : List Byte} {rest : List AgendaItem} {i : Instr}
    (ha : s.cfg.allocOk = true) (hc : s.cpu = none) (hg : s.agenda = .issue ch bytes :: rest)
    (hd : decode ch bytes = .ok i) : step s = issue i { s with agenda := rest } := by
  unfold step; rw [fetch_agenda_issue ha hc hg]; simp only [hd]

/-- A CPU step in progress runs the transaction `CpuStep` asks for, or ends (R122, R123). -/
theorem step_during_cpuStep {s : State} {answers : List Answer} (ha : s.cfg.allocOk = true) (hf : s.failed = false)
    (hc : s.cpu = some answers) :
    (∀ op, cpuStep s.regs answers = .transact op → step s = noteAnswer (exec (busInstr op) s)) ∧
      ∀ r, cpuStep s.regs answers = .ends r → step s = .next { s with regs := r, cpu := none } := by
  have hfetch : fetch s = s.goOnCpu answers := fetch_during_cpuStep ha hc
  refine ⟨fun op ho => ?_, fun r ho => ?_⟩
  · exact (step_call (hfetch.trans (State.goOnCpu_transact hf ho))).trans (issue_runs fun _ => hf)
  · exact step_done (hfetch.trans (State.goOnCpu_ends hf ho))

/-- A row of the opcode table placed at the head of the list is issued with no CPU step in progress (log 1). -/
theorem step_withFetchWord {s : State} {nbits w : Nat} {i : Instr} (ha : s.cfg.allocOk = true)
    (hd : decodeTableWord nbits w = some i) : step (s.withFetchWord nbits w) = issue i { s with cpu := none } := by
  have hdecode : decode (tableItem nbits w).1 (tableItem nbits w).2 = .ok i := by
    unfold decodeTableWord at hd
    split at hd
    · next hok => exact hok.trans (congrArg _ (Option.some.inj hd))
    · cases hd
  exact step_item (s := s.withFetchWord nbits w) ha rfl rfl hdecode

/-! ### Bytes that are no row of their channel -/

/-- Bytes the decoder refuses where a v1 body stands do not end in the terminator, so all of them are the body (R284). -/
theorem stripTerminator_other {f : List Byte} {r : Reject} (h : decodeZ80Tail f = .error r) : stripTerminator f = f := by
  unfold decodeZ80Tail at h
  split at h
  · cases h
  · next hterm => exact if_neg hterm

/-- The reason an SP file of no variant is refused, by the first failing check (R320). -/
theorem spKind_error {f : List Byte} {q : LoadFailure} (h : spKind f = .error q) :
    q = if f.length < 38 then .badSize
      else if fileByte f 0 ≠ 0x53 ∨ fileByte f 1 ≠ 0x50 then .badSignature
      else if le16 f 2 = 49152 ∧ le16 f 4 = 16384 ∨ le16 f 2 = 0 ∧ le16 f 4 = 0 then .badSize
      else .badField := by
  unfold spKind at h
  split_ifs at h with hlen hsig h48 _ h0 _ <;> cases h
  · rw [if_pos hlen]
  · rw [if_neg hlen, if_pos hsig]
  · rw [if_neg hlen, if_neg hsig, if_pos (.inl h48)]
  · rw [if_neg hlen, if_neg hsig, if_pos (.inr h0)]
  · rw [if_neg hlen, if_neg hsig, if_neg (not_or.mpr ⟨h48, h0⟩)]

theorem loadBlocksOf_ok {f : List Byte} {s t : State} (h : loadZ80Blocks f.length f s = .ok t) :
    loadBlocksOf f s = .next (t.give .loaded) := by
  unfold loadBlocksOf; rw [h]

/-- A block string that does not load whole fails in one way only: it is truncated (R289). -/
theorem loadBlocksOf_error {f : List Byte} {s t : State} {q : LoadFailure}
    (h : loadZ80Blocks f.length f s = .error (q, t)) : loadBlocksOf f s = .next (t.lateFailure .truncated) := by
  have hq : q = .truncated := congrArg Prod.fst ((loadZ80Blocks_frame f.length f s).2 _ h)
  unfold loadBlocksOf; rw [h, hq]

/-! ### The statements -/

/-- Settles O40: by what is fetched, and for an item by what is issued. -/
theorem stuckMachine : Obligations.StuckMachine := by
  intro s
  refine ⟨fun ha => step_stop (fetch_without_alloc ha), fun ha hc hg => step_stop (fetch_agenda_empty ha hc hg),
    fun ha hf => ⟨fun hc => ?_, fun rest hc hg => ?_, fun ch bytes rest i hc hg hd hi => ?_⟩⟩
  · obtain ⟨answers, hcpu⟩ := Option.ne_none_iff_exists'.mp hc
    exact step_stop ((fetch_during_cpuStep ha hcpu).trans (State.goOnCpu_failed hf answers))
  · exact step_stop ((fetch_agenda_cpuStep ha hc hg).trans (State.beginCpu_failed hf))
  · exact (step_item ha hc hg hd).trans (issue_failed hi hf)

/-- Settles O6: an item or a transaction is issued, and bytes that are no row of their channel go by the channel. -/
theorem stepRunsDecodedInstruction : Obligations.StepRunsDecodedInstruction := by
  refine ⟨fun s ch bytes rest i ha hc hg hd hf => ?_, fun s answers ha hf hc => ?_, fun s nbits w i ha hf hd => ?_,
    fun t => rfl, fun r answers => moveAfter_ends (Config.cpuProgram r) answers,
    fun s ch bytes rest r ha hc hg hd => ?_⟩
  · exact (step_item ha hc hg hd).trans (issue_runs hf)
  · obtain ⟨htransact, hends⟩ := step_during_cpuStep ha hf hc
    split
    · next op ho => exact htransact op ho
    · next r ho => exact hends r ho
  · exact (step_withFetchWord ha hd).trans (issue_runs fun _ => hf)
  · rw [step_other ha hc hg hd]
    cases ch with
    | portIn row =>
      rcases bytes with _ | ⟨lo, _ | ⟨hi, _ | _⟩⟩
      case cons.cons.nil => exact issue_cpu (inRowInstr_agent row _) _
      all_goals rfl
    | portOut row =>
      rcases bytes with _ | ⟨lo, _ | ⟨hi, _ | ⟨v, _ | _⟩⟩⟩
      case cons.cons.cons.nil => exact issue_cpu (outRowInstr_agent row _ v) _
      all_goals rfl
    | snaFile => exact loadSnaFile_other hd _
    | z80File => exact loadZ80File_other hd _
    | spFile =>
      obtain ⟨q, hq, hload⟩ := loadSpFile_other hd { s with agenda := rest }
      rw [spKind_error hq] at hload
      exact hload
    | z80Block =>
      dsimp only
      split
      · next hok => exact loadBlocksOf_ok hok
      · next herror => exact loadBlocksOf_error herror
    | z80Tail => exact congrArg (fun f => Host.Outcome.next (State.give _ (.bytes f))) (stripTerminator_other hd)
    | rle | pokLine | record | dataPd7 | dataPd1 | dataPdu => rfl

end Sys2Proof.Machine
end

section
/-! SUPPORT. The word write as two byte writes (R144), and the tick counter's own transaction (R145). -/

namespace Sys2Proof.Machine

theorem exec_wrw (addr v : Word) (s : State) :
    exec (.wrw addr v) s =
      .next (((s.writeTimed addr (loByte v)).writeTimed (addr + 1) (hiByte v)).give .none) := rfl

theorem exec_tick (n : Nat) (s : State) : exec (.tick n) s = .next ({ s with tick := s.tick + n }.give .none) := rfl

/-- Settles O14: the second `WRB` of a word write does not see the answer of the first. -/
theorem writeWordResult : Obligations.WriteWordResult := by
  intro addr v s
  refine ⟨_, _, exec_wrb addr (loByte v) s, exec_wrb (addr + 1) (hiByte v) _, ?_⟩
  rw [State.writeTimed_give, exec_wrw]
  rfl

/-- Settles O15: the answer cleared by `give` is the only other field `TICK n` writes. -/
theorem tickAdvancesCounter : Obligations.TickAdvancesCounter := exec_tick

end Sys2Proof.Machine
end

section
/-! SUPPORT. Port reads (R160 to R173): the keyboard byte, the EAR bit, which row answers an address, and what a read may
change. An odd address is settled by groups of neighbouring rows that answer alike. -/

namespace Sys2Proof.Machine

/-! ### The keyboard byte -/

/-- An entry of `port[]` that is there is read without the default. -/
theorem port_getD (ports : Vector Byte 128) {n : Nat} (h : n < 128) (d : Byte) : ports.getD n d = ports.get ⟨n, h⟩ := by
  simp [Vector.getD, h, Vector.get_eq_getElem]

/-- The rows below `n` that the address selects, ANDed together, bit by bit. -/
theorem keyAndFrom_getLsbD (ports : Vector Byte 128) (port : Word) {k : Nat} (hk : k < 8) (n : Nat) (hn : n ≤ 8) :
    (keyAndFrom ports port n).getLsbD k = true ↔
      ∀ r : Fin 128, r.val < n → port.getLsbD (8 + r.val) = false → (ports.get r).getLsbD k = true := by
  induction n with
  | zero =>
    have hall : (0xFF : Byte).getLsbD k = true := by
      show (BitVec.allOnes 8).getLsbD k = true
      rw [BitVec.getLsbD_allOnes, decide_eq_true hk]
    exact iff_of_true hall fun r hr => absurd hr (Nat.not_lt_zero _)
  | succ n ih =>
    specialize ih (Nat.le_of_succ_le hn)
    have hlt : n < 128 := by omega
    have hstep : (keyAndFrom ports port (n + 1)).getLsbD k = true ↔
        (keyAndFrom ports port n).getLsbD k = true ∧
          (port.getLsbD (8 + n) = false → (ports.get ⟨n, hlt⟩).getLsbD k = true) := by
      simp only [keyAndFrom, port_getD ports hlt]
      cases port.getLsbD (8 + n) <;> simp
    rw [hstep, ih]
    constructor
    · rintro ⟨hbelow, hlast⟩ r hr
      obtain hr | hr := Nat.lt_succ_iff_lt_or_eq.mp hr
      · exact hbelow r hr
      · obtain rfl : r = ⟨n, hlt⟩ := Fin.ext hr
        exact hlast
    · exact fun h => ⟨fun r hr => h r (Nat.lt_succ_of_lt hr), h ⟨n, hlt⟩ (Nat.lt_succ_self n)⟩

/-- Settles O18: the eight rows, one at a time. -/
theorem keyRowsAnded : Obligations.KeyRowsAnded := fun ports port _ hk =>
  keyAndFrom_getLsbD ports port hk 8 (Nat.le_refl 8)

/-! ### Queries -/

/-- One query takes the head of the host's queue, or draws a free value where there is none (log 18). -/
theorem State.ask_eq (s : State) :
    ∃ (v : Byte) (n : Nat), s.ask = (v, { s with oracle := s.oracle.tail, draws := n }) ∧
      ∀ a rest, s.oracle = a :: rest → v = a ∧ n = s.draws := by
  cases h : s.oracle with
  | nil => exact ⟨_, _, (State.ask_empty h).trans (by rw [List.tail_nil, ← h]), nofun⟩
  | cons a rest =>
    refine ⟨a, s.draws, State.ask_queued h, fun a' rest' e => ?_⟩
    cases e
    exact ⟨rfl, rfl⟩

/-- `EarTerm()` with the answers queued: the feedback term without a tape, the tape's bit with one (R164). -/
theorem State.earTerm_idle {s : State} {loading : Byte} {rest : List Byte} (h : s.oracle = loading :: rest)
    (hl : loading.getLsbD 0 = false) :
    s.earTerm = (feedbackBit s.cfg s.arch s.port254, { s with oracle := rest }) := by
  simp only [State.earTerm, State.ask_queued h, bit, hl, Bool.false_eq_true, if_false]

theorem State.earTerm_tape {s : State} {loading ear : Byte} {rest : List Byte} (h : s.oracle = loading :: ear :: rest)
    (hl : loading.getLsbD 0 = true) : s.earTerm = (ear.getLsbD 0, { s with oracle := rest }) := by
  have hsecond : ({ s with oracle := ear :: rest } : State).ask = (ear, { s with oracle := rest }) := rfl
  simp only [State.earTerm, State.ask_queued h, bit, hl, if_true, hsecond]

/-! ### The ULA -/

/-- What a read answers and leaves, as a state. -/
def State.ofRead (r : Byte × State) : State := r.2.give (.byte r.1)

theorem inpRows_eq (rows : List InRow) (port : Word) (s : State) :
    inpRows rows port s = .next (.ofRead (readRows rows port (s.chargePort port))) := rfl

theorem InRow.takes_ula (s : State) {port : Word} (hp : port.getLsbD 0 = false) : InRow.ula.takes port s = true := by
  show (true && evenPort port) = true
  rw [evenPort_eq, hp]
  rfl

theorem exec_inp_even {port : Word} (hp : port.getLsbD 0 = false) (s : State) :
    exec (.inp port) s = inpRows [.ula] port s := by
  show inpRows (if evenPort port then [.ula] else oddRows) port s = _
  rw [evenPort_eq, hp]
  rfl

theorem exec_inp_odd {port : Word} (hp : port.getLsbD 0 = true) (s : State) :
    exec (.inp port) s = inpRows oddRows port s := by
  show inpRows (if evenPort port then [.ula] else oddRows) port s = _
  rw [evenPort_eq, hp]
  rfl

/-- The EAR bit replaces bit 6 of the keyboard byte (R162, R173). -/
theorem State.ulaRead_eq (s : State) (port : Word) :
    s.ulaRead port =
      ((keyAnd s.port port &&& 0xBF) ||| (if s.earTerm.1 = true then (0x40 : Byte) else 0), s.earTerm.2) := by
  have hbit (b : Bool) : bitByte b <<< 6 = if b = true then (0x40 : Byte) else 0 := by cases b <;> rfl
  exact congrArg (fun b : Byte => ((keyAnd s.port port &&& 0xBF) ||| b, s.earTerm.2)) (hbit s.earTerm.1)

theorem inpRows_ula {port : Word} (hp : port.getLsbD 0 = false) (s : State) :
    inpRows [.ula] port s = .next (.ofRead ((s.chargePort port).ulaRead port)) := by
  have hread : readRows [.ula] port (s.chargePort port) = _ :=
    readRows_of_takes (pre := []) nofun (InRow.takes_ula _ hp)
  rw [inpRows_eq, hread, InRow.read]

/-- Settles O19: only the EAR query moves anything but the counter. -/
theorem ulaReadResult : Obligations.UlaReadResult := by
  intro port s i hp hi
  have hexec : exec i s = inpRows [.ula] port s := by
    obtain rfl | rfl := hi
    · exact exec_inp_even hp s
    · rfl
  rw [hexec, inpRows_ula hp, State.ulaRead_eq]
  refine ⟨_, _, _, congrArg (fun u : State => Host.Outcome.next (u.give _)) (State.earTerm_frame _), ?_, ?_⟩
  · intro loading rest hq hl
    have hear : (s.chargePort port).earTerm = _ := State.earTerm_idle hq hl
    rw [hear]
    exact ⟨rfl, rfl, rfl⟩
  · intro loading ear rest hq hl
    have hear : (s.chargePort port).earTerm = _ := State.earTerm_tape hq hl
    rw [hear]
    exact ⟨rfl, rfl, rfl⟩

/-! ### Rows of the odd class on their own -/

theorem InRow.hits_iff (r : InRow) (port : Word) : r.hits port = true ↔ port &&& r.mask = r.value := beq_iff_eq

/-- On an odd address the AY row tests what R99 writes, without the class bit. -/
theorem InRow.hits_ay {port : Word} (hp : port.getLsbD 0 = true) :
    InRow.ay.hits port = true ↔ port &&& 0xC002 = 0xC000 := by
  have hodd : InRow.ay.hits port = maskHit port 0xC002 0xC000 :=
    maskHit_odd (mask := 0xC002) (value := 0xC000) hp rfl rfl
  rw [hodd]
  exact beq_iff_eq

theorem InRow.hits_page7 {port : Word} (hp : port.getLsbD 0 = true) :
    InRow.page7.hits port = true ↔ port &&& 0x8002 = 0x0000 := by
  have hodd : InRow.page7.hits port = maskHit port 0x8002 0x0000 :=
    maskHit_odd (mask := 0x8002) (value := 0x0000) hp rfl rfl
  rw [hodd]
  exact beq_iff_eq

theorem InRow.hits_page7_even {port : Word} (hp : port.getLsbD 0 = false) : InRow.page7.hits port = false := by
  refine Bool.eq_false_iff.mpr fun h => ?_
  have hbit := congrArg (fun x : Word => x.getLsbD 0) ((InRow.hits_iff .page7 port).mp h)
  rw [BitVec.getLsbD_and, hp] at hbit
  exact absurd hbit (by decide)

theorem InRow.takes_kempston (port : Word) (s : State) :
    InRow.kempston.takes port s = true ↔ s.cfg.joystick = .kempston ∧ port &&& 0x00FF = 0x001F := by
  rw [InRow.takes, Bool.and_eq_true, InRow.hits_iff]
  exact and_congr_left' beq_iff_eq

theorem InRow.takes_fuller (port : Word) (s : State) :
    InRow.fuller.takes port s = true ↔ s.cfg.joystick = .fuller ∧ port &&& 0x00FF = 0x007F := by
  rw [InRow.takes, Bool.and_eq_true, InRow.hits_iff]
  exact and_congr_left' beq_iff_eq

theorem InRow.takes_ay {port : Word} (hp : port.getLsbD 0 = true) (s : State) :
    InRow.ay.takes port s = true ↔ s.cfg.ayPresent = true ∧ port &&& 0xC002 = 0xC000 := by
  rw [InRow.takes, Bool.and_eq_true, InRow.hits_ay hp]
  rfl

theorem InRow.takes_page7 {port : Word} (hp : port.getLsbD 0 = true) (s : State) :
    InRow.page7.takes port s = true ↔ s.arch = .spec128 ∧ port &&& 0x8002 = 0x0000 := by
  rw [InRow.takes, Bool.and_eq_true, InRow.hits_page7 hp]
  exact and_congr_left' beq_iff_eq

/-- The condition of a row does not look at the counter. -/
theorem InRow.takes_chargePort (r : InRow) (port : Word) (s : State) :
    r.takes port (s.chargePort port) = r.takes port s := by
  cases r <;> rfl

/-- A row on its own that takes the address answers it. -/
theorem inpRows_rowsFrom {r : InRow} (hr : r ∈ oddRows) {port : Word} {s : State} (ht : r.takes port s = true) :
    inpRows (rowsFrom r) port s = .next (.ofRead (r.read port (s.chargePort port))) := by
  obtain ⟨post, hpost⟩ := rowsFrom_head r hr
  have hread : readRows (r :: post) port (s.chargePort port) = _ :=
    readRows_of_takes (pre := []) nofun ((r.takes_chargePort port s).trans ht)
  rw [inpRows_eq, hpost, hread]

/-- A row that asks a collaborator returns its answer (R166, R167, R170). -/
theorem inpRows_asks {r : InRow} (hr : r ∈ oddRows) {port : Word} {s : State} (hread : ∀ u, r.read port u = u.ask)
    (he : r.enabled s = true) (hh : port &&& r.mask = r.value) :
    ∃ (v : Byte) (n : Nat),
      inpRows (rowsFrom r) port s = .next
        { s.chargePort port with oracle := s.oracle.tail, draws := n, answer := .byte v } ∧
      ∀ a rest, s.oracle = a :: rest → v = a ∧ n = s.draws := by
  obtain ⟨v, n, hask, hqueued⟩ := (s.chargePort port).ask_eq
  have ht : r.takes port s = true := by rw [InRow.takes, he, (r.hits_iff port).mpr hh]; rfl
  refine ⟨v, n, ?_, hqueued⟩
  rw [inpRows_rowsFrom hr ht, hread, hask]
  rfl

/-- Settles O21: the rows of a device ask the same question, each at its address. -/
theorem collaboratorReads : Obligations.CollaboratorReads := by
  intro port s
  have htrdos (he : s.latches.trdosPaged = true) (q : TrdosReg) :=
    inpRows_asks (r := .trdos q) (by cases q <;> decide) (port := port) (fun _ => rfl) he
  have hmouse (he : s.cfg.mouse = true) (q : MouseAxis) :=
    inpRows_asks (r := .mouse q) (by cases q <;> decide) (port := port) (fun _ => rfl) he
  have hay (he : s.cfg.ayPresent = true) (hp : port.getLsbD 0 = true) (h : port &&& 0xC002 = 0xC000) :=
    inpRows_asks (r := .ay) (by decide) (fun _ => rfl) he ((InRow.hits_iff .ay port).mp ((InRow.hits_ay hp).mpr h))
  exact ⟨fun he => ⟨htrdos he .status, htrdos he .track, htrdos he .sector, htrdos he .data, htrdos he .system⟩,
    fun he => ⟨hmouse he .x, hmouse he .y, hmouse he .buttons⟩, hay⟩

theorem InRow.read_kempston (port : Word) (s : State) : InRow.kempston.read port s = (s.port.get 0x1F, s) :=
  congrArg (·, s) (port_getD s.port (by decide) 0)

theorem InRow.read_fuller (port : Word) (s : State) : InRow.fuller.read port s = (s.port.get 0x7F, s) :=
  congrArg (·, s) (port_getD s.port (by decide) 0)

/-- Settles O22: the two rows read the entries the host writes. -/
theorem joystickReads : Obligations.JoystickReads := by
  intro port s
  constructor
  · intro hj hp
    have hexec : exec (.inpKempston port) s = _ :=
      inpRows_rowsFrom (r := .kempston) (by decide) ((InRow.takes_kempston port s).mpr ⟨hj, hp⟩)
    rw [hexec, InRow.read_kempston]
    rfl
  · intro hj hp
    have hexec : exec (.inpFuller port) s = _ :=
      inpRows_rowsFrom (r := .fuller) (by decide) ((InRow.takes_fuller port s).mpr ⟨hj, hp⟩)
    rw [hexec, InRow.read_fuller]
    rfl

/-- Settles O23: the write-back is `Page7Port` of the byte read, and Spec128 has a 1-bit ROM latch. -/
theorem pagingPortRead : Obligations.PagingPortRead := by
  intro port s harch hodd hport
  have hexec : exec (.inpPage7Read port) s = _ :=
    inpRows_rowsFrom (r := .page7) (by decide) ((InRow.takes_page7 hodd s).mpr ⟨harch, hport⟩)
  rw [hexec]
  simp only [InRow.read, State.ofRead]
  cases hlock : s.latches.pagingLock with
  | true =>
    rw [State.page7Port_locked (s := s.chargePort port) _ hlock]
    rfl
  | false =>
    have hrom (b : Bool) : setRomLow s.arch s.latches.romLatch b = if b = true then 1 else 0 := by
      rw [setRomLow, if_neg (by rw [harch]; decide)]
      rfl
    rw [State.page7Port_open (s := s.chargePort port) _ hlock]
    simp only [pd7Latches, State.chargePort_arch, State.chargePort_latches, hrom]
    rfl

theorem readRows_floatBus (port : Word) (s : State) : readRows [.floatBus] port s = (s.floatBus, s) := by
  simp only [readRows, InRow.read, ite_self]

/-- Settles O24: the floating bus is the last row, and reads the charged counter. -/
theorem floatBusRead : Obligations.FloatBusRead := by
  intro port s _
  show inpRows [.floatBus] port s = _
  rw [inpRows_eq, readRows_floatBus]
  simp only [State.ofRead, State.floatBus, State.chargePort_cfg, State.chargePort_arch, State.chargePort_tick]
  cases floatBusAddr s.cfg s.arch (portTick s port) <;> rfl

/-! ### The priority order -/

/-- Rows that do not take the address leave it to the rows after them. -/
theorem readRows_append_of_not_takes {rows : List InRow} (post : List InRow) {port : Word} {s : State}
    (h : ∀ r ∈ rows, r.takes port s = false) : readRows (rows ++ post) port s = readRows post port s := by
  induction rows with
  | nil => rfl
  | cons r rs ih =>
    simp only [List.cons_append, readRows, h r List.mem_cons_self, Bool.false_eq_true, if_false]
    exact ih fun q hq => h q (List.mem_cons_of_mem r hq)

/-- Neighbouring rows that answer alike answer where any of them takes the address. -/
theorem readRows_append_of_takes {rows : List InRow} (post : List InRow) {port : Word} {s : State} {a : Byte × State}
    (hread : ∀ r ∈ rows, r.read port s = a) (h : ∃ r ∈ rows, r.takes port s = true) :
    readRows (rows ++ post) port s = a := by
  induction rows with
  | nil => simp at h
  | cons r rs ih =>
    simp only [List.cons_append, readRows]
    split
    · exact hread r List.mem_cons_self
    · next hr =>
      obtain ⟨q, hq, hqt⟩ := h
      obtain rfl | hq := List.mem_cons.mp hq
      · exact absurd hqt hr
      · exact ih (fun p hp => hread p (List.mem_cons_of_mem r hp)) ⟨q, hq, hqt⟩

/-- One device of the priority order: the rows `rows`, which take the address under `p` and all answer `a`. -/
theorem ofRead_readRows_device {rows post : List InRow} {port : Word} {s t : State} {a : Byte × State} {p : Prop}
    [Decidable p] (hread : ∀ r ∈ rows, r.read port s = a) (hp : (∃ r ∈ rows, r.takes port s = true) ↔ p)
    (hpost : State.ofRead (readRows post port s) = t) :
    State.ofRead (readRows (rows ++ post) port s) = if p then .ofRead a else t := by
  split
  · next h => rw [readRows_append_of_takes post hread (hp.mpr h)]
  · next h =>
    rw [readRows_append_of_not_takes post fun r hr => Bool.eq_false_iff.mpr fun ht => h (hp.mp ⟨r, hr, ht⟩), hpost]

/-- A device of one row. -/
theorem ofRead_readRows_row {r : InRow} {post : List InRow} {port : Word} {s t : State} {a : Byte × State} {p : Prop}
    [Decidable p] (hread : r.read port s = a) (hp : r.takes port s = true ↔ p)
    (hpost : State.ofRead (readRows post port s) = t) :
    State.ofRead (readRows (r :: post) port s) = if p then .ofRead a else t :=
  ofRead_readRows_device (rows := [r]) (by simpa using hread) (by simpa using hp) hpost

theorem takes_trdos (port : Word) (s : State) :
    (∃ r ∈ [InRow.trdos .status, .trdos .track, .trdos .sector, .trdos .data, .trdos .system], r.takes port s = true) ↔
      s.latches.trdosPaged = true ∧ (port &&& 0x00E3 = 0x03 ∨ port &&& 0x00E3 = 0x23 ∨ port &&& 0x00E3 = 0x43 ∨
        port &&& 0x00E3 = 0x63 ∨ port &&& 0x00E3 = 0xE3) := by
  simp [InRow.takes, InRow.enabled, InRow.hits_iff, InRow.mask, InRow.value, TrdosReg.code, and_or_left]

theorem takes_mouse (port : Word) (s : State) :
    (∃ r ∈ [InRow.mouse .x, .mouse .y, .mouse .buttons], r.takes port s = true) ↔
      s.cfg.mouse = true ∧ (port &&& 0x05FF = 0x01DF ∨ port &&& 0x05FF = 0x05DF ∨ port &&& 0x05FF = 0x00DF) := by
  simp [InRow.takes, InRow.enabled, InRow.hits_iff, InRow.mask, InRow.value, and_or_left]

/-- Settles O20: the odd rows fall into the seven devices of R165. -/
theorem oddPortReadPriority : Obligations.OddPortReadPriority := by
  intro port s hodd u m ax
  rw [exec_inp_odd hodd, inpRows_eq]
  refine congrArg Host.Outcome.next ?_
  refine ofRead_readRows_device (by simp [InRow.read]) (takes_trdos port u) ?_
  refine ofRead_readRows_device (by simp [InRow.read]) (takes_mouse port u) ?_
  refine ofRead_readRows_row (InRow.read_kempston port u) (InRow.takes_kempston port u) ?_
  refine ofRead_readRows_row (InRow.read_fuller port u) (InRow.takes_fuller port u) ?_
  refine ofRead_readRows_row rfl (InRow.takes_ay hodd u) ?_
  refine ofRead_readRows_row rfl (InRow.takes_page7 hodd u) ?_
  rw [readRows_floatBus]
  rfl

/-! ### What a read may change -/

/-- Every input instruction is a port access offered to some rows (R160; log 4). -/
theorem exec_of_inPort {i : Instr} {port : Word} (h : i.inPort? = some port) (s : State) :
    ∃ rows, exec i s = inpRows rows port s := by
  unfold Instr.inPort? at h
  split at h <;> cases h <;> exact ⟨_, rfl⟩

/-- The latches move only by the paging-port read: on Spec128, with the lock clear, at an odd address (R99, R171). -/
theorem readRows_latches_kept (rows : List InRow) {port : Word} {s : State}
    (h : s.arch ≠ .spec128 ∨ s.latches.pagingLock = true ∨ port.getLsbD 0 = false) :
    (readRows rows port s).2.latches = s.latches ∧ (readRows rows port s).2.map = s.map := by
  rcases readRows_cases rows port s with ⟨r, -, ht, e⟩ | e
  · rw [e]
    by_cases hr : r = .page7
    · subst hr
      rw [InRow.takes, Bool.and_eq_true] at ht
      obtain ⟨he, hh⟩ := ht
      rcases h with harch | hlock | heven
      · exact absurd (beq_iff_eq.mp he) harch
      · simp only [InRow.read, State.page7Port_locked _ hlock, and_self]
      · rw [InRow.hits_page7_even heven] at hh
        cases hh
    · exact InRow.read_latches port s hr
  · rw [e]
    exact ⟨rfl, rfl⟩

/-- Settles O25: the frame of a list of rows, whichever row answers. -/
theorem inputFrame : Obligations.InputFrame := by
  intro i port s hi
  obtain ⟨rows, hexec⟩ := exec_of_inPort hi s
  have hframe := readRows_frame rows port (s.chargePort port)
  refine ⟨_, _, hexec, rfl, ?_, ?_, ?_, ?_⟩
  · rw [hframe]
    rfl
  · exact (readRows_transacts rows port (s.chargePort port)).trdos
  · exact fun h => readRows_latches_kept rows (s := s.chargePort port) h
  · exact (((s.chargePort_keeps port).trans (readRows_keeps rows port _)).give _).mapped

end Sys2Proof.Machine
end

section
/-! SUPPORT. Which addresses the rows of the output decode take (R100), and what a list of rows leaves in the ULA latch
(R192) and in the paging latches (R201 to R208). -/

namespace Sys2Proof.Machine

/-! ### Addresses -/

/-- A pattern that tests one bit more is the pattern without it and the bit (R100). -/
theorem maskHit_bit {port mask value : Word} {k : Nat} (hk : k < 16) (hm : mask.getLsbD k = false)
    (hv : value.getLsbD k = false) (b : Bool) :
    maskHit port (mask ||| BitVec.twoPow 16 k) (value ||| if b then BitVec.twoPow 16 k else 0) =
      (maskHit port mask value && port.getLsbD k == b) := by
  have hbits : ∀ x y : Word, x = y ↔ ∀ i, x.getLsbD i = y.getLsbD i := fun x y =>
    ⟨fun h _ => h ▸ rfl, fun h => BitVec.eq_of_getLsbD_eq fun i _ => h i⟩
  have hpow : ∀ i, (BitVec.twoPow 16 k).getLsbD i = decide (i = k) := fun i => by
    rw [BitVec.getLsbD_twoPow, decide_eq_true hk, Bool.true_and, decide_eq_decide, eq_comm]
  have hval : ∀ i, (if b then BitVec.twoPow 16 k else 0 : Word).getLsbD i = (b && decide (i = k)) := fun i => by
    cases b with
    | true => exact hpow i
    | false => exact BitVec.getLsbD_zero
  rw [Bool.eq_iff_iff]
  simp only [maskHit, Bool.and_eq_true, beq_iff_eq, hbits, BitVec.getLsbD_and, BitVec.getLsbD_or, hpow, hval]
  constructor
  · intro h
    refine ⟨fun i => ?_, by simpa [hm, hv] using h k⟩
    by_cases hi : i = k
    · rw [hi, hm, hv, Bool.and_false]
    · simpa [hi] using h i
  · rintro ⟨h, hb⟩ i
    by_cases hi : i = k
    · simp [hi, hm, hv, hb]
    · simpa [hi] using h i

theorem OutRow.hits_iff (r : OutRow) (port : Word) : r.hits port = true ↔ port &&& r.mask = r.value := beq_iff_eq

theorem OutRow.hits_ula (port : Word) : OutRow.ula.hits port = !port.getLsbD 0 := evenPort_eq port

theorem OutRow.hits_ayZx81 (port : Word) : OutRow.ayZx81.hits port = true := by
  show (port &&& 0#16 == 0#16) = true
  rw [BitVec.and_zero]
  rfl

theorem OutRow.hits_aySel (port : Word) :
    OutRow.aySel.hits port = (port &&& 0x8002 == 0x8000 && port.getLsbD 14) :=
  (maskHit_bit (mask := 0x8002) (value := 0x8000) (k := 14) (by decide) rfl rfl true).trans
    (by rw [beq_true]; rfl)

theorem OutRow.hits_ayDat (port : Word) :
    OutRow.ayDat.hits port = (port &&& 0x8002 == 0x8000 && !port.getLsbD 14) :=
  (maskHit_bit (mask := 0x8002) (value := 0x8000) (k := 14) (by decide) rfl rfl false).trans
    (by rw [beq_false]; rfl)

/-- A pattern that tests `A0` = 1 takes odd addresses only (R100). -/
theorem maskHit_or_one {port mask value : Word} (hm : mask.getLsbD 0 = false) (hv : value.getLsbD 0 = false) :
    maskHit port (mask ||| 1) (value ||| 1) = (port &&& mask == value && port.getLsbD 0) :=
  (maskHit_bit (k := 0) (by decide) hm hv true).trans (by rw [beq_true]; rfl)

theorem OutRow.hits_covox (port : Word) : OutRow.covox.hits port = port.getLsbD 0 := by
  have h : OutRow.covox.hits port = (port &&& 0#16 == 0#16 && port.getLsbD 0) :=
    maskHit_or_one (mask := 0) (value := 0) rfl rfl
  rw [h, BitVec.and_zero]
  exact Bool.true_and _

theorem OutRow.hits_page7 (port : Word) :
    OutRow.page7.hits port = (port &&& 0x8002 == 0x0000 && port.getLsbD 0) :=
  maskHit_or_one (mask := 0x8002) (value := 0x0000) rfl rfl

theorem OutRow.hits_page7Plus2A (port : Word) :
    OutRow.page7Plus2A.hits port = (port &&& 0xC002 == 0x4000 && port.getLsbD 0) :=
  maskHit_or_one (mask := 0xC002) (value := 0x4000) rfl rfl

theorem OutRow.hits_page1Plus2A (port : Word) :
    OutRow.page1Plus2A.hits port = (port &&& 0xF002 == 0x1000 && port.getLsbD 0) :=
  maskHit_or_one (mask := 0xF002) (value := 0x1000) rfl rfl

/-- The two paging ports of Plus2A have no address in common: `A14` tells them apart (R206, R207). -/
theorem not_page1_of_page7 {port : Word} (h : port &&& 0xC002 = 0x4000) : port &&& 0xF002 ≠ 0x1000 := by
  intro h1
  have h14 := congrArg (fun x : Word => x.getLsbD 14) h
  have h14' := congrArg (fun x : Word => x.getLsbD 14) h1
  simp only [BitVec.getLsbD_and] at h14 h14'
  cases hb : port.getLsbD 14 <;> rw [hb] at h14 h14'
  · exact absurd h14 (by decide)
  · exact absurd h14' (by decide)

/-- The condition of a row does not look at the counter. -/
@[simp] theorem OutRow.takes_chargePort (r : OutRow) (port : Word) (s : State) :
    r.takes port (s.chargePort port) = r.takes port s := by
  cases r <;> rfl

/-! ### The ULA latch -/

/-- Only the ULA row writes `port254` (R192). -/
theorem OutRow.act_port254 {r : OutRow} (hr : r ≠ .ula) (port : Word) (v : Byte) (s : State) :
    (r.act port v s).port254 = s.port254 := by
  cases r with
  | ula => exact absurd rfl hr
  | ayZx81 => rw [OutRow.act, s.zx81Write_frame port v]
  | covox => rw [OutRow.act, s.covoxWrite_eq port v]
  | page7 | page7Plus2A => rw [OutRow.act, s.page7Port_frame v]
  | page1Plus2A => rw [OutRow.act, s.page1Port_frame v]
  | fullerSel | fullerDat | aySel | ayDat | trdos => rfl

theorem OutRow.write_port254 (r : OutRow) (port : Word) (v : Byte) (s : State) :
    (r.write port v s).port254 = if r = .ula ∧ port.getLsbD 0 = false then v else s.port254 := by
  by_cases hr : r = .ula
  · subst hr
    rw [OutRow.write, OutRow.takes, OutRow.hits_ula]
    cases port.getLsbD 0 with
    | true => rfl
    | false => exact congrArg State.port254 (s.ulaWrite_frame v)
  · rw [if_neg fun h => hr h.1, OutRow.write]
    split
    · exact OutRow.act_port254 hr port v s
    · rfl

theorem writeRows_cons (r : OutRow) (rs : List OutRow) (port : Word) (v : Byte) (s : State) :
    writeRows (r :: rs) port v s = writeRows rs port v (r.write port v s) := rfl

/-- A list of rows stores the byte in `port254` where the ULA is one of them and the address is even. -/
theorem writeRows_port254 (rows : List OutRow) (port : Word) (v : Byte) (s : State) :
    (writeRows rows port v s).port254 = if .ula ∈ rows ∧ port.getLsbD 0 = false then v else s.port254 := by
  induction rows generalizing s with
  | nil => exact (if_neg fun h => nomatch h.1).symm
  | cons r rs ih =>
    rw [writeRows_cons, ih, r.write_port254 port v s]
    cases port.getLsbD 0 with
    | true => simp
    | false =>
      by_cases hr : OutRow.ula = r
      · simp [← hr]
      · simp [hr, Ne.symm hr]

/-! ### The paging latches -/

/-- An operation that moves neither a paging latch nor the map. -/
structure State.KeepsPaging (s t : State) : Prop where
  latches : t.latches = s.latches
  map : t.map = s.map

theorem State.KeepsPaging.refl (s : State) : s.KeepsPaging s := ⟨rfl, rfl⟩

theorem State.KeepsPaging.trans {s t u : State} (h1 : s.KeepsPaging t) (h2 : t.KeepsPaging u) : s.KeepsPaging u :=
  ⟨h2.latches.trans h1.latches, h2.map.trans h1.map⟩

/-- A frame that names neither. -/
theorem State.KeepsPaging.of_frame {s t u : State} (h : t = u) (hl : u.latches = s.latches) (hm : u.map = s.map) :
    s.KeepsPaging t := h ▸ ⟨hl, hm⟩

theorem State.KeepsPaging.give {s t : State} (h : s.KeepsPaging t) (a : Answer) : s.KeepsPaging (t.give a) :=
  ⟨h.latches, h.map⟩

/-- The latches a row writes where it takes the address with the lock clear (R203, R206, R207). -/
def OutRow.putLatches (r : OutRow) (arch : Arch) (v : Byte) (l : Latches) : Latches :=
  match r with
  | .page7 | .page7Plus2A => pd7Latches arch l v
  | .page1Plus2A => pd1Latches l v
  | .ula | .ayZx81 | .fullerSel | .fullerDat | .aySel | .ayDat | .covox | .trdos _ => l

/-- The rows of the paging ports (R203, R206, R207). -/
def OutRow.pages : OutRow → Bool
  | .page7 | .page7Plus2A | .page1Plus2A => true
  | .ula | .ayZx81 | .fullerSel | .fullerDat | .aySel | .ayDat | .covox | .trdos _ => false

/-- A paging port has an odd address (R190, R201). -/
theorem OutRow.not_takes_even {r : OutRow} (hr : r.pages = true) {port : Word} (hp : port.getLsbD 0 = false)
    (s : State) : r.takes port s = false := by
  have hhits : r.hits port = false := by
    cases r with
    | page7 => rw [OutRow.hits_page7, hp, Bool.and_false]
    | page7Plus2A => rw [OutRow.hits_page7Plus2A, hp, Bool.and_false]
    | page1Plus2A => rw [OutRow.hits_page1Plus2A, hp, Bool.and_false]
    | _ => cases hr
  rw [OutRow.takes, hhits, Bool.and_false]

theorem OutRow.act_locked {r : OutRow} (hr : r.pages = true) (port : Word) (v : Byte) {s : State}
    (hlock : s.latches.pagingLock = true) : r.act port v s = s := by
  cases r with
  | page7 | page7Plus2A => exact s.page7Port_locked v hlock
  | page1Plus2A => exact s.page1Port_locked v hlock
  | _ => cases hr

theorem OutRow.act_open {r : OutRow} (hr : r.pages = true) (port : Word) (v : Byte) {s : State}
    (hlock : s.latches.pagingLock = false) : r.act port v s = s.setLatches (r.putLatches s.arch v s.latches) := by
  cases r with
  | page7 | page7Plus2A => exact s.page7Port_open v hlock
  | page1Plus2A => exact s.page1Port_open v hlock
  | _ => cases hr

theorem OutRow.act_keepsPaging {r : OutRow} (hr : r.pages = false) (port : Word) (v : Byte) (s : State) :
    s.KeepsPaging (r.act port v s) := by
  cases r with
  | ula => exact .of_frame (s.ulaWrite_frame v) rfl rfl
  | ayZx81 => exact .of_frame (s.zx81Write_frame port v) rfl rfl
  | covox => exact .of_frame (s.covoxWrite_eq port v) rfl rfl
  | fullerSel | fullerDat | aySel | ayDat | trdos => exact ⟨rfl, rfl⟩
  | page7 | page7Plus2A | page1Plus2A => cases hr

theorem OutRow.putLatches_of_not_pages {r : OutRow} (hr : r.pages = false) (arch : Arch) (v : Byte) (l : Latches) :
    r.putLatches arch v l = l := by
  cases r with
  | page7 | page7Plus2A | page1Plus2A => cases hr
  | _ => rfl

/-- Once the lock is set, and on an even address, no row moves a latch (R190, R204, R208). -/
theorem OutRow.write_keepsPaging (r : OutRow) {port : Word} (v : Byte) {s : State}
    (h : port.getLsbD 0 = false ∨ s.latches.pagingLock = true) : s.KeepsPaging (r.write port v s) := by
  cases ht : r.takes port s with
  | false => rw [OutRow.write_of_not_takes v ht]; exact .refl s
  | true =>
    rw [OutRow.write_of_takes v ht]
    cases hr : r.pages with
    | false => exact OutRow.act_keepsPaging hr port v s
    | true =>
      rcases h with hp | hlock
      · rw [OutRow.not_takes_even hr hp] at ht; cases ht
      · rw [OutRow.act_locked hr port v hlock]; exact .refl s

theorem writeRows_keepsPaging (rows : List OutRow) {port : Word} (v : Byte) {s : State}
    (h : port.getLsbD 0 = false ∨ s.latches.pagingLock = true) : s.KeepsPaging (writeRows rows port v s) :=
  List.foldlRecOn rows _ (.refl s) fun _ ht r _ =>
    ht.trans (r.write_keepsPaging v (by rwa [ht.latches]))

theorem OutRow.write_latches (r : OutRow) (port : Word) (v : Byte) (s : State) :
    (r.write port v s).latches =
      if r.takes port s = true ∧ s.latches.pagingLock = false then r.putLatches s.arch v s.latches
      else s.latches := by
  cases hlock : s.latches.pagingLock with
  | true => rw [if_neg (by simp), (r.write_keepsPaging v (.inr hlock)).latches]
  | false =>
    have hact : (r.act port v s).latches = r.putLatches s.arch v s.latches := by
      cases hr : r.pages with
      | true => rw [OutRow.act_open hr port v hlock, State.setLatches_latches]
      | false => rw [(OutRow.act_keepsPaging hr port v s).latches, OutRow.putLatches_of_not_pages hr]
    simp only [OutRow.write, apply_ite State.latches, hact, and_true]

/-- The latches after a list of rows: every row that takes the address while the lock is clear writes them, in order
(R191, R204). -/
theorem writeRows_latches (rows : List OutRow) (port : Word) (v : Byte) (s : State) :
    (writeRows rows port v s).latches =
      rows.foldl
        (fun l r => if r.takes port s = true ∧ l.pagingLock = false then r.putLatches s.arch v l else l) s.latches := by
  induction rows generalizing s with
  | nil => rfl
  | cons r rs ih =>
    have harch : (r.write port v s).arch = s.arch := by rw [r.write_frame port v s]
    rw [writeRows_cons, ih, r.write_latches port v s, harch]
    simp only [OutRow.takes_write, List.foldl_cons]

end Sys2Proof.Machine
end

section
/-! SUPPORT. Port writes by a row on its own (R190 to R208): the ULA, the AY, Covox and disk rows, and the paging ports;
and the latches `OUTP` leaves. -/

namespace Sys2Proof.Machine

/-! ### The rows in groups -/

/-- One item, or none where its condition does not hold. -/
def onlyIf {α : Type} (p : Bool) (x : α) : List α := if p = true then [x] else []

/-- The AY rows in the order of R190. -/
def ayRows : List OutRow := [.ayZx81, .fullerSel, .fullerDat, .aySel, .ayDat]

/-- The disk rows in the order of R190. -/
def diskRows : List OutRow := [.trdos .status, .trdos .track, .trdos .sector, .trdos .data, .trdos .system]

/-- The paging rows in the order of R190. -/
def pageRows : List OutRow := [.page7, .page7Plus2A, .page1Plus2A]

/-- The rows after the ULA in the order of R190. -/
def deviceRows : List OutRow := ayRows ++ [.covox] ++ diskRows ++ pageRows

theorem outRows_eq : outRows = .ula :: deviceRows := rfl

/-! ### A row on its own -/

theorem outpRows_eq (rows : List OutRow) (port : Word) (v : Byte) (s : State) :
    outpRows rows port v s = .next ((writeRows rows port v (s.chargePort port)).give .none) := rfl

/-- A row offered an address charges the ticks, and acts where it takes the address (R191; log 4). -/
theorem outpRows_row (r : OutRow) (port : Word) (v : Byte) (s : State) :
    outpRows [r] port v s =
      .next ((if r.takes port s = true then r.act port v (s.chargePort port) else s.chargePort port).give .none) := by
  rw [← r.takes_chargePort port s]
  rfl

theorem outpRows_row_of_takes {r : OutRow} {port : Word} (v : Byte) {s : State} (h : r.takes port s = true) :
    outpRows [r] port v s = .next ((r.act port v (s.chargePort port)).give .none) := by
  rw [outpRows_row, if_pos h]

theorem outpRows_row_of_not_takes {r : OutRow} {port : Word} (v : Byte) {s : State} (h : r.takes port s = false) :
    outpRows [r] port v s = .next ((s.chargePort port).give .none) := by
  rw [outpRows_row, h]
  rfl

/-! ### The ULA -/

/-- The events of a ULA write at a counter value (R193, R194). -/
def State.ulaEvents (s : State) (v : Byte) (tick : Nat) : List Event :=
  (if v.extractLsb' 0 3 = s.port254.extractLsb' 0 3 then [] else [Event.borderChange tick (v.extractLsb' 0 3)]) ++
    (if s.cfg.turbo = true then [] else [Event.beeper tick (v.getLsbD 4) (v.getLsbD 3)])

/-- The same with each event by the condition it is given under. -/
theorem State.ulaEvents_eq (s : State) (v : Byte) (tick : Nat) :
    s.ulaEvents v tick =
      onlyIf (v.extractLsb' 0 3 != s.port254.extractLsb' 0 3) (Event.borderChange tick (v.extractLsb' 0 3)) ++
        onlyIf (!s.cfg.turbo) (Event.beeper tick (v.getLsbD 4) (v.getLsbD 3)) := by
  unfold State.ulaEvents onlyIf
  congr 1
  · simp only [bne_iff_ne, ne_eq, ite_not]
  · cases s.cfg.turbo <;> rfl

theorem State.ulaWrite_eq (s : State) (v : Byte) :
    s.ulaWrite v = { s with port254 := v, events := s.events ++ s.ulaEvents v s.tick } := by
  rw [s.ulaWrite_frame v, s.ulaWrite_events v, List.append_assoc, ite_not]
  rfl

theorem OutRow.takes_ula (port : Word) (s : State) : OutRow.ula.takes port s = !port.getLsbD 0 :=
  OutRow.hits_ula port

theorem OutRow.takes_ula_of_even {port : Word} (hp : port.getLsbD 0 = false) (s : State) :
    OutRow.ula.takes port s = true := by
  rw [OutRow.takes_ula, hp]
  rfl

theorem exec_pdu (v : Byte) (s : State) : exec (.pdu v) s = .next ((s.ulaWrite v).give .none) := rfl

/-- `OUTP` on an even address begins with the ULA write (R190). -/
theorem writeRows_outRows_even {port : Word} (hp : port.getLsbD 0 = false) (v : Byte) (s : State) :
    writeRows outRows port v s = writeRows deviceRows port v (s.ulaWrite v) := by
  rw [outRows_eq, writeRows_cons, OutRow.write_of_takes v (OutRow.takes_ula_of_even hp s), OutRow.act]

/-- Settles O27: the ULA row takes every even address, and is the first row of `OUTP`. -/
theorem ulaWriteResult : Obligations.UlaWriteResult := by
  intro port v s hp emitted
  refine ⟨(outpRows_row_of_takes v (OutRow.takes_ula_of_even hp s)).trans ?_, ?_, ?_⟩
  · rw [OutRow.act, State.ulaWrite_eq]
    rfl
  · rw [exec_pdu, State.ulaWrite_eq]
    rfl
  · obtain ⟨later, hlater⟩ := writeRows_events deviceRows port v ((s.chargePort port).ulaWrite v)
    refine ⟨_, later, outpRows_eq outRows port v s, ?_, ?_⟩
    · rw [State.give_port254, writeRows_port254, if_pos ⟨List.mem_cons_self, hp⟩]
    · rw [State.give_events, writeRows_outRows_even hp, hlater, State.ulaWrite_eq]
      rfl

/-! ### The AY rows -/

theorem ay_index (b : Byte) : b.toNat % 16 = (b &&& 0x0F).toNat := by
  rw [BitVec.toNat_and]
  exact (Nat.and_two_pow_sub_one_eq_mod b.toNat 4).symm

theorem State.ayData_eq (s : State) (v : Byte) :
    s.ayData v =
      { s with
        ay := { s.ay with reg := s.ay.reg.setIfInBounds (s.ay.sel &&& 0x0F).toNat v }
        events := s.events ++ [.ayWrite .data v] } := by
  rw [State.ayData, ay_index]
  rfl

theorem OutRow.takes_ayZx81 (port : Word) (s : State) : OutRow.ayZx81.takes port s = s.cfg.ayZx81 := by
  rw [OutRow.takes, OutRow.hits_ayZx81, Bool.and_true]
  rfl

theorem OutRow.takes_aySel (port : Word) (s : State) :
    OutRow.aySel.takes port s = (s.cfg.ayPresent && (port &&& 0x8002 == 0x8000 && port.getLsbD 14)) := by
  rw [OutRow.takes, OutRow.hits_aySel]
  rfl

theorem OutRow.takes_ayDat (port : Word) (s : State) :
    OutRow.ayDat.takes port s = (s.cfg.ayPresent && (port &&& 0x8002 == 0x8000 && !port.getLsbD 14)) := by
  rw [OutRow.takes, OutRow.hits_ayDat]
  rfl

/-- A row on its own, with its condition and its effect as a statement words them. -/
theorem outpRows_row_ite {r : OutRow} {port : Word} {v : Byte} {s t : State} {p : Prop} [Decidable p]
    (hp : r.takes port s = true ↔ p) (hact : (r.act port v (s.chargePort port)).give .none = t) :
    outpRows [r] port v s = .next (if p then t else { s with tick := portTick s port, answer := .none }) := by
  rw [outpRows_row, apply_ite (State.give · .none), hact]
  simp only [hp]
  rfl

/-- Settles O28: each row by its condition and the AY write it makes. -/
theorem ayWriteRows : Obligations.AyWriteRows := by
  intro port v s u select data
  have hselect : ((s.chargePort port).aySelect v).give .none = select u := rfl
  have hdata : ((s.chargePort port).ayData v).give .none = data u := by rw [State.ayData_eq]; rfl
  refine ⟨outpRows_row_ite (r := .ayZx81) (by rw [OutRow.takes_ayZx81]) ?_,
    outpRows_row_ite (r := .fullerSel) ?_ hselect, outpRows_row_ite (r := .fullerDat) ?_ hdata,
    outpRows_row_ite (r := .aySel) ?_ hselect, outpRows_row_ite (r := .ayDat) ?_ hdata⟩
  · have hfirst :
        (if loByte port = s.cfg.ayZx81Sel then (s.chargePort port).aySelect v else s.chargePort port).give .none =
          if loByte port = s.cfg.ayZx81Sel then select u else u := apply_ite (State.give · .none) _ _ _
    refine (apply_ite (State.give · .none) (loByte port = s.cfg.ayZx81Dat) _ _).trans ?_
    rw [State.ayData_eq]
    exact if_congr Iff.rfl (congrArg data hfirst) hfirst
  · rw [OutRow.takes, Bool.and_eq_true, OutRow.hits_iff]; rfl
  · rw [OutRow.takes, Bool.and_eq_true, OutRow.hits_iff]; rfl
  · simp [OutRow.takes_aySel]
  · simp [OutRow.takes_ayDat]

/-! ### The Covox and disk rows -/

theorem OutRow.takes_covox (port : Word) (s : State) :
    OutRow.covox.takes port s = (s.cfg.covoxMode != .none && port.getLsbD 0) := by
  rw [OutRow.takes, OutRow.hits_covox]
  rfl

theorem OutRow.takes_trdos (q : TrdosReg) (port : Word) (s : State) :
    (OutRow.trdos q).takes port s = (s.latches.trdosPaged && port &&& 0x00E3 == q.code) := rfl

/-- What a row that takes nothing leaves, worded as a row that emits nothing. -/
theorem outpRows_row_silent {r : OutRow} {port : Word} (v : Byte) {s : State} (h : r.takes port s = false) :
    outpRows [r] port v s = .next { s with tick := portTick s port, events := s.events ++ [], answer := .none } := by
  rw [outpRows_row_of_not_takes v h, List.append_nil]
  rfl

/-- Settles O29: a row that takes the address emits its events, and one that does not emits none. -/
theorem covoxAndDiskWrites : Obligations.CovoxAndDiskWrites := by
  intro port v s emits
  have disk (q : TrdosReg) (hpaged : s.latches.trdosPaged = true) (hcode : port &&& 0x00E3 = q.code) :
      outpRows [.trdos q] port v s = _ :=
    outpRows_row_of_takes v (by rw [OutRow.takes_trdos, hpaged, hcode]; exact beq_self_eq_true q.code)
  have silent (q : TrdosReg) (hpaged : s.latches.trdosPaged = false) : outpRows [.trdos q] port v s = _ :=
    outpRows_row_silent v (by rw [OutRow.takes_trdos, hpaged, Bool.false_and])
  refine ⟨fun hp hmode => ?_, fun hmode => ?_, covoxChannels_nodup s.cfg port,
    fun rows hrows c => mem_covoxChannels hrows port c, fun hpaged => ?_, fun hpaged => ?_⟩
  · have ht : OutRow.covox.takes port s = true := by
      rw [OutRow.takes_covox, hp, bne_iff_ne.mpr hmode, Bool.true_and]
    refine (outpRows_row_of_takes v ht).trans ?_
    rw [OutRow.act, State.covoxWrite_eq]
    rfl
  · exact outpRows_row_silent (r := .covox) v (by rw [OutRow.takes_covox, hmode]; rfl)
  · exact ⟨disk .status hpaged, disk .track hpaged, disk .sector hpaged, disk .data hpaged, disk .system hpaged⟩
  · simp only [List.forall_mem_cons]
    exact ⟨silent .status hpaged, silent .track hpaged, silent .sector hpaged, silent .data hpaged,
      silent .system hpaged, nofun⟩

/-! ### The paging ports -/

theorem OutRow.takes_page7 (port : Word) (s : State) :
    OutRow.page7.takes port s = true ↔
      (s.arch = .spec128 ∨ s.arch = .pentagon) ∧ port &&& 0x8002 = 0x0000 ∧ port.getLsbD 0 = true := by
  rw [OutRow.takes, OutRow.hits_page7]
  simp only [OutRow.enabled, Bool.and_eq_true, Bool.or_eq_true, beq_iff_eq]

theorem OutRow.takes_page7Plus2A (port : Word) (s : State) :
    OutRow.page7Plus2A.takes port s = true ↔
      s.arch = .plus2A ∧ port &&& 0xC002 = 0x4000 ∧ port.getLsbD 0 = true := by
  rw [OutRow.takes, OutRow.hits_page7Plus2A]
  simp only [OutRow.enabled, Bool.and_eq_true, beq_iff_eq]

theorem OutRow.takes_page1Plus2A (port : Word) (s : State) :
    OutRow.page1Plus2A.takes port s = true ↔
      s.arch = .plus2A ∧ port &&& 0xF002 = 0x1000 ∧ port.getLsbD 0 = true := by
  rw [OutRow.takes, OutRow.hits_page1Plus2A]
  simp only [OutRow.enabled, Bool.and_eq_true, beq_iff_eq]

theorem setRomLow_low (arch : Arch) (r : BitVec 2) (b : Bool) : (setRomLow arch r b).getLsbD 0 = b := by
  unfold setRomLow
  split <;> revert r b <;> decide

theorem setRomLow_high (arch : Arch) (r : BitVec 2) (b : Bool) :
    (setRomLow arch r b).getLsbD 1 = if arch = .plus2A then r.getLsbD 1 else false := by
  split
  · next h => rw [h, setRomLow_high_plus2A]
  · next h => exact setRomLow_high_off h r b

theorem setRomHigh_low (r : BitVec 2) (b : Bool) : (setRomHigh r b).getLsbD 0 = r.getLsbD 0 := by
  revert r b; decide

/-- A paging row on its own that takes the address with the lock clear writes its latches (R203, R206, R207). -/
theorem outpRows_page {r : OutRow} (hr : r.pages = true) {port : Word} (v : Byte) {s : State}
    (ht : r.takes port s = true) (hlock : s.latches.pagingLock = false) :
    outpRows [r] port v s =
      .next (((s.chargePort port).setLatches (r.putLatches s.arch v s.latches)).give .none) := by
  rw [outpRows_row_of_takes v ht, OutRow.act_open (s := s.chargePort port) hr port v hlock]
  rfl

theorem exec_pd7 (v : Byte) (s : State) :
    exec (.pd7 v) s = .next ((if s.arch.is48 then s else s.page7Port v).give .none) := rfl

theorem exec_pd1 (v : Byte) (s : State) :
    exec (.pd1 v) s = .next ((if s.arch = .plus2A then s.page1Port v else s).give .none) := rfl

/-- The state after a write to a paging port with the lock clear: the ticks of its access, the latches, the map. -/
def State.paged (s : State) (tick : Nat) (l : Latches) : State :=
  ({ s with tick := tick, answer := .none } : State).setLatches l

/-- Settles O31: the three forms of the write leave the latches of `Page7Write`. -/
theorem firstPagingPort : Obligations.FirstPagingPort := by
  intro port v s i hlock hi
  have hexec : exec i s =
      .next (s.paged (if i = .pd7 v then s.tick else portTick s port) (pd7Latches s.arch s.latches v)) := by
    rcases hi with ⟨rfl, harch, hp, hport⟩ | ⟨rfl, harch, hp, hport⟩ | ⟨rfl, h48⟩
    · rw [if_neg nofun]
      exact outpRows_page (r := .page7) rfl v ((OutRow.takes_page7 port s).mpr ⟨harch, hport, hp⟩) hlock
    · rw [if_neg nofun]
      exact outpRows_page (r := .page7Plus2A) rfl v ((OutRow.takes_page7Plus2A port s).mpr ⟨harch, hport, hp⟩) hlock
    · rw [if_pos rfl, exec_pd7, h48, State.page7Port_open v hlock]
      rfl
  exact ⟨_, hexec, rfl, rfl, rfl, rfl, rfl, setRomLow_low _ _ _, setRomLow_high _ _ _, rfl, rfl, rfl⟩

/-- Settles O32: both forms of the write leave the latches of `Page1Write`. -/
theorem secondPagingPort : Obligations.SecondPagingPort := by
  intro port v s i hlock harch hi
  have hexec : exec i s =
      .next (s.paged (if i = .pd1 v then s.tick else portTick s port) (pd1Latches s.latches v)) := by
    rcases hi with ⟨rfl, hp, hport⟩ | rfl
    · rw [if_neg nofun]
      exact outpRows_page (r := .page1Plus2A) rfl v ((OutRow.takes_page1Plus2A port s).mpr ⟨harch, hport, hp⟩) hlock
    · rw [if_pos rfl, exec_pd1, if_pos harch, State.page1Port_open v hlock]
      rfl
  exact ⟨_, hexec, rfl, rfl, rfl, rfl, setRomHigh_high _ _, setRomHigh_low _ _, rfl, rfl, hlock, rfl⟩

/-- Settles O30: the three paging rows in their order, of which each architecture has its own. -/
theorem outpPaging : Obligations.OutpPaging := by
  intro port v s
  refine ⟨_, outpRows_eq outRows port v s, ?_⟩
  rw [State.give_latches]
  split
  · next h => exact (writeRows_keepsPaging outRows (s := s.chargePort port) v h).latches
  · next h =>
    obtain ⟨hp, hlock⟩ : port.getLsbD 0 = true ∧ s.latches.pagingLock = false := by simpa using h
    rw [writeRows_latches]
    simp only [outRows, List.foldl_cons, List.foldl_nil, OutRow.putLatches, ite_self, OutRow.takes_chargePort,
      OutRow.takes_page7, OutRow.takes_page7Plus2A, OutRow.takes_page1Plus2A, State.chargePort_arch,
      State.chargePort_latches, hp, and_true]
    cases harch : s.arch with
    | spec48 | tk => rfl
    | spec128 | pentagon => simp only [hlock, reduceCtorEq, false_and, if_false, true_and, or_true, true_or, and_true]
    | plus2A =>
      simp only [hlock, reduceCtorEq, or_self, false_and, if_false, true_and, and_true]
      by_cases h7 : port &&& 0xC002 = 0x4000
      · simp only [if_pos h7, not_page1_of_page7 h7, false_and, if_false]
      · simp only [if_neg h7, hlock, and_true]

end Sys2Proof.Machine
end

section
/-! SUPPORT. What `OUTP` leaves of the AY image and of the event stream (R190 to R200), as the sum of its rows; and what
no execution but a load and `RESET` moves once the paging lock is set (R204, R208, R210). -/

namespace Sys2Proof.Machine

/-! ### What `OUTP` leaves -/

/-- Every output instruction is a port access offered to some rows (R190; log 4). -/
theorem exec_of_outPort {i : Instr} {port : Word} (h : i.outPort? = some port) (s : State) :
    ∃ rows v, exec i s = outpRows rows port v s := by
  unfold Instr.outPort? at h
  split at h <;> cases h <;> exact ⟨_, _, rfl⟩

/-- The AY writes of a list of rows (R196, R197). -/
def ayWrites (rows : List OutRow) (port : Word) (s : State) : List AyPart :=
  rows.flatMap fun r => if r.takes port s = true then r.ayParts s.cfg port else []

/-- The events of a list of rows without the ULA (R196 to R200). -/
def rowEvents (rows : List OutRow) (port : Word) (v : Byte) (s : State) : List Event :=
  rows.flatMap fun r => if r.takes port s = true then r.emits s.cfg port v else []

theorem ayWrites_chargePort (rows : List OutRow) (port : Word) (s : State) :
    ayWrites rows port (s.chargePort port) = ayWrites rows port s := by
  simp only [ayWrites, OutRow.takes_chargePort, State.chargePort_cfg]

theorem rowEvents_chargePort (rows : List OutRow) (port : Word) (v : Byte) (s : State) :
    rowEvents rows port v (s.chargePort port) = rowEvents rows port v s := by
  simp only [rowEvents, OutRow.takes_chargePort, State.chargePort_cfg]

theorem ayWrites_append (rows rows' : List OutRow) (port : Word) (s : State) :
    ayWrites (rows ++ rows') port s = ayWrites rows port s ++ ayWrites rows' port s := List.flatMap_append

theorem rowEvents_append (rows rows' : List OutRow) (port : Word) (v : Byte) (s : State) :
    rowEvents (rows ++ rows') port v s = rowEvents rows port v s ++ rowEvents rows' port v s := List.flatMap_append

/-- Of the rows of `OUTP` the AY rows write the AY image (R190). -/
theorem ayWrites_outRows (port : Word) (s : State) : ayWrites outRows port s = ayWrites ayRows port s := by
  simp [ayWrites, outRows_eq, deviceRows, diskRows, pageRows, OutRow.ayParts]

/-- The ZX81 row writes either port or both, by the two values of the low byte (R196). -/
theorem ayWrites_zx81 (port : Word) (s : State) :
    ayWrites [.ayZx81] port s =
      onlyIf (s.cfg.ayZx81 && port.extractLsb' 0 8 == s.cfg.ayZx81Sel) AyPart.select ++
        onlyIf (s.cfg.ayZx81 && port.extractLsb' 0 8 == s.cfg.ayZx81Dat) AyPart.data := by
  rw [ayWrites, List.flatMap_singleton, OutRow.takes_ayZx81]
  cases s.cfg.ayZx81 with
  | true =>
    simp only [onlyIf, Bool.true_and, beq_iff_eq]
    rfl
  | false => rfl

/-- Each of the AY writes of `OUTP` by its condition. -/
theorem ayWrites_ayRows (port : Word) (s : State) :
    ayWrites ayRows port s =
      onlyIf (s.cfg.ayZx81 && port.extractLsb' 0 8 == s.cfg.ayZx81Sel) AyPart.select ++
      onlyIf (s.cfg.ayZx81 && port.extractLsb' 0 8 == s.cfg.ayZx81Dat) AyPart.data ++
      onlyIf (s.cfg.ayFuller && port &&& 0x00FF == 0x003F) AyPart.select ++
      onlyIf (s.cfg.ayFuller && port &&& 0x00FF == 0x005F) AyPart.data ++
      onlyIf (s.cfg.ayPresent && port &&& 0x8002 == 0x8000 && port.getLsbD 14) AyPart.select ++
      onlyIf (s.cfg.ayPresent && port &&& 0x8002 == 0x8000 && !port.getLsbD 14) AyPart.data := by
  have hsplit : ayWrites ayRows port s =
      ayWrites [.ayZx81] port s ++ ayWrites [.fullerSel, .fullerDat, .aySel, .ayDat] port s :=
    ayWrites_append [.ayZx81] [.fullerSel, .fullerDat, .aySel, .ayDat] port s
  have hrest : ayWrites [.fullerSel, .fullerDat, .aySel, .ayDat] port s =
      onlyIf (OutRow.fullerSel.takes port s) AyPart.select ++ (onlyIf (OutRow.fullerDat.takes port s) AyPart.data ++
        (onlyIf (OutRow.aySel.takes port s) AyPart.select ++ onlyIf (OutRow.ayDat.takes port s) AyPart.data)) := by
    simp only [ayWrites, List.flatMap_cons, List.flatMap_nil, List.append_nil]
    rfl
  rw [hsplit, ayWrites_zx81, hrest, OutRow.takes_aySel, OutRow.takes_ayDat]
  simp only [List.append_assoc, Bool.and_assoc]
  rfl

/-- An AY row emits one event per AY write (R196, R197). -/
theorem rowEvents_ayRows (port : Word) (v : Byte) (s : State) :
    rowEvents ayRows port v s = (ayWrites ayRows port s).map fun w => Event.ayWrite w v := by
  rw [rowEvents, ayWrites, List.map_flatMap]
  refine List.flatMap_congr fun r hr => ?_
  rw [apply_ite (List.map _)]
  simp only [ayRows, List.mem_cons, List.not_mem_nil, or_false] at hr
  rcases hr with rfl | rfl | rfl | rfl | rfl <;> exact if_congr Iff.rfl (List.append_nil _) rfl

theorem rowEvents_covox (port : Word) (v : Byte) (s : State) :
    rowEvents [.covox] port v s =
      if s.cfg.covoxMode ≠ .none ∧ port.getLsbD 0 = true then
        (covoxChannels s.cfg port).map fun c => .covoxWrite c v
      else [] := by
  have ht : OutRow.covox.takes port s = true ↔ s.cfg.covoxMode ≠ .none ∧ port.getLsbD 0 = true := by
    rw [OutRow.takes_covox, Bool.and_eq_true, bne_iff_ne]
  rw [rowEvents, List.flatMap_singleton]
  exact if_congr ht rfl rfl

/-- A paging row emits nothing (R203, R207). -/
theorem rowEvents_pageRows (port : Word) (v : Byte) (s : State) : rowEvents pageRows port v s = [] := by
  simp [rowEvents, pageRows, OutRow.emits, OutRow.ayParts]

/-- The ULA row emits the events of the ULA write on an even address (R190). -/
theorem OutRow.write_ula_events (port : Word) (v : Byte) (s : State) :
    (OutRow.ula.write port v s).events =
      s.events ++ if port.getLsbD 0 = true then [] else s.ulaEvents v s.tick := by
  rw [OutRow.write, OutRow.takes_ula]
  cases port.getLsbD 0 with
  | true => exact (List.append_nil _).symm
  | false => exact congrArg State.events (s.ulaWrite_eq v)

/-- The events of `OUTP`: the ULA's, then those of the AY, Covox and disk rows (R190). -/
theorem writeRows_outRows_events (port : Word) (v : Byte) (s : State) :
    (writeRows outRows port v s).events =
      s.events ++ ((if port.getLsbD 0 = true then [] else s.ulaEvents v s.tick) ++ rowEvents ayRows port v s ++
        rowEvents [.covox] port v s ++ rowEvents diskRows port v s) := by
  have hcfg : (OutRow.ula.write port v s).cfg = s.cfg := by rw [OutRow.write_frame]
  have hdevices : (writeRows outRows port v s).events =
      (OutRow.ula.write port v s).events ++ rowEvents deviceRows port v s := by
    rw [outRows_eq, writeRows_cons, writeRows_emits deviceRows (by decide), hcfg]
    simp only [OutRow.takes_write, rowEvents]
  rw [hdevices, OutRow.write_ula_events, deviceRows, rowEvents_append, rowEvents_append, rowEvents_append,
    rowEvents_pageRows, List.append_nil]
  simp only [List.append_assoc]

/-- Settles O26: the frame is that of any list of rows; the parts of `OUTP` are those of its rows in their order. -/
theorem outputFrame : Obligations.OutputFrame := by
  constructor
  · intro i port s hi
    obtain ⟨rows, v, hexec⟩ := exec_of_outPort hi s
    obtain ⟨emitted, hevents⟩ := writeRows_events rows port v (s.chargePort port)
    refine ⟨_, emitted, hexec, ?_, ?_, fun hp => ?_, fun hp => ?_, ?_⟩
    · rw [writeRows_frame, hevents]
      rfl
    · exact (writeRows_transacts rows port v (s.chargePort port)).trdos
    · rw [State.give_port254, writeRows_port254, if_neg (by simp [hp])]
      rfl
    · obtain ⟨hlatches, hmap⟩ := writeRows_keepsPaging rows (s := s.chargePort port) v (.inl hp)
      exact ⟨hlatches, hmap⟩
    · exact (((s.chargePort_keeps port).trans (writeRows_keeps rows port v _)).give _).mapped
  · intro port v s tick given ula writes covox disk
    have hwrites : writes = ayWrites ayRows port s := (ayWrites_ayRows port s).symm
    refine ⟨_, outpRows_eq outRows port v s, ?_, ?_, ?_, ?_⟩
    · rw [writeRows_frame]
      rfl
    · rw [State.give_port254, writeRows_port254]
      cases port.getLsbD 0 with
      | true => simp
      | false => simp [outRows]
    · have hay : (writeRows outRows port v (s.chargePort port)).ay = (ayWrites outRows port _).foldl (Ay.put v) s.ay :=
        writeRows_ay outRows port v (s.chargePort port)
      rw [State.give_ay, hay, ayWrites_chargePort, ayWrites_outRows, hwrites]
      refine congrArg (List.foldl · s.ay _) (funext₂ fun a w => ?_)
      cases w with
      | select => rfl
      | data => rw [Ay.put, ay_index]
    · have hula : (if port.getLsbD 0 = true then [] else (s.chargePort port).ulaEvents v tick) = ula :=
        if_congr Iff.rfl rfl ((s.chargePort port).ulaEvents_eq v tick)
      have hdisk : rowEvents diskRows port v s =
          disk 0x03 .status ++ disk 0x23 .track ++ disk 0x43 .sector ++ disk 0x63 .data ++ disk 0xE3 .system := by
        simp only [rowEvents, diskRows, List.flatMap_cons, List.flatMap_nil, List.append_nil, List.append_assoc]
        rfl
      rw [State.give_events, writeRows_outRows_events, rowEvents_chargePort, rowEvents_chargePort, rowEvents_chargePort,
        rowEvents_ayRows, rowEvents_covox, hdisk, hwrites, ← hula]
      rfl

/-! ### The lock -/

theorem State.readTimed_keepsPaging (s : State) (addr : Word) : s.KeepsPaging (s.readTimed addr).2 := ⟨rfl, rfl⟩

theorem State.writeTimed_keepsPaging (s : State) (addr : Word) (v : Byte) : s.KeepsPaging (s.writeTimed addr v) :=
  .of_frame (s.writeTimed_eq addr v) rfl rfl

theorem State.chargePort_keepsPaging (s : State) (port : Word) : s.KeepsPaging (s.chargePort port) := ⟨rfl, rfl⟩

theorem State.ulaWrite_keepsPaging (s : State) (v : Byte) : s.KeepsPaging (s.ulaWrite v) :=
  .of_frame (s.ulaWrite_frame v) rfl rfl

theorem State.cheatClose_keepsPaging (s : State) : s.KeepsPaging s.cheatClose := ⟨rfl, rfl⟩

theorem State.applyCheats_keepsPaging (s : State) : s.KeepsPaging s.applyCheats :=
  .of_frame s.applyCheats_frame rfl rfl

theorem State.fillLine_keepsPaging (s : State) (line : List Byte) : s.KeepsPaging (s.fillLine line) :=
  .of_frame (s.fillLine_frame line) rfl rfl

theorem State.fillPass_keepsPaging (s : State) (text : List Byte) : s.KeepsPaging (s.fillPass text) :=
  .of_frame (s.fillPass_frame text) rfl rfl

theorem readRows_keepsPaging (rows : List InRow) (port : Word) {s : State} (hlock : s.latches.pagingLock = true) :
    s.KeepsPaging (readRows rows port s).2 :=
  let ⟨hlatches, hmap⟩ := readRows_latches_kept rows (port := port) (.inr (.inl hlock))
  ⟨hlatches, hmap⟩

/-- The same of an outcome: of its next state, where it has one. -/
def Result.KeepsPaging (s : State) : Result → Prop
  | .next t => s.KeepsPaging t
  | .fault _ => True
  | .refused _ => True

/-- Once the lock is set every execution but a load and `RESET` keeps the latches and the map (R204, R208, R210). -/
theorem exec_keepsPaging {i : Instr} {s : State} (hlock : s.latches.pagingLock = true) (hi : i.agent ≠ .snap)
    (hreset : i ≠ .reset) : Result.KeepsPaging s (exec i s) := by
  have form := exec_form i s
  generalize exec i s = r at form ⊢
  cases form with
  | tick | cheatFetch | cheatClose => exact ⟨rfl, rfl⟩
  | rdb addr => exact (s.readTimed_keepsPaging addr).give _
  | rdw addr => exact ((s.readTimed_keepsPaging addr).trans (State.readTimed_keepsPaging _ _)).give _
  | wrb addr v => exact (s.writeTimed_keepsPaging addr v).give _
  | wrw addr v => exact ((s.writeTimed_keepsPaging addr _).trans (State.writeTimed_keepsPaging _ _ _)).give _
  | reset => exact absurd rfl hreset
  | cheatLoad =>
    simp only [execCheatLoad]
    split
    · exact s.cheatClose_keepsPaging.give _
    · exact (s.cheatClose_keepsPaging.trans (State.fillPass_keepsPaging _ _)).give _
  | cheatApply => exact s.applyCheats_keepsPaging.give _
  | pd7 v =>
    rw [execPd7, s.page7Port_locked v hlock, ite_self]
    exact ⟨rfl, rfl⟩
  | pd1 v =>
    rw [execPd1, s.page1Port_locked v hlock, ite_self]
    exact ⟨rfl, rfl⟩
  | pdu v => exact (s.ulaWrite_keepsPaging v).give _
  | refused slot => trivial
  | reads _ rows port =>
    exact ((s.chargePort_keepsPaging port).trans (readRows_keepsPaging rows port hlock)).give _
  | writes _ rows port v =>
    exact ((s.chargePort_keepsPaging port).trans (writeRows_keepsPaging rows v (.inr hlock))).give _
  | line _ l => exact (s.fillLine_keepsPaging l).give _
  | z80Block => exact absurd rfl hi
  | answers _ _ ha | sna _ _ _ ha | z80 _ _ _ _ ha | sp _ _ _ ha => exact absurd ha hi

/-- Settles O33: what the next state of such an execution keeps. -/
theorem lockFreezesPaging : Obligations.LockFreezesPaging := by
  intro i s t hlock hi hreset h
  have keeps := exec_keepsPaging hlock hi hreset
  rw [h] at keeps
  exact ⟨keeps.latches, keeps.map⟩

end Sys2Proof.Machine
end

section
/-! SUPPORT. The ticks of a port access (R231 to R235, R240): what each phase makes of the counter, and that no row moves
it once the access is charged (R233). -/

namespace Sys2Proof.Machine

/-! ### The phases -/

/-- An even address: the early phase by its window, then `TkLateCost` alone on TK, else the delay and 3 (R234, R235). -/
theorem portTick_even {port : Word} (hp : port.getLsbD 0 = false) (s : State) :
    portTick s port =
      let early := advanceTick s.cfg s.arch 1 (s.contendedAt port) s.tick
      if s.arch = .tk then early + tkLateCost s.cfg early else advanceTick s.cfg s.arch 3 true early := by
  rw [portTick, evenPort_eq, hp]
  rfl

/-- An odd address: three delayed ticks after the early one in a contended window, else four ticks in all (R234). -/
theorem portTick_odd {port : Word} (hp : port.getLsbD 0 = true) (s : State) :
    portTick s port =
      let early := advanceTick s.cfg s.arch 1 (s.contendedAt port) s.tick
      let delayed := advanceTick s.cfg s.arch 1 true
      if s.contendedAt port = true then delayed (delayed (delayed early)) else s.tick + 4 := by
  rw [portTick, evenPort_eq, hp]
  cases s.contendedAt port <;> rfl

/-! ### The rows -/

theorem readRows_tick (rows : List InRow) (port : Word) (s : State) : (readRows rows port s).2.tick = s.tick := by
  rw [readRows_frame]

theorem writeRows_tick (rows : List OutRow) (port : Word) (v : Byte) (s : State) :
    (writeRows rows port v s).tick = s.tick := by
  rw [writeRows_frame]

/-- A port access, whichever rows it is offered to, moves the counter by the charge of its address (R233; log 4). -/
theorem exec_port_tick {i : Instr} {port : Word} (hi : i.inPort? = some port ∨ i.outPort? = some port) (s : State) :
    ∃ t, exec i s = .next t ∧ t.tick = portTick s port := by
  rcases hi with hin | hout
  · obtain ⟨rows, hexec⟩ := exec_of_inPort hin s
    exact ⟨_, hexec.trans (inpRows_eq rows port s), readRows_tick rows port (s.chargePort port)⟩
  · obtain ⟨rows, v, hexec⟩ := exec_of_outPort hout s
    exact ⟨_, hexec.trans (outpRows_eq rows port v s), writeRows_tick rows port v (s.chargePort port)⟩

/-! ### The statement -/

/-- Settles O17: the charge by the class of the address and, in each class, by the contention of its window. -/
theorem portAccessTicks : Obligations.PortAccessTicks := by
  intro i port s hi d c early
  obtain ⟨t, hexec, htick⟩ := exec_port_tick hi s
  refine ⟨t, hexec, htick.trans ?_⟩
  have hearly : advanceTick s.cfg s.arch 1 (s.contendedAt port) s.tick = early := by
    rw [advanceTick_eq_add]
    exact apply_ite (s.tick + · + 1) (c = true) _ _
  cases hp : port.getLsbD 0 with
  | false =>
    rw [portTick_even hp, hearly]
    rfl
  | true =>
    rw [portTick_odd hp, hearly]
    rfl

end Sys2Proof.Machine
end

section
/-! SUPPORT. What a snapshot command does with its operand file (R250, R280, R320): the file a command reads, the checks that
come before any state is changed, each with its refusal (R361, R362), and the load a file that passes them starts. -/

namespace Sys2Proof.Machine

/-! ### The file a command reads -/

/-- The bytes a snapshot command reads: the file the host presents, the empty string where there is none (log 21). -/
def State.Operand (s : State) (f : List Byte) : Prop := s.file = some f ∨ (s.file = none ∧ f = [])

theorem exec_loadSna {s : State} {f : List Byte} (h : s.Operand f) : exec .loadSna s = loadSnaFile f s := by
  show execLoadSna s = _
  rcases h with h | ⟨h, rfl⟩ <;> simp only [execLoadSna, h]

theorem exec_loadZ80 {s : State} {f : List Byte} (h : s.Operand f) : exec .loadZ80 s = loadZ80File f s := by
  show execLoadZ80 s = _
  rcases h with h | ⟨h, rfl⟩ <;> simp only [execLoadZ80, h]

theorem exec_loadSp {s : State} {f : List Byte} (h : s.Operand f) : exec .loadSp s = loadSpFile f s := by
  show execLoadSp s = _
  rcases h with h | ⟨h, rfl⟩ <;> simp only [execLoadSp, h]

/-! ### SNA files -/

theorem loadSnaFile_badSize {f : List Byte} (h : f.length ∉ [49179, 131103, 147487, 131121, 147505]) (s : State) :
    loadSnaFile f s = .next (s.earlyFailure .badSize) := by
  simp only [List.mem_cons, List.not_mem_nil, or_false, not_or] at h
  obtain ⟨h1, h2, h3, h4, h5⟩ := h
  have hnone : snaVariant f.length = none := by
    rw [snaVariant, if_neg h1, if_neg h2, if_neg h3, if_neg h4, if_neg h5]
  simp only [loadSnaFile, hnone]

/-- A file of a variant's size loads as that variant (R251, R252). -/
theorem loadSnaFile_sized {v : SnaVariant} {f : List Byte} (h : f.length = v.size) (s : State) :
    loadSnaFile f s = loadOn (snaArch v s) (snaPart v f) s := by
  simp only [loadSnaFile, loadSnaAs, h, snaVariant_size, if_true]

theorem exec_snaInstr {v : SnaVariant} {f : List Byte} (h : f.length = v.size) (s : State) :
    exec (snaInstr v f) s = loadOn (snaArch v s) (snaPart v f) s := by
  have hrow : exec (snaInstr v f) s = loadSnaAs v f s := by cases v <;> rfl
  rw [hrow, loadSnaAs, if_pos h]

/-! ### Z80 files -/

theorem z80ExtLen_eq_iff {f : List Byte} {n : Nat} (h : n < 65536) :
    z80ExtLen f = n ↔ le16 f 30 = BitVec.ofNat 16 n := by
  rw [z80ExtLen, ← BitVec.toNat_inj, BitVec.toNat_ofNat, Nat.mod_eq_of_lt h]

/-- A file with `PC` zero in its header is told by the length of its extended header (R281). -/
theorem z80Version_of_pc_zero {f : List Byte} (h : le16 f 6 = 0) :
    z80Version f =
      if f.length < 32 then .error .badSize
      else if le16 f 30 = 23 then .ok .v2
      else if le16 f 30 = 54 ∨ le16 f 30 = 55 then .ok .v3
      else .error .unknownVersion := by
  simp only [z80Version, h, ne_eq, not_true_eq_false, if_false, z80ExtLen_eq_iff (show 23 < 65536 by decide),
    z80ExtLen_eq_iff (show 54 < 65536 by decide), z80ExtLen_eq_iff (show 55 < 65536 by decide)]
  rfl

theorem loadZ80File_short {f : List Byte} (h : f.length < 30) (s : State) :
    loadZ80File f s = .next (s.earlyFailure .badSize) := if_pos h

theorem loadZ80File_refused {f : List Byte} {r : LoadFailure} (h : 30 ≤ f.length) (hv : z80Version f = .error r)
    (s : State) : loadZ80File f s = .next (s.earlyFailure r) := by
  rw [loadZ80File, if_neg (Nat.not_lt.mpr h), hv]

theorem loadZ80File_version {f : List Byte} {v : Z80Ver} (h : 30 ≤ f.length) (hv : z80Version f = .ok v) (s : State) :
    loadZ80File f s = loadZ80At v f s := by
  rw [loadZ80File, if_neg (Nat.not_lt.mpr h), hv]

theorem exec_z80Instr {f : List Byte} {v : Z80Ver} (h : 30 ≤ f.length) (hv : z80Version f = .ok v) (s : State) :
    exec (z80Instr v f) s = loadZ80At v f s := by
  have hrow : exec (z80Instr v f) s = loadZ80As v f s := by cases v <;> rfl
  simp only [hrow, loadZ80As, if_neg (Nat.not_lt.mpr h), hv, if_true]

theorem loadZ80At_refused {v : Z80Ver} {f : List Byte} {s : State} {r : LoadFailure} (h : z80Arch v f s = .error r) :
    loadZ80At v f s = .next (s.earlyFailure r) := by rw [loadZ80At, h]

theorem loadZ80At_loads {v : Z80Ver} {f : List Byte} {s : State} {target : Arch} (h : z80Arch v f s = .ok target) :
    loadZ80At v f s = loadOn target (z80Part v f) s := by rw [loadZ80At, h]

/-- The machine code of an extended header lies at offset 34 (R287). -/
theorem z80Arch_short {v : Z80Ver} {f : List Byte} (hv : v ≠ .v1) (h : f.length < 35) (s : State) :
    z80Arch v f s = .error .badSize := by
  cases v with
  | v1 => exact absurd rfl hv
  | v2 => exact if_pos h
  | v3 => exact if_pos h

theorem z80Arch_unknown {v : Z80Ver} {f : List Byte} {s : State} (hv : v ≠ .v1) (h : 35 ≤ f.length)
    (hm : z80MachineMap s.cfg v.num (fileByte f 34) = none) : z80Arch v f s = .error .unknownMachine := by
  cases v with
  | v1 => exact absurd rfl hv
  | v2 => simp only [z80Arch, if_neg (Nat.not_lt.mpr h), hm]
  | v3 => simp only [z80Arch, if_neg (Nat.not_lt.mpr h), hm]

/-! ### SP files -/

theorem loadSpFile_refused {f : List Byte} {r : LoadFailure} (h : spKind f = .error r) (s : State) :
    loadSpFile f s = .next (s.earlyFailure r) := by rw [loadSpFile, h]

theorem spKind_badSignature {f : List Byte} (hlen : 38 ≤ f.length) (h : ¬(fileByte f 0 = 0x53 ∧ fileByte f 1 = 0x50)) :
    spKind f = .error .badSignature := by
  rw [spKind, if_neg (Nat.not_lt.mpr hlen), if_pos (not_and_or.mp h)]

/-- Past the signature the pair `dataSize`, `startAddress` names the variant, and with it the size (R320). -/
theorem spKind_signed {f : List Byte} (hlen : 38 ≤ f.length) (h : fileByte f 0 = 0x53 ∧ fileByte f 1 = 0x50) :
    spKind f =
      if le16 f 2 = 49152 ∧ le16 f 4 = 16384 then (if f.length = 49190 then .ok false else .error .badSize)
      else if le16 f 2 = 0 ∧ le16 f 4 = 0 then (if f.length = 65574 then .ok true else .error .badSize)
      else .error .badField := by
  rw [spKind, if_neg (Nat.not_lt.mpr hlen), if_neg (not_or.mpr ⟨not_not.mpr h.1, not_not.mpr h.2⟩)]

/-! ### The statement -/

/-- Settles O42: each command on its operand file, by the first of its format's checks that fails. -/
theorem loadRefusedEarly : Obligations.LoadRefusedEarly := by
  intro s f hf refuses
  have sna : loadSnaFile f s = .next (s.earlyFailure .badSize) → refuses .loadSna .badSize := (exec_loadSna hf).trans
  have z80 (r) : loadZ80File f s = .next (s.earlyFailure r) → refuses .loadZ80 r := (exec_loadZ80 hf).trans
  have sp (r) (h : spKind f = .error r) : refuses .loadSp r := (exec_loadSp hf).trans (loadSpFile_refused h s)
  refine ⟨fun h => sna (loadSnaFile_badSize h s), fun h => z80 _ (loadZ80File_short h s), fun h30 hpc => ?_,
    fun h => sp _ (if_pos h), fun h38 => ⟨fun h => sp _ (spKind_badSignature h38 h), fun hsign => ?_⟩⟩
  · have hversion := z80Version_of_pc_zero hpc
    have version (r) (h : z80Version f = .error r) : refuses .loadZ80 r := z80 _ (loadZ80File_refused h30 h s)
    have machine (v r) (hv : z80Version f = .ok v) (h : z80Arch v f s = .error r) : refuses .loadZ80 r :=
      z80 _ ((loadZ80File_version h30 hv s).trans (loadZ80At_refused h))
    have v2 (h32 : 32 ≤ f.length) (hext : le16 f 30 = 23) : z80Version f = .ok .v2 := by
      rw [hversion, if_neg (Nat.not_lt.mpr h32), if_pos hext]
    have v3 (h32 : 32 ≤ f.length) (hext : le16 f 30 = 54 ∨ le16 f 30 = 55) : z80Version f = .ok .v3 := by
      have hne : le16 f 30 ≠ 23 := by rcases hext with h | h <;> rw [h] <;> decide
      rw [hversion, if_neg (Nat.not_lt.mpr h32), if_neg hne, if_pos hext]
    simp only [List.mem_cons, List.not_mem_nil, or_false]
    refine ⟨fun h32 => version _ (hversion.trans (if_pos h32)), fun h32 hext => version _ ?_, fun h32 hext h35 => ?_,
      fun h35 hext hm => machine .v2 _ (v2 (by omega) hext) (z80Arch_unknown (by decide) h35 hm),
      fun h35 hext hm => machine .v3 _ (v3 (by omega) hext) (z80Arch_unknown (by decide) h35 hm)⟩
    · obtain ⟨h23, h54⟩ := not_or.mp hext
      rw [hversion, if_neg (Nat.not_lt.mpr h32), if_neg h23, if_neg h54]
    · rcases hext with hext | hext
      · exact machine .v2 _ (v2 h32 hext) (z80Arch_short (by decide) h35 s)
      · exact machine .v3 _ (v3 h32 hext) (z80Arch_short (by decide) h35 s)
  · have hkind := spKind_signed h38 hsign
    refine ⟨fun h1 h2 => sp _ ?_, fun h1 hlen => sp _ ?_, fun h2 hlen => sp _ ?_⟩
    · rw [hkind, if_neg h1, if_neg h2]
    · rw [hkind, if_pos h1, if_neg hlen]
    · have h1 : ¬(le16 f 2 = 49152 ∧ le16 f 4 = 16384) := fun h => absurd (h2.1.symm.trans h.1) (by decide)
      rw [hkind, if_neg h1, if_pos h2, if_neg hlen]

end Sys2Proof.Machine
end

section
/-! SUPPORT. A 48K SNA file loaded (R250 to R256): the state it leaves, written out once, from the state the load starts
from. -/

namespace Sys2Proof.Machine

/-! ### The loaded state -/

/-- What a 48K SNA file with interrupt mode `im` leaves of the state the load starts from (R255, R256, R349): the registers
but `SP` and `PC` from their fields, the three blocks in memory, the latches cleared, `PC` popped through the new map. -/
def State.sna48Loaded (s : State) (f : List Byte) (im : IntMode) : State :=
  let loaded := (s.loadThree f 27).setLatches Latches.reset
  { loaded with
    regs := { snaRegs f s.regs with im := im, sp := le16 f 23 + 2, pc := loaded.memRead2 (le16 f 23) }
    port254 := (s.port254 &&& 0xF8) ||| (fileByte f 26 &&& 0x07)
    events := s.events ++ [.borderChange s.tick ((fileByte f 26).extractLsb' 0 3)]
    cheats := []
    pokes := []
    fill := ⟨none, 0⟩
    failed := false
    answer := .loaded }

/-- An untimed read depends on what memory holds and on the map (R62). -/
theorem State.memRead_congr {s t : State} (hs : t.stored = s.stored) (hm : t.map = s.map) (addr : Word) :
    t.memRead addr = s.memRead addr := by
  simp only [State.memRead, State.pageAt, hm, State.readPage_of_stored hs]

theorem State.setLatches_stored (s : State) (l : Latches) : (s.setLatches l).stored = s.stored := rfl

/-- The pages hold what the three blocks leave (R256). -/
theorem State.sna48Loaded_stored (s : State) (f : List Byte) (im : IntMode) :
    (s.sna48Loaded f im).stored = (s.loadThree f 27).stored := rfl

theorem State.sna48Loaded_map (s : State) (f : List Byte) (im : IntMode) :
    (s.sna48Loaded f im).map = mapOf s.cfg s.arch Latches.reset := rfl

/-- `PC` is the word memory holds at the `SP` of the file, read in the loaded state itself (R256). -/
theorem State.sna48Loaded_pc (s : State) (f : List Byte) (im : IntMode) :
    (s.sna48Loaded f im).regs.pc =
      (s.sna48Loaded f im).memRead (le16 f 23 + 1) ++ (s.sna48Loaded f im).memRead (le16 f 23) := by
  have hread := State.memRead_congr (s := (s.loadThree f 27).setLatches Latches.reset) (t := s.sna48Loaded f im)
    ((s.sna48Loaded_stored f im).trans (State.setLatches_stored _ _).symm) (s.sna48Loaded_map f im)
  simp only [hread]
  rfl

/-- What the pages read after the load (R256). -/
theorem State.readPage_sna48Loaded (s : State) {f : List Byte} (im : IntMode) (hf : f.length = 49179) (p : Page) {o : Nat}
    (ho : o < 0x4000) :
    (s.sna48Loaded f im).readPage p o =
      if p = .ram 5 then fileByte f (27 + o)
      else if p = .ram 2 then fileByte f (16411 + o)
      else if p = .ram 0 then fileByte f (32795 + o)
      else s.readPage p o := by
  have hblocks := s.readPage_loadThree f 27 (by omega) p ho
  simp only [Nat.reduceAdd] at hblocks
  exact (State.readPage_of_stored (s.sna48Loaded_stored f im) p o).trans hblocks

/-! ### The load -/

/-- `LoadSnaHeader()`, `LoadSna48()` and the end of the load (R250, R255, R256). -/
theorem finishLoad_sna48 {f : List Byte} {im : IntMode} (h : imOf (fileByte f 25) = some im) (s : State) :
    finishLoad (snaPart .s48 f s.cheatClose) = .next (s.sna48Loaded f im) := by
  simp only [snaPart, loadSnaHeader_ok h, finishLoad_ok, State.setBorder, setWidth_low3]
  rfl

/-- The state a load on an architecture starts from: the running one, or its power-on reset (R253, R393). -/
def State.entered (s : State) (target : Arch) : State := if target = s.arch then s else s.powerOn target

theorem State.entered_arch (s : State) (target : Arch) : (s.entered target).arch = target := by
  rw [State.entered]
  split
  · next h => exact h.symm
  · rfl

theorem loadOn_sna48 {f : List Byte} {im : IntMode} {s : State} {target : Arch} (h : imOf (fileByte f 25) = some im)
    (ht : target = s.arch ∨ s.cfg.allocOk = true) :
    loadOn target (snaPart .s48 f) s = .next ((s.entered target).sna48Loaded f im) :=
  (loadOn_entered (snaPart .s48 f) ht).trans (finishLoad_sna48 h (s.entered target))

theorem Arch.is48_iff (a : Arch) : a.is48 = true ↔ a = .spec48 ∨ a = .tk := by cases a <;> decide

theorem snaArch_s48_is48 (s : State) : (snaArch .s48 s).is48 = true := by
  simp only [snaArch]
  split
  · next h => exact (Arch.is48_iff _).mpr h
  · rfl

/-- With the latches cleared the windows show ROM 0 and banks 5, 2, 0 (R70). -/
theorem ramCurrentOf_reset (arch : Arch) : ramCurrentOf arch Latches.reset = #v[.rom 0, .ram 5, .ram 2, .ram 0] :=
  ramCurrentOf_normal fun h => nomatch h.2

/-! ### The statement -/

/-- Settles O43: the load's outcome, its parts read off the state it leaves. -/
theorem sna48Load : Obligations.Sna48Load := by
  intro f s hlen him target htarget s1 sp
  obtain ⟨im, hsome, hbyte⟩ := imOf_some him
  have hload : loadOn (snaArch .s48 s) (snaPart .s48 f) s = .next (s1.sna48Loaded f im) := loadOn_sna48 hsome htarget
  have harch : s1.arch = target := s.entered_arch target
  clear_value s1
  refine ⟨s1.sna48Loaded f im, im, (exec_snaInstr (v := .s48) hlen s).trans hload, fun hfile => ?_, hbyte, ?_,
    harch, ramCurrentOf_reset _, rfl, fun p o ho => s1.readPage_sna48Loaded im hlen p ho⟩
  · exact (exec_loadSna (.inl hfile)).trans ((loadSnaFile_sized (v := .s48) hlen s).trans hload)
  · rw [← State.sna48Loaded_pc]
    rfl

end Sys2Proof.Machine
end

section
/-! SUPPORT. The SNA file a save returns, byte by byte (R262 to R266): where each part of the file lies, and what it reads
there. -/

namespace Sys2Proof.Machine

/-! ### Bytes of a file put together from parts -/

theorem fileByte_append_left {a : List Byte} {i : Nat} (h : i < a.length) (b : List Byte) :
    fileByte (a ++ b) i = fileByte a i := List.getD_append a b 0 i h

theorem fileByte_append_right {a : List Byte} {n : Nat} (h : a.length = n) (b : List Byte) (i : Nat) :
    fileByte (a ++ b) (n + i) = fileByte b i := by
  rw [fileByte, List.getD_append_right a b 0 _ (by omega), show n + i - a.length = i by omega, fileByte]

theorem fileByte_pageBytes (s : State) (p : Page) {o : Nat} (ho : o < 0x4000) :
    fileByte (s.pageBytes p) o = s.readPage p o := by
  rw [fileByte, List.getD_eq_getElem _ 0 (by rw [s.pageBytes_length p]; exact ho)]
  simp only [State.pageBytes, List.getElem_map, List.getElem_range]

/-- Banks saved in a row: the `k`-th one at `16384 * k` (R265). -/
theorem fileByte_flatMap_pageBytes (s : State) {banks : List (BitVec 3)} {k : Nat} {c : BitVec 3} (h : banks[k]? = some c)
    {o : Nat} (ho : o < 0x4000) :
    fileByte (banks.flatMap fun b => s.pageBytes (.ram b)) (16384 * k + o) = s.readPage (.ram c) o := by
  induction banks generalizing k with
  | nil => cases h
  | cons b banks ih =>
    rw [List.flatMap_cons]
    cases k with
    | zero =>
      obtain rfl : b = c := Option.some.inj h
      rw [Nat.mul_zero, Nat.zero_add, fileByte_append_left (by rw [State.pageBytes_length]; exact ho)]
      exact fileByte_pageBytes s _ ho
    | succ k =>
      rw [show 16384 * (k + 1) + o = 16384 + (16384 * k + o) by omega, fileByte_append_right (s.pageBytes_length _)]
      exact ih h

theorem length_flatMap_pageBytes (s : State) (banks : List (BitVec 3)) :
    (banks.flatMap fun b => s.pageBytes (.ram b)).length = 16384 * banks.length := by
  induction banks with
  | nil => rfl
  | cons b banks ih => rw [List.flatMap_cons, List.length_append, ih, s.pageBytes_length, List.length_cons]; omega

/-! ### The header -/

theorem snaHeader_length (s : State) (sp : Word) : (snaHeader s sp).length = 27 := rfl

/-- The header at the front of a file, byte after byte (R254, R263). -/
theorem snaHeader_append (s : State) (sp : Word) (rest : List Byte) :
    snaHeader s sp ++ rest =
      let r := s.regs
      r.i :: loByte r.hl2 :: hiByte r.hl2 :: loByte r.de2 :: hiByte r.de2 :: loByte r.bc2 :: hiByte r.bc2 :: r.f2 ::
        r.a2 :: loByte r.hl :: hiByte r.hl :: loByte r.de :: hiByte r.de :: loByte r.bc :: hiByte r.bc :: loByte r.iy ::
        hiByte r.iy :: loByte r.ix :: hiByte r.ix :: bitByte r.iff2 <<< 2 :: r.r :: r.f :: r.a :: loByte sp ::
        hiByte sp :: imByte r.im :: (s.port254 &&& 0x07) :: rest := rfl

/-- The fields of the header at the front of a file (R254, R263). -/
theorem snaHeader_fields (s : State) (sp : Word) (rest : List Byte) :
    let f := snaHeader s sp ++ rest
    let r := s.regs
    fileByte f 0 = r.i ∧ le16 f 1 = r.hl2 ∧ le16 f 3 = r.de2 ∧ le16 f 5 = r.bc2 ∧ fileByte f 7 = r.f2 ∧
    fileByte f 8 = r.a2 ∧ le16 f 9 = r.hl ∧ le16 f 11 = r.de ∧ le16 f 13 = r.bc ∧ le16 f 15 = r.iy ∧ le16 f 17 = r.ix ∧
    fileByte f 19 = (if r.iff2 = true then 4 else 0) ∧ fileByte f 20 = r.r ∧ fileByte f 21 = r.f ∧ fileByte f 22 = r.a ∧
    fileByte f 25 = imByte r.im ∧ fileByte f 26 = s.port254 &&& 0x07 := by
  have hiff : bitByte s.regs.iff2 <<< 2 = if s.regs.iff2 = true then (4 : Byte) else 0 := by cases s.regs.iff2 <;> rfl
  rw [snaHeader_append]
  simp only [le16, fileByte, List.getD_cons_zero, List.getD_cons_succ, wordOf_bytes, hiff, and_self]

theorem snaHeader_sp (s : State) (sp : Word) (rest : List Byte) : le16 (snaHeader s sp ++ rest) 23 = sp := by
  rw [snaHeader_append]
  simp only [le16, fileByte, List.getD_cons_zero, List.getD_cons_succ, wordOf_bytes]

/-! ### The 48K save -/

/-- The page of a 48K image an address lies in (R264). -/
def imagePage (addr : Word) : Page := if addr < 0x8000 then .ram 5 else if addr < 0xC000 then .ram 2 else .ram 0

/-- The 48K memory image (R264). -/
def State.image48 (s : State) : List Byte := s.pageBytes (.ram 5) ++ s.pageBytes (.ram 2) ++ s.pageBytes (.ram 0)

theorem State.image48_length (s : State) : s.image48.length = 49152 := by
  simp only [State.image48, List.length_append, State.pageBytes_length]

/-- The three thirds of the image: the page an address from 0x4000 on lies in, its window, and its place in the image
(R61, R264). -/
theorem image_cases {addr : Word} (h : 0x4000 ≤ addr) :
    (imagePage addr = .ram 5 ∧ win addr = 1 ∧ (addr - 0x4000).toNat = (off addr).toNat) ∨
    (imagePage addr = .ram 2 ∧ win addr = 2 ∧ (addr - 0x4000).toNat = 0x4000 + (off addr).toNat) ∨
    (imagePage addr = .ram 0 ∧ win addr = 3 ∧ (addr - 0x4000).toNat = 0x8000 + (off addr).toNat) := by
  have hlow : 0x4000 ≤ addr.toNat := h
  have hlt := addr.isLt
  have hplace : (addr - 0x4000).toNat = addr.toNat - 0x4000 := by bv_omega
  have hoff : (off addr).toNat = addr.toNat % 0x4000 := by simp [off]
  have hwin : (win addr).val = addr.toNat / 0x4000 := by
    simp only [win, Fin.val_ofNat, BitVec.toNat_ushiftRight, Nat.shiftRight_eq_div_pow]
    omega
  have h8 : addr < 0x8000 ↔ addr.toNat < 0x8000 := Iff.rfl
  have hC : addr < 0xC000 ↔ addr.toNat < 0xC000 := Iff.rfl
  simp only [imagePage, Fin.ext_iff, hwin, hplace, hoff, h8, hC]
  by_cases n8 : addr.toNat < 0x8000
  · exact .inl ⟨if_pos n8, by show _ = 1; omega, by omega⟩
  · by_cases nC : addr.toNat < 0xC000
    · exact .inr (.inl ⟨(if_neg n8).trans (if_pos nC), by show _ = 2; omega, by omega⟩)
    · exact .inr (.inr ⟨(if_neg n8).trans (if_neg nC), by show _ = 3; omega, by omega⟩)

theorem State.fileByte_image48 (s : State) {addr : Word} (h : 0x4000 ≤ addr) :
    fileByte s.image48 (addr - 0x4000).toNat = s.readPage (imagePage addr) (off addr).toNat := by
  have ho := off_lt addr
  have skipPage (p : Page) := fileByte_append_right (s.pageBytes_length p)
  rw [← fileByte_pageBytes s _ ho, State.image48, List.append_assoc]
  rcases image_cases h with ⟨hpage, -, hplace⟩ | ⟨hpage, -, hplace⟩ | ⟨hpage, -, hplace⟩
  · rw [hpage, hplace, fileByte_append_left (by rw [s.pageBytes_length]; exact ho)]
  · rw [hpage, hplace, skipPage, fileByte_append_left (by rw [s.pageBytes_length]; exact ho)]
  · rw [hpage, hplace, show 0x8000 + (off addr).toNat = 0x4000 + (0x4000 + (off addr).toNat) by omega, skipPage, skipPage]

theorem imageWrite_length (img : List Byte) (a : Word) (v : Byte) : (imageWrite img a v).length = img.length := by
  rw [imageWrite]
  split
  · rfl
  · exact List.length_set

/-- A byte stored in the image is read at its address; below 0x4000 there is none (R264). -/
theorem fileByte_imageWrite {img : List Byte} (hlen : img.length = 49152) (a : Word) (v : Byte) {addr : Word}
    (h : 0x4000 ≤ addr) :
    fileByte (imageWrite img a v) (addr - 0x4000).toNat =
      if addr = a then v else fileByte img (addr - 0x4000).toNat := by
  by_cases ha : a < 0x4000
  · rw [imageWrite, if_pos ha, if_neg fun e : addr = a => absurd ha (BitVec.not_lt.mpr (e ▸ h))]
  · have hplace : (a - 0x4000).toNat = (addr - 0x4000).toNat ↔ addr = a := by bv_omega
    have hin : (a - 0x4000).toNat < img.length := by rw [hlen]; bv_omega
    simp only [imageWrite, if_neg ha, fileByte, List.getD_eq_getElem?_getD, List.getElem?_set, hin, hplace]
    split <;> rfl

theorem saveSna48_eq (s : State) :
    saveSna48 s =
      snaHeader s (s.regs.sp - 2) ++
        imageWrite (imageWrite s.image48 (s.regs.sp - 2) (loByte s.regs.pc)) (s.regs.sp - 2 + 1) (hiByte s.regs.pc) := rfl

theorem saveSna48_length (s : State) : (saveSna48 s).length = 49179 := by
  rw [saveSna48_eq, List.length_append, snaHeader_length, imageWrite_length, imageWrite_length, s.image48_length]

/-- The saved image: `PC` at `SP - 2`, memory elsewhere (R264). -/
theorem fileByte_saveSna48 (s : State) {addr : Word} (h : 0x4000 ≤ addr) :
    fileByte (saveSna48 s) (27 + (addr - 0x4000).toNat) =
      if addr = s.regs.sp - 2 + 1 then hiByte s.regs.pc
      else if addr = s.regs.sp - 2 then loByte s.regs.pc
      else s.readPage (imagePage addr) (off addr).toNat := by
  have hlow := imageWrite_length s.image48 (s.regs.sp - 2) (loByte s.regs.pc)
  rw [saveSna48_eq, fileByte_append_right (snaHeader_length s _), fileByte_imageWrite (hlow.trans s.image48_length) _ _ h,
    fileByte_imageWrite s.image48_length _ _ h, s.fileByte_image48 h]

/-! ### The 128K-class save -/

/-- The 128K-class file, with what the +2A adds at its end (R265, R266). -/
theorem saveSna128_append (s : State) (rest : List Byte) :
    saveSna128 s ++ rest =
      snaHeader s s.regs.sp ++ (s.pageBytes (.ram 5) ++ (s.pageBytes (.ram 2) ++ (s.pageBytes (.ram s.latches.bankLatch) ++
        ([loByte s.regs.pc, hiByte s.regs.pc, pd7Byte s.latches, bitByte s.latches.trdosPaged] ++
          (((remainingBanks s.latches.bankLatch).flatMap fun b => s.pageBytes (.ram b)) ++ rest))))) := by
  simp only [saveSna128, le16Bytes, List.append_assoc]
  rfl

theorem saveSna128_length (s : State) :
    (saveSna128 s).length = 131103 + if s.latches.bankLatch = 2 ∨ s.latches.bankLatch = 5 then 16384 else 0 := by
  rw [← List.append_nil (saveSna128 s), saveSna128_append]
  simp only [List.length_append, snaHeader_length, State.pageBytes_length, length_flatMap_pageBytes, remainingBanks_length,
    List.length_cons, List.length_nil]
  split <;> rfl

/-- The blocks before the tail (R265). -/
theorem fileByte_saveSna128_blocks (s : State) (rest : List Byte) {o : Nat} (ho : o < 0x4000) :
    fileByte (saveSna128 s ++ rest) (27 + o) = s.readPage (.ram 5) o ∧
    fileByte (saveSna128 s ++ rest) (16411 + o) = s.readPage (.ram 2) o ∧
    fileByte (saveSna128 s ++ rest) (32795 + o) = s.readPage (.ram s.latches.bankLatch) o := by
  have page (p : Page) (tail : List Byte) : fileByte (s.pageBytes p ++ tail) o = s.readPage p o := by
    rw [fileByte_append_left (by rw [s.pageBytes_length]; exact ho), fileByte_pageBytes s p ho]
  have skipHeader := fileByte_append_right (snaHeader_length s s.regs.sp)
  have skipPage (p : Page) := fileByte_append_right (s.pageBytes_length p)
  rw [saveSna128_append, show 16411 + o = 27 + (0x4000 + o) by omega, show 32795 + o = 27 + (0x4000 + (0x4000 + o)) by omega]
  simp only [skipHeader, skipPage, page, and_self]

/-- The tail, and the banks after it (R265). -/
theorem saveSna128_drop (s : State) (rest : List Byte) (i : Nat) :
    fileByte (saveSna128 s ++ rest) (49179 + i) =
      fileByte ([loByte s.regs.pc, hiByte s.regs.pc, pd7Byte s.latches, bitByte s.latches.trdosPaged] ++
        (((remainingBanks s.latches.bankLatch).flatMap fun b => s.pageBytes (.ram b)) ++ rest)) i := by
  rw [saveSna128_append, show 49179 + i = 27 + (0x4000 + (0x4000 + (0x4000 + i))) by omega,
    fileByte_append_right (snaHeader_length s _), fileByte_append_right (s.pageBytes_length _),
    fileByte_append_right (s.pageBytes_length _), fileByte_append_right (s.pageBytes_length _)]

theorem pd7Byte_eq (l : Latches) :
    pd7Byte l = l.bankLatch.setWidth 8 ||| (if l.videoLatch = true then (0x08 : Byte) else 0) |||
      (if l.romLatch.getLsbD 0 = true then (0x10 : Byte) else 0) ||| (if l.pagingLock = true then (0x20 : Byte) else 0) := by
  have shifted (b : Bool) (n : Nat) : bitByte b <<< n = if b = true then (1 : Byte) <<< n else 0 := by
    cases b <;> simp [bitByte]
  simp only [pd7Byte, shifted]
  rfl

/-- `PC`, the paging byte and the TR-DOS flag (R265). -/
theorem saveSna128_tail (s : State) (rest : List Byte) :
    le16 (saveSna128 s ++ rest) 49179 = s.regs.pc ∧ fileByte (saveSna128 s ++ rest) 49181 = pd7Byte s.latches ∧
    fileByte (saveSna128 s ++ rest) 49182 = (if s.latches.trdosPaged = true then 1 else 0) := by
  have tail := saveSna128_drop s rest
  have hlo : fileByte (saveSna128 s ++ rest) 49179 = loByte s.regs.pc := tail 0
  have hhi : fileByte (saveSna128 s ++ rest) 49180 = hiByte s.regs.pc := tail 1
  exact ⟨by rw [le16, hlo, hhi, wordOf_bytes], tail 2, tail 3⟩

theorem fileByte_saveSna128_banks (s : State) (rest : List Byte) {k : Nat} {c : BitVec 3}
    (h : (remainingBanks s.latches.bankLatch)[k]? = some c) {o : Nat} (ho : o < 0x4000) :
    fileByte (saveSna128 s ++ rest) (49183 + 16384 * k + o) = s.readPage (.ram c) o := by
  obtain ⟨hk, -⟩ := List.getElem?_eq_some_iff.mp h
  rw [show 49183 + 16384 * k + o = 49179 + (4 + (16384 * k + o)) by omega, saveSna128_drop,
    fileByte_append_right (show _ = 4 from rfl), fileByte_append_left (by rw [length_flatMap_pageBytes]; omega),
    fileByte_flatMap_pageBytes s h ho]

/-! ### The +2A trailer -/

theorem snaTrailer_length (s : State) : (snaTrailer s).length = 18 := by
  rw [snaTrailer, List.length_append, Vector.length_toList]
  rfl

/-- The trailer, counted from the end of the file (R266). -/
theorem fileByte_snaTrailer (s : State) {f body : List Byte} (h : f = body ++ snaTrailer s) :
    fileByte f (f.length - 18) = pd1Byte s.latches ∧ fileByte f (f.length - 17) = s.ay.sel ∧
    ∀ k : Fin 16, fileByte f (f.length - 16 + k.val) = s.ay.reg.get k := by
  have hlen : f.length = body.length + 18 := by rw [h, List.length_append, snaTrailer_length]
  have hbody (i : Nat) : fileByte f (body.length + i) = fileByte (snaTrailer s) i := by
    rw [h]; exact fileByte_append_right rfl _ i
  refine ⟨?_, ?_, fun k => ?_⟩
  · rw [show f.length - 18 = body.length + 0 by omega, hbody]; rfl
  · rw [show f.length - 17 = body.length + 1 by omega, hbody]; rfl
  · rw [show f.length - 16 + k.val = body.length + (2 + k.val) by omega, hbody, snaTrailer,
      fileByte_append_right (show _ = 2 from rfl), fileByte, List.getD_eq_getElem _ 0 (by simp)]
    rfl

/-! ### The file -/

theorem saveSnaFile_48 {s : State} (h : s.arch.is48 = true) : saveSnaFile s = saveSna48 s := by
  unfold saveSnaFile
  split
  case h_1 | h_2 => rfl
  all_goals
    next ha => rw [ha] at h; cases h

theorem saveSnaFile_128 {s : State} (h : s.arch.is48 = false) :
    saveSnaFile s = saveSna128 s ++ if s.arch = .plus2A then snaTrailer s else [] := by
  unfold saveSnaFile
  split
  case h_1 ha | h_2 ha => rw [ha] at h; cases h
  case h_3 ha | h_4 ha => rw [ha, if_neg (by decide), List.append_nil]
  case h_5 ha => rw [ha, if_pos rfl]

theorem saveSnaFile_header (s : State) : ∃ sp rest, saveSnaFile s = snaHeader s sp ++ rest := by
  cases h : s.arch.is48 with
  | true => exact ⟨_, _, (saveSnaFile_48 h).trans (saveSna48_eq s)⟩
  | false => exact ⟨_, _, (saveSnaFile_128 h).trans (saveSna128_append s _)⟩

/-- Settles O46: the header, then the rest of the file by the memory class of the architecture. (`saveSnaFile` itself is the
model's function.) -/
theorem saveSnaFile_contents : Obligations.SaveSnaFile := by
  intro s
  refine ⟨saveSnaFile s, rfl, ?_⟩
  intro r l b sp six
  obtain ⟨sp', rest, hfile⟩ := saveSnaFile_header s
  have hheader := snaHeader_fields s sp' rest
  rw [← hfile] at hheader
  obtain ⟨hi, hhl2, hde2, hbc2, hf2, ha2, hhl, hde, hbc, hiy, hix, hiff2, hr, hf, ha, him, hborder⟩ := hheader
  refine ⟨hi, hhl2, hde2, hbc2, hf2, ha2, hhl, hde, hbc, hiy, hix, hiff2, hr, hf, ha, him, hborder, fun h48 => ?_,
    fun h128 => ?_, fun _ => ?_⟩
  · rw [saveSnaFile_48 h48]
    exact ⟨saveSna48_length s, snaHeader_sp s sp _, fun addr haddr => fileByte_saveSna48 s haddr⟩
  · rw [saveSnaFile_128 h128, ← pd7Byte_eq]
    obtain ⟨hpc, hpaging, htrdos⟩ := saveSna128_tail s (if s.arch = .plus2A then snaTrailer s else [])
    refine ⟨?_, ?_, hpc, hpaging, htrdos, fun o ho => ?_, fun h2A3 => ?_⟩
    · rw [List.length_append, saveSna128_length, apply_ite List.length, snaTrailer_length, List.length_nil]
    · rw [saveSna128_append, snaHeader_sp]
    · obtain ⟨h5, h2, hcurrent⟩ := fileByte_saveSna128_blocks s (if s.arch = .plus2A then snaTrailer s else []) ho
      exact ⟨h5, h2, hcurrent, fun c k hk => fileByte_saveSna128_banks s _ hk ho⟩
    · rw [if_pos h2A3]
      exact fileByte_snaTrailer s rfl
  · rw [remainingBanks_length]
    exact ⟨fun h => if_pos h, fun h => by_contra fun hn => by rw [if_neg hn] at h; cases h⟩

end Sys2Proof.Machine
end

section
/-! SUPPORT. A 48K SNA file loaded and saved again (R267): from what the load leaves and what the save writes, byte by
byte. -/

namespace Sys2Proof.Machine

theorem le16_inj {f g : List Byte} {i : Nat} (h : le16 f i = le16 g i) :
    fileByte f i = fileByte g i ∧ fileByte f (i + 1) = fileByte g (i + 1) := by
  have hlo := congrArg loByte h
  have hhi := congrArg hiByte h
  simp only [le16, loByte_wordOf, hiByte_wordOf] at hlo hhi
  exact ⟨hlo, hhi⟩

/-- A file is its bytes. -/
theorem file_ext {f g : List Byte} (hlen : f.length = g.length) (h : ∀ i, i < f.length → fileByte f i = fileByte g i) :
    f = g :=
  List.ext_getElem hlen fun i hf hg => by
    have := h i hf
    rwa [fileByte, fileByte, List.getD_eq_getElem f 0 hf, List.getD_eq_getElem g 0 hg] at this

/-- With the normal map of the 48K class an address from 0x4000 on reads its page of the image (R61, R62). -/
theorem State.memRead_image {s : State} (hmap : s.map.ramCurrent = #v[.rom 0, .ram 5, .ram 2, .ram 0]) {addr : Word}
    (h : 0x4000 ≤ addr) : s.memRead addr = s.readPage (imagePage addr) (off addr).toNat := by
  have hpage : s.pageAt addr = imagePage addr := by
    rw [State.pageAt, hmap]
    rcases image_cases h with ⟨hpage, hwin, -⟩ | ⟨hpage, hwin, -⟩ | ⟨hpage, hwin, -⟩ <;> rw [hpage, hwin] <;> rfl
  rw [State.memRead, hpage]

/-- After the load an address from 0x4000 on reads its byte of the file's image (R256). -/
theorem State.memRead_sna48Loaded (s : State) {f : List Byte} (im : IntMode) (hf : f.length = 49179) {addr : Word}
    (h : 0x4000 ≤ addr) : (s.sna48Loaded f im).memRead addr = fileByte f (27 + (addr - 0x4000).toNat) := by
  rw [State.memRead_image (ramCurrentOf_reset s.arch) h, s.readPage_sna48Loaded im hf _ (off_lt addr)]
  rcases image_cases h with ⟨hpage, -, hplace⟩ | ⟨hpage, -, hplace⟩ | ⟨hpage, -, hplace⟩
  · rw [hpage, hplace, if_pos rfl]
  · rw [hpage, hplace, if_neg (by decide), if_pos rfl, ← Nat.add_assoc]
  · rw [hpage, hplace, if_neg (by decide), if_neg (by decide), if_pos rfl, ← Nat.add_assoc]

/-! ### The bytes a load keeps whole -/

/-- An IFF2 byte that holds bit 2 and no other (R263, R267). -/
theorem iffByte_of_bit2 {v : Byte} (h : v &&& 0xFB = 0) : (if bit v 2 = true then (4 : Byte) else 0) = v := by
  revert v; decide

theorem imByte_low {v : Byte} (h : v ≤ 2) : v &&& 0x03 = v ∧ v ≠ 3 := by revert v; decide

/-- The border bits of port 254, whatever the others (R255, R263). -/
theorem border_low {v : Byte} (h : v < 8) (p : Byte) : ((p &&& 0xF8) ||| (v &&& 0x07)) &&& 0x07 = v := by
  have hv : v &&& 0x07 = v := by revert v; decide
  have hp : (p &&& 0xF8) &&& 0x07 = 0#8 := by rw [BitVec.and_assoc]; exact BitVec.and_zero
  rw [BitVec.and_or_distrib_right, hp, BitVec.zero_or, BitVec.and_assoc, BitVec.and_self, hv]

/-- The file a save returns of the loaded state is the file that was loaded (R267). Nothing is asked of `SP`: whatever `PC`
was popped as, each of its bytes the save stores in the image was read from its place there, and the others are dropped
(R264). -/
theorem saveSnaFile_sna48Loaded (s : State) (h48 : s.arch.is48 = true) {f : List Byte} {im : IntMode}
    (hlen : f.length = 49179) (hiff : fileByte f 19 &&& 0xFB = 0) (him : imByte im = fileByte f 25)
    (hborder : fileByte f 26 < 8) :
    saveSnaFile (s.sna48Loaded f im) = f := by
  obtain ⟨g, hsave, bi, bhl2, bde2, bbc2, bf2, ba2, bhl, bde, bbc, biy, bix, biff, br, bf, ba, bim, bborder, himage, -⟩ :=
    saveSnaFile_contents (s.sna48Loaded f im)
  obtain rfl : saveSnaFile (s.sna48Loaded f im) = g :=
    Answer.bytes.inj (congrArg State.answer (Host.Outcome.next.inj hsave))
  obtain ⟨hsize, bsp, himage⟩ := himage h48
  have hsp : (s.sna48Loaded f im).regs.sp - 2 = le16 f 23 := BitVec.add_sub_cancel (le16 f 23) 2
  rw [hsp] at bsp himage
  generalize saveSnaFile (s.sna48Loaded f im) = g at *
  refine file_ext (hsize.trans hlen.symm) fun i hi => ?_
  by_cases hheader : i < 27
  · replace biff := biff.trans (iffByte_of_bit2 hiff)
    replace bim := bim.trans him
    replace bborder := bborder.trans (border_low hborder _)
    obtain ⟨b1, b2⟩ := le16_inj bhl2
    obtain ⟨b3, b4⟩ := le16_inj bde2
    obtain ⟨b5, b6⟩ := le16_inj bbc2
    obtain ⟨b9, b10⟩ := le16_inj bhl
    obtain ⟨b11, b12⟩ := le16_inj bde
    obtain ⟨b13, b14⟩ := le16_inj bbc
    obtain ⟨b15, b16⟩ := le16_inj biy
    obtain ⟨b17, b18⟩ := le16_inj bix
    obtain ⟨b23, b24⟩ := le16_inj bsp
    interval_cases i <;> assumption
  · obtain ⟨addr, haddr, rfl⟩ : ∃ addr : Word, 0x4000 ≤ addr ∧ i = 27 + (addr - 0x4000).toNat := by
      refine ⟨BitVec.ofNat 16 (0x4000 + (i - 27)), ?_, ?_⟩ <;> bv_omega
    rw [himage addr haddr, s.sna48Loaded_pc f im, ← s.memRead_sna48Loaded im hlen haddr]
    split
    · next h => rw [h]; exact hiByte_wordOf _ _
    · split
      · next h => rw [h]; exact loByte_wordOf _ _
      · exact (State.memRead_image (ramCurrentOf_reset s.arch) haddr).symm

/-- Settles O47: the header byte by byte, and the image, where `PC` is stored over the two bytes it was popped from. -/
theorem sna48RoundTrip : Obligations.Sna48RoundTrip := by
  intro f s hlen hswitch hiff him hborder _ _
  obtain ⟨hlow2, hne⟩ := imByte_low him
  obtain ⟨im, hsome, hbyte⟩ := imOf_some (v := fileByte f 25) (by rwa [hlow2])
  have htarget : snaArch .s48 s = s.arch ∨ s.cfg.allocOk = true :=
    hswitch.imp_left fun h48 => if_pos ((Arch.is48_iff _).mp h48)
  have harch := (s.entered_arch (snaArch .s48 s)).symm ▸ snaArch_s48_is48 s
  refine ⟨_, _, (exec_snaInstr (v := .s48) hlen s).trans (loadOn_sna48 hsome htarget), rfl, congrArg Answer.bytes ?_⟩
  exact saveSnaFile_sna48Loaded _ harch hlen hiff (hbyte.trans hlow2) hborder

end Sys2Proof.Machine
end

section
/-! SUPPORT. The late failures of a snapshot load (R255, R259, R261, R283 to R289, R303, R362): where an SNA load fails,
what a failed load leaves, and that nothing else sets `failed`. -/

namespace Sys2Proof.Machine

/-! ### Where an SNA load fails -/

theorem snaPart_badField {f : List Byte} (h : fileByte f 25 &&& 0x03 = 3) (v : SnaVariant) (s : State) :
    ∃ u, snaPart v f s = .error (.badField, u) := by
  simp only [snaPart, loadSnaHeader, imOf_none h]
  exact ⟨_, rfl⟩

/-- The size of a 128K-class variant and the number of its banks agree for the current banks of the variant (R251, R259). -/
theorem sna128_size_iff {v : SnaVariant} (hv : v ≠ .s48) (cur : BitVec 3) :
    (if v.hasTrailer = true then v.size - 18 else v.size) = 49183 + 16384 * (remainingBanks cur).length ↔
      (v = .s128a ∨ v = .s2A3a ↔ cur ≠ 2 ∧ cur ≠ 5) := by
  rw [remainingBanks_length]
  cases v with
  | s48 => exact absurd rfl hv
  | s128a | s128b | s2A3a | s2A3b => revert cur; decide

theorem loadSna128_badSize {v : SnaVariant} {f : List Byte} (hv : v ≠ .s48) (hlen : f.length = v.size)
    (h : ¬(v = .s128a ∨ v = .s2A3a ↔ (fileByte f 49181).extractLsb' 0 3 ≠ 2 ∧ (fileByte f 49181).extractLsb' 0 3 ≠ 5))
    (s : State) : ∃ u, loadSna128 v f s = .error (.badSize, u) := by
  unfold loadSna128
  extract_lets s1 r s2 cur s3 tailEnd
  have hsize : ¬tailEnd = 49183 + 16384 * (remainingBanks cur).length := by
    simp only [tailEnd, hlen]
    exact mt (sna128_size_iff hv _).mp h
  exact ⟨s3, if_neg hsize⟩

theorem snaPart_badSize {v : SnaVariant} {f : List Byte} (hv : v ≠ .s48) (hlen : f.length = v.size)
    (him : fileByte f 25 &&& 0x03 ≠ 3)
    (h : ¬(v = .s128a ∨ v = .s2A3a ↔ (fileByte f 49181).extractLsb' 0 3 ≠ 2 ∧ (fileByte f 49181).extractLsb' 0 3 ≠ 5))
    (s : State) : ∃ u, snaPart v f s = .error (.badSize, u) := by
  obtain ⟨m, hm, -⟩ := imOf_some him
  obtain ⟨u, hu⟩ := loadSna128_badSize hv hlen h _
  refine ⟨u, ?_⟩
  simp only [snaPart, loadSnaHeader_ok hm]
  cases v with
  | s48 => exact absurd rfl hv
  | s128a | s128b => exact hu
  | s2A3a | s2A3b => rw [hu]

/-! ### What a failed load leaves -/

/-- A part that fails with reason `r` wherever it starts makes the load end in a late failure (R362). -/
theorem loadOn_fails_part {s : State} {target : Arch} {part : State → Loading} {r : LoadFailure}
    (ht : target = s.arch ∨ s.cfg.allocOk = true) (hloads : ∀ s, Loading.Loads s (part s))
    (hpart : ∀ s, ∃ u, part s = .error (r, u)) :
    ∃ t, loadOn target part s = .next t ∧ t.failed = true ∧ t.answer = .failure r ∧ t.Mapped ∧
      (target = s.arch → t.tick = s.tick) := by
  obtain ⟨u, hu⟩ := hpart (if target = s.arch then s else s.powerOn target).cheatClose
  have hchanged := hloads (if target = s.arch then s else s.powerOn target).cheatClose
  rw [hu] at hchanged
  exact loadOn_fails ht hu hchanged

/-- A single block that is cut or short (R289, R303; log 35). -/
theorem execZ80Block_truncated {len : Word} {data : List Byte}
    (h : ¬(data.length = blockDataLen len ∧ (z80BlockPage (len, 0, data)).length = 16384)) (id : Byte) (s : State) :
    execZ80Block len id data s = .next (s.lateFailure .truncated) := by
  by_cases hlen : data.length = blockDataLen len
  · have hpage : ¬(z80BlockPage (len, id, data)).length = 16384 := fun hp => h ⟨hlen, hp⟩
    have hblock : loadZ80Block len id data s = .error (.truncated, s) := if_neg hpage
    rw [execZ80Block, if_pos hlen, hblock]
  · rw [execZ80Block, if_neg hlen]

theorem stripTerminator_eq (body : List Byte) :
    stripTerminator body =
      if body.drop (body.length - 4) = [0x00, 0xED, 0xED, 0x00] then body.take (body.length - 4) else body := by
  simp only [stripTerminator, endsInTerminator, beq_iff_eq]
  rfl

/-! ### What sets `failed` -/

/-- A next state that has `failed` set was failed before, or the instruction is of the Snapshot Codec and the state one a
late failure leaves: the map follows the latches and the caller has the reason (R362). -/
def Result.FailsTold (i : Instr) (s : State) : Result → Prop
  | .next t => t.failed = true → s.failed = true ∨ (i.agent = .snap ∧ t.Mapped ∧ ∃ r, t.answer = .failure r)
  | .fault _ => True
  | .refused _ => True

theorem Result.FailsTold.of_kept {i : Instr} {s t : State} (h : t.failed = s.failed) : Result.FailsTold i s (.next t) :=
  fun ht => .inl (h.symm.trans ht)

theorem Result.FailsTold.of_cleared {i : Instr} {s t : State} (h : t.failed = false) : Result.FailsTold i s (.next t) :=
  fun ht => nomatch h.symm.trans ht

theorem Result.FailsTold.lateFailure {i : Instr} (hi : i.agent = .snap) (s u : State) (r : LoadFailure) :
    Result.FailsTold i s (.next (u.lateFailure r)) := fun _ => .inr ⟨hi, rfl, r, rfl⟩

/-- A load clears `failed` or fails late (R250, R362). -/
theorem loadOn_failsTold {i : Instr} (hi : i.agent = .snap) (target : Arch) (part : State → Loading) (s : State) :
    Result.FailsTold i s (loadOn target part s) := by
  cases h : loadOn target part s with
  | fault f => trivial
  | refused r => trivial
  | next t =>
    obtain ⟨s1, -, ⟨u, -, rfl⟩ | ⟨r, u, -, rfl⟩⟩ := loadOn_next h
    · exact .of_cleared rfl
    · exact .lateFailure hi s u r

theorem execZ80Block_failsTold {i : Instr} (hi : i.agent = .snap) (len : Word) (id : Byte) (data : List Byte) (s : State) :
    Result.FailsTold i s (execZ80Block len id data s) := by
  simp only [execZ80Block]
  split
  · split
    · next t ht => exact .of_kept (by rw [(loadZ80Block_frame len id data s).1 t ht]; rfl)
    · next r u _ => exact .lateFailure hi s u r
  · exact .lateFailure hi s s .truncated

/-- Every execution, by its form; a CPU transaction stays within its frame, which leaves `failed` alone (R19, R360). -/
theorem exec_failsTold (i : Instr) (s : State) : Result.FailsTold i s (exec i s) := by
  by_cases hcpu : i.agent = .cpu
  · obtain ⟨t, ht, htransacts⟩ := exec_cpu hcpu s
    rw [ht, htransacts.frame]
    exact .of_kept rfl
  have form := exec_form i s
  generalize exec i s = r at form ⊢
  cases form with
  | rdb | wrb | rdw | wrw | tick | pd7 | pd1 | pdu => exact absurd rfl hcpu
  | reads _ _ _ ha | writes _ _ _ _ ha => exact absurd ha hcpu
  | reset => exact .of_cleared rfl
  | cheatLoad =>
    simp only [execCheatLoad]
    split
    · exact .of_kept rfl
    · exact .of_kept (by rw [State.fillPass_frame]; rfl)
  | cheatApply => exact .of_kept (by rw [State.applyCheats_frame]; rfl)
  | cheatFetch => exact .of_kept rfl
  | cheatClose => exact .of_kept rfl
  | z80Block len id data => exact execZ80Block_failsTold rfl len id data s
  | refused slot => trivial
  | answers _ a => exact .of_kept rfl
  | line _ l => exact .of_kept (by rw [State.fillLine_frame]; rfl)
  | sna _ v f ha => exact loadOn_failsTold ha _ _ s
  | z80 _ v f _ ha => exact loadOn_failsTold ha _ _ s
  | sp _ rom f ha => exact loadOn_failsTold ha _ _ s

/-! ### The statement -/

/-- What a load that fails late answers, by its row and by its command (R361, R362). -/
theorem fails_of_loadOn {s : State} {f : List Byte} {row cmd : Instr} {target : Arch} {part : State → Loading}
    {r : LoadFailure} (ht : target = s.arch ∨ s.cfg.allocOk = true) (hloads : ∀ s, Loading.Loads s (part s))
    (hpart : ∀ s, ∃ u, part s = .error (r, u)) (hrow : exec row s = loadOn target part s)
    (hcmd : s.file = some f → exec cmd s = loadOn target part s) :
    ∃ t, exec row s = .next t ∧ (s.file = some f → exec cmd s = .next t) ∧
      t.failed = true ∧ t.answer = .failure r ∧ t.Mapped ∧ (target = s.arch → t.tick = s.tick) := by
  obtain ⟨t, hload, hleft⟩ := loadOn_fails_part ht hloads hpart
  exact ⟨t, hrow.trans hload, fun hfile => (hcmd hfile).trans hload, hleft⟩

/-- Settles O45: each failing check of the two formats, the single block, and what sets `failed` at all. -/
theorem lateLoadFailure : Obligations.LateLoadFailure := by
  refine ⟨fun v f s hlen ht => ?_, fun v f s target h30 hv harch ht => ?_, fun len id data s h => ?_,
    fun i s t h hs hfailed => ?_⟩
  · intro fails
    have sna (r) (h : ∀ s, ∃ u, snaPart v f s = .error (r, u)) : fails r :=
      fails_of_loadOn ht (snaPart_loads v f) h (exec_snaInstr hlen s)
        fun hfile => (exec_loadSna (.inl hfile)).trans (loadSnaFile_sized hlen s)
    exact ⟨fun him => sna _ (snaPart_badField him v), fun him hv h => sna _ (snaPart_badSize hv hlen him h)⟩
  · intro fb body ext pageOf fails
    have z80 (r) (h : ∀ s, ∃ u, z80Part v f s = .error (r, u)) : fails r :=
      fails_of_loadOn ht (z80Part_loads v f) h ((exec_z80Instr h30 hv s).trans (loadZ80At_loads harch)) fun hfile =>
        (exec_loadZ80 (.inl hfile)).trans ((loadZ80File_version h30 hv s).trans (loadZ80At_loads harch))
    rw [← stripTerminator_eq]
    refine ⟨fun him => z80 _ fun s => (z80Part_fails v f s).1 him, fun him => ?_⟩
    have part (s : State) := (z80Part_fails v f s).2 him
    exact ⟨fun h1 hraw hbody => z80 _ fun s => let ⟨raw, _, _, _⟩ := part s; raw h1 hraw hbody,
      fun h1 hpacked hbody => z80 _ fun s => let ⟨_, packed, _, _⟩ := part s; packed h1 hpacked hbody,
      fun hext hshort => z80 _ fun s => let ⟨_, _, header, _⟩ := part s; header hext hshort,
      fun hext hwhole hcut => z80 _ fun s => let ⟨_, _, _, blocks⟩ := part s; blocks hext hwhole hcut⟩
  · exact ⟨_, execZ80Block_truncated h id s, rfl, rfl, rfl, rfl⟩
  · have told := exec_failsTold i s
    rw [h] at told
    exact (told hfailed).resolve_left (by simp [hs])

end Sys2Proof.Machine
end

section
/-! SUPPORT. The run-length coding of Z80 files (R292 to R299): the forms the decompressor reads, the relation between a
byte string and what the compressor makes of it, and the statements about both. -/

namespace Sys2Proof.Machine

/-! ### What the decompressor reads -/

@[simp] theorem decompress_zero (src : List Byte) : decompress src 0 = [] := by cases src <;> simp [decompress]

@[simp] theorem decompress_nil (m : Nat) : decompress [] m = [] := by cases m <;> rfl

theorem decompress_of_not_escape {a b : Byte} (h : ¬(a = escByte ∧ b = escByte)) (tail : List Byte) (m : Nat) :
    decompress (a :: b :: tail) (m + 1) = a :: decompress (b :: tail) m := by
  rw [decompress.eq_def]
  exact if_neg h

/-- A byte that does not start an escape stands for itself (R294). -/
theorem decompress_literal {b : Byte} (h : b ≠ escByte) (tail : List Byte) (m : Nat) :
    decompress (b :: tail) (m + 1) = b :: decompress tail m := by
  cases tail with
  | nil => rw [decompress_nil, decompress]
  | cons c tail => exact decompress_of_not_escape (fun both => h both.1) tail m

/-- A lone escape byte is a literal, and so is the byte after it (R294, R297). -/
theorem decompress_loneEscByte {c : Byte} (h : c ≠ escByte) (tail : List Byte) (m : Nat) :
    decompress (escByte :: c :: tail) (m + 2) = escByte :: c :: decompress tail m := by
  rw [decompress_of_not_escape fun both => h both.2, decompress_literal h]

/-- An escape stands for its count of copies, up to the bound (R293 to R295). -/
theorem decompress_escape (count v : Byte) (tail : List Byte) (m : Nat) :
    decompress (escByte :: escByte :: count :: v :: tail) m =
      List.replicate (min count.toNat m) v ++ decompress tail (m - min count.toNat m) := by
  cases m with
  | zero => simp
  | succ m => rw [decompress, if_pos ⟨rfl, rfl⟩]

/-! ### The bound -/

theorem decompress_length_le (src : List Byte) (m : Nat) : (decompress src m).length ≤ m := by
  fun_induction decompress src m with
  | case1 | case2 | case3 => simp
  | case4 m count v tail ih => rw [List.length_append, List.length_replicate]; omega
  | case5 => simp
  | case6 a b tail m hlone ih => rw [List.length_cons]; omega

/-- A smaller bound cuts what a larger one returns (R295). -/
theorem decompress_eq_take (src : List Byte) {m n : Nat} (h : m ≤ n) : decompress src m = (decompress src n).take m := by
  fun_induction decompress src n generalizing m with
  | case1 => rw [Nat.le_zero.mp h, decompress_zero]; rfl
  | case2 => rw [decompress_nil, List.take_nil]
  | case3 a n => cases m <;> simp [decompress]
  | case4 a b n hesc count v tail ih =>
    obtain ⟨rfl, rfl⟩ := hesc
    have hcopies : min m (min count.toNat (n + 1)) = min count.toNat m := by omega
    have hleft : m - min count.toNat (n + 1) = m - min count.toNat m := by omega
    rw [decompress_escape, ih (by omega), List.take_append, List.take_replicate, List.length_replicate, hcopies, hleft]
  | case5 a b tail n hesc hcut =>
    cases m with
    | zero => rw [decompress_zero, List.take_nil]
    | succ m => rw [decompress, if_pos hesc, List.take_nil]; exact hcut
  | case6 a b tail n hlone ih =>
    cases m with
    | zero => rw [decompress_zero, List.take_zero]
    | succ m => rw [decompress_of_not_escape hlone, ih (by omega), List.take_succ_cons]

/-- Settles O54: the bound holds, and a smaller one cuts the string shorter. -/
theorem rleHardBound : Obligations.RleHardBound :=
  fun src m _ => ⟨decompress_length_le src m, decompress_eq_take src⟩

/-! ### What the compressor writes -/

/-- `Packs src out`: `out` codes `src` by the compressor's forms (R297): literals, a lone escape byte with the byte after it
or at the end, and escapes for runs of 2 to 255. -/
inductive Packs : List Byte → List Byte → Prop where
  | done : Packs [] []
  | lastEscByte : Packs [escByte] [escByte]
  | literal {b : Byte} {src out : List Byte} : b ≠ escByte → Packs src out → Packs (b :: src) (b :: out)
  | loneEscByte {c : Byte} {src out : List Byte} :
      c ≠ escByte → Packs src out → Packs (escByte :: c :: src) (escByte :: c :: out)
  | escape {n : Nat} (b : Byte) {src out : List Byte} : 2 ≤ n → n ≤ 255 → Packs src out →
      Packs (List.replicate n b ++ src) (escByte :: escByte :: BitVec.ofNat 8 n :: b :: out)

theorem Packs.literals {b : Byte} (hb : b ≠ escByte) (n : Nat) {src out : List Byte} (h : Packs src out) :
    Packs (List.replicate n b ++ src) (List.replicate n b ++ out) := by
  induction n with
  | zero => exact h
  | succ n ih => exact .literal hb ih

/-- Reading the forms back gives the source (R299). -/
theorem Packs.decompress_eq {src out : List Byte} (h : Packs src out) {m : Nat} (hm : src.length ≤ m) :
    decompress out m = src := by
  induction h generalizing m with
  | done => exact decompress_nil m
  | lastEscByte =>
    obtain ⟨m, rfl⟩ := Nat.exists_eq_add_of_le' hm
    rfl
  | literal hb _ ih =>
    obtain ⟨m, rfl⟩ := Nat.exists_eq_add_of_le' (Nat.le_of_add_left_le hm)
    rw [decompress_literal hb, ih (by simpa using hm)]
  | loneEscByte hc _ ih =>
    obtain ⟨m, rfl⟩ := Nat.exists_eq_add_of_le' (show 2 ≤ m by simp at hm; omega)
    rw [decompress_loneEscByte hc, ih (by simpa using hm)]
  | @escape n b src out _ hn _ ih =>
    rw [List.length_append, List.length_replicate] at hm
    have hcount : min (BitVec.ofNat 8 n).toNat m = n := by rw [BitVec.toNat_ofNat]; omega
    rw [decompress_escape, hcount, ih (by omega)]

/-- No form is longer than twice what it stands for. -/
theorem Packs.length_le {src out : List Byte} (h : Packs src out) : out.length ≤ 2 * src.length := by
  induction h with
  | done | lastEscByte => decide
  | literal | loneEscByte => simp only [List.length_cons]; omega
  | escape => simp only [List.length_append, List.length_replicate, List.length_cons]; omega

theorem runLength_cons_self (b : Byte) (src : List Byte) : runLength b (b :: src) = runLength b src + 1 := if_pos rfl

theorem runLength_loneByte {b c : Byte} (h : c ≠ b) (src : List Byte) : runLength b (b :: c :: src) = 1 := by
  rw [runLength_cons_self, runLength, if_neg h]

theorem runLength_replicate (b : Byte) (n : Nat) : runLength b (List.replicate n b) = n := by
  induction n with
  | zero => rfl
  | succ n ih => rw [List.replicate_succ, runLength_cons_self, ih]

/-- A string is the bytes taken off its leading run, then the rest. -/
theorem replicate_append_drop {b : Byte} {src : List Byte} {n : Nat} (h : n ≤ runLength b src) :
    List.replicate n b ++ src.drop n = src := by
  induction src generalizing n with
  | nil => rw [Nat.le_zero.mp h]; rfl
  | cons c src ih =>
    cases n with
    | zero => rfl
    | succ n =>
      rw [runLength] at h
      split at h
      · next hc => rw [List.replicate_succ, List.cons_append, List.drop_succ_cons, ih (by omega), hc]
      · omega

theorem compressFuel_nil (fuel : Nat) : compressFuel fuel [] = [] := by cases fuel <;> rfl

theorem compressFuel_loneEscByte {c : Byte} (h : c ≠ escByte) (fuel : Nat) (src : List Byte) :
    compressFuel (fuel + 1) (escByte :: c :: src) = escByte :: c :: compressFuel fuel src := by
  have hrun : ¬2 ≤ min (runLength escByte (escByte :: c :: src)) 255 := by rw [runLength_loneByte h]; decide
  rw [compressFuel.eq_def]
  exact (if_pos rfl).trans (if_neg hrun)

/-- A turn takes at least one byte off, so the fuel left is enough for the rest. -/
theorem length_drop_run {b : Byte} {src : List Byte} {fuel : Nat} (h : (b :: src).length ≤ fuel + 1) :
    ((b :: src).drop (min (runLength b (b :: src)) 255)).length ≤ fuel := by
  rw [runLength_cons_self, List.length_drop]
  omega

/-- With fuel for every byte each turn of the compressor writes one of the forms (R297, R298). -/
theorem packs_compressFuel {fuel : Nat} {src : List Byte} (h : src.length ≤ fuel) : Packs src (compressFuel fuel src) := by
  fun_induction compressFuel fuel src with
  | case1 src => rw [List.length_eq_zero_iff.mp (Nat.le_zero.mp h)]; exact .done
  | case2 => exact .done
  | case3 fuel src run hrun ih =>
    have packed := Packs.escape escByte hrun (Nat.min_le_right _ _) (ih (length_drop_run h))
    rwa [replicate_append_drop (Nat.min_le_left _ _)] at packed
  | case4 => exact .lastEscByte
  | case5 fuel c src run hrun ih =>
    have hc : c ≠ escByte := fun hc => hrun (by simp only [run, hc, runLength_cons_self]; omega)
    rw [List.length_cons, List.length_cons] at h
    exact .loneEscByte hc (ih (by omega))
  | case6 fuel b src run hb hrun ih =>
    have packed := Packs.escape b (show 2 ≤ run by omega) (Nat.min_le_right _ _) (ih (length_drop_run h))
    rwa [replicate_append_drop (Nat.min_le_left _ _)] at packed
  | case7 fuel b src run hb hrun ih =>
    have packed := Packs.literals hb run (ih (length_drop_run h))
    rwa [replicate_append_drop (Nat.min_le_left _ _)] at packed

theorem packs_compress (src : List Byte) : Packs src (compress src) := packs_compressFuel le_rfl

/-- A whole string of one byte other than the escape byte is an escape from five copies on (R297). -/
theorem compress_replicate {b : Byte} (hb : b ≠ escByte) {n : Nat} (hn : n ≤ 255) :
    compress (List.replicate n b) =
      if 5 ≤ n then [escByte, escByte, BitVec.ofNat 8 n, b] else List.replicate n b := by
  cases n with
  | zero => rfl
  | succ n =>
    have hrun : min (runLength b (b :: List.replicate n b)) 255 = n + 1 := by
      rw [← List.replicate_succ, runLength_replicate, Nat.min_eq_left hn]
    have hrest : (b :: List.replicate n b).drop (n + 1) = [] := by simp
    rw [compress, List.length_replicate, List.replicate_succ, compressFuel.eq_def]
    simp only [hrun, hrest, if_neg hb, compressFuel_nil, List.append_nil, List.replicate_succ]

/-- Settles O53: the compressor writes the forms the decompressor reads; its choice of form on one run, and on a lone escape
byte. -/
theorem rleRoundTrip : Obligations.RleRoundTrip := by
  refine ⟨fun src m hm => (packs_compress src).decompress_eq hm, fun b hb => ?_, fun b n hb hn => ?_, fun b hb => ?_⟩
  · exact (compress_replicate hb (by decide)).trans (if_pos le_rfl)
  · exact (compress_replicate hb (by omega)).trans (if_neg (by omega))
  · exact compressFuel_loneEscByte hb 1 []

/-! ### The escape forms as rows -/

theorem decompress_oneEscape (count v : Byte) :
    decompress [escByte, escByte, count, v] 255 = List.replicate count.toNat v := by
  rw [decompress_escape, decompress_nil, List.append_nil, Nat.min_eq_left (Nat.le_of_lt_succ count.isLt)]

/-- Settles O52: each row answers what its four bytes decompress to. -/
theorem rleEscapeForms : Obligations.RleEscapeForms := by
  intro count value s
  have answers (c : Byte) :
      execRleEscape c value s = .next { s with answer := .bytes (List.replicate c.toNat value) } := by
    rw [execRleEscape, decompress_oneEscape]
    rfl
  exact ⟨answers count, answers 0⟩

end Sys2Proof.Machine
end

section
/-! SUPPORT. A single Z80 memory block and a v1 terminator taken by themselves (R284, R289, R290; log 35). -/

namespace Sys2Proof.Machine

theorem execZ80Block_loaded {len : Word} {data : List Byte} (hlen : data.length = blockDataLen len)
    (hpage : (z80BlockPage (len, 0, data)).length = 16384) (id : Byte) (s : State) :
    execZ80Block len id data s = .next ((loadZ80Page id (z80BlockPage (len, 0, data)) s).give .loaded) := by
  have hblock : loadZ80Block len id data s = .ok (loadZ80Page id (z80BlockPage (len, 0, data)) s) := if_pos hpage
  rw [execZ80Block, if_pos hlen, hblock]

theorem loadZ80Page_frame (id : Byte) (page : List Byte) (s : State) :
    loadZ80Page id page s = { s with mem := (loadZ80Page id page s).mem } := by
  unfold loadZ80Page
  split <;> rfl

/-- A page loaded under an id reads as its bytes in the bank the id names, and every other page as before (R290). -/
theorem readPage_loadZ80Page (id : Byte) {page : List Byte} (hpage : page.length = 16384) (s : State) (p : Page) {o : Nat}
    (ho : o < 0x4000) :
    (loadZ80Page id page s).readPage p o =
      if (z80PageMap s.cfg s.arch id).map Page.ram = some p then fileByte page o else s.readPage p o := by
  unfold loadZ80Page
  cases z80PageMap s.cfg s.arch id with
  | none => rfl
  | some b =>
    simp only [Option.map_some, Option.some.injEq]
    by_cases hp : Page.ram b = p
    · rw [if_pos hp, ← hp, s.readPage_loadPage_self (by omega) ho, fileByte, List.getD_eq_getElem _ 0 (by omega)]
    · rw [if_neg hp, s.readPage_loadPage_ne page ho (Ne.symm hp)]

/-- What ends in the terminator is stripped of it (R284). -/
theorem stripTerminator_append (body : List Byte) : stripTerminator (body ++ z80Terminator) = body := by
  have hlen : (body ++ z80Terminator).length - 4 = body.length := Nat.sub_eq_of_eq_add List.length_append
  rw [stripTerminator_eq, hlen, List.drop_left, List.take_left]
  exact if_pos rfl

/-- Settles O50: a whole block is loaded as a page under its id, and a terminator is stripped from the body it ends. -/
theorem z80BlockAndTerminator : Obligations.Z80BlockAndTerminator := by
  refine ⟨fun len id data s => ?_, fun body s => ?_⟩
  · intro page hlen hpage
    refine ⟨_, execZ80Block_loaded hlen hpage id s, ?_, fun p o ho => ?_⟩
    · rw [loadZ80Page_frame]; rfl
    · exact readPage_loadZ80Page id hpage s p ho
  · exact congrArg (fun f => Host.Outcome.next (s.give (.bytes f))) (stripTerminator_append body)

end Sys2Proof.Machine
end

section
/-! SUPPORT. The Z80 file a save returns, byte by byte (R300 to R302): the two headers and the blocks of the banks. -/

namespace Sys2Proof.Machine

/-! ### The headers -/

theorem z80FixedHeader_length (s : State) : (z80FixedHeader s).length = 30 := rfl

theorem z80ExtHeader_length (s : State) : (z80ExtHeader s).length = 2 + saveZ80ExtLen s.arch := by
  simp only [z80ExtHeader, saveZ80ExtLen, le16Bytes, List.length_append, List.length_cons, List.length_nil,
    List.length_replicate, apply_ite List.length]
  split <;> rfl

/-- The fixed header at the front of a file, byte after byte (R282, R301). -/
theorem z80FixedHeader_append (s : State) (rest : List Byte) :
    z80FixedHeader s ++ rest =
      let r := s.regs
      r.a :: r.f :: loByte r.bc :: hiByte r.bc :: loByte r.hl :: hiByte r.hl :: 0 :: 0 :: loByte r.sp :: hiByte r.sp ::
        r.i :: r.r :: (bitByte (bit r.r 7) ||| ((s.port254 &&& 0x07) <<< 1)) :: loByte r.de :: hiByte r.de ::
        loByte r.bc2 :: hiByte r.bc2 :: loByte r.de2 :: hiByte r.de2 :: loByte r.hl2 :: hiByte r.hl2 :: r.a2 :: r.f2 ::
        loByte r.iy :: hiByte r.iy :: loByte r.ix :: hiByte r.ix :: bitByte r.iff1 :: bitByte r.iff2 :: imByte r.im ::
        rest := rfl

/-- The fields of the fixed header at the front of a file; its `PC` field is zero (R282, R301). -/
theorem z80FixedHeader_fields (s : State) (rest : List Byte) :
    let f := z80FixedHeader s ++ rest
    let r := s.regs
    fileByte f 0 = r.a ∧ fileByte f 1 = r.f ∧ le16 f 2 = r.bc ∧ le16 f 4 = r.hl ∧ le16 f 6 = 0 ∧ le16 f 8 = r.sp ∧
    fileByte f 10 = r.i ∧ fileByte f 11 = r.r ∧
    fileByte f 12 = bitByte (bit r.r 7) ||| ((s.port254 &&& 0x07) <<< 1) ∧ le16 f 13 = r.de ∧
    le16 f 15 = r.bc2 ∧ le16 f 17 = r.de2 ∧ le16 f 19 = r.hl2 ∧ fileByte f 21 = r.a2 ∧ fileByte f 22 = r.f2 ∧
    le16 f 23 = r.iy ∧ le16 f 25 = r.ix ∧ fileByte f 27 = bitByte r.iff1 ∧ fileByte f 28 = bitByte r.iff2 ∧
    fileByte f 29 = imByte r.im := by
  have hzero : wordOf 0 0 = 0 := rfl
  rw [z80FixedHeader_append]
  simp only [le16, fileByte, List.getD_cons_zero, List.getD_cons_succ, wordOf_bytes, hzero, and_self]

/-- The extended header at the front of what follows: its first six bytes, its zeros, and what the +2A adds (R285, R301). -/
theorem z80ExtHeader_append (s : State) (rest : List Byte) :
    z80ExtHeader s ++ rest =
      [loByte (BitVec.ofNat 16 (saveZ80ExtLen s.arch)), hiByte (BitVec.ofNat 16 (saveZ80ExtLen s.arch)),
        loByte s.regs.pc, hiByte s.regs.pc, pick s.cfg.z80SaveCode s.arch,
        if s.arch.is48 = true then 0 else pd7Byte s.latches] ++
      (List.replicate 50 0 ++ ((if s.arch = .plus2A then [pd1Byte s.latches] else []) ++ rest)) := by
  simp only [z80ExtHeader, le16Bytes, List.append_assoc]
  rfl

theorem toNat_ofNat_saveZ80ExtLen (arch : Arch) : (BitVec.ofNat 16 (saveZ80ExtLen arch)).toNat = saveZ80ExtLen arch := by
  unfold saveZ80ExtLen
  split <;> rfl

/-- The fields of the extended header, counted from its start (R285, R286, R301). -/
theorem z80ExtHeader_fields (s : State) (rest : List Byte) :
    let e := z80ExtHeader s ++ rest
    (le16 e 0).toNat = saveZ80ExtLen s.arch ∧ le16 e 2 = s.regs.pc ∧
    fileByte e 4 = pick s.cfg.z80SaveCode s.arch ∧ fileByte e 5 = (if s.arch.is48 = true then 0 else pd7Byte s.latches) ∧
    (∀ k, k < 50 → fileByte e (6 + k) = 0) ∧ (s.arch = .plus2A → fileByte e 56 = pd1Byte s.latches) := by
  rw [z80ExtHeader_append]
  refine ⟨(congrArg BitVec.toNat (wordOf_bytes _)).trans (toNat_ofNat_saveZ80ExtLen s.arch), wordOf_bytes _, rfl, rfl,
    fun k hk => ?_, fun h2A3 => ?_⟩
  · rw [fileByte_append_right (show _ = 6 from rfl), fileByte_append_left (by rwa [List.length_replicate]), fileByte, List.getD_replicate _ hk]
  · rw [if_pos h2A3]
    rfl

/-! ### The blocks -/

/-- A saved block is its length, low byte first, its page id and the compressed bank (R302). -/
theorem z80SaveBlock_eq (s : State) (e : Byte × BitVec 3) :
    let packed := compress (s.pageBytes (.ram e.2))
    z80SaveBlock s e =
      loByte (BitVec.ofNat 16 packed.length) :: hiByte (BitVec.ofNat 16 packed.length) :: e.1 :: packed := by
  simp only [z80SaveBlock, le16Bytes, List.cons_append, List.nil_append]

/-- A compressed bank is never as long as the length that marks raw bytes (R289, R302). -/
theorem compress_pageBytes_length_lt (s : State) (p : Page) : (compress (s.pageBytes p)).length < 0xFFFF := by
  have h := (packs_compress (s.pageBytes p)).length_le
  rw [s.pageBytes_length] at h
  omega

theorem decompress_compress_pageBytes (s : State) (p : Page) :
    decompress (compress (s.pageBytes p)) 16384 = s.pageBytes p :=
  (packs_compress _).decompress_eq (s.pageBytes_length p).le

/-! ### The file -/

theorem saveZ80File_eq (s : State) :
    saveZ80File s = z80FixedHeader s ++ (z80ExtHeader s ++ (z80SaveBanks s.arch).flatMap (z80SaveBlock s)) :=
  List.append_assoc ..

theorem saveZ80File_drop (s : State) :
    (saveZ80File s).drop (32 + saveZ80ExtLen s.arch) = (z80SaveBanks s.arch).flatMap (z80SaveBlock s) := by
  refine List.drop_left' ?_
  rw [List.length_append, z80FixedHeader_length, z80ExtHeader_length]
  omega

/-- The fields of the extended header in the file (R285, R286, R301). -/
theorem saveZ80File_extFields (s : State) :
    let f := saveZ80File s
    (le16 f 30).toNat = saveZ80ExtLen s.arch ∧ le16 f 32 = s.regs.pc ∧
    fileByte f 34 = pick s.cfg.z80SaveCode s.arch ∧ fileByte f 35 = (if s.arch.is48 = true then 0 else pd7Byte s.latches) ∧
    (∀ k, 36 ≤ k → k < 86 → fileByte f k = 0) ∧ (s.arch = .plus2A → fileByte f 86 = pd1Byte s.latches) := by
  have skip := fileByte_append_right (z80FixedHeader_length s)
  have skipWord (rest : List Byte) (i : Nat) : le16 (z80FixedHeader s ++ rest) (30 + i) = le16 rest i :=
    congrArg₂ wordOf (skip rest (i + 1)) (skip rest i)
  obtain ⟨hlen, hpc, hcode, hpaging, hzeros, hspecial⟩ :=
    z80ExtHeader_fields s ((z80SaveBanks s.arch).flatMap (z80SaveBlock s))
  rw [saveZ80File_eq]
  refine ⟨(congrArg BitVec.toNat (skipWord _ 0)).trans hlen, (skipWord _ 2).trans hpc, (skip _ 4).trans hcode,
    (skip _ 5).trans hpaging, fun k h36 h86 => ?_, fun h2A3 => (skip _ 56).trans (hspecial h2A3)⟩
  rw [show k = 30 + (6 + (k - 36)) by omega, skip]
  exact hzeros _ (by omega)

/-- Settles O51: the fixed header, the extended header, and the blocks after them. (`saveZ80File` itself is the model's
function.) -/
theorem saveZ80File_contents : Obligations.SaveZ80File := by
  intro s
  refine ⟨saveZ80File s, rfl, ?_⟩
  intro r l ext
  have hext : ext = saveZ80ExtLen s.arch := rfl
  have hfixed := z80FixedHeader_fields s (z80ExtHeader s ++ (z80SaveBanks s.arch).flatMap (z80SaveBlock s))
  rw [← saveZ80File_eq] at hfixed
  obtain ⟨ha, hf, hbc, hhl, hzero, hsp, hi, hr, hflags, hde, hbc2, hde2, hhl2, ha2, hf2, hiy, hix, hiff1, hiff2, him⟩ :=
    hfixed
  obtain ⟨hlen, hpc, hcode, hpaging, hzeros, hspecial⟩ := saveZ80File_extFields s
  refine ⟨ha, hf, hbc, hhl, hzero, hsp, hi, hr, hflags, hde, hbc2, hde2, hhl2, ha2, hf2, hiy, hix, hiff1, hiff2, him, hlen,
    hpc, hcode, ?_, ?_, hzeros, hspecial, ?_, fun b => ⟨?_, ?_⟩⟩
  · rw [hcode]; exact z80SaveCode_fits s.cfg s.arch
  · rw [← pd7Byte_eq]; exact hpaging
  · rw [hext, saveZ80File_drop s, funext (z80SaveBlock_eq s)]
    rfl
  · exact compress_pageBytes_length_lt s _
  · exact decompress_compress_pageBytes s _

end Sys2Proof.Machine
end

section
/-! SUPPORT. The machine reset and the power-on reset (R390 to R393): the values each leaves. -/

namespace Sys2Proof.Machine

theorem resetPort_get (n : Nat) {i : Fin 128} (hi : i.val < 8) : (resetPort n).get i = 0xFF := by
  rw [resetPort, Vector.get_ofFn, if_pos hi]

/-- With nothing written since power-on a ROM page reads as its image (R30, R392). -/
theorem State.readPage_rom_powerOn (s : State) (target : Arch) (r : Fin 5) (o : Nat) :
    (s.powerOn target).readPage (.rom r) o = Config.romImage target r.val o := rfl

/-- Settles O1: the values written out for power-on, and those of the power-on reset inside a switch, which are the machine
reset's. -/
theorem powerOnState : Obligations.PowerOnState := by
  refine ⟨?_, fun s target => ?_⟩
  · intro s
    refine ⟨rfl, rfl, rfl, rfl, rfl, rfl, rfl, rfl, rfl, rfl, rfl, rfl, rfl, fun i hi => ?_, rfl, rfl, rfl, rfl, rfl, rfl,
      rfl, rfl, fun r o => rfl⟩
    show (Vector.ofFn _).get i = _
    rw [Vector.get_ofFn, if_pos hi]
  · exact ⟨rfl, rfl, rfl, rfl, rfl, rfl, rfl, rfl, rfl, fun i hi => resetPort_get _ hi, rfl, rfl, rfl, rfl,
      ramCurrentOf_reset target, rfl, rfl, rfl, s.readPage_rom_powerOn target⟩

/-- Settles O39: the machine reset names registers, latches, map, ports and counter; memory, the architecture, the
configuration and the cheat arrays are not among what it writes (R391). -/
theorem resetCommand : Obligations.ResetCommand := fun s =>
  ⟨s.machineReset.give .none, rfl, rfl, rfl, rfl, rfl, rfl, rfl, rfl, fun _ hi => resetPort_get _ hi, rfl, rfl,
    ramCurrentOf_reset s.arch, rfl, rfl, rfl, rfl, rfl, rfl, rfl, fun _ _ => rfl⟩

end Sys2Proof.Machine
end

section
/-! SUPPORT. One `.pok` line after the other (R338, R340): what a line, a flush and the end of a file do to the cheat arrays,
and what the whole of a file leaves within the counts of `CountPass` (R339). -/

namespace Sys2Proof.Machine

/-! ### One line -/

/-- `cheats[]` once the open cheat is flushed: it is stored if it owns a poke (R340). -/
def State.flushedCheats (s : State) : List Cheat :=
  match s.fill.cur with
  | some c => if 1 ≤ c.pokeCount then s.cheats ++ [c] else s.cheats
  | none => s.cheats

theorem State.flush_eq (s : State) : s.flush = { s with cheats := s.flushedCheats, fill := ⟨none, s.fill.off⟩ } := by
  cases h : s.fill.cur with
  | none =>
    have hfill : (⟨none, s.fill.off⟩ : Fill) = s.fill := by rw [← h]
    simp only [State.flush, State.flushedCheats, h, hfill]
  | some c => simp only [State.flush, State.flushedCheats, h]

theorem State.fillEnd_eq (s : State) : s.fillEnd = { s with cheats := s.flushedCheats, fill := ⟨none, 0⟩ } := by
  rw [State.fillEnd, s.flush_eq]

theorem State.pokName_eq (s : State) :
    s.pokName =
      { s with
        cheats := s.flushedCheats
        fill := ⟨some ⟨s.fill.off + 1, s.pokes.length, 0, false, 0⟩, s.fill.off⟩ } := by
  rw [State.pokName, s.flush_eq]

theorem pokeOf_eq (b a v o : Int) :
    pokeOf b a v o =
      { bank := BitVec.ofInt 4 b, address := BitVec.ofInt 16 a, original := BitVec.ofInt 8 o
        value := if v = 256 then BitVec.ofInt 8 o else BitVec.ofInt 8 v
        isInput := decide (v = 256), origMem := false, origFile := decide (o ≠ 0) } := by
  simp only [pokeOf, bne_eq, decide_not]
  rfl

/-- A malformed poke line, or one outside a cheat, is skipped (R338, R340). -/
theorem State.pokPoke_skipped {s : State} {rest : List Byte} (h : pokeFields rest = none ∨ s.fill.cur = none) :
    s.pokPoke rest = s := by
  unfold State.pokPoke
  split
  · next hfields hcur => simp [hfields, hcur] at h
  · rfl

/-- Four integers inside a cheat append a poke and count it (R340). -/
theorem State.pokPoke_appended {s : State} {rest : List Byte} {b a v o : Int} {c : Cheat}
    (hfields : pokeFields rest = some (b, a, v, o)) (hcur : s.fill.cur = some c) :
    s.pokPoke rest =
      { s with
        pokes := s.pokes ++ [pokeOf b a v o]
        fill := ⟨some { c with
          pokeCount := c.pokeCount + 1
          inputCount := c.inputCount + (if v = 256 then 1 else 0) }, s.fill.off⟩ } := by
  have hcount : (if (pokeOf b a v o).isInput = true then c.inputCount + 1 else c.inputCount) =
      c.inputCount + if v = 256 then 1 else 0 := by
    by_cases hv : v = 256 <;> simp [pokeOf, hv]
  simp only [State.pokPoke, hfields, hcur, hcount]

/-- The offset moves past a line and its end (R340). -/
def State.pastLine (s : State) (n : Nat) : State := { s with fill := ⟨s.fill.cur, s.fill.off + n + 1⟩ }

theorem State.fillLine_nil (s : State) : s.fillLine [] = s.pastLine 0 := rfl

theorem State.fillLine_name (s : State) (rest : List Byte) :
    s.fillLine (0x4E :: rest) = s.pokName.pastLine (rest.length + 1) := rfl

theorem State.fillLine_poke (s : State) {tag : Byte} (h : tag = 0x4D ∨ tag = 0x5A) (rest : List Byte) :
    s.fillLine (tag :: rest) = (s.pokPoke rest).pastLine (rest.length + 1) := by
  rcases h with rfl | rfl <;> rfl

theorem State.fillLine_untagged (s : State) {tag : Byte} (hN : tag ≠ 0x4E) (hM : tag ≠ 0x4D) (hZ : tag ≠ 0x5A)
    (rest : List Byte) : s.fillLine (tag :: rest) = s.pastLine (rest.length + 1) := by
  simp only [State.fillLine, if_neg hN, if_neg (not_or.mpr ⟨hM, hZ⟩)]
  rfl

theorem fetch_agenda_pokEnd {s : State} {rest : List AgendaItem} (ha : s.cfg.allocOk = true) (hc : s.cpu = none)
    (hg : s.agenda = .pokEnd :: rest) : fetch s = .done ({ s with agenda := rest }).fillEnd := by
  unfold fetch; rw [if_neg (by simp [ha]), hc, hg]

/-- Settles O58: the end of a file is a flush, and each tagged line is its row. -/
theorem pokLineEffects : Obligations.PokLineEffects := by
  refine ⟨fun s rest ha hc hg => ?_, fun rest s => ⟨?_, fun i hi => ?_⟩⟩
  · rw [step_done (fetch_agenda_pokEnd ha hc hg), State.fillEnd_eq]
    rfl
  · show Host.Outcome.next ((s.fillLine (0x4E :: rest)).give .none) = _
    rw [s.fillLine_name rest, s.pokName_eq]
    rfl
  · have hexec : exec i s = .next (((s.pokPoke rest).pastLine (rest.length + 1)).give .none) := by
      rcases hi with rfl | rfl
      · exact congrArg (fun t => Host.Outcome.next (t.give .none)) (s.fillLine_poke (.inl rfl) rest)
      · exact congrArg (fun t => Host.Outcome.next (t.give .none)) (s.fillLine_poke (.inr rfl) rest)
    refine ⟨fun h => ?_, fun b a v o c hfields hcur => ?_⟩
    · rw [hexec, State.pokPoke_skipped h]
      rfl
    · rw [hexec, State.pokPoke_appended hfields hcur, pokeOf_eq]
      rfl

theorem exec_cheatLoad_absent {s : State} (h : s.file = none) : exec .cheatLoad s = .next (s.cheatClose.give .none) := by
  show execCheatLoad s = _
  simp only [execCheatLoad, h]

theorem exec_cheatLoad_present {s : State} {text : List Byte} (h : s.file = some text) :
    exec .cheatLoad s = .next ((s.cheatClose.fillPass text).give .none) := by
  show execCheatLoad s = _
  simp only [execCheatLoad, h]

/-- Settles O56: closing empties the arrays, loading no file is closing, and `FillPass` fills the arrays and nothing else. -/
theorem cheatLoadAndClose : Obligations.CheatLoadAndClose := by
  intro s
  refine ⟨rfl, exec_cheatLoad_absent, ?_⟩
  cases hfile : s.file with
  | none => exact ⟨_, exec_cheatLoad_absent hfile, by rw [← hfile]; rfl⟩
  | some text => exact ⟨_, exec_cheatLoad_present hfile, by rw [State.fillPass_frame, ← hfile]; rfl⟩

/-! ### The lines of a file -/

/-- A cheat as a fill leaves it: disabled, its slice inside the first `n` pokes (R335, R340). -/
structure Cheat.Filled (c : Cheat) (n : Nat) : Prop where
  disabled : c.enabled = false
  slice : c.pokeStartIdx + c.pokeCount ≤ n

theorem Cheat.Filled.mono {c : Cheat} {n m : Nat} (h : c.Filled n) (hn : n ≤ m) : c.Filled m :=
  ⟨h.disabled, h.slice.trans hn⟩

/-- What a fill keeps between its lines, `names` and `pokes` counting the `N` lines and the `M` and `Z` lines so far: the
arrays stay within the counts, the open cheat among the cheats (R335 to R340). -/
structure State.Filling (s : State) (names pokes : Nat) : Prop where
  cheatCount : s.cheats.length + s.fill.cur.toList.length ≤ names
  pokeCount : s.pokes.length ≤ pokes
  stored : ∀ c ∈ s.cheats, 1 ≤ c.pokeCount ∧ c.Filled s.pokes.length
  opened : ∀ c, s.fill.cur = some c → c.Filled s.pokes.length
  uncaptured : ∀ p ∈ s.pokes, p.origMem = false

theorem State.cheatClose_filling (s : State) : s.cheatClose.Filling 0 0 :=
  ⟨Nat.le_refl 0, Nat.le_refl 0, nofun, nofun, nofun⟩

theorem State.Filling.pastLine {s : State} {names pokes : Nat} (h : s.Filling names pokes) (n : Nat) :
    (s.pastLine n).Filling names pokes := ⟨h.cheatCount, h.pokeCount, h.stored, h.opened, h.uncaptured⟩

/-- A flush stores a cheat that was counted when it was opened (R340). -/
theorem State.Filling.flushed {s : State} {names pokes : Nat} (h : s.Filling names pokes) :
    s.flushedCheats.length ≤ names ∧ ∀ c ∈ s.flushedCheats, 1 ≤ c.pokeCount ∧ c.Filled s.pokes.length := by
  have hcount := h.cheatCount
  cases hcur : s.fill.cur with
  | none =>
    simp only [State.flushedCheats, hcur]
    exact ⟨by omega, h.stored⟩
  | some c =>
    rw [hcur, Option.toList_some, List.length_singleton] at hcount
    simp only [State.flushedCheats, hcur]
    split
    · next hpoke =>
      refine ⟨by rwa [List.length_append, List.length_singleton], fun d hd => ?_⟩
      rcases List.mem_append.mp hd with hd | hd
      · exact h.stored d hd
      · rw [List.mem_singleton.mp hd]
        exact ⟨hpoke, h.opened c hcur⟩
    · exact ⟨by omega, h.stored⟩

theorem State.Filling.pokName {s : State} {names pokes : Nat} (h : s.Filling names pokes) :
    s.pokName.Filling (names + 1) pokes := by
  obtain ⟨hcount, hstored⟩ := h.flushed
  rw [s.pokName_eq]
  refine ⟨Nat.succ_le_succ hcount, h.pokeCount, hstored, fun c hc => ?_, h.uncaptured⟩
  obtain rfl := Option.some.inj hc
  exact ⟨rfl, Nat.le_refl _⟩

theorem State.Filling.pokPoke {s : State} {names pokes : Nat} (h : s.Filling names pokes) (rest : List Byte) :
    (s.pokPoke rest).Filling names (pokes + 1) := by
  have skipped (hskip : pokeFields rest = none ∨ s.fill.cur = none) : (s.pokPoke rest).Filling names (pokes + 1) := by
    rw [State.pokPoke_skipped hskip]
    exact ⟨h.cheatCount, h.pokeCount.trans (Nat.le_succ _), h.stored, h.opened, h.uncaptured⟩
  cases hfields : pokeFields rest with
  | none => exact skipped (.inl hfields)
  | some fields =>
    cases hcur : s.fill.cur with
    | none => exact skipped (.inr hcur)
    | some c =>
      have hcount := h.cheatCount
      rw [hcur] at hcount
      have hlen (p : Poke) : (s.pokes ++ [p]).length = s.pokes.length + 1 := by simp
      rw [State.pokPoke_appended hfields hcur]
      refine ⟨hcount, ?_, fun d hd => ?_, fun d hd => ?_, fun p hp => ?_⟩
      · rw [hlen]; exact Nat.succ_le_succ h.pokeCount
      · obtain ⟨hpoke, hfilled⟩ := h.stored d hd
        exact ⟨hpoke, hfilled.mono (by rw [hlen]; exact Nat.le_succ _)⟩
      · obtain rfl := Option.some.inj hd
        exact ⟨(h.opened c hcur).disabled, by rw [hlen]; exact Nat.succ_le_succ (h.opened c hcur).slice⟩
      · rcases List.mem_append.mp hp with hp | hp
        · exact h.uncaptured p hp
        · rw [List.mem_singleton.mp hp]; rfl

theorem countPass_cons (line : List Byte) (lines : List (List Byte)) :
    countPass (line :: lines) =
      ((countPass [line]).1 + (countPass lines).1, (countPass [line]).2 + (countPass lines).2) := by
  rw [← List.singleton_append, countPass, List.filter_append, List.filter_append, List.length_append, List.length_append]
  rfl

/-- Each line keeps the arrays within the counts of the lines so far (R339, R340). -/
theorem State.Filling.fillLine {s : State} {names pokes : Nat} (h : s.Filling names pokes) (line : List Byte) :
    (s.fillLine line).Filling (names + (countPass [line]).1) (pokes + (countPass [line]).2) := by
  cases line with
  | nil =>
    rw [s.fillLine_nil]
    exact h.pastLine 0
  | cons tag rest =>
    by_cases hN : tag = 0x4E
    · subst hN
      rw [s.fillLine_name]
      exact h.pokName.pastLine _
    by_cases hP : tag = 0x4D ∨ tag = 0x5A
    · rw [s.fillLine_poke hP]
      rcases hP with rfl | rfl <;> exact (h.pokPoke rest).pastLine _
    · obtain ⟨hM, hZ⟩ := not_or.mp hP
      have huntagged : countPass [tag :: rest] = (0, 0) := by simpa [countPass] using ⟨hN, hM, hZ⟩
      rw [s.fillLine_untagged hN hM hZ, huntagged]
      exact h.pastLine _

theorem State.Filling.fillLines {s : State} {names pokes : Nat} (h : s.Filling names pokes) (lines : List (List Byte)) :
    (lines.foldl State.fillLine s).Filling (names + (countPass lines).1) (pokes + (countPass lines).2) := by
  induction lines generalizing s names pokes with
  | nil => exact h
  | cons line lines ih =>
    rw [countPass_cons, ← Nat.add_assoc, ← Nat.add_assoc]
    exact ih (h.fillLine line)

/-! ### The statement -/

/-- A line reads nothing of the answer of the line before. -/
theorem State.fillLine_give (s : State) (a : Answer) (line : List Byte) :
    (s.give a).fillLine line = (s.fillLine line).give a := by
  cases line with
  | nil => rfl
  | cons tag rest =>
    by_cases hN : tag = 0x4E
    · subst hN
      rw [State.fillLine_name, State.fillLine_name, State.pokName_eq, State.pokName_eq]
      rfl
    by_cases hP : tag = 0x4D ∨ tag = 0x5A
    · have hpoke : (s.give a).pokPoke rest = (s.pokPoke rest).give a := by
        simp only [State.pokPoke, State.give]
        split <;> rfl
      rw [State.fillLine_poke _ hP, State.fillLine_poke _ hP, hpoke]
      rfl
    · obtain ⟨hM, hZ⟩ := not_or.mp hP
      rw [State.fillLine_untagged _ hN hM hZ, State.fillLine_untagged _ hN hM hZ]
      rfl

/-- One line of a file as the row of its tag does it, its answer with it; an untagged line is skipped. -/
def State.fillRow (s : State) (line : List Byte) : State := (s.fillLine line).give .none

theorem State.fillRows_eq (lines : List (List Byte)) (s : State) :
    lines.foldl State.fillRow (s.give .none) = (lines.foldl State.fillLine s).give .none := by
  induction lines generalizing s with
  | nil => rfl
  | cons line lines ih =>
    rw [List.foldl_cons, List.foldl_cons, ← ih, State.fillRow, State.fillLine_give]
    rfl

/-- Settles O57: the rows of the lines are `FillPass` line by line, and what it leaves is within the counts. -/
theorem cheatFillWithinCounts : Obligations.CheatFillWithinCounts := by
  intro s text hfile after line u
  have hline : line = State.fillRow := by
    funext x l
    cases l with
    | nil => rfl
    | cons tag rest =>
      by_cases hN : tag = 0x4E
      · subst hN; rfl
      by_cases hM : tag = 0x4D
      · subst hM; rfl
      by_cases hZ : tag = 0x5A
      · subst hZ; rfl
      · simp only [line, if_neg hN, if_neg hM, if_neg hZ, State.fillRow, State.fillLine_untagged x hN hM hZ]
        rfl
  have hu : u = ((pokLines text).foldl State.fillLine s.cheatClose).give .none := by
    rw [← State.fillRows_eq, ← hline]
    rfl
  have hfilling := s.cheatClose_filling.fillLines (pokLines text)
  have hframe := State.fillLines_frame (pokLines text) s.cheatClose
  have hexec := exec_cheatLoad_present hfile
  rw [State.fillPass, State.fillEnd_eq] at hexec
  rw [Nat.zero_add, Nat.zero_add] at hfilling
  generalize (pokLines text).foldl State.fillLine s.cheatClose = filled at *
  obtain ⟨hcount, hstored⟩ := hfilling.flushed
  refine ⟨_, hexec, ?_, hcount, hfilling.pokeCount, fun c hc => ?_, hfilling.uncaptured⟩
  · rw [hu, hframe]
    rfl
  · obtain ⟨hpoke, hdisabled, hslice⟩ := hstored c hc
    exact ⟨hdisabled, hpoke, hslice⟩

end Sys2Proof.Machine
end

section
/-! SUPPORT. What `CHEAT_APPLY` and `CHEAT_FETCH` do a second time (R342 to R345), and the writes of the host (R341). -/

namespace Sys2Proof.Machine

/-! ### Applying -/

/-- Every write of `applyCheats()`, cheat by cheat and poke by poke: the place and the byte (R342, R343). -/
def State.cheatPlaces (s : State) : List ((Page × Nat) × Byte) :=
  (s.cheats.flatMap s.cheatWrites).map fun w => (s.pokePlace w.1, w.2)

theorem exec_cheatApply (s : State) : exec .cheatApply s = .next (s.applyCheats.give .none) := rfl

/-- A byte of RAM holds what the last write to it wrote, if any (R342). -/
theorem State.readPage_applyCheats (s : State) (b : BitVec 3) {o : Nat} (ho : o < 0x4000) :
    s.applyCheats.readPage (.ram b) o =
      match s.cheatPlaces.reverse.find? (fun w => w.1 == (Page.ram b, o)) with
      | some w => w.2
      | none => s.readPage (.ram b) o := by
  rw [s.applyCheats_eq]
  exact s.readPage_writeAll _ b ho

/-- The writes are those of the cheat arrays and the map, whatever memory holds. -/
theorem State.cheatPlaces_withMem (s : State) (m : List Host.Cell) (a : Answer) :
    ({ s with mem := m, answer := a }).cheatPlaces = s.cheatPlaces := rfl

/-- A second application writes the same bytes to the same places (R344). -/
theorem State.applyCheats_again (s : State) : SameMemory s.applyCheats (s.applyCheats.give .none).applyCheats := by
  intro p o ho
  have hframe : s.applyCheats.give .none = { s with mem := s.applyCheats.mem, answer := .none } := by
    rw [s.applyCheats_frame]; rfl
  cases p with
  | rom r => exact State.applyCheats_keepsRom _ r o ho
  | ram b =>
    rw [State.readPage_applyCheats _ b ho, hframe, s.cheatPlaces_withMem, ← hframe]
    cases hfind : s.cheatPlaces.reverse.find? (fun w => w.1 == (Page.ram b, o)) with
    | none => rfl
    | some w => rw [s.readPage_applyCheats b ho, hfind]

/-- Settles O59: the writes by the last one at each place, which a second application repeats. -/
theorem cheatApplyIdempotent : Obligations.CheatApplyIdempotent := by
  refine ⟨fun s => ⟨_, _, exec_cheatApply s, ?_, exec_cheatApply _, s.applyCheats_again⟩, fun s => ?_⟩
  · rw [s.applyCheats_frame]; rfl
  · intro place writes
    have hwrites : writes = s.cheatPlaces := by
      simp only [State.cheatPlaces, List.map_flatMap, State.cheatWrites, List.map_filterMap]
      refine congrArg s.cheats.flatMap (funext fun c => congrArg (fun write => (s.pokesOf c).filterMap write) ?_)
      funext p
      rw [apply_ite (Option.map _), apply_ite (Option.map _)]
      rfl
    refine ⟨_, exec_cheatApply s, fun b o ho => ?_, s.applyCheats_keepsRom⟩
    rw [hwrites]
    exact s.readPage_applyCheats b ho

/-! ### Fetching -/

/-- A poke captured from memory or from its file is left as it is (R345). -/
theorem State.fetchPoke_captured (s : State) {p : Poke} (h : ¬(p.origMem = false ∧ p.origFile = false)) :
    s.fetchPoke p = p := if_neg h

/-- After a fetch every poke is captured, whatever it was (R345). -/
theorem State.fetchPoke_captures (s : State) (p : Poke) :
    ¬((s.fetchPoke p).origMem = false ∧ (s.fetchPoke p).origFile = false) := by
  unfold State.fetchPoke
  split
  · exact fun h => nomatch h.1
  · next h => exact h

/-- Settles O60: what a fetch captures, and that a captured poke is not captured again. -/
theorem cheatFetchCapturesOnce : Obligations.CheatFetchCapturesOnce := by
  intro s live
  refine ⟨_, rfl, rfl, fun u hu => ?_⟩
  have hpokes : u.pokes.map u.fetchPoke = u.pokes := by
    rw [show u.pokes = s.pokes.map s.fetchPoke from hu, List.map_map]
    exact List.map_congr_left fun p _ => u.fetchPoke_captured (s.fetchPoke_captures p)
  show Host.Outcome.next (({ u with pokes := u.pokes.map u.fetchPoke }).give .none) = _
  rw [hpokes]
  rfl

/-! ### Host writes -/

theorem fetch_agenda_host {s : State} {a : HostAct} {rest : List AgendaItem} (ha : s.cfg.allocOk = true)
    (hc : s.cpu = none) (hg : s.agenda = .host a :: rest) : fetch s = .done (a.apply { s with agenda := rest }) := by
  unfold fetch; rw [if_neg (by simp [ha]), hc, hg]

/-- The host writes the enabled flag of a cheat, and of no other one (R341). -/
theorem State.enableCheat_getElem (s : State) (i : Nat) (b : Bool) {j : Nat} {c : Cheat} (h : s.cheats[j]? = some c) :
    (s.enableCheat i b).cheats[j]? = some (if j = i then { c with enabled := b } else c) := by
  simp only [State.enableCheat, List.getElem?_modify, h, @eq_comm _ j i]
  split <;> rfl

/-- The host writes the value of an input poke, and of no other one (R341). -/
theorem State.setPokeValue_getElem (s : State) (i : Nat) (v : Byte) {j : Nat} {p : Poke} (h : s.pokes[j]? = some p) :
    (s.setPokeValue i v).pokes[j]? = some (if j = i ∧ p.isInput = true then { p with value := v } else p) := by
  simp only [State.setPokeValue, List.getElem?_modify, h, ite_and, @eq_comm _ j i]
  split <;> rfl

/-- What no host write changes of the cheat arrays and the fill cursor (R341). -/
structure State.HostKeepsCheats (s t : State) : Prop where
  cheatCount : t.cheats.length = s.cheats.length
  pokeCount : t.pokes.length = s.pokes.length
  fill : t.fill = s.fill
  cheat : ∀ (j : Nat) (c : Cheat), s.cheats[j]? = some c → ∃ b, t.cheats[j]? = some { c with enabled := b }
  poke : ∀ (j : Nat) (p : Poke), s.pokes[j]? = some p →
    ∃ v, t.pokes[j]? = some { p with value := v } ∧ (p.isInput = false → v = p.value)

theorem State.HostKeepsCheats.of_kept {s t : State} (hcheats : t.cheats = s.cheats) (hpokes : t.pokes = s.pokes)
    (hfill : t.fill = s.fill) : s.HostKeepsCheats t where
  cheatCount := congrArg List.length hcheats
  pokeCount := congrArg List.length hpokes
  fill := hfill
  cheat _ c h := ⟨c.enabled, by rw [hcheats]; exact h⟩
  poke _ p h := ⟨p.value, by rw [hpokes]; exact h, fun _ => rfl⟩

theorem State.enableCheat_keepsCheats (s : State) (i : Nat) (b : Bool) : s.HostKeepsCheats (s.enableCheat i b) where
  cheatCount := List.length_modify ..
  pokeCount := rfl
  fill := rfl
  cheat j c h := by
    rw [s.enableCheat_getElem i b h]
    split
    · exact ⟨b, rfl⟩
    · exact ⟨c.enabled, rfl⟩
  poke _ p h := ⟨p.value, h, fun _ => rfl⟩

theorem State.setPokeValue_keepsCheats (s : State) (i : Nat) (v : Byte) : s.HostKeepsCheats (s.setPokeValue i v) where
  cheatCount := rfl
  pokeCount := List.length_modify ..
  fill := rfl
  cheat _ c h := ⟨c.enabled, h⟩
  poke j p h := by
    rw [s.setPokeValue_getElem i v h]
    split
    · next hinput => exact ⟨v, rfl, fun hno => nomatch hno.symm.trans hinput.2⟩
    · exact ⟨p.value, rfl, fun _ => rfl⟩

theorem HostAct.apply_keepsCheats (a : HostAct) (s : State) : s.HostKeepsCheats (a.apply s) := by
  cases a with
  | enableCheat i b => exact s.enableCheat_keepsCheats i b
  | pokeValue j v => exact s.setPokeValue_keepsCheats j v
  | setPort | setTrdos | present | answerOracle => exact .of_kept rfl rfl rfl

/-- Settles O41: each write by its form, and what every write keeps. -/
theorem hostWrites : Obligations.HostWrites := by
  intro s rest a ha hc hg u
  have hstep : step s = .next (a.apply u) := step_done (fetch_agenda_host ha hc hg)
  obtain ⟨hcheats, hpokes, hfill, hcheat, hpoke⟩ := a.apply_keepsCheats u
  refine ⟨?_, ?_, ?_, ?_, _, hstep, hcheats, hpokes, hfill, hcheat, hpoke⟩
  · rintro i v rfl
    exact hstep
  · rintro b rfl
    exact hstep
  · rintro i b rfl
    exact ⟨_, hstep, rfl, hcheats, fun j c h => u.enableCheat_getElem i b h⟩
  · rintro i v rfl
    exact ⟨_, hstep, rfl, hpokes, fun j p h => u.setPokeValue_getElem i v h⟩

end Sys2Proof.Machine
end

section
/-! SUPPORT. Which steps may clear the paging lock (R44, R395): `RESET`, the items of the Snapshot Codec, and a memory block
cut off by the end of its bytes, whose late failure leaves the lock any value (R362). -/

namespace Sys2Proof.Machine

theorem busInstr_agent (op : BusOp) : (busInstr op).agent = .cpu := by cases op <;> rfl

/-- An execution that clears the lock is `RESET` or of the Snapshot Codec (R204, R208, R210, R395). -/
theorem exec_clears_lock {i : Instr} {s t : State} (h : exec i s = .next t) (hlock : s.latches.pagingLock = true)
    (hclear : t.latches.pagingLock = false) : i = .reset ∨ i.agent = .snap := by
  by_contra hi
  obtain ⟨hreset, hsnap⟩ := not_or.mp hi
  have keeps := exec_keepsPaging hlock hsnap hreset
  rw [h] at keeps
  rw [keeps.latches, hlock] at hclear
  cases hclear

theorem exec_cpu_keeps_lock {i : Instr} {s t : State} (hi : i.agent = .cpu) (h : exec i s = .next t)
    (hlock : s.latches.pagingLock = true) : t.latches.pagingLock = true := by
  refine Bool.eq_true_of_not_eq_false fun hclear => ?_
  rcases exec_clears_lock h hlock hclear with rfl | hsnap
  · cases hi
  · exact nomatch hi.symm.trans hsnap

/-- A step that issues no instruction leaves the lock alone: the host writes `trdosPaged` and no other latch (R47). -/
theorem fetch_done_lock {s t : State} (h : fetch s = .done t) : t.latches.pagingLock = s.latches.pagingLock := by
  rcases fetch_done h with ⟨agenda, rfl⟩ | ⟨r, rfl⟩ | ⟨a, rest, -, -, rfl⟩ | ⟨rest, -, -, rfl⟩
  · rfl
  · rfl
  · cases a <;> rfl
  · rw [State.fillEnd_frame]

/-- Bytes that are no row of their channel clear the lock only where they are a memory block cut off by their end (log 41). -/
theorem OtherForm.clears_lock {ch : Channel} {s t : State} (h : OtherForm ch s t) (hlock : s.latches.pagingLock = true)
    (hclear : t.latches.pagingLock = false) : ch = .z80Block ∧ t.answer = .failure .truncated := by
  cases h with
  | port i w hi hw =>
    have hkept : w.latches.pagingLock = true := exec_cpu_keeps_lock hi hw hlock
    exact nomatch hclear.symm.trans hkept
  | answer a => exact nomatch hclear.symm.trans hlock
  | blocks _ bytes u hu =>
    rw [(loadZ80Blocks_frame bytes.length bytes s).1 u hu] at hclear
    exact nomatch hclear.symm.trans hlock
  | cutOff hch => exact ⟨hch, rfl⟩
  | lines _ bytes =>
    rw [State.fillLines_frame] at hclear
    exact nomatch hclear.symm.trans hlock

/-- Settles O34: by what a step that answers a next state can be. -/
theorem lockClearedOnlyByResetOrLoad : Obligations.LockClearedOnlyByResetOrLoad := by
  intro s t h hlock hclear
  rcases step_next h with hdone | ⟨i, u, w, hissued, hw, rfl⟩ | ⟨ch, bytes, rest, r, hc, hg, hd, ho⟩
  · exact nomatch hclear.symm.trans ((fetch_done_lock hdone).trans hlock)
  · rcases hissued with ⟨_, op, -, -, -, rfl, rfl⟩ | ⟨ch, bytes, rest, hc, hg, hd, rfl⟩
    · have hkept : w.latches.pagingLock = true := exec_cpu_keeps_lock (busInstr_agent op) hw hlock
      exact nomatch hclear.symm.trans hkept
    · exact ⟨ch, bytes, rest, hc, hg, .inl ⟨i, hd, exec_clears_lock hw hlock hclear⟩⟩
  · obtain ⟨hch, hanswer⟩ := ho.clears_lock hlock hclear
    exact ⟨ch, bytes, rest, hc, hg, .inr ⟨hch, ⟨r, hd⟩, hanswer⟩⟩

end Sys2Proof.Machine
end

section
/-! SUPPORT. An SP file loaded (R320 to R325): the state it leaves, written out once, from the state the load starts from. -/

namespace Sys2Proof.Machine

/-! ### The loaded state -/

/-- What an SP file leaves of the state the load starts from (R321 to R325, R349): the registers from their fields, the
blocks in memory, the latches cleared. -/
def State.spLoaded (s : State) (rom : Bool) (f : List Byte) : State :=
  { s with
    regs := spRegs f s.regs
    mem := (loadSpMemory rom f s).mem
    latches := Latches.reset
    map := mapOf s.cfg s.arch Latches.reset
    port254 := (s.port254 &&& 0xF8) ||| (fileByte f 34 &&& 0x07)
    events := s.events ++ [.borderChange s.tick ((fileByte f 34).extractLsb' 0 3)]
    cheats := []
    pokes := []
    fill := ⟨none, 0⟩
    failed := false
    answer := .loaded }

theorem State.spLoaded_stored (s : State) (rom : Bool) (f : List Byte) :
    (s.spLoaded rom f).stored = (loadSpMemory rom f s).stored := by cases rom <;> rfl

/-- Where the three blocks of an SP file start (R324, R325). -/
def spBlocks (rom : Bool) : Nat := if rom = true then 16422 else 38

/-- What the pages read once an SP file's blocks are in memory (R324, R325). -/
theorem readPage_loadSpMemory (s : State) {rom : Bool} {f : List Byte} (hf : spBlocks rom + 49152 ≤ f.length) (p : Page)
    {o : Nat} (ho : o < 0x4000) :
    (loadSpMemory rom f s).readPage p o =
      if p = .ram 5 then fileByte f (spBlocks rom + o)
      else if p = .ram 2 then fileByte f (spBlocks rom + 16384 + o)
      else if p = .ram 0 then fileByte f (spBlocks rom + 32768 + o)
      else if p = .rom 0 ∧ rom = true then fileByte f (38 + o)
      else s.readPage p o := by
  cases rom with
  | false =>
    simp only [Bool.false_eq_true, and_false, if_false]
    exact s.readPage_loadThree f 38 hf p ho
  | true =>
    have hf' : 38 + pageSize ≤ f.length := Nat.le_trans (by decide) hf
    have ho' : o < pageSize := ho
    have hrom : (s.loadPage (.rom 0) (slice f 38 pageSize)).readPage p o =
        if p = .rom 0 then fileByte f (38 + o) else s.readPage p o := by
      split
      · next hp =>
        subst hp
        rw [s.readPage_loadPage_self (by rwa [slice_length hf']) ho, slice_getElem ho' hf']
      · next hp => exact s.readPage_loadPage_ne _ ho hp
    have hblocks := (s.loadPage (.rom 0) (slice f 38 pageSize)).readPage_loadThree f 16422 hf p ho
    rw [hrom] at hblocks
    simp only [and_true]
    exact hblocks

/-! ### The load -/

/-- `LoadSpHeader()`, `LoadSpMemory()` and the end of the load (R320 to R325). -/
theorem finishLoad_sp (rom : Bool) (f : List Byte) (s : State) :
    finishLoad (spPart rom f s.cheatClose) = .next (s.spLoaded rom f) := by
  simp only [spPart, finishLoad_ok, loadSpHeader, State.setBorder, setWidth_low3]
  cases rom <;> rfl

/-- A file with the signature, a field pair and its size is the variant the pair names (R320). -/
theorem spKind_ok {rom : Bool} {f : List Byte} (hsign : fileByte f 0 = 0x53 ∧ fileByte f 1 = 0x50)
    (h : if rom = true then le16 f 2 = 0 ∧ le16 f 4 = 0 ∧ f.length = 65574
      else le16 f 2 = 49152 ∧ le16 f 4 = 16384 ∧ f.length = 49190) : spKind f = .ok rom := by
  cases rom with
  | true =>
    obtain ⟨h2, h4, hlen⟩ := h
    have hne : ¬(le16 f 2 = 49152 ∧ le16 f 4 = 16384) := fun hpair => absurd (h2.symm.trans hpair.1) (by decide)
    rw [spKind_signed (by omega) hsign, if_neg hne, if_pos ⟨h2, h4⟩, if_pos hlen]
  | false =>
    obtain ⟨h2, h4, hlen⟩ := h
    rw [spKind_signed (by omega) hsign, if_pos ⟨h2, h4⟩, if_pos hlen]

theorem exec_spRow {rom : Bool} {f : List Byte} (h : spKind f = .ok rom) (s : State) :
    exec (if rom = true then .spWithRom f else .spNoRom f) s = loadOn (spArch s) (spPart rom f) s := by
  have hrow : exec (if rom = true then .spWithRom f else .spNoRom f) s = loadSpAs rom f s := by cases rom <;> rfl
  simp only [hrow, loadSpAs, h, if_true]

theorem loadSpFile_kind {rom : Bool} {f : List Byte} (h : spKind f = .ok rom) (s : State) :
    loadSpFile f s = loadOn (spArch s) (spPart rom f) s := by
  rw [loadSpFile, h]

/-! ### The statement -/

/-- A bit of the low byte of a word is a bit of the word. -/
theorem bit_loByte (v : Word) {k : Nat} (hk : k < 8) : bit (loByte v) k = v.getLsbD k := by
  simp only [bit, loByte, BitVec.getLsbD_extractLsb', hk, decide_true, Bool.true_and, Nat.zero_add]

/-- Settles O55: the load's outcome, its parts read off the state it leaves. -/
theorem spLoad : Obligations.SpLoad := by
  intro rom f s h0 h1 hpair target htarget s1 st m
  have hkind := spKind_ok ⟨h0, h1⟩ hpair
  have hlen : spBlocks rom + 49152 ≤ f.length := by
    cases rom with
    | true => exact hpair.2.2.ge
    | false => exact hpair.2.2.ge
  have hload : loadOn (spArch s) (spPart rom f) s = .next (s1.spLoaded rom f) :=
    (loadOn_entered (spPart rom f) htarget).trans (finishLoad_sp rom f s1)
  have harch : s1.arch = target := s.entered_arch target
  clear_value s1
  refine ⟨s1.spLoaded rom f, (exec_spRow hkind s).trans hload,
    fun hfile => (exec_loadSp (.inl hfile)).trans ((loadSpFile_kind hkind s).trans hload), ?_, harch, rfl,
    fun p o ho => ?_⟩
  · simp only [State.spLoaded, spRegs, bit_loByte _ (show 0 < 8 by decide), bit_loByte _ (show 1 < 8 by decide),
      bit_loByte _ (show 2 < 8 by decide)]
    rfl
  · exact (State.readPage_of_stored (s1.spLoaded_stored rom f) p o).trans (readPage_loadSpMemory s1 hlen p ho)

end Sys2Proof.Machine
end

section
/-! SUPPORT. A Z80 file loaded (R280 to R291): the state it leaves, written out once for every version, from the state the
load starts from; then the memory image of version 1, and the latches and blocks of versions 2 and 3. -/

namespace Sys2Proof.Machine

/-! ### The loaded state -/

/-- What a Z80 file with interrupt mode `im` leaves of the state the load starts from, given the `PC`, the memory and the
latches its version loads (R283 to R286, R349). -/
def State.z80Loaded (s : State) (f : List Byte) (im : IntMode) (pc : Word) (mem : List Host.Cell) (l : Latches) : State :=
  { s with
    regs := { z80Regs f s.regs with im := im, pc := pc }
    mem := mem
    latches := l
    map := mapOf s.cfg s.arch l
    port254 := (s.port254 &&& 0xF8) ||| ((z80Flags f).extractLsb' 1 3).setWidth 8
    events := s.events ++ [.borderChange s.tick ((z80Flags f).extractLsb' 1 3)]
    cheats := []
    pokes := []
    fill := ⟨none, 0⟩
    failed := false
    answer := .loaded }

/-- The top bit of `R` comes from bit 0 of the flags byte (R283). -/
theorem z80Regs_r (f : List Byte) (r : Regs) :
    (z80Regs f r).r = (fileByte f 11 &&& 0x7F) ||| (if (z80Flags f).getLsbD 0 = true then (0x80 : Byte) else 0) := by
  show _ ||| bitByte ((z80Flags f).getLsbD 0) <<< 7 = _
  cases (z80Flags f).getLsbD 0 <;> rfl

/-- The Z80 header with an `IM` field the machine has (R283). -/
theorem loadZ80Header_ok {f : List Byte} {im : IntMode} (h : imOf (fileByte f 29) = some im) (s : State) :
    loadZ80Header f s =
      .ok (({ s with regs := { z80Regs f s.regs with im := im } }).setBorder ((z80Flags f).extractLsb' 1 3)) := by
  simp only [loadZ80Header, h]
  rfl

/-! ### Version 1 -/

/-- The memory image of a version 1 file: its raw body, or what its compressed body gives without the terminator (R284). -/
theorem z80V1Image_ok {f img : List Byte}
    (h : if (z80Flags f).getLsbD 5 = true then img = decompress (stripTerminator (f.drop 30)) 49152 else img = f.drop 30)
    (hlen : img.length = 49152) : z80V1Image f = .ok img := by
  by_cases hpacked : (z80Flags f).getLsbD 5 = true
  · obtain rfl := (if_pos hpacked).mp h
    exact (if_pos hpacked).trans (if_pos hlen)
  · obtain rfl := (if_neg hpacked).mp h
    exact (if_neg hpacked).trans (if_pos hlen)

theorem finishLoad_z80V1 {f img : List Byte} {im : IntMode} (him : imOf (fileByte f 29) = some im)
    (himg : z80V1Image f = .ok img) (s : State) :
    finishLoad (z80Part .v1 f s.cheatClose) =
      .next (s.z80Loaded f im (le16 f 6) (s.loadThree img 0).mem Latches.reset) := by
  simp only [z80Part, loadZ80Header_ok him, loadZ80V1, himg, finishLoad_ok]
  rfl

/-- Settles O48: the load's outcome, its parts read off the state it leaves. -/
theorem z80V1Load : Obligations.Z80V1Load := by
  intro f img s h30 hpc him fb body himg hlen target htarget s1
  obtain ⟨im, hsome, hbyte⟩ := imOf_some him
  rw [← stripTerminator_eq] at himg
  have hversion : z80Version f = .ok .v1 := if_pos hpc
  have harch : z80Arch .v1 f s = .ok target := rfl
  have hload : loadZ80At .v1 f s =
      .next (s1.z80Loaded f im (le16 f 6) (s1.loadThree img 0).mem Latches.reset) :=
    (loadZ80At_loads harch).trans ((loadOn_entered (z80Part .v1 f) htarget).trans
      (finishLoad_z80V1 hsome (z80V1Image_ok himg hlen) s1))
  have harch1 : s1.arch = target := s.entered_arch target
  clear_value s1
  refine ⟨_, im, (exec_z80Instr h30 hversion s).trans hload, fun hfile =>
    (exec_loadZ80 (.inl hfile)).trans ((loadZ80File_version h30 hversion s).trans hload), hbyte, ?_, harch1, rfl,
    fun p o ho => ?_⟩
  · simp only [State.z80Loaded, z80Regs_r]
    rfl
  · have hblocks := s1.readPage_loadThree img 0 (by omega) p ho
    simp only [Nat.zero_add] at hblocks
    exact (State.readPage_of_stored (s := s1.loadThree img 0) rfl p o).trans hblocks

/-! ### The latches of versions 2 and 3 -/

theorem z80ExtLatches_48 {arch : Arch} (h : arch.is48 = true) (f : List Byte) (l : Latches) :
    z80ExtLatches f arch l = ⟨0, false, 0, false, false, 0, false⟩ := if_pos h

theorem z80ExtLatches_trdos (f : List Byte) (arch : Arch) (l : Latches) :
    (z80ExtLatches f arch l).trdosPaged = false := by
  simp only [z80ExtLatches]
  split_ifs <;> rfl

/-- The first paging byte on the 128K class (R286). -/
theorem z80ExtLatches_pd7 {arch : Arch} (h : arch.is48 = false) (f : List Byte) (l : Latches) :
    (z80ExtLatches f arch l).bankLatch = (fileByte f 35).extractLsb' 0 3 ∧
    (z80ExtLatches f arch l).videoLatch = (fileByte f 35).getLsbD 3 ∧
    (z80ExtLatches f arch l).romLatch.getLsbD 0 = (fileByte f 35).getLsbD 4 ∧
    (z80ExtLatches f arch l).pagingLock = (fileByte f 35).getLsbD 5 := by
  simp only [z80ExtLatches, h, Bool.false_eq_true, if_false]
  by_cases h2A3 : arch = .plus2A
  · simp only [if_pos h2A3]
    exact ⟨rfl, rfl, (setRomHigh_low _ _).trans (setRomLow_low _ _ _), rfl⟩
  · simp only [if_neg h2A3]
    exact ⟨rfl, rfl, setRomLow_low _ _ _, rfl⟩

/-- The second paging byte on Plus2A: offset 86 of a file with the longest header, else 0 (R286). -/
theorem z80ExtLatches_pd1 {arch : Arch} (h : arch = .plus2A) (f : List Byte) (l : Latches) :
    let q := if z80ExtLen f = 55 then fileByte f 86 else 0
    (z80ExtLatches f arch l).pagingmode2A3 = q.getLsbD 0 ∧
    (z80ExtLatches f arch l).specialCfg2A3 = q.extractLsb' 1 2 ∧
    (z80ExtLatches f arch l).romLatch.getLsbD 1 = q.getLsbD 2 := by
  subst h
  exact ⟨rfl, rfl, setRomHigh_high _ _⟩

/-! ### The blocks of versions 2 and 3 -/

/-- Whole memory blocks loaded one after the other (R289, R290). -/
def State.loadZ80Pages (s : State) (blocks : List (Word × Byte × List Byte)) : State :=
  blocks.foldl (fun t b => loadZ80Page b.2.1 (z80BlockPage b) t) s

/-- The blocks land the same whatever the rest of the state. -/
theorem State.loadZ80Pages_mem_congr {s t : State} (hm : t.mem = s.mem) (hc : t.cfg = s.cfg) (ha : t.arch = s.arch)
    (blocks : List (Word × Byte × List Byte)) : (t.loadZ80Pages blocks).mem = (s.loadZ80Pages blocks).mem := by
  induction blocks generalizing s t with
  | nil => exact hm
  | cons b blocks ih =>
    refine ih (s := loadZ80Page b.2.1 (z80BlockPage b) s) (t := loadZ80Page b.2.1 (z80BlockPage b) t) ?_ ?_ ?_
    · simp only [loadZ80Page, hc, ha]
      split
      · exact congrArg (fun m => Memory.writeRun m _ _) hm
      · exact hm
    · rw [loadZ80Page_frame, loadZ80Page_frame _ _ s]; exact hc
    · rw [loadZ80Page_frame, loadZ80Page_frame _ _ s]; exact ha

theorem State.loadZ80Pages_keepsRom (s : State) (blocks : List (Word × Byte × List Byte)) :
    s.KeepsRom (s.loadZ80Pages blocks) :=
  List.foldlRecOn blocks _ (.refl s) fun t h b _ => h.trans (loadZ80Page_keepsRom b.2.1 (z80BlockPage b) t)

/-- A bank holds the last block that names it (R290). -/
theorem State.readPage_loadZ80Pages (s : State) {blocks : List (Word × Byte × List Byte)}
    (h : ∀ b ∈ blocks, (z80BlockPage b).length = 16384) (bank : BitVec 3) {o : Nat} (ho : o < 0x4000) :
    (s.loadZ80Pages blocks).readPage (.ram bank) o =
      match blocks.reverse.find? (fun e => z80PageMap s.cfg s.arch e.2.1 == some bank) with
      | some e => fileByte (z80BlockPage e) o
      | none => s.readPage (.ram bank) o := by
  have hnames (e : Word × Byte × List Byte) :
      ((z80PageMap s.cfg s.arch e.2.1).map Page.ram == some (Page.ram bank)) =
        (z80PageMap s.cfg s.arch e.2.1 == some bank) := by
    cases z80PageMap s.cfg s.arch e.2.1 with
    | none => rfl
    | some b =>
      rw [Option.map_some, Bool.eq_iff_iff, beq_iff_eq, beq_iff_eq, Option.some.injEq, Option.some.injEq, Page.ram.injEq]
  have hread := readPage_z80Pages blocks s h ho (.ram bank)
  simp only [hnames] at hread
  exact hread

/-- Every block has at least its header, so a file is fuel enough for its blocks (R289). -/
theorem length_le_z80BlockBytes (blocks : List (Word × Byte × List Byte)) :
    blocks.length ≤ (blocks.flatMap z80BlockBytes).length := by
  induction blocks with
  | nil => exact Nat.le_refl 0
  | cons b blocks ih =>
    rw [List.flatMap_cons, List.length_append, List.length_cons, z80BlockBytes, List.length_cons]
    omega

theorem State.loadZ80Pages_frame (s : State) (blocks : List (Word × Byte × List Byte)) :
    s.loadZ80Pages blocks = { s with mem := (s.loadZ80Pages blocks).mem } := z80Pages_frame blocks s

theorem State.z80Loaded_stored (s : State) (f : List Byte) (im : IntMode) (pc : Word) (l : Latches)
    (blocks : List (Word × Byte × List Byte)) :
    (s.z80Loaded f im pc (s.loadZ80Pages blocks).mem l).stored = (s.loadZ80Pages blocks).stored := by
  rw [State.loadZ80Pages_frame]
  rfl

/-! ### The load of versions 2 and 3 -/

/-- The state the blocks of a file are loaded into: both headers are read (R283, R286). -/
def State.z80Headed (s : State) (f : List Byte) (im : IntMode) : State :=
  { s with
    regs := { z80Regs f s.regs with im := im, pc := le16 f 32 }
    latches := z80ExtLatches f s.arch s.latches
    port254 := (s.port254 &&& 0xF8) ||| ((z80Flags f).extractLsb' 1 3).setWidth 8
    events := s.events ++ [.borderChange s.tick ((z80Flags f).extractLsb' 1 3)] }

theorem z80Part_headed {v : Z80Ver} {f : List Byte} {im : IntMode} (hv : v ≠ .v1) (him : imOf (fileByte f 29) = some im)
    (hext : 32 + z80ExtLen f ≤ f.length) (s : State) :
    z80Part v f s = loadZ80Blocks f.length (f.drop (32 + z80ExtLen f)) (s.z80Headed f im) := by
  cases v with
  | v1 => exact absurd rfl hv
  | v2 | v3 =>
    simp only [z80Part, loadZ80Header_ok him, loadZ80Ext, if_neg (Nat.not_lt.mpr hext)]
    rfl

theorem finishLoad_z80Blocks {v : Z80Ver} {f : List Byte} {im : IntMode} {blocks : List (Word × Byte × List Byte)}
    (hv : v ≠ .v1) (him : imOf (fileByte f 29) = some im) (hext : 32 + z80ExtLen f ≤ f.length)
    (hrest : f.drop (32 + z80ExtLen f) = blocks.flatMap z80BlockBytes)
    (hblocks : ∀ b ∈ blocks, b.2.2.length = blockDataLen b.1 ∧ (z80BlockPage b).length = 16384) (s : State) :
    finishLoad (z80Part v f s.cheatClose) =
      .next (s.z80Loaded f im (le16 f 32) (s.loadZ80Pages blocks).mem (z80ExtLatches f s.arch s.latches)) := by
  have hfuel : blocks.length ≤ f.length :=
    (length_le_z80BlockBytes blocks).trans (by rw [← hrest, List.length_drop]; exact Nat.sub_le _ _)
  have hwhole : z80Part v f s.cheatClose = .ok ((s.cheatClose.z80Headed f im).loadZ80Pages blocks) := by
    rw [z80Part_headed hv him hext, hrest]
    exact loadZ80Blocks_whole blocks f.length _ hfuel hblocks
  have hmem : ((s.cheatClose.z80Headed f im).loadZ80Pages blocks).mem = (s.loadZ80Pages blocks).mem :=
    State.loadZ80Pages_mem_congr (s := s) (t := s.cheatClose.z80Headed f im) rfl rfl rfl blocks
  rw [hwhole, State.loadZ80Pages_frame, hmem]
  rfl

theorem State.entered_cfg (s : State) (target : Arch) : (s.entered target).cfg = s.cfg := by
  unfold State.entered
  split <;> rfl

/-- Settles O49: the load's outcome, its parts read off the state it leaves. -/
theorem z80BlocksLoad : Obligations.Z80BlocksLoad := by
  intro v f s target blocks hv h30 hversion harch him ext pageOf hext hrest hblocks htarget s1 fb
  obtain ⟨im, hsome, hbyte⟩ := imOf_some him
  have hload : loadZ80At v f s = .next (s1.z80Loaded f im (le16 f 32) (s1.loadZ80Pages blocks).mem
      (z80ExtLatches f s1.arch s1.latches)) :=
    (loadZ80At_loads harch).trans ((loadOn_entered (z80Part v f) htarget).trans
      (finishLoad_z80Blocks hv hsome hext hrest hblocks s1))
  have harch1 : s1.arch = target := s.entered_arch target
  have hcfg1 : s1.cfg = s.cfg := s.entered_cfg target
  clear_value s1
  subst harch1
  refine ⟨_, im, (exec_z80Instr h30 hversion s).trans hload, fun hfile =>
    (exec_loadZ80 (.inl hfile)).trans ((loadZ80File_version h30 hversion s).trans hload), hbyte, ?_, rfl, rfl,
    z80ExtLatches_trdos f _ _, fun h48 => z80ExtLatches_48 h48 f _, fun h128 => z80ExtLatches_pd7 h128 f _,
    fun h2A3 => z80ExtLatches_pd1 h2A3 f _, fun b o ho => ?_, fun r o ho => ?_⟩
  · simp only [State.z80Loaded, z80Regs_r]
    rfl
  · rw [← hcfg1]
    exact (State.readPage_of_stored (s1.z80Loaded_stored f im _ _ blocks) _ o).trans
      (s1.readPage_loadZ80Pages (fun b hb => (hblocks b hb).2) b ho)
  · exact (State.readPage_of_stored (s1.z80Loaded_stored f im _ _ blocks) _ o).trans
      (s1.loadZ80Pages_keepsRom blocks r o ho)

end Sys2Proof.Machine
end

section
/-! SUPPORT. A 128K-class SNA file loaded (R251 to R260): the state it leaves, from the state the load starts from; the part
the +2A trailer adds is told apart by the variant. -/

namespace Sys2Proof.Machine

/-! ### The loaded state -/

/-- The latches a 128K-class file leaves: the tail's, and those of the trailer where there is one (R258, R260). -/
def sna128FileLatches (v : SnaVariant) (f : List Byte) (arch : Arch) (l : Latches) : Latches :=
  let tail := sna128Latches arch l (fileByte f 49181) (fileByte f 49182)
  if v.hasTrailer = true then pd1Latches tail (fileByte f (f.length - 18)) else tail

/-- The AY image a 128K-class file leaves: the trailer's where there is one (R260). -/
def sna128FileAy (v : SnaVariant) (f : List Byte) (ay : Ay) : Ay :=
  if v.hasTrailer = true then
    ⟨fileByte f (f.length - 17), Vector.ofFn fun i : Fin 16 => fileByte f (f.length - 16 + i.val)⟩
  else ay

/-- What a 128K-class SNA file with interrupt mode `im` leaves of the state the load starts from, its blocks in memory
(R255 to R260, R349). -/
def State.sna128Loaded (s : State) (v : SnaVariant) (f : List Byte) (im : IntMode) (mem : List Host.Cell) : State :=
  { s with
    regs := { snaRegs f s.regs with im := im, pc := le16 f 49179 }
    mem := mem
    latches := sna128FileLatches v f s.arch s.latches
    map := mapOf s.cfg s.arch (sna128FileLatches v f s.arch s.latches)
    ay := sna128FileAy v f s.ay
    port254 := (s.port254 &&& 0xF8) ||| (fileByte f 26 &&& 0x07)
    events := s.events ++ [.borderChange s.tick ((fileByte f 26).extractLsb' 0 3)]
    cheats := []
    pokes := []
    fill := ⟨none, 0⟩
    failed := false
    answer := .loaded }

/-- Where the blocks of a 128K-class file are: the third one in the current bank, the first two in banks 5 and 2 unless one
of these is current, the remaining banks in ascending order; ROM as the load found it (R257, R259). -/
def State.HoldsSna128 (s t : State) (f : List Byte) : Prop :=
  let cur := (fileByte f 49181).extractLsb' 0 3
  ∀ o, o < 0x4000 →
    t.readPage (.ram cur) o = fileByte f (32795 + o) ∧
    (cur ≠ 5 → t.readPage (.ram 5) o = fileByte f (27 + o)) ∧
    (cur ≠ 2 → t.readPage (.ram 2) o = fileByte f (16411 + o)) ∧
    (∀ b k, (remainingBanks cur)[k]? = some b → t.readPage (.ram b) o = fileByte f (49183 + 16384 * k + o)) ∧
    (∀ r, t.readPage (.rom r) o = s.readPage (.rom r) o)

/-! ### The latches and the AY image -/

theorem SnaVariant.hasTrailer_iff (v : SnaVariant) : v.hasTrailer = true ↔ v = .s2A3a ∨ v = .s2A3b := by
  cases v <;> decide

/-- The paging byte and the TR-DOS flag of the tail, which no trailer overwrites (R258). -/
theorem sna128FileLatches_tail (v : SnaVariant) (f : List Byte) (arch : Arch) (l : Latches) :
    (sna128FileLatches v f arch l).bankLatch = (fileByte f 49181).extractLsb' 0 3 ∧
    (sna128FileLatches v f arch l).videoLatch = (fileByte f 49181).getLsbD 3 ∧
    (sna128FileLatches v f arch l).romLatch.getLsbD 0 = (fileByte f 49181).getLsbD 4 ∧
    (sna128FileLatches v f arch l).pagingLock = (fileByte f 49181).getLsbD 5 ∧
    ((sna128FileLatches v f arch l).trdosPaged = true ↔ fileByte f 49182 ≠ 0) := by
  unfold sna128FileLatches
  cases v.hasTrailer with
  | false => exact ⟨rfl, rfl, setRomLow_low _ _ _, rfl, bne_iff_ne⟩
  | true => exact ⟨rfl, rfl, (setRomHigh_low _ _).trans (setRomLow_low _ _ _), rfl, bne_iff_ne⟩

/-- The second paging byte and the AY image of a trailer (R260). -/
theorem sna128File_trailer {v : SnaVariant} (h : v.hasTrailer = true) (f : List Byte) (arch : Arch) (l : Latches) (ay : Ay) :
    (sna128FileLatches v f arch l).pagingmode2A3 = (fileByte f (f.length - 18)).getLsbD 0 ∧
    (sna128FileLatches v f arch l).specialCfg2A3 = (fileByte f (f.length - 18)).extractLsb' 1 2 ∧
    (sna128FileLatches v f arch l).romLatch.getLsbD 1 = (fileByte f (f.length - 18)).getLsbD 2 ∧
    (sna128FileAy v f ay).sel = fileByte f (f.length - 17) ∧
    ∀ k : Fin 16, (sna128FileAy v f ay).reg.get k = fileByte f (f.length - 16 + k.val) := by
  rw [sna128FileLatches, sna128FileAy, if_pos h, if_pos h]
  exact ⟨rfl, rfl, setRomHigh_high _ _, rfl, fun k => Vector.get_ofFn _ k⟩

/-- Without a trailer the +2A latches and the AY image stay (R258). -/
theorem sna128File_no_trailer {v : SnaVariant} (h : ¬v.hasTrailer = true) (f : List Byte) (arch : Arch) (l : Latches)
    (ay : Ay) :
    sna128FileAy v f ay = ay ∧ (sna128FileLatches v f arch l).pagingmode2A3 = l.pagingmode2A3 ∧
    (sna128FileLatches v f arch l).specialCfg2A3 = l.specialCfg2A3 := by
  rw [sna128FileLatches, sna128FileAy, if_neg h, if_neg h]
  exact ⟨rfl, rfl, rfl⟩

/-! ### The load -/

/-- The state a file's tail is loaded into: the header is read (R255). -/
def State.snaHeaded (s : State) (f : List Byte) (im : IntMode) : State :=
  { s with
    regs := { snaRegs f s.regs with im := im }
    port254 := (s.port254 &&& 0xF8) ||| (fileByte f 26 &&& 0x07)
    events := s.events ++ [.borderChange s.tick ((fileByte f 26).extractLsb' 0 3)] }

theorem loadSnaHeader_headed {f : List Byte} {im : IntMode} (h : imOf (fileByte f 25) = some im) (s : State) :
    loadSnaHeader f s = .ok (s.snaHeaded f im) := by
  rw [loadSnaHeader_ok h, State.setBorder, setWidth_low3]
  rfl

/-- `LoadSnaHeader()`, `LoadSna128()`, the trailer and the end of the load (R255, R257 to R260). -/
theorem finishLoad_sna128 {v : SnaVariant} {f : List Byte} {im : IntMode} (hv : v ≠ .s48) (hlen : f.length = v.size)
    (him : imOf (fileByte f 25) = some im)
    (hsize : v = .s128a ∨ v = .s2A3a ↔
      (fileByte f 49181).extractLsb' 0 3 ≠ 2 ∧ (fileByte f 49181).extractLsb' 0 3 ≠ 5) (s : State) :
    ∃ mem, finishLoad (snaPart v f s.cheatClose) = .next (s.sna128Loaded v f im mem) ∧
      s.HoldsSna128 (s.sna128Loaded v f im mem) f := by
  obtain ⟨mem, htail, hholds⟩ := loadSna128_ok v f (s.cheatClose.snaHeaded f im) hv hlen hsize
  refine ⟨mem, ?_, hholds (s.sna128Loaded v f im mem) rfl rfl rfl rfl⟩
  cases v with
  | s48 => exact absurd rfl hv
  | s128a | s128b | s2A3a | s2A3b =>
    simp only [snaPart, loadSnaHeader_headed him, htail]
    rfl

/-- The architecture a 128K-class file loads on (R252). -/
theorem snaArch_128 {v : SnaVariant} (hv : v ≠ .s48) (s : State) :
    snaArch v s =
      if v = .s2A3a ∨ v = .s2A3b then .plus2A
      else if s.arch = .spec128 ∨ s.arch = .pentagon then s.arch
      else if s.cfg.snaPrefers = .spec128 then .spec128 else .pentagon := by
  cases v with
  | s48 => exact absurd rfl hv
  | s128a | s128b =>
    unfold snaArch
    cases s.cfg.snaPrefers <;> rfl
  | s2A3a | s2A3b => rfl

/-- Settles O44: the load's outcome, its parts read off the state it leaves. -/
theorem sna128Load : Obligations.Sna128Load := by
  intro v f s hv hlen him pb cur two target n q s1 i hsize htarget
  obtain ⟨im, hsome, hbyte⟩ := imOf_some him
  have harch : snaArch v s = target := snaArch_128 hv s
  have harch1 : s1.arch = target := s.entered_arch target
  obtain ⟨mem, hfinish, hholds⟩ := finishLoad_sna128 hv hlen hsome hsize s1
  have hload : loadOn (snaArch v s) (snaPart v f) s = .next (s1.sna128Loaded v f im mem) := by
    rw [harch]
    exact (loadOn_entered (snaPart v f) htarget).trans hfinish
  clear_value s1
  obtain ⟨hbank, hvideo, hrom, hlock, htrdos⟩ := sna128FileLatches_tail v f s1.arch s1.latches
  refine ⟨_, im, (exec_snaInstr hlen s).trans hload,
    fun hfile => (exec_loadSna (.inl hfile)).trans ((loadSnaFile_sized hlen s).trans hload), hbyte, rfl, harch1, hbank, hvideo,
    hrom, hlock, htrdos, fun h => ?_, fun h => ?_, rfl, hholds⟩
  · exact sna128File_trailer (v.hasTrailer_iff.mpr h) f s1.arch s1.latches s1.ay
  · exact sna128File_no_trailer (mt v.hasTrailer_iff.mp h) f s1.arch s1.latches s1.ay

end Sys2Proof.Machine
end
